-- ==== Sys2Proof/Word.lean ====
section
/-! DEFINITION. The word types of the Milior 9400 (R25, R65, R173, R213, R215). Only the types stand here; every
helper that computes on them stands in Machine/, where a repair may reach it. -/
namespace Sys2Proof

/-- A 64-bit word: X and A registers, CSRs, route words, virtual addresses (R173). -/
abbrev Word := BitVec 64
/-- The smallest addressable unit (R4). -/
abbrev Byte := BitVec 8
/-- One 32-bit slot of a bundle (R65). -/
abbrev SlotWord := BitVec 32
/-- The 4,096-byte image of a vector register (R213): byte b is bits 8b+7 to 8b. -/
abbrev VImg := BitVec 32768
/-- A mask register of 16 rows of 64 bits (R215): mask bit (r, c) is bit 64r + c. -/
abbrev KMask := BitVec 1024

end Sys2Proof
end

