-- ==== Sys2Proof/Syntax.lean ====
section
/-! DEFINITION. The steps of the machine as ONE inductive: the 176 slot instructions of the four opcode maps
(R86 to R89), each with the fields of its encoding, and the 97 operations and events that the spec's table lists
beside them, each with what it needs to name its object. -/
namespace Sys2Proof

/-- One 64-byte flit with its header (R392). `crc` is the header's CRC field as received. -/
structure Flit where
  route    : BitVec 64
  due      : BitVec 32
  srcPkg   : BitVec 10
  srcCore  : BitVec 8
  func     : BitVec 5
  isBeacon : Bool
  trailer  : Bool
  rseq     : BitVec 16
  crc      : BitVec 16
  payload  : BitVec 512
  /-- part of an output image that a trailer will follow (R400): what the sending port frames, beside the header -/
  image    : Bool
  /-- its place in its image or chunk, from 0 (log 159); the generation of the sender's context tag, inside the package (R117); and
  the port it came in at, as this package notes it: 46 for none -/
  part     : Nat
  gen      : BitVec 3
  port     : Nat
deriving DecidableEq, Repr

/-- What the FEC of a port finds of a flit's codeword (R392, R404, R408): no error, errors that it corrected, or more than it can. -/
inductive Fec where
  | clean | corrected | failed
deriving DecidableEq, Repr

/-- A port that leaves TIMED, with the lanes it goes on with (R399, R408). -/
structure LaneLoss where
  port  : Fin 46
  lanes : Fin 9
deriving DecidableEq, Repr

/-- The contents of a beacon (R392, R394): the sender's bell CYC, its DRIFTOFS, its calibrated state and its package. -/
structure Beacon where
  cyc      : BitVec 64
  driftOfs : BitVec 64
  calib    : Bool
  srcPkg   : BitVec 10
deriving DecidableEq, Repr

/-- A complete chunk at its receiving entry (R415, R416). -/
structure Chunk where
  core    : Fin 256
  entry   : Fin 16
  srcPkg  : Nat
  srcCore : Nat
  srcEntry : Nat
  inst    : Nat
  ofs     : Nat
  op      : BitVec 8
  step    : Nat
  redo    : Bool
  /-- the function it is for (R401), the generation of the sender's context tag inside the package (R117), and the port it came in at: 46
  for none -/
  func    : Nat
  gen     : BitVec 3
  port    : Nat
  data    : List (BitVec 8)
deriving DecidableEq, Repr

/-- What a PCIe configuration request asks (R451, R464): whether a function shows a capability, the TotalVFs, whether a BAR is a 64-bit
memory BAR, and its size; a read at another place; or a write of SR-IOV's VF Enable and NumVFs (R115). -/
inductive CfgReq where
  | dvsec | hdm | doe | sriov | flr
  | totalVfs
  | bar64 (two : Bool)
  | barSize (two : Bool)
  | other (reg : BitVec 12)
  | setVfs (enable : Bool) (n : BitVec 16)
deriving DecidableEq, Repr

/-- A host access: CXL.mem to device memory through the HDM decoder (R388), to a submission window (R452), or a read of a register of a
function's BAR0 (R8, R453, R456). -/
inductive HostAccess where
  | read   (pa n : Nat)
  | write  (pa : Nat) (bytes : List (BitVec 8))
  | readWindow  (f : Fin 17) (off n : Nat)
  | writeWindow (f : Fin 17) (off : Nat) (bytes : List (BitVec 8))
  | readRegister (f : Fin 17) (off : Nat)
deriving DecidableEq, Repr

/-- The two transports of an SPDM request (R463). -/
inductive Transport where
  | doe | mctp
deriving DecidableEq, Repr

/-- The steps of the machine, one constructor per row of the opcode table. -/
inductive Instr where
  /-- R68, NOP: Opcode 0x00 with all other bits zero in any position; no effect and occupies no pipe. -/
  | nop
  /-- R195, BR: Transfers control to the bundle at a signed bundle offset after two delay bundles. -/
  | br (g : BitVec 3) (o : BitVec 23)
  /-- R196, BRX: Transfers control to the address in Xa after two delay bundles, and with .l also writes X30. -/
  | brx (g : BitVec 3) (a : BitVec 5) (l : BitVec 1)
  /-- R195, CALL: Branches by offset like BR and writes the return address to X30. -/
  | call (g : BitVec 3) (o : BitVec 23)
  /-- R196, RET: Transfers control to the address in X30 after two delay bundles. -/
  | ret (g : BitVec 3)
  /-- R188, LOOP: Enters a hardware loop whose trip count is read from Xa. -/
  | loop (g : BitVec 3) (e : BitVec 1) (r : BitVec 2) (s : BitVec 2) (a : BitVec 5) (n : BitVec 13)
  /-- R188, LOOPI: Enters a hardware loop whose trip count is an immediate. -/
  | loopi (g : BitVec 3) (e : BitVec 1) (r : BitVec 2) (s : BitVec 2) (c : BitVec 10) (n : BitVec 8)
  /-- R198, LBRK: Sets LAST of the innermost active loop so that its next end test exits. -/
  | lbrk (g : BitVec 3)
  /-- R199, WAIT: Delays the strand's next bundle by Xs + n cycles. -/
  | wait (g : BitVec 3) (s : BitVec 5) (n : BitVec 18)
  /-- R170, REALIGN: Waits to the next bell, holding TT in a TIMED group, and writes the bell CYC to Xd. -/
  | realign (g : BitVec 3) (d : BitVec 5)
  /-- R170, REALIGN_P: Acts as REALIGN, and stops the strand for the group's save when PRE is 1. -/
  | realignP (g : BitVec 3) (d : BitVec 5)
  /-- R171, REALIGN_JOIN: Joins this PACKAGE-level TIMED group with parts on other packages that present the same join word. -/
  | realignJoin (g : BitVec 3) (d : BitVec 5) (a : BitVec 5)
  /-- R200, CSRR: Reads a CSR into Xd. -/
  | csrr (g : BitVec 3) (d : BitVec 5) (c : BitVec 12)
  /-- R200, CSRW: Returns a CSR's old value and writes Xa or an immediate to it at issue + 2. -/
  | csrw (g : BitVec 3) (d : BitVec 5) (a : BitVec 5) (i : BitVec 1) (c : BitVec 12)
  /-- R200, CSRS: Returns a CSR's old value and sets the given bits at issue + 2. -/
  | csrs (g : BitVec 3) (d : BitVec 5) (a : BitVec 5) (i : BitVec 1) (c : BitVec 12)
  /-- R200, CSRC: Returns a CSR's old value and clears the given bits at issue + 2. -/
  | csrc (g : BitVec 3) (d : BitVec 5) (a : BitVec 5) (i : BitVec 1) (c : BitVec 12)
  /-- R386, FENCE: Delays the next bundle until the strand's earlier accesses within the scope have performed or returned. -/
  | fence (g : BitVec 3) (s : BitVec 4) (k : BitVec 2)
  /-- R149, LAUNCH: Submits a 128-byte launch record from SPM into queue q and later returns its sequence number. -/
  | launch (g : BitVec 3) (d : BitVec 5) (a : BitVec 4) (q : BitVec 6)
  /-- R150, EXIT: Ends the executing strand after its bundle. -/
  | exit (g : BitVec 3)
  /-- R201, YIELD: Offers the core to the other strands of a PACED group. -/
  | yield (g : BitVec 3)
  /-- R437, TRAP: Raises SWTRAP with code n at issue + 1. -/
  | trap (g : BitVec 3) (n : BitVec 8)
  /-- R439, RFT: Returns from a trap and resumes at NPC, replaying the flight-save entries. -/
  | rft (g : BitVec 3)
  /-- R439, RFT_REPLAY: Returns from a trap, re-issuing the faulting slot alone before resuming at NPC. -/
  | rftReplay (g : BitVec 3)
  /-- R440, RFT_FAULT: Ends the kernel FAULTED and writes the fault record from the trap record. -/
  | rftFault (g : BitVec 3)
  /-- R357, CKPT: Sets a checkpoint mark with a new log area at the next bell and returns the epoch digest. -/
  | ckpt (g : BitVec 3) (d : BitVec 5) (a : BitVec 5) (b : BitVec 5)
  /-- R357, CKPT_OFF: Disarms the checkpoint at the next bell and returns the epoch digest. -/
  | ckptOff (g : BitVec 3) (d : BitVec 5)
  /-- R410, DRIFT: Steps the package's CYC by +1 or -1 after the next bell, at FIRM only. -/
  | drift (g : BitVec 3) (d : BitVec 5) (s : BitVec 1)
  /-- R172, CYCR: Reads CYC, TT, the next bell or SLIP into Xd. -/
  | cycr (g : BitVec 3) (d : BitVec 5) (s : BitVec 2)
  /-- R202, STRS: Reads the states of the core's strands into Xd. -/
  | strs (g : BitVec 3) (d : BitVec 5)
  /-- R203, ADD: Xd := a + b modulo 2^64. -/
  | add (g : BitVec 3) (d : BitVec 5) (a : BitVec 5) (b : BitVec 5) (l : BitVec 1) (w : BitVec 3)
  /-- R203, SUB: Xd := a - b modulo 2^64. -/
  | sub (g : BitVec 3) (d : BitVec 5) (a : BitVec 5) (b : BitVec 5) (l : BitVec 1) (w : BitVec 3)
  /-- R203, MUL: Xd := the low 64 bits of a × b. -/
  | mul (g : BitVec 3) (d : BitVec 5) (a : BitVec 5) (b : BitVec 5) (l : BitVec 1) (w : BitVec 3)
  /-- R203, MULH: Xd := the high 64 bits of the signed product. -/
  | mulh (g : BitVec 3) (d : BitVec 5) (a : BitVec 5) (b : BitVec 5) (l : BitVec 1) (w : BitVec 3)
  /-- R203, MULHN: Xd := the high 64 bits of the unsigned product. -/
  | mulhn (g : BitVec 3) (d : BitVec 5) (a : BitVec 5) (b : BitVec 5) (l : BitVec 1) (w : BitVec 3)
  /-- R204, DIV: Signed division that truncates toward zero and never traps. -/
  | div (g : BitVec 3) (d : BitVec 5) (a : BitVec 5) (b : BitVec 5) (l : BitVec 1) (w : BitVec 3)
  /-- R204, DIVN: Unsigned division that never traps. -/
  | divn (g : BitVec 3) (d : BitVec 5) (a : BitVec 5) (b : BitVec 5) (l : BitVec 1) (w : BitVec 3)
  /-- R204, REM: Signed remainder that takes the sign of a. -/
  | rem (g : BitVec 3) (d : BitVec 5) (a : BitVec 5) (b : BitVec 5) (l : BitVec 1) (w : BitVec 3)
  /-- R204, REMN: Unsigned remainder. -/
  | remn (g : BitVec 3) (d : BitVec 5) (a : BitVec 5) (b : BitVec 5) (l : BitVec 1) (w : BitVec 3)
  /-- R203, AND: Xd := a AND b. -/
  | and (g : BitVec 3) (d : BitVec 5) (a : BitVec 5) (b : BitVec 5) (l : BitVec 1) (w : BitVec 3)
  /-- R203, OR: Xd := a OR b. -/
  | or (g : BitVec 3) (d : BitVec 5) (a : BitVec 5) (b : BitVec 5) (l : BitVec 1) (w : BitVec 3)
  /-- R203, XOR: Xd := a XOR b. -/
  | xor (g : BitVec 3) (d : BitVec 5) (a : BitVec 5) (b : BitVec 5) (l : BitVec 1) (w : BitVec 3)
  /-- R203, SHL: Shifts left by b, giving 0 when b is 64 or more. -/
  | shl (g : BitVec 3) (d : BitVec 5) (a : BitVec 5) (b : BitVec 5) (l : BitVec 1) (w : BitVec 3)
  /-- R203, SHR: Logical right shift by b. -/
  | shr (g : BitVec 3) (d : BitVec 5) (a : BitVec 5) (b : BitVec 5) (l : BitVec 1) (w : BitVec 3)
  /-- R203, SAR: Arithmetic right shift by b. -/
  | sar (g : BitVec 3) (d : BitVec 5) (a : BitVec 5) (b : BitVec 5) (l : BitVec 1) (w : BitVec 3)
  /-- R203, MIN: Signed minimum. -/
  | min (g : BitVec 3) (d : BitVec 5) (a : BitVec 5) (b : BitVec 5) (l : BitVec 1) (w : BitVec 3)
  /-- R203, MAX: Signed maximum. -/
  | max (g : BitVec 3) (d : BitVec 5) (a : BitVec 5) (b : BitVec 5) (l : BitVec 1) (w : BitVec 3)
  /-- R203, MINN: Unsigned minimum. -/
  | minn (g : BitVec 3) (d : BitVec 5) (a : BitVec 5) (b : BitVec 5) (l : BitVec 1) (w : BitVec 3)
  /-- R203, MAXN: Unsigned maximum. -/
  | maxn (g : BitVec 3) (d : BitVec 5) (a : BitVec 5) (b : BitVec 5) (l : BitVec 1) (w : BitVec 3)
  /-- R205, ADDI: Xd := Xa + sign-extended immediate. -/
  | addi (g : BitVec 3) (d : BitVec 5) (a : BitVec 5) (i : BitVec 13)
  /-- R205, ANDI: Xd := Xa AND sign-extended immediate. -/
  | andi (g : BitVec 3) (d : BitVec 5) (a : BitVec 5) (i : BitVec 13)
  /-- R205, ORI: Xd := Xa OR sign-extended immediate. -/
  | ori (g : BitVec 3) (d : BitVec 5) (a : BitVec 5) (i : BitVec 13)
  /-- R205, XORI: Xd := Xa XOR sign-extended immediate. -/
  | xori (g : BitVec 3) (d : BitVec 5) (a : BitVec 5) (i : BitVec 13)
  /-- R205, SHLI: Shifts left by an immediate from 0 to 63. -/
  | shli (g : BitVec 3) (d : BitVec 5) (a : BitVec 5) (i : BitVec 13)
  /-- R205, SHRI: Logical right shift by an immediate. -/
  | shri (g : BitVec 3) (d : BitVec 5) (a : BitVec 5) (i : BitVec 13)
  /-- R205, SARI: Arithmetic right shift by an immediate. -/
  | sari (g : BitVec 3) (d : BitVec 5) (a : BitVec 5) (i : BitVec 13)
  /-- R206, LOP3: Three-input bitwise function of Xd, Xa and Xb given by a truth table. -/
  | lop3 (g : BitVec 3) (d : BitVec 5) (a : BitVec 5) (b : BitVec 5) (l : BitVec 8)
  /-- R206, FSHL: Funnel shift left of Xa:Xb. -/
  | fshl (g : BitVec 3) (d : BitVec 5) (a : BitVec 5) (b : BitVec 5) (s : BitVec 6)
  /-- R206, FSHR: Funnel shift right of Xa:Xb. -/
  | fshr (g : BitVec 3) (d : BitVec 5) (a : BitVec 5) (b : BitVec 5) (s : BitVec 6)
  /-- R207, CLZ: Counts the leading zero bits of Xa. -/
  | clz (g : BitVec 3) (d : BitVec 5) (a : BitVec 5)
  /-- R207, POPC: Counts the one bits of Xa. -/
  | popc (g : BitVec 3) (d : BitVec 5) (a : BitVec 5)
  /-- R207, SEL: Selects Xa or Xb by predicate Pc. -/
  | sel (g : BitVec 3) (d : BitVec 5) (a : BitVec 5) (b : BitVec 5) (l : BitVec 1) (w : BitVec 3) (c : BitVec 3)
  /-- R208, MOVI: Loads a sign-extended immediate into Xd. -/
  | movi (g : BitVec 3) (d : BitVec 5) (i : BitVec 18)
  /-- R208, MOVHI: Places an immediate above bit 17 of Xd and keeps Xd's low 18 bits. -/
  | movhi (g : BitVec 3) (d : BitVec 5) (i : BitVec 18)
  /-- R209, CMP: Compares Xa with a second source and writes predicate Pd. -/
  | cmp (g : BitVec 3) (d : BitVec 3) (a : BitVec 5) (b : BitVec 5) (l : BitVec 1) (w : BitVec 3) (c : BitVec 4)
  /-- R209, CMPI: Compares Xa with an immediate and writes predicate Pd. -/
  | cmpi (g : BitVec 3) (d : BitVec 3) (a : BitVec 5) (c : BitVec 3) (i : BitVec 10)
  /-- R209, PLOG: Combines two predicates through a truth table. -/
  | plog (g : BitVec 3) (d : BitVec 3) (a : BitVec 3) (b : BitVec 3) (l : BitVec 4)
  /-- R210, AADD: Ad := Aa + b modulo 2^64. -/
  | aadd (g : BitVec 3) (d : BitVec 4) (a : BitVec 4) (b : BitVec 5) (l : BitVec 1) (w : BitVec 3)
  /-- R210, AADDI: Ad := Aa + sign-extended immediate. -/
  | aaddi (g : BitVec 3) (d : BitVec 4) (a : BitVec 4) (i : BitVec 13)
  /-- R210, AMOV_TO_A: Copies Xa into Ad. -/
  | amovToA (g : BitVec 3) (d : BitVec 4) (a : BitVec 5)
  /-- R210, AMOV_TO_X: Copies Aa into Xd. -/
  | amovToX (g : BitVec 3) (d : BitVec 5) (a : BitVec 4)
  /-- R211, LD: Loads 1, 2, 4 or 8 bytes from SPM into Xd. -/
  | ld (g : BitVec 3) (d : BitVec 5) (a : BitVec 4) (w : BitVec 2) (s : BitVec 1) (o : BitVec 10)
  /-- R211, ST: Stores 1, 2, 4 or 8 bytes of Xd to SPM. -/
  | st (g : BitVec 3) (d : BitVec 5) (a : BitVec 4) (w : BitVec 2) (o : BitVec 10)
  /-- R211, LDA: Loads 8 bytes from SPM into Ad. -/
  | lda (g : BitVec 3) (d : BitVec 4) (a : BitVec 4) (o : BitVec 10)
  /-- R211, STA: Stores Ad as 8 bytes to SPM. -/
  | sta (g : BitVec 3) (d : BitVec 4) (a : BitVec 4) (o : BitVec 10)
  /-- R221, VADD: Element-wise add, rounded once or wrapping or saturating for integers. -/
  | vadd (g : BitVec 3) (d : BitVec 5) (a : BitVec 5) (b : BitVec 5) (k : BitVec 3) (f : BitVec 3) (j : BitVec 1) (s : BitVec 1)
  /-- R221, VSUB: Element-wise subtract. -/
  | vsub (g : BitVec 3) (d : BitVec 5) (a : BitVec 5) (b : BitVec 5) (k : BitVec 3) (f : BitVec 3) (j : BitVec 1) (s : BitVec 1)
  /-- R221, VMUL: Element-wise multiply, or the high half with .hi for integers. -/
  | vmul (g : BitVec 3) (d : BitVec 5) (a : BitVec 5) (b : BitVec 5) (k : BitVec 3) (f : BitVec 3) (j : BitVec 1) (s : BitVec 1)
  /-- R224, VFMA: Fused multiply-add with one rounding. -/
  | vfma (g : BitVec 3) (d : BitVec 5) (a : BitVec 5) (b : BitVec 5) (c : BitVec 5) (f : BitVec 3)
  /-- R224, VFMS: Fused multiply-subtract with one rounding. -/
  | vfms (g : BitVec 3) (d : BitVec 5) (a : BitVec 5) (b : BitVec 5) (c : BitVec 5) (f : BitVec 3)
  /-- R224, VFNMA: Negated fused multiply plus c with one rounding. -/
  | vfnma (g : BitVec 3) (d : BitVec 5) (a : BitVec 5) (b : BitVec 5) (c : BitVec 5) (f : BitVec 3)
  /-- R245, VDIV: Element-wise correctly rounded division. -/
  | vdiv (g : BitVec 3) (d : BitVec 5) (a : BitVec 5) (b : BitVec 5) (k : BitVec 3) (f : BitVec 3) (j : BitVec 1)
  /-- R245, VSQRT: Element-wise correctly rounded square root. -/
  | vsqrt (g : BitVec 3) (d : BitVec 5) (a : BitVec 5) (k : BitVec 3) (f : BitVec 3) (j : BitVec 1)
  /-- R245, VRSQ: Element-wise correctly rounded reciprocal square root. -/
  | vrsq (g : BitVec 3) (d : BitVec 5) (a : BitVec 5) (k : BitVec 3) (f : BitVec 3) (j : BitVec 1)
  /-- R245, VRCP: Element-wise correctly rounded reciprocal. -/
  | vrcp (g : BitVec 3) (d : BitVec 5) (a : BitVec 5) (k : BitVec 3) (f : BitVec 3) (j : BitVec 1)
  /-- R223, VMIN: Element-wise minimum that returns an operand. -/
  | vmin (g : BitVec 3) (d : BitVec 5) (a : BitVec 5) (b : BitVec 5) (k : BitVec 3) (f : BitVec 3) (j : BitVec 1)
  /-- R223, VMAX: Element-wise maximum that returns an operand. -/
  | vmax (g : BitVec 3) (d : BitVec 5) (a : BitVec 5) (b : BitVec 5) (k : BitVec 3) (f : BitVec 3) (j : BitVec 1)
  /-- R221, VABS: Element-wise absolute value. -/
  | vabs (g : BitVec 3) (d : BitVec 5) (a : BitVec 5) (k : BitVec 3) (f : BitVec 3) (j : BitVec 1) (s : BitVec 1)
  /-- R221, VNEG: Element-wise negation. -/
  | vneg (g : BitVec 3) (d : BitVec 5) (a : BitVec 5) (k : BitVec 3) (f : BitVec 3) (j : BitVec 1) (s : BitVec 1)
  /-- R225, VCMP: Compares elements and writes every bit of a mask register. -/
  | vcmp (g : BitVec 3) (d : BitVec 3) (a : BitVec 5) (b : BitVec 5) (c : BitVec 3) (f : BitVec 3) (u : BitVec 1) (y : BitVec 1)
  /-- R226, VSEL: Selects each element from Va or Vb by a mask bit. -/
  | vsel (g : BitVec 3) (d : BitVec 5) (a : BitVec 5) (b : BitVec 5) (k : BitVec 3) (f : BitVec 3) (j : BitVec 1)
  /-- R248, VEXP: Correctly rounded FP32 exponential. -/
  | vexp (g : BitVec 3) (d : BitVec 5) (a : BitVec 5) (k : BitVec 3) (j : BitVec 1)
  /-- R248, VLOG: Correctly rounded FP32 natural logarithm. -/
  | vlog (g : BitVec 3) (d : BitVec 5) (a : BitVec 5) (k : BitVec 3) (j : BitVec 1)
  /-- R248, VSIN: Correctly rounded FP32 sine. -/
  | vsin (g : BitVec 3) (d : BitVec 5) (a : BitVec 5) (k : BitVec 3) (j : BitVec 1)
  /-- R248, VCOS: Correctly rounded FP32 cosine. -/
  | vcos (g : BitVec 3) (d : BitVec 5) (a : BitVec 5) (k : BitVec 3) (j : BitVec 1)
  /-- R248, VTANH: Correctly rounded FP32 hyperbolic tangent. -/
  | vtanh (g : BitVec 3) (d : BitVec 5) (a : BitVec 5) (k : BitVec 3) (j : BitVec 1)
  /-- R248, VERF: Correctly rounded FP32 error function. -/
  | verf (g : BitVec 3) (d : BitVec 5) (a : BitVec 5) (k : BitVec 3) (j : BitVec 1)
  /-- R248, VSIGM: Correctly rounded FP32 logistic sigmoid. -/
  | vsigm (g : BitVec 3) (d : BitVec 5) (a : BitVec 5) (k : BitVec 3) (j : BitVec 1)
  /-- R250, VQTZ: Quantizes decimal64 a to the exponent of b. -/
  | vqtz (g : BitVec 3) (d : BitVec 5) (a : BitVec 5) (b : BitVec 5) (k : BitVec 3)
  /-- R252, VCVT: Converts the elements of one register, or of one part of it, between formats. -/
  | vcvt (g : BitVec 3) (d : BitVec 5) (a : BitVec 5) (s : BitVec 5) (k : BitVec 3) (t : BitVec 5)
  /-- R228, VAND: Element-wise AND. -/
  | vand (g : BitVec 3) (d : BitVec 5) (a : BitVec 5) (b : BitVec 5) (k : BitVec 3) (f : BitVec 3)
  /-- R228, VOR: Element-wise OR. -/
  | vor (g : BitVec 3) (d : BitVec 5) (a : BitVec 5) (b : BitVec 5) (k : BitVec 3) (f : BitVec 3)
  /-- R228, VXOR: Element-wise XOR. -/
  | vxor (g : BitVec 3) (d : BitVec 5) (a : BitVec 5) (b : BitVec 5) (k : BitVec 3) (f : BitVec 3)
  /-- R229, VLOP3: Three-input bitwise function over the whole image. -/
  | vlop3 (g : BitVec 3) (d : BitVec 5) (a : BitVec 5) (b : BitVec 5) (l : BitVec 8)
  /-- R228, VSHL: Element-wise left shift. -/
  | vshl (g : BitVec 3) (d : BitVec 5) (a : BitVec 5) (b : BitVec 5) (k : BitVec 3) (f : BitVec 3)
  /-- R228, VSHR: Element-wise logical right shift. -/
  | vshr (g : BitVec 3) (d : BitVec 5) (a : BitVec 5) (b : BitVec 5) (k : BitVec 3) (f : BitVec 3)
  /-- R228, VSAR: Element-wise arithmetic right shift. -/
  | vsar (g : BitVec 3) (d : BitVec 5) (a : BitVec 5) (b : BitVec 5) (k : BitVec 3) (f : BitVec 3)
  /-- R230, VFSHL: Element-wise funnel shift left. -/
  | vfshl (g : BitVec 3) (d : BitVec 5) (a : BitVec 5) (b : BitVec 5) (c : BitVec 5) (f : BitVec 3)
  /-- R230, VFSHR: Element-wise funnel shift right. -/
  | vfshr (g : BitVec 3) (d : BitVec 5) (a : BitVec 5) (b : BitVec 5) (c : BitVec 5) (f : BitVec 3)
  /-- R228, VPOPC: Element-wise population count. -/
  | vpopc (g : BitVec 3) (d : BitVec 5) (a : BitVec 5) (k : BitVec 3) (f : BitVec 3)
  /-- R228, VCLZ: Element-wise leading-zero count. -/
  | vclz (g : BitVec 3) (d : BitVec 5) (a : BitVec 5) (k : BitVec 3) (f : BitVec 3)
  /-- R231, VMOV: Copies a register word by word under the mask. -/
  | vmov (g : BitVec 3) (d : BitVec 5) (a : BitVec 5) (k : BitVec 3)
  /-- R231, VMOV_L: Copies a landing-queue head into one quarter row of Vd. -/
  | vmovL (g : BitVec 3) (d : BitVec 5) (q : BitVec 3) (r : BitVec 4) (k : BitVec 3) (t : BitVec 2)
  /-- R232, VBROW: Broadcasts row n to every row. -/
  | vbrow (g : BitVec 3) (d : BitVec 5) (a : BitVec 5) (n : BitVec 4) (k : BitVec 3)
  /-- R232, VBCOL: Broadcasts column n to every column. -/
  | vbcol (g : BitVec 3) (d : BitVec 5) (a : BitVec 5) (n : BitVec 5) (k : BitVec 3) (h : BitVec 1)
  /-- R232, VROTR: Rotates each row by n columns. -/
  | vrotr (g : BitVec 3) (d : BitVec 5) (a : BitVec 5) (n : BitVec 5) (k : BitVec 3) (h : BitVec 1)
  /-- R232, VROTC: Rotates each column by n rows. -/
  | vrotc (g : BitVec 3) (d : BitVec 5) (a : BitVec 5) (n : BitVec 4) (k : BitVec 3)
  /-- R233, VREDR: Reduces each row and writes the result across that row. -/
  | vredr (g : BitVec 3) (d : BitVec 5) (a : BitVec 5) (o : BitVec 5) (k : BitVec 3) (f : BitVec 3) (j : BitVec 1) (s : BitVec 1)
  /-- R233, VREDC: Reduces each column and writes the result down that column. -/
  | vredc (g : BitVec 3) (d : BitVec 5) (a : BitVec 5) (o : BitVec 5) (k : BitVec 3) (f : BitVec 3) (j : BitVec 1) (s : BitVec 1)
  /-- R234, VTRN: Transposes each 16 × 16 block of words. -/
  | vtrn (g : BitVec 3) (d : BitVec 5) (a : BitVec 5) (k : BitVec 3)
  /-- R235, VPERM: Gathers words of Va by the indices in Vb. -/
  | vperm (g : BitVec 3) (d : BitVec 5) (a : BitVec 5) (b : BitVec 5) (k : BitVec 3)
  /-- R236, VIOTA: Writes each element's flat index. -/
  | viota (g : BitVec 3) (d : BitVec 5) (k : BitVec 3) (f : BitVec 3)
  /-- R237, VINS: Inserts the low bits of Xa as element Xb of Vd. -/
  | vins (g : BitVec 3) (d : BitVec 5) (a : BitVec 5) (b : BitVec 5) (f : BitVec 3)
  /-- R237, VEXT: Extracts element Xb of Va into Xd. -/
  | vext (g : BitVec 3) (d : BitVec 5) (a : BitVec 5) (b : BitVec 5) (f : BitVec 3) (u : BitVec 1)
  /-- R257, VBMAX: Chooses the block scales of a register and writes them to Vd and to the scale latch. -/
  | vbmax (g : BitVec 3) (d : BitVec 5) (a : BitVec 5) (f : BitVec 3) (t : BitVec 2)
  /-- R258, VQNT: Quantises a register into packed blocks with latched or supplied scales. -/
  | vqnt (g : BitVec 3) (d : BitVec 5) (a : BitVec 5) (b : BitVec 5) (s : BitVec 1) (p : BitVec 2) (f : BitVec 3) (t : BitVec 2)
  /-- R259, VDQNT: Decodes packed blocks back into FP32, FP16 or BF16. -/
  | vdqnt (g : BitVec 3) (d : BitVec 5) (a : BitVec 5) (b : BitVec 5) (p : BitVec 2) (f : BitVec 3) (s : BitVec 2)
  /-- R238, VLD: Loads a 4 KiB register image from SPM, with an optional last-read mark. -/
  | vld (g : BitVec 3) (d : BitVec 5) (a : BitVec 4) (k : BitVec 3) (m : BitVec 1) (o : BitVec 10)
  /-- R238, VST: Stores a 4 KiB register image to SPM. -/
  | vst (g : BitVec 3) (d : BitVec 5) (a : BitVec 4) (o : BitVec 10)
  /-- R240, VLDX: Loads 16 rows at a signed byte stride. -/
  | vldx (g : BitVec 3) (d : BitVec 5) (s : BitVec 5) (b : BitVec 4) (k : BitVec 3)
  /-- R240, VSTX: Stores 16 rows at a signed byte stride. -/
  | vstx (g : BitVec 3) (d : BitVec 5) (s : BitVec 5) (b : BitVec 4) (k : BitVec 3)
  /-- R242, KLOG: Combines two masks bit by bit through a truth table. -/
  | klog (g : BitVec 3) (d : BitVec 3) (a : BitVec 3) (b : BitVec 3) (l : BitVec 2) (m : BitVec 2)
  /-- R243, KMOV_TO_K: Writes row r of a mask register from Xa. -/
  | kmovToK (g : BitVec 3) (d : BitVec 3) (a : BitVec 5) (r : BitVec 4)
  /-- R243, KMOV_TO_X: Reads row r of a mask register into Xd. -/
  | kmovToX (g : BitVec 3) (d : BitVec 5) (a : BitVec 3) (r : BitVec 4)
  /-- R260, VRNG: Computes Philox-4x32-10 for each group of four columns. -/
  | vrng (g : BitVec 3) (d : BitVec 5) (a : BitVec 5) (b : BitVec 5) (k : BitVec 3)
  /-- R261, VCADD: Adds the 128-bit counters of Vb to those of Va. -/
  | vcadd (g : BitVec 3) (d : BitVec 5) (a : BitVec 5) (b : BitVec 5) (k : BitVec 3)
  /-- R261, VCADD_X: Adds Xb zero-extended to every 128-bit counter of Va. -/
  | vcaddX (g : BitVec 3) (d : BitVec 5) (a : BitVec 5) (b : BitVec 5) (k : BitVec 3)
  /-- R276, JSEED: Seeds a jet from a value and a direction. -/
  | jseed (g : BitVec 3) (d : BitVec 5) (a : BitVec 5) (b : BitVec 5) (k : BitVec 3) (f : BitVec 3) (s : BitVec 1)
  /-- R277, JEXT: Extracts coefficient n of a jet, optionally times n!. -/
  | jext (g : BitVec 3) (d : BitVec 5) (a : BitVec 5) (n : BitVec 3) (k : BitVec 3) (f : BitVec 3) (c : BitVec 1)
  /-- R278, JCOEF_DIFF: Forms the jet of the derivative along the seed direction. -/
  | jcoefDiff (g : BitVec 3) (d : BitVec 5) (a : BitVec 5) (k : BitVec 3) (f : BitVec 3)
  /-- R278, JCOEF_TRUNC: Zeroes a jet's coefficients above m. -/
  | jcoefTrunc (g : BitVec 3) (d : BitVec 5) (a : BitVec 5) (m : BitVec 3) (k : BitVec 3) (f : BitVec 3)
  /-- R278, JCOEF_RESCALE: Rescales a jet's direction by the factor h. -/
  | jcoefRescale (g : BitVec 3) (d : BitVec 5) (a : BitVec 5) (b : BitVec 5) (k : BitVec 3) (f : BitVec 3)
  /-- R294, MSTRM: Loads a stream register from a 32-byte descriptor in SPM. -/
  | mstrm (g : BitVec 3) (d : BitVec 4) (a : BitVec 4) (f : BitVec 4)
  /-- R294, MSTRM_BND: Writes a bound register from Xa. -/
  | mstrmBnd (g : BitVec 3) (d : BitVec 4) (a : BitVec 5)
  /-- R294, MSTRM_RBND: Reads a bound register into Xd. -/
  | mstrmRbnd (g : BitVec 3) (d : BitVec 5) (a : BitVec 4)
  /-- R295, MZERO: Resets a tile and sets its anchor, in queue order. -/
  | mzero (g : BitVec 3) (t : BitVec 2) (i : BitVec 2) (a : BitVec 9)
  /-- R297, MMA: Queues an exact multiply-accumulate of an SPM and a B-SRAM stream into a tile. -/
  | mma (g : BitVec 3) (t : BitVec 2) (a : BitVec 4) (b : BitVec 4) (j : BitVec 1) (r : BitVec 1)
  /-- R296, MCELL: Loads a tile's cell sequence from Xa. -/
  | mcell (g : BitVec 3) (t : BitVec 2) (a : BitVec 5) (n : BitVec 4)
  /-- R300, MEPI: Queues the epilogue that rounds a tile into an output through the press. -/
  | mepi (g : BitVec 3) (t : BitVec 2) (o : BitVec 4) (b : BitVec 4) (c : BitVec 1) (r : BitVec 1) (e : BitVec 3) (l : BitVec 1)
  /-- R308, MSIG: Reads a tile's committed signatures or its status. -/
  | msig (g : BitVec 3) (d : BitVec 5) (t : BitVec 2) (s : BitVec 2)
  /-- R309, MROUTE: Writes a routing register from Xa. -/
  | mroute (g : BitVec 3) (d : BitVec 3) (a : BitVec 5)
  /-- R309, MROUTE_RD: Reads a routing register into Xd. -/
  | mrouteRd (g : BitVec 3) (d : BitVec 5) (a : BitVec 3)
  /-- R365, CPY: Queues a copy of n consecutive bytes, optionally signed and naming a barrier. -/
  | cpy (g : BitVec 3) (d : BitVec 4) (a : BitVec 4) (b : BitVec 5) (z : BitVec 1) (s : BitVec 1) (c : BitVec 4)
  /-- R365, CPY2: Queues a strided two-dimensional copy. -/
  | cpy2 (g : BitVec 3) (d : BitVec 4) (a : BitVec 4) (b : BitVec 5) (z : BitVec 1) (c : BitVec 4)
  /-- R365, CPYB: Queues a copy into the core's B-SRAM. -/
  | cpyb (g : BitVec 3) (d : BitVec 4) (a : BitVec 4) (b : BitVec 5) (z : BitVec 1) (c : BitVec 4)
  /-- R366, CPYQ: Queues a copy that quantises blocks with chosen scales. -/
  | cpyq (g : BitVec 3) (d : BitVec 4) (a : BitVec 4) (b : BitVec 5) (z : BitVec 1) (c : BitVec 4)
  /-- R367, CPYH: Moves bytes to or from host memory through the I/O die's host engine. -/
  | cpyh (g : BitVec 3) (d : BitVec 4) (a : BitVec 4) (b : BitVec 5) (z : BitVec 1) (h : BitVec 1) (c : BitVec 4)
  /-- R336, BINIT: Initialises a barrier with EXPECT, DUE and scope. -/
  | binit (g : BitVec 3) (d : BitVec 5) (a : BitVec 4) (s : BitVec 4)
  /-- R336, BARV: Makes an arrival of count n on a barrier. -/
  | barv (g : BitVec 3) (a : BitVec 4) (n : BitVec 8)
  /-- R337, BWAIT: Issues once the barrier's phase differs from the given parity, with acquire. -/
  | bwait (g : BitVec 3) (d : BitVec 5) (a : BitVec 4)
  /-- R338, BTEST: Reads a barrier's state into Xd. -/
  | btest (g : BitVec 3) (d : BitVec 5) (a : BitVec 4)
  /-- R336, BEXP: Adds expected bytes to a barrier's PBYTES and optionally sets DUE. -/
  | bexp (g : BitVec 3) (d : BitVec 5) (a : BitVec 4)
  /-- R372, AMO: Performs an integer atomic read-modify-write on SPM, near or host memory. -/
  | amo (g : BitVec 3) (d : BitVec 5) (a : BitVec 4) (b : BitVec 5) (s : BitVec 4) (z : BitVec 1) (o : BitVec 3)
  /-- R375, ACELL: Adds an FP32 value into an anchored near-memory cell. -/
  | acell (g : BitVec 3) (a : BitVec 4) (b : BitVec 5) (s : BitVec 4)
  /-- R376, ACRD: Reads and rounds an anchored cell, optionally clearing it. -/
  | acrd (g : BitVec 3) (d : BitVec 5) (a : BitVec 4) (s : BitVec 4) (c : BitVec 1)
  /-- R406, SEND: Sends one flit holding Xa and X(a+1) on a route. -/
  | send (g : BitVec 3) (d : BitVec 3) (a : BitVec 5)
  /-- R406, SEND_V: Sends one flit holding a quarter row of a vector register. -/
  | sendV (g : BitVec 3) (d : BitVec 3) (a : BitVec 5) (q : BitVec 2) (r : BitVec 4)
  /-- R407, RECV: Reads two 64-bit words of a landing-queue head into Xd and X(d+1) and pops it. -/
  | recv (g : BitVec 3) (d : BitVec 5) (a : BitVec 3) (s : BitVec 2)
  /-- R407, RECV_V: Reads a landing-queue head into a quarter row of Vd and pops it. -/
  | recvV (g : BitVec 3) (d : BitVec 5) (a : BitVec 3) (q : BitVec 2) (r : BitVec 4)
  /-- R407, RECV_DROP: Pops a landing-queue head without writing anything. -/
  | recvDrop (g : BitVec 3) (a : BitVec 3)
  /-- R408, LSTAT: Reads a landing queue's status. -/
  | lstat (g : BitVec 3) (d : BitVec 5) (a : BitVec 3)
  /-- R408, LSTAT_PORT: Reads the status of a die edge or package port. -/
  | lstatPort (g : BitVec 3) (d : BitVec 5) (a : BitVec 5)
  /-- R409, LTIME: Returns a route's effective or calibrated LLAT. -/
  | ltime (g : BitVec 3) (d : BitVec 5) (a : BitVec 3) (r : BitVec 1)
  /-- R425, COLL: Triggers collective entry e at issue. -/
  | coll (g : BitVec 3) (e : BitVec 4)
  /-- R426, CDRP_LD: Loads collective entry e from a descriptor in SPM. -/
  | cdrpLd (g : BitVec 3) (a : BitVec 4) (e : BitVec 4)
  /-- R426, CDRP_DROP: Returns collective entry e to IDLE. -/
  | cdrpDrop (g : BitVec 3) (e : BitVec 4)
  /-- R426, CDRP_ST: Reads the status word of collective entry e. -/
  | cdrpSt (g : BitVec 3) (d : BitVec 5) (e : BitVec 4)
  /-- R73, BUNDLE_ISSUE: A strand issues its next bundle once every issue condition holds. -/
  | bundleIssue (c : Fin 256) (j : Fin 4)
  /-- R160, FREEZE_RESTART: At CYC Z, all members issue their bundles of TT F together. -/
  | freezeRestart (k g : Nat)
  /-- R177, STRAND_SELECT: The core selects another strand that can issue, with a two-cycle fetch penalty. -/
  | strandSelect (c : Fin 256) (j : Fin 4)
  /-- R156, BELL: A cycle with CYC mod 4,096 == 0 starts the queue unit's sampling and placement. -/
  | bell
  /-- R138, RECORD_PROMOTION: A record that has waited 2^20 CYC unplaced is promoted one class. -/
  | recordPromotion (k : Nat)
  /-- R158, GROUP_RELEASE: At the first bell after pinning and loading finish, every member issues its first bundle at TT 0. -/
  | groupRelease (k g : Nat)
  /-- R139, PRE_SET: PRE is set in every strand of each victim at the request bell + 256. -/
  | preSet (k g : Nat)
  /-- R447, PREEMPTION_SAVE: Once every strand has stopped and the waits are over, the group's state is written at the next bell. -/
  | preemptionSave (k g : Nat)
  /-- R141, SAVE_COMPLETE: The save finishes, the victim cores are released and the kernel is PREEMPTED. -/
  | saveComplete (k g : Nat)
  /-- R147, GROUP_RETIRE: A group retires when its strands have exited and its commands performed. -/
  | groupRetire (k g : Nat)
  /-- R167, DEADLINE: A group's TT reaches BUDGET before retirement. -/
  | deadline (k g : Nat)
  /-- R171, JOIN_COMPLETE: At the first qualifying bell after every part has reported, the joined group's TT, LEVEL, COUNT and INDEX are set. -/
  | joinComplete (k g : Nat)
  /-- R171, JOIN_TIMEOUT: A join not complete 2^24 CYC after issue ends the group with DEADLINE. -/
  | joinTimeout (k g : Nat)
  /-- R170, REALIGN_RESUME: At the bell, a waiting REALIGN writes Xd and resumes, or stops for the save when PRE is 1. -/
  | realignResume (c : Fin 256) (j : Fin 4)
  /-- R170, REALIGN_MISMATCH: A REALIGN that not every member issues alike faults the group with SCHED HLAT cycles later. -/
  | realignMismatch (k g : Nat)
  /-- R96, COMMAND_START: A queued engine command leaves its queue when its engine is free. -/
  | commandStart (id : Nat)
  /-- R298, MMA_READY: An MMA's contributions become visible at start + occupancy + 16. -/
  | mmaReady (id : Nat)
  /-- R301, EPILOGUE_SNAPSHOT: At s + 16, the epilogue reads the tile and the bias values. -/
  | epilogueSnapshot (id : Nat)
  /-- R305, OUTPUT_FOLDED: At s + 80 the output stands in a press slot with both signatures, or it traps BOUND or ARITH. -/
  | outputFolded (id : Nat)
  /-- R317, VERDICT: The press compares the signatures and commits the output or disputes it. -/
  | verdict (id : Nat)
  /-- R322, ARBITRATION_END: An arbitration ends, and the output is released corrected, or is discarded. -/
  | arbitrationEnd (c : Fin 256)
  /-- R328, RESIDUE_ARBITRATION_END: The mender releases the recomputed vector result. -/
  | residueArbitrationEnd (c : Fin 256)
  /-- R361, COPY_READ: A copy reads every source byte in cycle r. -/
  | copyRead (id : Nat)
  /-- R361, COPY_PERFORM: A copy writes every destination byte at p and makes its barrier arrival. -/
  | copyPerform (id : Nat)
  /-- R370, COPY_RESEND_READ: After a signature mismatch, the source is read again at P + RD. -/
  | copyResendRead (id : Nat)
  /-- R370, COPY_RESEND_LAND: The resent data land and are written, or raise LINK on a second mismatch. -/
  | copyResendLand (id : Nat)
  /-- R367, CPYH_PERFORM: A host transfer performs on completion of its flushing read or last write. -/
  | cpyhPerform (id : Nat)
  /-- R332, BARRIER_DUE: The owning core's TT reaches a nonzero DUE of an incomplete phase, and the barrier is poisoned. -/
  | barrierDue (c : Fin 256) (off : Nat)
  /-- R347, WALK_COMPLETE: A page-table walk of a PACED command ends. -/
  | walkComplete (id : Nat)
  /-- R349, CORRECTION_DELIVERY: The corrected data of a correction fetch arrive, or the sectors are poisoned. -/
  | correctionDelivery (id : Nat)
  /-- R372, AMO_PERFORM: An AMO's read-modify-write performs at its target. -/
  | amoPerform (id : Nat)
  /-- R374, HOST_ATOMIC_COMPLETION: The completion of a host AtomicOp arrives and writes Xd. -/
  | hostAtomicCompletion (id : Nat)
  /-- R375, ACELL_PERFORM: An ACELL add performs on its cell at +180. -/
  | acellPerform (id : Nat)
  /-- R376, ACRD_READ: ACRD reads its cell at +180, optionally clearing it. -/
  | acrdRead (id : Nat)
  /-- R357, CHECKPOINT_MARK: At bell b, the checkpoint digest is formed, the log emptied and the arming set. -/
  | checkpointMark (f : Fin 17)
  /-- R353, PAIR_COMPARE: When both replicas have retired, the I/O die compares bitmaps and page digests and commits or re-runs. -/
  | pairCompare (k : Nat)
  /-- R398, FLIT_ARRIVAL: A flit arrives at a receiving port and is held until its due TT. -/
  | flitArrival (p : Fin 46) (fl : Flit) (fec : Fec)
  /-- R402, FLIT_LANDING: A flit lands at the tail of its landing queue, or writes SPM, at its landing TT. -/
  | flitLanding (fl : Flit)
  /-- R404, FLIT_MISSING: A flit with a due TT has not arrived by that TT, and LINK is raised. -/
  | flitMissing (c : Fin 256) (route : BitVec 64)
  /-- R394, BEACON: A received beacon updates the port's offset. -/
  | beacon (p : Fin 46) (b : Beacon)
  /-- R399, PORT_ENABLE: The end of device reset, or firmware, enables a port, which begins training. -/
  | portEnable (p : Fin 46)
  /-- R399, TRAINING_COMPLETE: Training completes, and the port goes to ALIGNING, or to DEGRADED with fewer lanes. -/
  | trainingComplete (p : Fin 46) (lanes : Fin 9)
  /-- R399, TRAINING_FAIL: Three training attempts fail, and the port goes to FAILED. -/
  | trainingFail (p : Fin 46)
  /-- R396, ALIGN_COMPLETE: After 16 bells with offset within ±1, the port goes to TIMED and OW and the route LLATs are published. -/
  | alignComplete (p : Fin 46)
  /-- R399, LINK_DEGRADE: Lane loss, an offset beyond 4 or an excess of errors moves a TIMED port to DEGRADED. -/
  | linkDegrade (l : LaneLoss)
  /-- R399, RETRAIN: Firmware retrains a DEGRADED port. -/
  | retrain (p : Fin 46)
  /-- R399, PORT_DISABLE: Firmware disables a port, which goes DOWN and loses its flits. -/
  | portDisable (p : Fin 46)
  /-- R399, SIGNAL_LOSS: Loss of signal puts a port DOWN. -/
  | signalLoss (p : Fin 46)
  /-- R399, PORT_RESET: Firmware resets a FAILED port to DOWN. -/
  | portReset (p : Fin 46)
  /-- R410, DRIFT_STEP: In the cycle after the bell, CYC steps by the clamped sum of the DRIFTs. -/
  | driftStep
  /-- R416, COLLECTIVE_STEP: At T0 + OFS, a timetable step reads its source and sends its chunk. -/
  | collectiveStep (c : Fin 256) (e : Fin 16) (i : Nat)
  /-- R414, FIN: A FIN step converts W64 words to FP32 and writes them at trigger + OFS + 16. -/
  | finStep (c : Fin 256) (e : Fin 16) (i : Nat)
  /-- R416, CHUNK_APPLY: A complete chunk is applied, buffered or discarded at the receiving entry and acknowledged. -/
  | chunkApply (ch : Chunk)
  /-- R417, ACK_ARRIVAL: A chunk's acknowledgement reaches the sender, and its retention is freed. -/
  | ackArrival (c : Fin 256) (e : Fin 16) (i : Nat)
  /-- R420, ACK_TIMEOUT: A missing acknowledgement at its due TT starts a redo over the ALTMAP route, or raises LINK. -/
  | ackTimeout (c : Fin 256) (e : Fin 16) (i : Nat)
  /-- R422, INSTANCE_COMPLETE: An entry completes its instance, arrives on its barrier and re-arms with advanced bases. -/
  | instanceComplete (c : Fin 256) (e : Fin 16)
  /-- R151, STEP_COMPLETE: A stepped bundle's commands have completed, and the step reports with STEP. -/
  | stepComplete (k g : Nat)
  /-- R119, FLR: A function-level reset or close puts the context in QUIESCING. -/
  | flr (f : Fin 17)
  /-- R121, HOST_REQUEST_ABANDON: A host request with no completion 10 ms after QUIESCING began is abandoned. -/
  | hostRequestAbandon (f : Fin 17)
  /-- R121, DRAIN_COMPLETE: No tagged request of the context is outstanding, and the context goes to SCRUBBING. -/
  | drainComplete (f : Fin 17)
  /-- R123, SCRUB_COMPLETE: The scrub ends, and the context is CLOSED with a new generation, pins freed and root cleared. -/
  | scrubComplete (f : Fin 17)
  /-- R455, INVAL_COMPLETE: Every translation cache has dropped the range, and BUSY clears. -/
  | invalComplete (f : Fin 17)
  /-- R124, FLR_PF0: An FLR of PF0 resets every context that holds a partition and restarts firmware. -/
  | flrPf0
  /-- R464, DEVICE_RESET: PERST# deasserted brings the device up with every context FREE and CYC 0. -/
  | deviceReset
  /-- R464, CONFIGURATION_REQUEST: A PCIe configuration request is answered, with retry status during bring-up. -/
  | configurationRequest (f : Fin 17) (q : CfgReq)
  /-- R443, TEMPERATURE_TRIP: A die reaches its temperature trip limit. -/
  | temperatureTrip (die : Fin 8)
  /-- R443, FIRMWARE_FAILURE: The queue unit or the firmware fails, which is a device-level failure. -/
  | firmwareFailure
  /-- R117, TAGGED_RETURN: A return whose context tag does not match is discarded at the receiving port. -/
  | taggedReturn (tag : BitVec 8) (id : Nat)
  /-- R455, OPEN: CTXCMD open moves a CLOSED context with a valid root and handler to OPEN. -/
  | openCtx (f : Fin 17)
  /-- R119, CLOSE: CTXCMD close starts the reset sequence of an OPEN or ACTIVE context. -/
  | closeCtx (f : Fin 17)
  /-- R142, QUEUE_START: QCMD start moves a STOPPED queue to RUNNING. -/
  | queueStart (f : Fin 17) (q : Fin 64)
  /-- R142, QUEUE_STOP: QCMD stop moves a RUNNING queue to STOPPED. -/
  | queueStop (f : Fin 17) (q : Fin 64)
  /-- R142, QUEUE_RESET: QCMD reset clears PRODUCE and CONSUME of a STOPPED or OVERRUN queue. -/
  | queueReset (f : Fin 17) (q : Fin 64)
  /-- R343, INVAL: A request to invalidate a VA range in every die's translation cache. -/
  | inval (f : Fin 17) (page : BitVec 32) (count : BitVec 16)
  /-- R356, RBREQ: Requests a rollback of the context as for a group fault. -/
  | rbreq (f : Fin 17)
  /-- R151, STEP_MODE: STEPCTL places a RUNNING group in step mode or takes it out of it. -/
  | stepMode (f : Fin 17) (grp : BitVec 16) (on : Bool)
  /-- R151, SINGLE_STEP: STEPCTL requests one step of a group in step mode. -/
  | singleStep (f : Fin 17) (grp : BitVec 16) (j : Fin 4)
  /-- R456, ASSIGN: PF0 assigns a context its partition record, after the checks. -/
  | assign (f : BitVec 5)
  /-- R119, WITHDRAW: PF0 withdraws a CLOSED context's partition, and the context becomes FREE. -/
  | withdraw (f : BitVec 5)
  /-- R456, HCLR: The fourth write of the core mask clears HEALTH of the named cores. -/
  | hclr (i : Fin 4) (mask : BitVec 64)
  /-- R453, REGISTER_WRITE: A host write to a BAR0 register that has no row of its own, such as PTROOT, HVA, EVBASE, EVCTL or COHBASE. -/
  | registerWrite (f : Fin 17) (off : Nat) (v : BitVec 64)
  /-- R388, HOST_MEMORY_ACCESS: A host CXL.mem access to device memory or a submission window performs on arrival. -/
  | hostMemoryAccess (acc : HostAccess)
  /-- R461, READ_HEALTH: A side-band command that returns HEALTH of up to 32 cores. -/
  | readHealth (cs : List (Fin 256))
  /-- R461, READ_FAULT_LOG: A side-band command that returns PF0's event ring and DEVFAIL. -/
  | readFaultLog
  /-- R461, READ_STATUS: A side-band command that returns each function's CTXSTAT and the link states. -/
  | readStatus
  /-- R462, RESET: A side-band command that performs an FLR of PF0, joining one already in progress. -/
  | resetCmd
  /-- R461, STEP: A side-band command that writes STEPCTL of a function. -/
  | stepCmd (f : Fin 17) (v : BitVec 64)
  /-- R461, PLDM_PLATFORM_MONITORING: A PLDM request for die temperatures and module power. -/
  | pldmPlatformMonitoring
  /-- R461, PLDM_FIRMWARE_UPDATE: A PLDM firmware update, activated at the next device reset. -/
  | pldmFirmwareUpdate (img : List (BitVec 8))
  /-- R463, GET_VERSION: An SPDM GET_VERSION request. -/
  | getVersion (t : Transport)
  /-- R463, GET_CAPABILITIES: An SPDM GET_CAPABILITIES request. -/
  | getCapabilities (t : Transport)
  /-- R463, NEGOTIATE_ALGORITHMS: An SPDM NEGOTIATE_ALGORITHMS request. -/
  | negotiateAlgorithms (t : Transport)
  /-- R463, GET_DIGESTS: An SPDM GET_DIGESTS request. -/
  | getDigests (t : Transport)
  /-- R463, GET_CERTIFICATE: An SPDM GET_CERTIFICATE request. -/
  | getCertificate (t : Transport) (off len : BitVec 16)
  /-- R463, CHALLENGE: An SPDM CHALLENGE request. -/
  | challenge (t : Transport) (nonce : BitVec 256)
  /-- R463, GET_MEASUREMENTS: An SPDM GET_MEASUREMENTS request, answered from measurement indices 1 to 3. -/
  | getMeasurements (t : Transport) (idx : BitVec 8)
  /-- R119, FORCED_CLOSE: PF0 forces the close of another function's OPEN or ACTIVE context, which enters QUIESCING and runs the reset sequence. -/
  | forcedClose (f : Fin 17)
deriving DecidableEq, Repr

end Sys2Proof
end

