-- ==== Sys2Proof/Machine/Legal.lean ====
section
/-! DEFINITION. Which field values each slot instruction accepts (R83, R84, R90 and the chapter of each instruction), as
far as the encoding alone decides it: every other encoding raises ILLEGAL. -/
namespace Sys2Proof.Machine

/-- An assigned CSR number (R179). -/
def csrAssigned (c : BitVec 12) : Bool :=
  let n := c.toNat
  n ≤ 0x005 || (0x010 ≤ n && n ≤ 0x018) || (0x020 ≤ n && n ≤ 0x027) || (0x100 ≤ n && n ≤ 0x147)

/-- A CSR that some instruction may write (R179: not marked none). -/
def csrWritable (c : BitVec 12) : Bool :=
  csrAssigned c && (c.toNat < 0x010 || c.toNat == 0x017 || 0x020 ≤ c.toNat)

/-- Formats that have a jet form (R84). -/
def jetFmt (f : BitVec 3) : Bool := f == 0 || f == 3 || f == 4
/-- Floating-point format codes (R85). -/
def floatFmt (f : BitVec 3) : Bool := f.toNat ≤ 4

/-- fn[1] as J on a float format, as unsigned on an integer format (R220). -/
def jOrUnsigned (f : BitVec 3) (j : BitVec 1) : Bool := j == 0 || !floatFmt f || jetFmt f
/-- fn[1] as J on a float format, and 0 on an integer format. -/
def jOrZero (f : BitVec 3) (j : BitVec 1) : Bool := j == 0 || jetFmt f

/-- Width in bits of a VCVT code (R251). -/
def cvtWidth : Nat → Nat
  | 0 => 32 | 1 => 16 | 2 => 16 | 3 => 64 | 4 => 64 | 5 => 32 | 6 => 16 | 7 => 8
  | 8 => 32 | 9 => 16 | 10 => 8 | 11 => 8 | 12 => 8 | 13 => 4 | 14 => 64 | _ => 1

/-- The pairs that VCVT converts (R251). -/
def cvtPair (d s : Nat) : Bool :=
  let bin (c : Nat) := decide (c ≤ 3)
  let int (c : Nat) := decide (5 ≤ c ∧ c ≤ 10)
  let mic (c : Nat) := decide (11 ≤ c ∧ c ≤ 13)
  let small (c : Nat) := decide (c ≤ 2)
  let dec (c : Nat) := c == 0 || c == 3 || c == 5 || c == 8 || c == 14
  d != s && ((bin d && bin s) || (bin d && int s) || (int d && bin s) || (int d && int s) || (mic d && small s) ||
    (small d && mic s) || (d == 4 && dec s) || (s == 4 && dec d))

/-- The part of a VCVT (R252): below the ratio of the widths. -/
def cvtPart (d s p : Nat) : Bool :=
  decide (p < Nat.max (cvtWidth d) (cvtWidth s) / Nat.min (cvtWidth d) (cvtWidth s))

/-- The landing-queue form of an RRR instruction (R83, R203): with Lq the b field names L0 to L7, without it w is unused. -/
def landForm (b : BitVec 5) (l : BitVec 1) (w : BitVec 3) : Bool :=
  if l == 1 then decide (b.toNat < 8) else w == 0

/-- A scope code that is held (R378). -/
def scopeOk (s : BitVec 4) : Bool := decide (s.toNat ≤ 8)

/-- The field values that an instruction accepts. The events of the table have no encoding and are accepted. -/
def legal : Instr → Bool
  | .loop _ _ _ _ _ n => n != 0
  | .loopi _ _ _ _ c n => c != 0 && n != 0
  | .csrr _ _ c => csrAssigned c
  | .csrw _ _ _ _ c => csrWritable c
  | .csrs _ _ _ _ c => csrWritable c
  | .csrc _ _ _ _ c => csrWritable c
  | .fence _ s _ => scopeOk s
  | .add _ _ _ b l w | .sub _ _ _ b l w | .mul _ _ _ b l w | .mulh _ _ _ b l w | .mulhn _ _ _ b l w
  | .div _ _ _ b l w | .divn _ _ _ b l w | .rem _ _ _ b l w | .remn _ _ _ b l w
  | .and _ _ _ b l w | .or _ _ _ b l w | .xor _ _ _ b l w | .shl _ _ _ b l w | .shr _ _ _ b l w | .sar _ _ _ b l w
  | .min _ _ _ b l w | .max _ _ _ b l w | .minn _ _ _ b l w | .maxn _ _ _ b l w | .aadd _ _ _ b l w => landForm b l w
  | .sel _ _ _ b l w _ => landForm b l w
  | .cmp _ _ _ b l w c => landForm b l w && decide (c.toNat < 8)
  | .shli _ _ _ i | .shri _ _ _ i | .sari _ _ _ i => decide (i.toNat < 64)
  | .ld _ _ _ w s _ => !(w == 3 && s == 1)
  | .vadd _ _ _ _ _ f j s | .vsub _ _ _ _ _ f j s | .vmul _ _ _ _ _ f j s => jOrUnsigned f j && (s == 0 || !floatFmt f)
  | .vdiv _ _ _ _ _ f j => floatFmt f && jOrZero f j
  | .vsqrt _ _ _ _ f j => floatFmt f && jOrZero f j
  | .vrsq _ _ _ _ f j | .vrcp _ _ _ _ f j => decide (f.toNat ≤ 3) && jOrZero f j
  | .vmin _ _ _ _ _ f j | .vmax _ _ _ _ _ f j => jOrUnsigned f j
  | .vabs _ _ _ _ f j s | .vneg _ _ _ _ f j s => jOrZero f j && (s == 0 || !floatFmt f)
  | .vcmp _ _ _ _ _ f u y =>
      (u == 0 || !floatFmt f) && (y == 0 || f == 1 || f == 2 || f == 6 || f == 7)
  | .vsel _ _ _ _ _ f j => jOrZero f j
  | .vcvt _ _ _ s k t => cvtPair t.toNat s.toNat && cvtPart t.toNat s.toNat k.toNat
  | .vand _ _ _ _ _ f | .vor _ _ _ _ _ f | .vxor _ _ _ _ _ f | .vshl _ _ _ _ _ f | .vshr _ _ _ _ _ f
  | .vsar _ _ _ _ _ f => !floatFmt f
  | .vfshl _ _ _ _ _ f | .vfshr _ _ _ _ _ f => !floatFmt f
  | .vpopc _ _ _ _ f | .vclz _ _ _ _ f => !floatFmt f
  | .vredr _ _ _ o _ f j s | .vredc _ _ _ o _ f j s =>
      jOrUnsigned f j &&
        (if floatFmt f then decide (o.toNat ≤ 2) && s == 0 else decide (o.toNat ≤ 5) && (s == 0 || o == 0))
  | .viota _ _ _ f => !floatFmt f
  | .vext _ _ _ _ f u => u == 0 || !floatFmt f
  | .vbmax _ _ _ f _ => decide (f.toNat ≤ 2)
  | .vqnt _ _ _ b s p f _ => decide (f.toNat ≤ 2) && (s == 1 || b == 0) && (f == 0 || decide (p.toNat < 2))
  | .vdqnt _ _ _ b p f s => decide (f.toNat ≤ 2) && (s != 3 || b == 0) && (f == 0 || decide (p.toNat < 2))
  | .jseed _ _ _ b _ f s => jetFmt f && (s == 1 || b == 0)
  | .jext _ _ _ _ _ f _ => jetFmt f
  | .jcoefDiff _ _ _ _ f => jetFmt f
  | .jcoefTrunc _ _ _ _ _ f => jetFmt f
  | .jcoefRescale _ _ _ _ _ f => jetFmt f
  | .mstrm _ _ _ f => decide (f.toNat ≤ 8)
  | .mzero _ _ i _ => i != 3
  | .mepi _ _ _ b c r e l => (c == 1 || b == 0) && (r == 1 || (e == 0 && l == 0))
  | .msig _ _ _ s => s != 3
  | .cpy _ _ _ b z s c => (z == 1 || c == 0) && (s == 0 || b != 31)
  | .cpy2 _ _ _ b z c => (z == 1 || c == 0) && b != 31
  | .cpyb _ _ _ _ z c | .cpyq _ _ _ _ z c => z == 1 || c == 0
  | .cpyh _ _ _ _ z _ c => z == 1 || c == 0
  | .binit _ _ _ s => scopeOk s
  | .barv _ _ n => n != 0
  | .amo _ _ _ _ s _ _ => scopeOk s
  | .acell _ _ _ s => scopeOk s
  | .acrd _ _ _ s _ => scopeOk s
  | .send _ _ a => a != 31
  | .recv _ d _ _ => d != 31
  | _ => true

/-- Whether the instruction takes bits lent by EXT1 (R70): formats RRI, RI and XM. -/
def takesExt1 : Instr → Bool
  | .addi .. | .andi .. | .ori .. | .xori .. | .shli .. | .shri .. | .sari .. | .movi .. | .movhi .. | .cmpi .. | .aaddi ..
  | .ld .. | .st .. | .lda .. | .sta .. => true
  | _ => false

/-- Whether the instruction takes bits lent by EXT3 (R70): format EI. -/
def takesExt3 : Instr → Bool
  | .mzero .. | .binit .. | .barv .. | .bwait .. | .btest .. | .bexp .. | .coll .. | .cdrpLd .. | .cdrpDrop .. | .cdrpSt .. => true
  | _ => false

/-- Whether an instruction in a position takes the bits lent to it. -/
def takesExt (pos : Fin 4) (i : Instr) : Bool := if pos = 1 then takesExt1 i else pos == 3 && takesExt3 i

/-- The same by the opcode of a word that is no legal instruction: its format is that of R87 and R89. -/
def wordTakesExt (pos : Fin 4) (w : Nat) : Bool :=
  let op := w / 2 ^ 26 % 64
  if pos = 1 then [0x03, 0x0E, 0x0F, 0x10, 0x15, 0x16, 0x17, 0x21, 0x22, 0x24, 0x27, 0x29, 0x2A, 0x2B, 0x2C].contains op
  else pos == 3 && [0x02, 0x0D, 0x0E, 0x0F, 0x10, 0x11, 0x19, 0x1A].contains op

/-- Whether lent bits e are accepted by the instruction (R70, R205): zero always; nonzero only where the format takes them
and the full immediate is one the instruction accepts. No format of position 3 accepts a nonzero EXT3, because every
EI instruction's lent bits lie outside its sub-fields. -/
def extLegal (pos : Fin 4) (e : BitVec 5) (i : Instr) : Bool :=
  e == 0 || (pos == 1 && takesExt1 i && match i with | .shli .. | .shri .. | .sari .. => false | _ => true)

end Sys2Proof.Machine
end

