-- ==== Sys2Proof/WellFormed.lean ====
section
/-! DEFINITION. Well-formed instructions: those whose field values the instruction accepts (R90). The check itself stands in
Machine/Legal.lean. -/
namespace Sys2Proof

/-- The field values are ones that the instruction accepts. -/
abbrev Instr.WellFormed (i : Instr) : Prop := Machine.legal i = true

end Sys2Proof
end

