-- ==== Sys2Proof/Decode.lean ====
section
/-! DEFINITION. Decoding (R65 to R69, R83 to R91): a slot word and its position give an instruction or a named reason to
raise ILLEGAL. Words are read as numbers; `fld w lo n` is the field of n bits from bit lo. The encoder beside it is
written from the same rows of the opcode maps. -/
namespace Sys2Proof

/-- Why a word is no instruction (R90). -/
inductive DecodeError where
  /-- a reserved opcode of R86 to R89, or 0x3F outside position 0 -/
  | reservedOpcode
  /-- a nonzero reserved field, or a register number beyond its kind -/
  | reservedField
  /-- a field value that the instruction does not accept -/
  | badValue
deriving DecidableEq, Repr

/-- The field of n bits from bit lo of w. -/
def fld (w lo n : Nat) : BitVec n := BitVec.ofNat n (w / 2 ^ lo)

/-- Bits lo to lo + n - 1 of w hold the value c. -/
def has (w lo n c : Nat) : Bool := (w / 2 ^ lo) % 2 ^ n == c

/-- R86: the map of position 0. -/
def decodeC (w : Nat) : Except DecodeError Instr :=
  match w / 2 ^ 26 with
  | 0 => if w == 0 then .ok .nop else .error .reservedField
  | 1 =>
      .ok (.br (fld w 23 3) (fld w 0 23))
  | 2 =>
      if has w 1 12 0 && has w 18 5 0 then .ok (.brx (fld w 23 3) (fld w 13 5) (fld w 0 1))
      else .error .reservedField
  | 3 =>
      .ok (.call (fld w 23 3) (fld w 0 23))
  | 4 =>
      if has w 0 23 0 then .ok (.ret (fld w 23 3))
      else .error .reservedField
  | 5 =>
      .ok (.loop (fld w 23 3) (fld w 22 1) (fld w 20 2) (fld w 18 2) (fld w 13 5) (fld w 0 13))
  | 6 =>
      .ok (.loopi (fld w 23 3) (fld w 22 1) (fld w 20 2) (fld w 18 2) (fld w 8 10) (fld w 0 8))
  | 7 =>
      if has w 0 23 0 then .ok (.lbrk (fld w 23 3))
      else .error .reservedField
  | 8 =>
      .ok (.wait (fld w 23 3) (fld w 18 5) (fld w 0 18))
  | 9 =>
      if has w 0 18 0 then .ok (.realign (fld w 23 3) (fld w 18 5))
      else if has w 0 18 1 then .ok (.realignP (fld w 23 3) (fld w 18 5))
      else if has w 0 13 2 then .ok (.realignJoin (fld w 23 3) (fld w 18 5) (fld w 13 5))
      else .error .reservedField
  | 10 =>
      if has w 12 6 0 then .ok (.csrr (fld w 23 3) (fld w 18 5) (fld w 0 12))
      else .error .reservedField
  | 11 =>
      .ok (.csrw (fld w 23 3) (fld w 18 5) (fld w 13 5) (fld w 12 1) (fld w 0 12))
  | 12 =>
      .ok (.csrs (fld w 23 3) (fld w 18 5) (fld w 13 5) (fld w 12 1) (fld w 0 12))
  | 13 =>
      .ok (.csrc (fld w 23 3) (fld w 18 5) (fld w 13 5) (fld w 12 1) (fld w 0 12))
  | 14 =>
      if has w 2 2 0 && has w 8 15 0 then .ok (.fence (fld w 23 3) (fld w 4 4) (fld w 0 2))
      else .error .reservedField
  | 15 =>
      if has w 6 7 0 && has w 17 1 0 then .ok (.launch (fld w 23 3) (fld w 18 5) (fld w 13 4) (fld w 0 6))
      else .error .reservedField
  | 16 =>
      if has w 0 23 0 then .ok (.exit (fld w 23 3))
      else .error .reservedField
  | 17 =>
      if has w 0 23 0 then .ok (.yield (fld w 23 3))
      else .error .reservedField
  | 18 =>
      if has w 8 15 0 then .ok (.trap (fld w 23 3) (fld w 0 8))
      else .error .reservedField
  | 19 =>
      if has w 0 23 0 then .ok (.rft (fld w 23 3))
      else if has w 0 23 1 then .ok (.rftReplay (fld w 23 3))
      else if has w 0 23 2 then .ok (.rftFault (fld w 23 3))
      else .error .reservedField
  | 20 =>
      if has w 0 8 0 then .ok (.ckpt (fld w 23 3) (fld w 18 5) (fld w 13 5) (fld w 8 5))
      else if has w 0 18 1 then .ok (.ckptOff (fld w 23 3) (fld w 18 5))
      else .error .reservedField
  | 21 =>
      if has w 0 1 1 && has w 2 16 0 then .ok (.drift (fld w 23 3) (fld w 18 5) (fld w 1 1))
      else .error .reservedField
  | 22 =>
      if has w 2 16 0 then .ok (.cycr (fld w 23 3) (fld w 18 5) (fld w 0 2))
      else .error .reservedField
  | 23 =>
      if has w 0 18 0 then .ok (.strs (fld w 23 3) (fld w 18 5))
      else .error .reservedField
  | _ => .error .reservedOpcode

/-- R87: the map of position 1. -/
def decodeX (w : Nat) : Except DecodeError Instr :=
  match w / 2 ^ 26 with
  | 0 => if w == 0 then .ok .nop else .error .reservedField
  | 1 =>
      if has w 0 4 0 then .ok (.add (fld w 23 3) (fld w 18 5) (fld w 13 5) (fld w 8 5) (fld w 7 1) (fld w 4 3))
      else .error .reservedField
  | 2 =>
      if has w 0 4 0 then .ok (.sub (fld w 23 3) (fld w 18 5) (fld w 13 5) (fld w 8 5) (fld w 7 1) (fld w 4 3))
      else .error .reservedField
  | 4 =>
      if has w 0 4 0 then .ok (.mul (fld w 23 3) (fld w 18 5) (fld w 13 5) (fld w 8 5) (fld w 7 1) (fld w 4 3))
      else .error .reservedField
  | 5 =>
      if has w 0 4 0 then .ok (.mulh (fld w 23 3) (fld w 18 5) (fld w 13 5) (fld w 8 5) (fld w 7 1) (fld w 4 3))
      else .error .reservedField
  | 6 =>
      if has w 0 4 0 then .ok (.mulhn (fld w 23 3) (fld w 18 5) (fld w 13 5) (fld w 8 5) (fld w 7 1) (fld w 4 3))
      else .error .reservedField
  | 7 =>
      if has w 0 4 0 then .ok (.div (fld w 23 3) (fld w 18 5) (fld w 13 5) (fld w 8 5) (fld w 7 1) (fld w 4 3))
      else .error .reservedField
  | 8 =>
      if has w 0 4 0 then .ok (.divn (fld w 23 3) (fld w 18 5) (fld w 13 5) (fld w 8 5) (fld w 7 1) (fld w 4 3))
      else .error .reservedField
  | 9 =>
      if has w 0 4 0 then .ok (.rem (fld w 23 3) (fld w 18 5) (fld w 13 5) (fld w 8 5) (fld w 7 1) (fld w 4 3))
      else .error .reservedField
  | 10 =>
      if has w 0 4 0 then .ok (.remn (fld w 23 3) (fld w 18 5) (fld w 13 5) (fld w 8 5) (fld w 7 1) (fld w 4 3))
      else .error .reservedField
  | 11 =>
      if has w 0 4 0 then .ok (.and (fld w 23 3) (fld w 18 5) (fld w 13 5) (fld w 8 5) (fld w 7 1) (fld w 4 3))
      else .error .reservedField
  | 12 =>
      if has w 0 4 0 then .ok (.or (fld w 23 3) (fld w 18 5) (fld w 13 5) (fld w 8 5) (fld w 7 1) (fld w 4 3))
      else .error .reservedField
  | 13 =>
      if has w 0 4 0 then .ok (.xor (fld w 23 3) (fld w 18 5) (fld w 13 5) (fld w 8 5) (fld w 7 1) (fld w 4 3))
      else .error .reservedField
  | 18 =>
      if has w 0 4 0 then .ok (.shl (fld w 23 3) (fld w 18 5) (fld w 13 5) (fld w 8 5) (fld w 7 1) (fld w 4 3))
      else .error .reservedField
  | 19 =>
      if has w 0 4 0 then .ok (.shr (fld w 23 3) (fld w 18 5) (fld w 13 5) (fld w 8 5) (fld w 7 1) (fld w 4 3))
      else .error .reservedField
  | 20 =>
      if has w 0 4 0 then .ok (.sar (fld w 23 3) (fld w 18 5) (fld w 13 5) (fld w 8 5) (fld w 7 1) (fld w 4 3))
      else .error .reservedField
  | 26 =>
      if has w 0 4 0 then .ok (.min (fld w 23 3) (fld w 18 5) (fld w 13 5) (fld w 8 5) (fld w 7 1) (fld w 4 3))
      else .error .reservedField
  | 27 =>
      if has w 0 4 0 then .ok (.max (fld w 23 3) (fld w 18 5) (fld w 13 5) (fld w 8 5) (fld w 7 1) (fld w 4 3))
      else .error .reservedField
  | 28 =>
      if has w 0 4 0 then .ok (.minn (fld w 23 3) (fld w 18 5) (fld w 13 5) (fld w 8 5) (fld w 7 1) (fld w 4 3))
      else .error .reservedField
  | 29 =>
      if has w 0 4 0 then .ok (.maxn (fld w 23 3) (fld w 18 5) (fld w 13 5) (fld w 8 5) (fld w 7 1) (fld w 4 3))
      else .error .reservedField
  | 3 =>
      .ok (.addi (fld w 23 3) (fld w 18 5) (fld w 13 5) (fld w 0 13))
  | 14 =>
      .ok (.andi (fld w 23 3) (fld w 18 5) (fld w 13 5) (fld w 0 13))
  | 15 =>
      .ok (.ori (fld w 23 3) (fld w 18 5) (fld w 13 5) (fld w 0 13))
  | 16 =>
      .ok (.xori (fld w 23 3) (fld w 18 5) (fld w 13 5) (fld w 0 13))
  | 21 =>
      .ok (.shli (fld w 23 3) (fld w 18 5) (fld w 13 5) (fld w 0 13))
  | 22 =>
      .ok (.shri (fld w 23 3) (fld w 18 5) (fld w 13 5) (fld w 0 13))
  | 23 =>
      .ok (.sari (fld w 23 3) (fld w 18 5) (fld w 13 5) (fld w 0 13))
  | 17 =>
      .ok (.lop3 (fld w 23 3) (fld w 18 5) (fld w 13 5) (fld w 8 5) (fld w 0 8))
  | 24 =>
      if has w 6 2 0 then .ok (.fshl (fld w 23 3) (fld w 18 5) (fld w 13 5) (fld w 8 5) (fld w 0 6))
      else .error .reservedField
  | 25 =>
      if has w 6 2 0 then .ok (.fshr (fld w 23 3) (fld w 18 5) (fld w 13 5) (fld w 8 5) (fld w 0 6))
      else .error .reservedField
  | 30 =>
      if has w 0 13 0 then .ok (.clz (fld w 23 3) (fld w 18 5) (fld w 13 5))
      else .error .reservedField
  | 31 =>
      if has w 0 13 0 then .ok (.popc (fld w 23 3) (fld w 18 5) (fld w 13 5))
      else .error .reservedField
  | 32 =>
      if has w 3 1 0 then .ok (.sel (fld w 23 3) (fld w 18 5) (fld w 13 5) (fld w 8 5) (fld w 7 1) (fld w 4 3) (fld w 0 3))
      else .error .reservedField
  | 33 =>
      .ok (.movi (fld w 23 3) (fld w 18 5) (fld w 0 18))
  | 34 =>
      .ok (.movhi (fld w 23 3) (fld w 18 5) (fld w 0 18))
  | 35 =>
      if has w 21 2 0 then .ok (.cmp (fld w 23 3) (fld w 18 3) (fld w 13 5) (fld w 8 5) (fld w 7 1) (fld w 4 3) (fld w 0 4))
      else .error .reservedField
  | 36 =>
      if has w 21 2 0 then .ok (.cmpi (fld w 23 3) (fld w 18 3) (fld w 13 5) (fld w 10 3) (fld w 0 10))
      else .error .reservedField
  | 37 =>
      if has w 4 4 0 && has w 11 2 0 && has w 16 2 0 && has w 21 2 0 then .ok (.plog (fld w 23 3) (fld w 18 3) (fld w 13 3) (fld w 8 3) (fld w 0 4))
      else .error .reservedField
  | 38 =>
      if has w 0 4 0 && has w 17 1 0 && has w 22 1 0 then .ok (.aadd (fld w 23 3) (fld w 18 4) (fld w 13 4) (fld w 8 5) (fld w 7 1) (fld w 4 3))
      else .error .reservedField
  | 39 =>
      if has w 17 1 0 && has w 22 1 0 then .ok (.aaddi (fld w 23 3) (fld w 18 4) (fld w 13 4) (fld w 0 13))
      else .error .reservedField
  | 40 =>
      if has w 0 13 0 && has w 22 1 0 then .ok (.amovToA (fld w 23 3) (fld w 18 4) (fld w 13 5))
      else if has w 0 13 1 && has w 17 1 0 then .ok (.amovToX (fld w 23 3) (fld w 18 5) (fld w 13 4))
      else .error .reservedField
  | 41 =>
      if has w 17 1 0 then .ok (.ld (fld w 23 3) (fld w 18 5) (fld w 13 4) (fld w 11 2) (fld w 10 1) (fld w 0 10))
      else .error .reservedField
  | 42 =>
      if has w 10 1 0 && has w 17 1 0 then .ok (.st (fld w 23 3) (fld w 18 5) (fld w 13 4) (fld w 11 2) (fld w 0 10))
      else .error .reservedField
  | 43 =>
      if has w 10 3 6 && has w 17 1 0 && has w 22 1 0 then .ok (.lda (fld w 23 3) (fld w 18 4) (fld w 13 4) (fld w 0 10))
      else .error .reservedField
  | 44 =>
      if has w 10 3 6 && has w 17 1 0 && has w 22 1 0 then .ok (.sta (fld w 23 3) (fld w 18 4) (fld w 13 4) (fld w 0 10))
      else .error .reservedField
  | _ => .error .reservedOpcode

/-- R88: the map of position 2. -/
def decodeV (w : Nat) : Except DecodeError Instr :=
  match w / 2 ^ 26 with
  | 0 => if w == 0 then .ok .nop else .error .reservedField
  | 1 =>
      .ok (.vadd (fld w 23 3) (fld w 18 5) (fld w 13 5) (fld w 8 5) (fld w 5 3) (fld w 2 3) (fld w 1 1) (fld w 0 1))
  | 2 =>
      .ok (.vsub (fld w 23 3) (fld w 18 5) (fld w 13 5) (fld w 8 5) (fld w 5 3) (fld w 2 3) (fld w 1 1) (fld w 0 1))
  | 3 =>
      .ok (.vmul (fld w 23 3) (fld w 18 5) (fld w 13 5) (fld w 8 5) (fld w 5 3) (fld w 2 3) (fld w 1 1) (fld w 0 1))
  | 4 =>
      .ok (.vfma (fld w 23 3) (fld w 18 5) (fld w 13 5) (fld w 8 5) (fld w 3 5) (fld w 0 3))
  | 5 =>
      .ok (.vfms (fld w 23 3) (fld w 18 5) (fld w 13 5) (fld w 8 5) (fld w 3 5) (fld w 0 3))
  | 6 =>
      .ok (.vfnma (fld w 23 3) (fld w 18 5) (fld w 13 5) (fld w 8 5) (fld w 3 5) (fld w 0 3))
  | 7 =>
      if has w 0 1 0 then .ok (.vdiv (fld w 23 3) (fld w 18 5) (fld w 13 5) (fld w 8 5) (fld w 5 3) (fld w 2 3) (fld w 1 1))
      else .error .reservedField
  | 8 =>
      if has w 0 1 0 && has w 8 5 0 then .ok (.vsqrt (fld w 23 3) (fld w 18 5) (fld w 13 5) (fld w 5 3) (fld w 2 3) (fld w 1 1))
      else .error .reservedField
  | 9 =>
      if has w 0 1 0 && has w 8 5 0 then .ok (.vrsq (fld w 23 3) (fld w 18 5) (fld w 13 5) (fld w 5 3) (fld w 2 3) (fld w 1 1))
      else .error .reservedField
  | 10 =>
      if has w 0 1 0 && has w 8 5 0 then .ok (.vrcp (fld w 23 3) (fld w 18 5) (fld w 13 5) (fld w 5 3) (fld w 2 3) (fld w 1 1))
      else .error .reservedField
  | 11 =>
      if has w 0 1 0 then .ok (.vmin (fld w 23 3) (fld w 18 5) (fld w 13 5) (fld w 8 5) (fld w 5 3) (fld w 2 3) (fld w 1 1))
      else .error .reservedField
  | 12 =>
      if has w 0 1 0 then .ok (.vmax (fld w 23 3) (fld w 18 5) (fld w 13 5) (fld w 8 5) (fld w 5 3) (fld w 2 3) (fld w 1 1))
      else .error .reservedField
  | 13 =>
      if has w 8 5 0 then .ok (.vabs (fld w 23 3) (fld w 18 5) (fld w 13 5) (fld w 5 3) (fld w 2 3) (fld w 1 1) (fld w 0 1))
      else .error .reservedField
  | 14 =>
      if has w 8 5 0 then .ok (.vneg (fld w 23 3) (fld w 18 5) (fld w 13 5) (fld w 5 3) (fld w 2 3) (fld w 1 1) (fld w 0 1))
      else .error .reservedField
  | 15 =>
      if has w 21 2 0 then .ok (.vcmp (fld w 23 3) (fld w 18 3) (fld w 13 5) (fld w 8 5) (fld w 5 3) (fld w 2 3) (fld w 1 1) (fld w 0 1))
      else .error .reservedField
  | 16 =>
      if has w 0 1 0 then .ok (.vsel (fld w 23 3) (fld w 18 5) (fld w 13 5) (fld w 8 5) (fld w 5 3) (fld w 2 3) (fld w 1 1))
      else .error .reservedField
  | 17 =>
      if has w 0 1 0 && has w 2 3 0 && has w 8 5 0 then .ok (.vexp (fld w 23 3) (fld w 18 5) (fld w 13 5) (fld w 5 3) (fld w 1 1))
      else .error .reservedField
  | 18 =>
      if has w 0 1 0 && has w 2 3 0 && has w 8 5 0 then .ok (.vlog (fld w 23 3) (fld w 18 5) (fld w 13 5) (fld w 5 3) (fld w 1 1))
      else .error .reservedField
  | 19 =>
      if has w 0 1 0 && has w 2 3 0 && has w 8 5 0 then .ok (.vsin (fld w 23 3) (fld w 18 5) (fld w 13 5) (fld w 5 3) (fld w 1 1))
      else .error .reservedField
  | 20 =>
      if has w 0 1 0 && has w 2 3 0 && has w 8 5 0 then .ok (.vcos (fld w 23 3) (fld w 18 5) (fld w 13 5) (fld w 5 3) (fld w 1 1))
      else .error .reservedField
  | 21 =>
      if has w 0 1 0 && has w 2 3 0 && has w 8 5 0 then .ok (.vtanh (fld w 23 3) (fld w 18 5) (fld w 13 5) (fld w 5 3) (fld w 1 1))
      else .error .reservedField
  | 22 =>
      if has w 0 1 0 && has w 2 3 0 && has w 8 5 0 then .ok (.verf (fld w 23 3) (fld w 18 5) (fld w 13 5) (fld w 5 3) (fld w 1 1))
      else .error .reservedField
  | 23 =>
      if has w 0 1 0 && has w 2 3 0 && has w 8 5 0 then .ok (.vsigm (fld w 23 3) (fld w 18 5) (fld w 13 5) (fld w 5 3) (fld w 1 1))
      else .error .reservedField
  | 24 =>
      if has w 0 5 16 then .ok (.vqtz (fld w 23 3) (fld w 18 5) (fld w 13 5) (fld w 8 5) (fld w 5 3))
      else .error .reservedField
  | 25 =>
      .ok (.vcvt (fld w 23 3) (fld w 18 5) (fld w 13 5) (fld w 8 5) (fld w 5 3) (fld w 0 5))
  | 26 =>
      if has w 0 2 0 then .ok (.vand (fld w 23 3) (fld w 18 5) (fld w 13 5) (fld w 8 5) (fld w 5 3) (fld w 2 3))
      else .error .reservedField
  | 27 =>
      if has w 0 2 0 then .ok (.vor (fld w 23 3) (fld w 18 5) (fld w 13 5) (fld w 8 5) (fld w 5 3) (fld w 2 3))
      else .error .reservedField
  | 28 =>
      if has w 0 2 0 then .ok (.vxor (fld w 23 3) (fld w 18 5) (fld w 13 5) (fld w 8 5) (fld w 5 3) (fld w 2 3))
      else .error .reservedField
  | 29 =>
      .ok (.vlop3 (fld w 23 3) (fld w 18 5) (fld w 13 5) (fld w 8 5) (fld w 0 8))
  | 30 =>
      if has w 0 2 0 then .ok (.vshl (fld w 23 3) (fld w 18 5) (fld w 13 5) (fld w 8 5) (fld w 5 3) (fld w 2 3))
      else .error .reservedField
  | 31 =>
      if has w 0 2 0 then .ok (.vshr (fld w 23 3) (fld w 18 5) (fld w 13 5) (fld w 8 5) (fld w 5 3) (fld w 2 3))
      else .error .reservedField
  | 32 =>
      if has w 0 2 0 then .ok (.vsar (fld w 23 3) (fld w 18 5) (fld w 13 5) (fld w 8 5) (fld w 5 3) (fld w 2 3))
      else .error .reservedField
  | 33 =>
      .ok (.vfshl (fld w 23 3) (fld w 18 5) (fld w 13 5) (fld w 8 5) (fld w 3 5) (fld w 0 3))
  | 34 =>
      .ok (.vfshr (fld w 23 3) (fld w 18 5) (fld w 13 5) (fld w 8 5) (fld w 3 5) (fld w 0 3))
  | 35 =>
      if has w 0 2 0 && has w 8 5 0 then .ok (.vpopc (fld w 23 3) (fld w 18 5) (fld w 13 5) (fld w 5 3) (fld w 2 3))
      else .error .reservedField
  | 36 =>
      if has w 0 2 0 && has w 8 5 0 then .ok (.vclz (fld w 23 3) (fld w 18 5) (fld w 13 5) (fld w 5 3) (fld w 2 3))
      else .error .reservedField
  | 37 =>
      if has w 0 5 20 && has w 8 5 0 then .ok (.vmov (fld w 23 3) (fld w 18 5) (fld w 13 5) (fld w 5 3))
      else if has w 0 2 2 && has w 4 1 0 && has w 12 1 0 && has w 16 2 0 then .ok (.vmovL (fld w 23 3) (fld w 18 5) (fld w 13 3) (fld w 8 4) (fld w 5 3) (fld w 2 2))
      else .error .reservedField
  | 38 =>
      if has w 0 5 20 && has w 12 1 0 then .ok (.vbrow (fld w 23 3) (fld w 18 5) (fld w 13 5) (fld w 8 4) (fld w 5 3))
      else .error .reservedField
  | 39 =>
      if has w 1 4 10 then .ok (.vbcol (fld w 23 3) (fld w 18 5) (fld w 13 5) (fld w 8 5) (fld w 5 3) (fld w 0 1))
      else .error .reservedField
  | 40 =>
      if has w 1 4 10 then .ok (.vrotr (fld w 23 3) (fld w 18 5) (fld w 13 5) (fld w 8 5) (fld w 5 3) (fld w 0 1))
      else .error .reservedField
  | 41 =>
      if has w 0 5 20 && has w 12 1 0 then .ok (.vrotc (fld w 23 3) (fld w 18 5) (fld w 13 5) (fld w 8 4) (fld w 5 3))
      else .error .reservedField
  | 42 =>
      .ok (.vredr (fld w 23 3) (fld w 18 5) (fld w 13 5) (fld w 8 5) (fld w 5 3) (fld w 2 3) (fld w 1 1) (fld w 0 1))
  | 43 =>
      .ok (.vredc (fld w 23 3) (fld w 18 5) (fld w 13 5) (fld w 8 5) (fld w 5 3) (fld w 2 3) (fld w 1 1) (fld w 0 1))
  | 44 =>
      if has w 0 5 20 && has w 8 5 0 then .ok (.vtrn (fld w 23 3) (fld w 18 5) (fld w 13 5) (fld w 5 3))
      else .error .reservedField
  | 45 =>
      if has w 0 5 20 then .ok (.vperm (fld w 23 3) (fld w 18 5) (fld w 13 5) (fld w 8 5) (fld w 5 3))
      else .error .reservedField
  | 46 =>
      if has w 0 2 0 && has w 8 10 0 then .ok (.viota (fld w 23 3) (fld w 18 5) (fld w 5 3) (fld w 2 3))
      else .error .reservedField
  | 47 =>
      if has w 0 2 0 && has w 5 3 0 then .ok (.vins (fld w 23 3) (fld w 18 5) (fld w 13 5) (fld w 8 5) (fld w 2 3))
      else .error .reservedField
  | 48 =>
      if has w 0 1 0 && has w 5 3 0 then .ok (.vext (fld w 23 3) (fld w 18 5) (fld w 13 5) (fld w 8 5) (fld w 2 3) (fld w 1 1))
      else .error .reservedField
  | 49 =>
      if has w 5 8 0 then .ok (.vbmax (fld w 23 3) (fld w 18 5) (fld w 13 5) (fld w 2 3) (fld w 0 2))
      else .error .reservedField
  | 50 =>
      .ok (.vqnt (fld w 23 3) (fld w 18 5) (fld w 13 5) (fld w 8 5) (fld w 7 1) (fld w 5 2) (fld w 2 3) (fld w 0 2))
  | 51 =>
      if has w 7 1 0 then .ok (.vdqnt (fld w 23 3) (fld w 18 5) (fld w 13 5) (fld w 8 5) (fld w 5 2) (fld w 2 3) (fld w 0 2))
      else .error .reservedField
  | 52 =>
      .ok (.vld (fld w 23 3) (fld w 18 5) (fld w 14 4) (fld w 11 3) (fld w 10 1) (fld w 0 10))
  | 53 =>
      if has w 10 4 0 then .ok (.vst (fld w 23 3) (fld w 18 5) (fld w 14 4) (fld w 0 10))
      else .error .reservedField
  | 54 =>
      if has w 0 5 20 && has w 12 1 0 then .ok (.vldx (fld w 23 3) (fld w 18 5) (fld w 13 5) (fld w 8 4) (fld w 5 3))
      else .error .reservedField
  | 55 =>
      if has w 0 5 20 && has w 12 1 0 then .ok (.vstx (fld w 23 3) (fld w 18 5) (fld w 13 5) (fld w 8 4) (fld w 5 3))
      else .error .reservedField
  | 56 =>
      if has w 4 4 0 && has w 11 2 0 && has w 16 2 0 && has w 21 2 0 then .ok (.klog (fld w 23 3) (fld w 18 3) (fld w 13 3) (fld w 8 3) (fld w 2 2) (fld w 0 2))
      else .error .reservedField
  | 57 =>
      if has w 0 8 0 && has w 12 1 0 && has w 21 2 0 then .ok (.kmovToK (fld w 23 3) (fld w 18 3) (fld w 13 5) (fld w 8 4))
      else if has w 0 8 1 && has w 12 1 0 && has w 16 2 0 then .ok (.kmovToX (fld w 23 3) (fld w 18 5) (fld w 13 3) (fld w 8 4))
      else .error .reservedField
  | 58 =>
      if has w 0 5 20 then .ok (.vrng (fld w 23 3) (fld w 18 5) (fld w 13 5) (fld w 8 5) (fld w 5 3))
      else .error .reservedField
  | 59 =>
      if has w 0 5 20 then .ok (.vcadd (fld w 23 3) (fld w 18 5) (fld w 13 5) (fld w 8 5) (fld w 5 3))
      else if has w 0 5 21 then .ok (.vcaddX (fld w 23 3) (fld w 18 5) (fld w 13 5) (fld w 8 5) (fld w 5 3))
      else .error .reservedField
  | 60 =>
      if has w 1 1 0 then .ok (.jseed (fld w 23 3) (fld w 18 5) (fld w 13 5) (fld w 8 5) (fld w 5 3) (fld w 2 3) (fld w 0 1))
      else .error .reservedField
  | 61 =>
      if has w 1 1 0 && has w 11 2 0 then .ok (.jext (fld w 23 3) (fld w 18 5) (fld w 13 5) (fld w 8 3) (fld w 5 3) (fld w 2 3) (fld w 0 1))
      else .error .reservedField
  | 62 =>
      if has w 0 2 0 && has w 8 5 0 then .ok (.jcoefDiff (fld w 23 3) (fld w 18 5) (fld w 13 5) (fld w 5 3) (fld w 2 3))
      else if has w 0 2 1 && has w 11 2 0 then .ok (.jcoefTrunc (fld w 23 3) (fld w 18 5) (fld w 13 5) (fld w 8 3) (fld w 5 3) (fld w 2 3))
      else if has w 0 2 2 then .ok (.jcoefRescale (fld w 23 3) (fld w 18 5) (fld w 13 5) (fld w 8 5) (fld w 5 3) (fld w 2 3))
      else .error .reservedField
  | _ => .error .reservedOpcode

/-- R89: the map of position 3. -/
def decodeE (w : Nat) : Except DecodeError Instr :=
  match w / 2 ^ 26 with
  | 0 => if w == 0 then .ok .nop else .error .reservedField
  | 1 =>
      if has w 0 4 0 && has w 8 5 0 && has w 17 1 0 && has w 22 1 0 then .ok (.mstrm (fld w 23 3) (fld w 18 4) (fld w 13 4) (fld w 4 4))
      else if has w 0 13 1 && has w 22 1 0 then .ok (.mstrmBnd (fld w 23 3) (fld w 18 4) (fld w 13 5))
      else if has w 0 13 2 && has w 17 1 0 then .ok (.mstrmRbnd (fld w 23 3) (fld w 18 5) (fld w 13 4))
      else .error .reservedField
  | 2 =>
      if has w 11 7 0 && has w 20 3 0 then .ok (.mzero (fld w 23 3) (fld w 18 2) (fld w 9 2) (fld w 0 9))
      else .error .reservedField
  | 3 =>
      if has w 2 6 0 && has w 12 1 0 && has w 17 1 0 && has w 20 3 0 then .ok (.mma (fld w 23 3) (fld w 18 2) (fld w 13 4) (fld w 8 4) (fld w 1 1) (fld w 0 1))
      else .error .reservedField
  | 4 =>
      if has w 4 9 0 && has w 20 3 0 then .ok (.mcell (fld w 23 3) (fld w 18 2) (fld w 13 5) (fld w 0 4))
      else .error .reservedField
  | 5 =>
      if has w 0 2 0 && has w 12 1 0 && has w 17 1 0 && has w 20 3 0 then .ok (.mepi (fld w 23 3) (fld w 18 2) (fld w 13 4) (fld w 8 4) (fld w 7 1) (fld w 6 1) (fld w 3 3) (fld w 2 1))
      else .error .reservedField
  | 6 =>
      if has w 2 11 0 && has w 15 3 0 then .ok (.msig (fld w 23 3) (fld w 18 5) (fld w 13 2) (fld w 0 2))
      else .error .reservedField
  | 7 =>
      if has w 0 13 0 && has w 21 2 0 then .ok (.mroute (fld w 23 3) (fld w 18 3) (fld w 13 5))
      else if has w 0 13 1 && has w 16 2 0 then .ok (.mrouteRd (fld w 23 3) (fld w 18 5) (fld w 13 3))
      else .error .reservedField
  | 8 =>
      if has w 4 2 0 && has w 17 1 0 && has w 22 1 0 then .ok (.cpy (fld w 23 3) (fld w 18 4) (fld w 13 4) (fld w 8 5) (fld w 7 1) (fld w 6 1) (fld w 0 4))
      else .error .reservedField
  | 9 =>
      if has w 4 3 0 && has w 17 1 0 && has w 22 1 0 then .ok (.cpy2 (fld w 23 3) (fld w 18 4) (fld w 13 4) (fld w 8 5) (fld w 7 1) (fld w 0 4))
      else .error .reservedField
  | 10 =>
      if has w 4 3 0 && has w 17 1 0 && has w 22 1 0 then .ok (.cpyb (fld w 23 3) (fld w 18 4) (fld w 13 4) (fld w 8 5) (fld w 7 1) (fld w 0 4))
      else .error .reservedField
  | 11 =>
      if has w 4 3 0 && has w 17 1 0 && has w 22 1 0 then .ok (.cpyq (fld w 23 3) (fld w 18 4) (fld w 13 4) (fld w 8 5) (fld w 7 1) (fld w 0 4))
      else .error .reservedField
  | 12 =>
      if has w 4 2 0 && has w 17 1 0 && has w 22 1 0 then .ok (.cpyh (fld w 23 3) (fld w 18 4) (fld w 13 4) (fld w 8 5) (fld w 7 1) (fld w 6 1) (fld w 0 4))
      else .error .reservedField
  | 13 =>
      if has w 4 9 0 && has w 17 1 0 then .ok (.binit (fld w 23 3) (fld w 18 5) (fld w 13 4) (fld w 0 4))
      else .error .reservedField
  | 14 =>
      if has w 8 5 0 && has w 17 6 0 then .ok (.barv (fld w 23 3) (fld w 13 4) (fld w 0 8))
      else .error .reservedField
  | 15 =>
      if has w 0 13 0 && has w 17 1 0 then .ok (.bwait (fld w 23 3) (fld w 18 5) (fld w 13 4))
      else .error .reservedField
  | 16 =>
      if has w 0 13 0 && has w 17 1 0 then .ok (.btest (fld w 23 3) (fld w 18 5) (fld w 13 4))
      else .error .reservedField
  | 17 =>
      if has w 0 13 0 && has w 17 1 0 then .ok (.bexp (fld w 23 3) (fld w 18 5) (fld w 13 4))
      else .error .reservedField
  | 18 =>
      if has w 17 1 0 then .ok (.amo (fld w 23 3) (fld w 18 5) (fld w 13 4) (fld w 8 5) (fld w 4 4) (fld w 3 1) (fld w 0 3))
      else .error .reservedField
  | 19 =>
      if has w 0 4 0 && has w 17 6 0 then .ok (.acell (fld w 23 3) (fld w 13 4) (fld w 8 5) (fld w 4 4))
      else .error .reservedField
  | 20 =>
      if has w 1 3 0 && has w 8 5 0 && has w 17 1 0 then .ok (.acrd (fld w 23 3) (fld w 18 5) (fld w 13 4) (fld w 4 4) (fld w 0 1))
      else .error .reservedField
  | 21 =>
      if has w 0 13 0 && has w 21 2 0 then .ok (.send (fld w 23 3) (fld w 18 3) (fld w 13 5))
      else if has w 4 1 0 && has w 7 6 1 && has w 21 2 0 then .ok (.sendV (fld w 23 3) (fld w 18 3) (fld w 13 5) (fld w 5 2) (fld w 0 4))
      else .error .reservedField
  | 22 =>
      if has w 0 4 0 && has w 6 7 0 && has w 16 2 0 then .ok (.recv (fld w 23 3) (fld w 18 5) (fld w 13 3) (fld w 4 2))
      else if has w 6 7 1 && has w 16 2 0 then .ok (.recvV (fld w 23 3) (fld w 18 5) (fld w 13 3) (fld w 4 2) (fld w 0 4))
      else if has w 0 13 128 && has w 16 7 0 then .ok (.recvDrop (fld w 23 3) (fld w 13 3))
      else .error .reservedField
  | 23 =>
      if has w 0 13 0 && has w 16 2 0 then .ok (.lstat (fld w 23 3) (fld w 18 5) (fld w 13 3))
      else if has w 0 13 1 then .ok (.lstatPort (fld w 23 3) (fld w 18 5) (fld w 13 5))
      else .error .reservedField
  | 24 =>
      if has w 1 12 0 && has w 16 2 0 then .ok (.ltime (fld w 23 3) (fld w 18 5) (fld w 13 3) (fld w 0 1))
      else .error .reservedField
  | 25 =>
      if has w 4 19 0 then .ok (.coll (fld w 23 3) (fld w 0 4))
      else .error .reservedField
  | 26 =>
      if has w 4 9 0 && has w 17 6 0 then .ok (.cdrpLd (fld w 23 3) (fld w 13 4) (fld w 0 4))
      else if has w 4 19 1 then .ok (.cdrpDrop (fld w 23 3) (fld w 0 4))
      else if has w 4 14 2 then .ok (.cdrpSt (fld w 23 3) (fld w 18 5) (fld w 0 4))
      else .error .reservedField
  | _ => .error .reservedOpcode

/-- A slot word in a position (R66). The header (R69) is not an instruction and is taken apart by `decodeHeader`. -/
def decodeSlot (pos : Fin 4) (w : Nat) : Except DecodeError Instr :=
  let r := match pos with
    | 0 => decodeC w
    | 1 => decodeX w
    | 2 => decodeV w
    | 3 => decodeE w
  match r with
  | .ok i => if Machine.legal i then .ok i else .error .badValue
  | .error e => .error e

/-- A bundle's header (R69): DLY, POP, EXT1 and EXT3. -/
structure Header where
  dly  : BitVec 8
  pop  : BitVec 8
  ext1 : BitVec 5
  ext3 : BitVec 5
deriving DecidableEq, Repr

/-- Position 0 holds a header when its opcode is 0x3F. -/
def decodeHeader (w : Nat) : Option Header :=
  if w / 2 ^ 26 == 0x3F then some { dly := fld w 18 8, pop := fld w 10 8, ext1 := fld w 5 5, ext3 := fld w 0 5 } else none

/-- A header's word. -/
def encodeHeader (h : Header) : Nat :=
  0xFC000000 + h.dly.toNat * 2 ^ 18 + h.pop.toNat * 2 ^ 10 + h.ext1.toNat * 2 ^ 5 + h.ext3.toNat

/-- The position of an instruction's class (R66); NOP stands in any position and counts as C, events have none. -/
def Instr.position : Instr → Option (Fin 4)
  | .nop .. | .br .. | .brx .. | .call .. | .ret .. | .loop .. | .loopi .. | .lbrk ..
  | .wait .. | .realign .. | .realignP .. | .realignJoin .. | .csrr .. | .csrw .. | .csrs .. | .csrc ..
  | .fence .. | .launch .. | .exit .. | .yield .. | .trap .. | .rft .. | .rftReplay .. | .rftFault ..
  | .ckpt .. | .ckptOff .. | .drift .. | .cycr .. | .strs .. => some 0
  | .add .. | .sub .. | .mul .. | .mulh .. | .mulhn .. | .div .. | .divn .. | .rem ..
  | .remn .. | .and .. | .or .. | .xor .. | .shl .. | .shr .. | .sar .. | .min ..
  | .max .. | .minn .. | .maxn .. | .addi .. | .andi .. | .ori .. | .xori .. | .shli ..
  | .shri .. | .sari .. | .lop3 .. | .fshl .. | .fshr .. | .clz .. | .popc .. | .sel ..
  | .movi .. | .movhi .. | .cmp .. | .cmpi .. | .plog .. | .aadd .. | .aaddi .. | .amovToA ..
  | .amovToX .. | .ld .. | .st .. | .lda .. | .sta .. => some 1
  | .vadd .. | .vsub .. | .vmul .. | .vfma .. | .vfms .. | .vfnma .. | .vdiv .. | .vsqrt ..
  | .vrsq .. | .vrcp .. | .vmin .. | .vmax .. | .vabs .. | .vneg .. | .vcmp .. | .vsel ..
  | .vexp .. | .vlog .. | .vsin .. | .vcos .. | .vtanh .. | .verf .. | .vsigm .. | .vqtz ..
  | .vcvt .. | .vand .. | .vor .. | .vxor .. | .vlop3 .. | .vshl .. | .vshr .. | .vsar ..
  | .vfshl .. | .vfshr .. | .vpopc .. | .vclz .. | .vmov .. | .vmovL .. | .vbrow .. | .vbcol ..
  | .vrotr .. | .vrotc .. | .vredr .. | .vredc .. | .vtrn .. | .vperm .. | .viota .. | .vins ..
  | .vext .. | .vbmax .. | .vqnt .. | .vdqnt .. | .vld .. | .vst .. | .vldx .. | .vstx ..
  | .klog .. | .kmovToK .. | .kmovToX .. | .vrng .. | .vcadd .. | .vcaddX .. | .jseed .. | .jext ..
  | .jcoefDiff .. | .jcoefTrunc .. | .jcoefRescale .. => some 2
  | .mstrm .. | .mstrmBnd .. | .mstrmRbnd .. | .mzero .. | .mma .. | .mcell .. | .mepi .. | .msig ..
  | .mroute .. | .mrouteRd .. | .cpy .. | .cpy2 .. | .cpyb .. | .cpyq .. | .cpyh .. | .binit ..
  | .barv .. | .bwait .. | .btest .. | .bexp .. | .amo .. | .acell .. | .acrd .. | .send ..
  | .sendV .. | .recv .. | .recvV .. | .recvDrop .. | .lstat .. | .lstatPort .. | .ltime .. | .coll ..
  | .cdrpLd .. | .cdrpDrop .. | .cdrpSt .. => some 3
  | _ => none

/-- A word from its fixed bits and its fields, each with its lowest bit. -/
def asm (m : Nat) (fs : List (Nat × Nat)) : Nat := fs.foldl (fun s f => s + f.1 * 2 ^ f.2) m

/-- The word of a slot instruction (R84 to R89); an event has no word and gives 0. -/
def encode : Instr → Nat
  | .nop => asm 0x0 []
  | .br g o => asm 0x4000000 [(g.toNat, 23), (o.toNat, 0)]
  | .brx g a l => asm 0x8000000 [(g.toNat, 23), (a.toNat, 13), (l.toNat, 0)]
  | .call g o => asm 0xc000000 [(g.toNat, 23), (o.toNat, 0)]
  | .ret g => asm 0x10000000 [(g.toNat, 23)]
  | .loop g e r s a n => asm 0x14000000 [(g.toNat, 23), (e.toNat, 22), (r.toNat, 20), (s.toNat, 18), (a.toNat, 13), (n.toNat, 0)]
  | .loopi g e r s c n => asm 0x18000000 [(g.toNat, 23), (e.toNat, 22), (r.toNat, 20), (s.toNat, 18), (c.toNat, 8), (n.toNat, 0)]
  | .lbrk g => asm 0x1c000000 [(g.toNat, 23)]
  | .wait g s n => asm 0x20000000 [(g.toNat, 23), (s.toNat, 18), (n.toNat, 0)]
  | .realign g d => asm 0x24000000 [(g.toNat, 23), (d.toNat, 18)]
  | .realignP g d => asm 0x24000001 [(g.toNat, 23), (d.toNat, 18)]
  | .realignJoin g d a => asm 0x24000002 [(g.toNat, 23), (d.toNat, 18), (a.toNat, 13)]
  | .csrr g d c => asm 0x28000000 [(g.toNat, 23), (d.toNat, 18), (c.toNat, 0)]
  | .csrw g d a i c => asm 0x2c000000 [(g.toNat, 23), (d.toNat, 18), (a.toNat, 13), (i.toNat, 12), (c.toNat, 0)]
  | .csrs g d a i c => asm 0x30000000 [(g.toNat, 23), (d.toNat, 18), (a.toNat, 13), (i.toNat, 12), (c.toNat, 0)]
  | .csrc g d a i c => asm 0x34000000 [(g.toNat, 23), (d.toNat, 18), (a.toNat, 13), (i.toNat, 12), (c.toNat, 0)]
  | .fence g s k => asm 0x38000000 [(g.toNat, 23), (s.toNat, 4), (k.toNat, 0)]
  | .launch g d a q => asm 0x3c000000 [(g.toNat, 23), (d.toNat, 18), (a.toNat, 13), (q.toNat, 0)]
  | .exit g => asm 0x40000000 [(g.toNat, 23)]
  | .yield g => asm 0x44000000 [(g.toNat, 23)]
  | .trap g n => asm 0x48000000 [(g.toNat, 23), (n.toNat, 0)]
  | .rft g => asm 0x4c000000 [(g.toNat, 23)]
  | .rftReplay g => asm 0x4c000001 [(g.toNat, 23)]
  | .rftFault g => asm 0x4c000002 [(g.toNat, 23)]
  | .ckpt g d a b => asm 0x50000000 [(g.toNat, 23), (d.toNat, 18), (a.toNat, 13), (b.toNat, 8)]
  | .ckptOff g d => asm 0x50000001 [(g.toNat, 23), (d.toNat, 18)]
  | .drift g d s => asm 0x54000001 [(g.toNat, 23), (d.toNat, 18), (s.toNat, 1)]
  | .cycr g d s => asm 0x58000000 [(g.toNat, 23), (d.toNat, 18), (s.toNat, 0)]
  | .strs g d => asm 0x5c000000 [(g.toNat, 23), (d.toNat, 18)]
  | .add g d a b l w => asm 0x4000000 [(g.toNat, 23), (d.toNat, 18), (a.toNat, 13), (b.toNat, 8), (l.toNat, 7), (w.toNat, 4)]
  | .sub g d a b l w => asm 0x8000000 [(g.toNat, 23), (d.toNat, 18), (a.toNat, 13), (b.toNat, 8), (l.toNat, 7), (w.toNat, 4)]
  | .mul g d a b l w => asm 0x10000000 [(g.toNat, 23), (d.toNat, 18), (a.toNat, 13), (b.toNat, 8), (l.toNat, 7), (w.toNat, 4)]
  | .mulh g d a b l w => asm 0x14000000 [(g.toNat, 23), (d.toNat, 18), (a.toNat, 13), (b.toNat, 8), (l.toNat, 7), (w.toNat, 4)]
  | .mulhn g d a b l w => asm 0x18000000 [(g.toNat, 23), (d.toNat, 18), (a.toNat, 13), (b.toNat, 8), (l.toNat, 7), (w.toNat, 4)]
  | .div g d a b l w => asm 0x1c000000 [(g.toNat, 23), (d.toNat, 18), (a.toNat, 13), (b.toNat, 8), (l.toNat, 7), (w.toNat, 4)]
  | .divn g d a b l w => asm 0x20000000 [(g.toNat, 23), (d.toNat, 18), (a.toNat, 13), (b.toNat, 8), (l.toNat, 7), (w.toNat, 4)]
  | .rem g d a b l w => asm 0x24000000 [(g.toNat, 23), (d.toNat, 18), (a.toNat, 13), (b.toNat, 8), (l.toNat, 7), (w.toNat, 4)]
  | .remn g d a b l w => asm 0x28000000 [(g.toNat, 23), (d.toNat, 18), (a.toNat, 13), (b.toNat, 8), (l.toNat, 7), (w.toNat, 4)]
  | .and g d a b l w => asm 0x2c000000 [(g.toNat, 23), (d.toNat, 18), (a.toNat, 13), (b.toNat, 8), (l.toNat, 7), (w.toNat, 4)]
  | .or g d a b l w => asm 0x30000000 [(g.toNat, 23), (d.toNat, 18), (a.toNat, 13), (b.toNat, 8), (l.toNat, 7), (w.toNat, 4)]
  | .xor g d a b l w => asm 0x34000000 [(g.toNat, 23), (d.toNat, 18), (a.toNat, 13), (b.toNat, 8), (l.toNat, 7), (w.toNat, 4)]
  | .shl g d a b l w => asm 0x48000000 [(g.toNat, 23), (d.toNat, 18), (a.toNat, 13), (b.toNat, 8), (l.toNat, 7), (w.toNat, 4)]
  | .shr g d a b l w => asm 0x4c000000 [(g.toNat, 23), (d.toNat, 18), (a.toNat, 13), (b.toNat, 8), (l.toNat, 7), (w.toNat, 4)]
  | .sar g d a b l w => asm 0x50000000 [(g.toNat, 23), (d.toNat, 18), (a.toNat, 13), (b.toNat, 8), (l.toNat, 7), (w.toNat, 4)]
  | .min g d a b l w => asm 0x68000000 [(g.toNat, 23), (d.toNat, 18), (a.toNat, 13), (b.toNat, 8), (l.toNat, 7), (w.toNat, 4)]
  | .max g d a b l w => asm 0x6c000000 [(g.toNat, 23), (d.toNat, 18), (a.toNat, 13), (b.toNat, 8), (l.toNat, 7), (w.toNat, 4)]
  | .minn g d a b l w => asm 0x70000000 [(g.toNat, 23), (d.toNat, 18), (a.toNat, 13), (b.toNat, 8), (l.toNat, 7), (w.toNat, 4)]
  | .maxn g d a b l w => asm 0x74000000 [(g.toNat, 23), (d.toNat, 18), (a.toNat, 13), (b.toNat, 8), (l.toNat, 7), (w.toNat, 4)]
  | .addi g d a i => asm 0xc000000 [(g.toNat, 23), (d.toNat, 18), (a.toNat, 13), (i.toNat, 0)]
  | .andi g d a i => asm 0x38000000 [(g.toNat, 23), (d.toNat, 18), (a.toNat, 13), (i.toNat, 0)]
  | .ori g d a i => asm 0x3c000000 [(g.toNat, 23), (d.toNat, 18), (a.toNat, 13), (i.toNat, 0)]
  | .xori g d a i => asm 0x40000000 [(g.toNat, 23), (d.toNat, 18), (a.toNat, 13), (i.toNat, 0)]
  | .shli g d a i => asm 0x54000000 [(g.toNat, 23), (d.toNat, 18), (a.toNat, 13), (i.toNat, 0)]
  | .shri g d a i => asm 0x58000000 [(g.toNat, 23), (d.toNat, 18), (a.toNat, 13), (i.toNat, 0)]
  | .sari g d a i => asm 0x5c000000 [(g.toNat, 23), (d.toNat, 18), (a.toNat, 13), (i.toNat, 0)]
  | .lop3 g d a b l => asm 0x44000000 [(g.toNat, 23), (d.toNat, 18), (a.toNat, 13), (b.toNat, 8), (l.toNat, 0)]
  | .fshl g d a b s => asm 0x60000000 [(g.toNat, 23), (d.toNat, 18), (a.toNat, 13), (b.toNat, 8), (s.toNat, 0)]
  | .fshr g d a b s => asm 0x64000000 [(g.toNat, 23), (d.toNat, 18), (a.toNat, 13), (b.toNat, 8), (s.toNat, 0)]
  | .clz g d a => asm 0x78000000 [(g.toNat, 23), (d.toNat, 18), (a.toNat, 13)]
  | .popc g d a => asm 0x7c000000 [(g.toNat, 23), (d.toNat, 18), (a.toNat, 13)]
  | .sel g d a b l w c => asm 0x80000000 [(g.toNat, 23), (d.toNat, 18), (a.toNat, 13), (b.toNat, 8), (l.toNat, 7), (w.toNat, 4), (c.toNat, 0)]
  | .movi g d i => asm 0x84000000 [(g.toNat, 23), (d.toNat, 18), (i.toNat, 0)]
  | .movhi g d i => asm 0x88000000 [(g.toNat, 23), (d.toNat, 18), (i.toNat, 0)]
  | .cmp g d a b l w c => asm 0x8c000000 [(g.toNat, 23), (d.toNat, 18), (a.toNat, 13), (b.toNat, 8), (l.toNat, 7), (w.toNat, 4), (c.toNat, 0)]
  | .cmpi g d a c i => asm 0x90000000 [(g.toNat, 23), (d.toNat, 18), (a.toNat, 13), (c.toNat, 10), (i.toNat, 0)]
  | .plog g d a b l => asm 0x94000000 [(g.toNat, 23), (d.toNat, 18), (a.toNat, 13), (b.toNat, 8), (l.toNat, 0)]
  | .aadd g d a b l w => asm 0x98000000 [(g.toNat, 23), (d.toNat, 18), (a.toNat, 13), (b.toNat, 8), (l.toNat, 7), (w.toNat, 4)]
  | .aaddi g d a i => asm 0x9c000000 [(g.toNat, 23), (d.toNat, 18), (a.toNat, 13), (i.toNat, 0)]
  | .amovToA g d a => asm 0xa0000000 [(g.toNat, 23), (d.toNat, 18), (a.toNat, 13)]
  | .amovToX g d a => asm 0xa0000001 [(g.toNat, 23), (d.toNat, 18), (a.toNat, 13)]
  | .ld g d a w s o => asm 0xa4000000 [(g.toNat, 23), (d.toNat, 18), (a.toNat, 13), (w.toNat, 11), (s.toNat, 10), (o.toNat, 0)]
  | .st g d a w o => asm 0xa8000000 [(g.toNat, 23), (d.toNat, 18), (a.toNat, 13), (w.toNat, 11), (o.toNat, 0)]
  | .lda g d a o => asm 0xac001800 [(g.toNat, 23), (d.toNat, 18), (a.toNat, 13), (o.toNat, 0)]
  | .sta g d a o => asm 0xb0001800 [(g.toNat, 23), (d.toNat, 18), (a.toNat, 13), (o.toNat, 0)]
  | .vadd g d a b k f j s => asm 0x4000000 [(g.toNat, 23), (d.toNat, 18), (a.toNat, 13), (b.toNat, 8), (k.toNat, 5), (f.toNat, 2), (j.toNat, 1), (s.toNat, 0)]
  | .vsub g d a b k f j s => asm 0x8000000 [(g.toNat, 23), (d.toNat, 18), (a.toNat, 13), (b.toNat, 8), (k.toNat, 5), (f.toNat, 2), (j.toNat, 1), (s.toNat, 0)]
  | .vmul g d a b k f j s => asm 0xc000000 [(g.toNat, 23), (d.toNat, 18), (a.toNat, 13), (b.toNat, 8), (k.toNat, 5), (f.toNat, 2), (j.toNat, 1), (s.toNat, 0)]
  | .vfma g d a b c f => asm 0x10000000 [(g.toNat, 23), (d.toNat, 18), (a.toNat, 13), (b.toNat, 8), (c.toNat, 3), (f.toNat, 0)]
  | .vfms g d a b c f => asm 0x14000000 [(g.toNat, 23), (d.toNat, 18), (a.toNat, 13), (b.toNat, 8), (c.toNat, 3), (f.toNat, 0)]
  | .vfnma g d a b c f => asm 0x18000000 [(g.toNat, 23), (d.toNat, 18), (a.toNat, 13), (b.toNat, 8), (c.toNat, 3), (f.toNat, 0)]
  | .vdiv g d a b k f j => asm 0x1c000000 [(g.toNat, 23), (d.toNat, 18), (a.toNat, 13), (b.toNat, 8), (k.toNat, 5), (f.toNat, 2), (j.toNat, 1)]
  | .vsqrt g d a k f j => asm 0x20000000 [(g.toNat, 23), (d.toNat, 18), (a.toNat, 13), (k.toNat, 5), (f.toNat, 2), (j.toNat, 1)]
  | .vrsq g d a k f j => asm 0x24000000 [(g.toNat, 23), (d.toNat, 18), (a.toNat, 13), (k.toNat, 5), (f.toNat, 2), (j.toNat, 1)]
  | .vrcp g d a k f j => asm 0x28000000 [(g.toNat, 23), (d.toNat, 18), (a.toNat, 13), (k.toNat, 5), (f.toNat, 2), (j.toNat, 1)]
  | .vmin g d a b k f j => asm 0x2c000000 [(g.toNat, 23), (d.toNat, 18), (a.toNat, 13), (b.toNat, 8), (k.toNat, 5), (f.toNat, 2), (j.toNat, 1)]
  | .vmax g d a b k f j => asm 0x30000000 [(g.toNat, 23), (d.toNat, 18), (a.toNat, 13), (b.toNat, 8), (k.toNat, 5), (f.toNat, 2), (j.toNat, 1)]
  | .vabs g d a k f j s => asm 0x34000000 [(g.toNat, 23), (d.toNat, 18), (a.toNat, 13), (k.toNat, 5), (f.toNat, 2), (j.toNat, 1), (s.toNat, 0)]
  | .vneg g d a k f j s => asm 0x38000000 [(g.toNat, 23), (d.toNat, 18), (a.toNat, 13), (k.toNat, 5), (f.toNat, 2), (j.toNat, 1), (s.toNat, 0)]
  | .vcmp g d a b c f u y => asm 0x3c000000 [(g.toNat, 23), (d.toNat, 18), (a.toNat, 13), (b.toNat, 8), (c.toNat, 5), (f.toNat, 2), (u.toNat, 1), (y.toNat, 0)]
  | .vsel g d a b k f j => asm 0x40000000 [(g.toNat, 23), (d.toNat, 18), (a.toNat, 13), (b.toNat, 8), (k.toNat, 5), (f.toNat, 2), (j.toNat, 1)]
  | .vexp g d a k j => asm 0x44000000 [(g.toNat, 23), (d.toNat, 18), (a.toNat, 13), (k.toNat, 5), (j.toNat, 1)]
  | .vlog g d a k j => asm 0x48000000 [(g.toNat, 23), (d.toNat, 18), (a.toNat, 13), (k.toNat, 5), (j.toNat, 1)]
  | .vsin g d a k j => asm 0x4c000000 [(g.toNat, 23), (d.toNat, 18), (a.toNat, 13), (k.toNat, 5), (j.toNat, 1)]
  | .vcos g d a k j => asm 0x50000000 [(g.toNat, 23), (d.toNat, 18), (a.toNat, 13), (k.toNat, 5), (j.toNat, 1)]
  | .vtanh g d a k j => asm 0x54000000 [(g.toNat, 23), (d.toNat, 18), (a.toNat, 13), (k.toNat, 5), (j.toNat, 1)]
  | .verf g d a k j => asm 0x58000000 [(g.toNat, 23), (d.toNat, 18), (a.toNat, 13), (k.toNat, 5), (j.toNat, 1)]
  | .vsigm g d a k j => asm 0x5c000000 [(g.toNat, 23), (d.toNat, 18), (a.toNat, 13), (k.toNat, 5), (j.toNat, 1)]
  | .vqtz g d a b k => asm 0x60000010 [(g.toNat, 23), (d.toNat, 18), (a.toNat, 13), (b.toNat, 8), (k.toNat, 5)]
  | .vcvt g d a s k t => asm 0x64000000 [(g.toNat, 23), (d.toNat, 18), (a.toNat, 13), (s.toNat, 8), (k.toNat, 5), (t.toNat, 0)]
  | .vand g d a b k f => asm 0x68000000 [(g.toNat, 23), (d.toNat, 18), (a.toNat, 13), (b.toNat, 8), (k.toNat, 5), (f.toNat, 2)]
  | .vor g d a b k f => asm 0x6c000000 [(g.toNat, 23), (d.toNat, 18), (a.toNat, 13), (b.toNat, 8), (k.toNat, 5), (f.toNat, 2)]
  | .vxor g d a b k f => asm 0x70000000 [(g.toNat, 23), (d.toNat, 18), (a.toNat, 13), (b.toNat, 8), (k.toNat, 5), (f.toNat, 2)]
  | .vlop3 g d a b l => asm 0x74000000 [(g.toNat, 23), (d.toNat, 18), (a.toNat, 13), (b.toNat, 8), (l.toNat, 0)]
  | .vshl g d a b k f => asm 0x78000000 [(g.toNat, 23), (d.toNat, 18), (a.toNat, 13), (b.toNat, 8), (k.toNat, 5), (f.toNat, 2)]
  | .vshr g d a b k f => asm 0x7c000000 [(g.toNat, 23), (d.toNat, 18), (a.toNat, 13), (b.toNat, 8), (k.toNat, 5), (f.toNat, 2)]
  | .vsar g d a b k f => asm 0x80000000 [(g.toNat, 23), (d.toNat, 18), (a.toNat, 13), (b.toNat, 8), (k.toNat, 5), (f.toNat, 2)]
  | .vfshl g d a b c f => asm 0x84000000 [(g.toNat, 23), (d.toNat, 18), (a.toNat, 13), (b.toNat, 8), (c.toNat, 3), (f.toNat, 0)]
  | .vfshr g d a b c f => asm 0x88000000 [(g.toNat, 23), (d.toNat, 18), (a.toNat, 13), (b.toNat, 8), (c.toNat, 3), (f.toNat, 0)]
  | .vpopc g d a k f => asm 0x8c000000 [(g.toNat, 23), (d.toNat, 18), (a.toNat, 13), (k.toNat, 5), (f.toNat, 2)]
  | .vclz g d a k f => asm 0x90000000 [(g.toNat, 23), (d.toNat, 18), (a.toNat, 13), (k.toNat, 5), (f.toNat, 2)]
  | .vmov g d a k => asm 0x94000014 [(g.toNat, 23), (d.toNat, 18), (a.toNat, 13), (k.toNat, 5)]
  | .vmovL g d q r k t => asm 0x94000002 [(g.toNat, 23), (d.toNat, 18), (q.toNat, 13), (r.toNat, 8), (k.toNat, 5), (t.toNat, 2)]
  | .vbrow g d a n k => asm 0x98000014 [(g.toNat, 23), (d.toNat, 18), (a.toNat, 13), (n.toNat, 8), (k.toNat, 5)]
  | .vbcol g d a n k h => asm 0x9c000014 [(g.toNat, 23), (d.toNat, 18), (a.toNat, 13), (n.toNat, 8), (k.toNat, 5), (h.toNat, 0)]
  | .vrotr g d a n k h => asm 0xa0000014 [(g.toNat, 23), (d.toNat, 18), (a.toNat, 13), (n.toNat, 8), (k.toNat, 5), (h.toNat, 0)]
  | .vrotc g d a n k => asm 0xa4000014 [(g.toNat, 23), (d.toNat, 18), (a.toNat, 13), (n.toNat, 8), (k.toNat, 5)]
  | .vredr g d a o k f j s => asm 0xa8000000 [(g.toNat, 23), (d.toNat, 18), (a.toNat, 13), (o.toNat, 8), (k.toNat, 5), (f.toNat, 2), (j.toNat, 1), (s.toNat, 0)]
  | .vredc g d a o k f j s => asm 0xac000000 [(g.toNat, 23), (d.toNat, 18), (a.toNat, 13), (o.toNat, 8), (k.toNat, 5), (f.toNat, 2), (j.toNat, 1), (s.toNat, 0)]
  | .vtrn g d a k => asm 0xb0000014 [(g.toNat, 23), (d.toNat, 18), (a.toNat, 13), (k.toNat, 5)]
  | .vperm g d a b k => asm 0xb4000014 [(g.toNat, 23), (d.toNat, 18), (a.toNat, 13), (b.toNat, 8), (k.toNat, 5)]
  | .viota g d k f => asm 0xb8000000 [(g.toNat, 23), (d.toNat, 18), (k.toNat, 5), (f.toNat, 2)]
  | .vins g d a b f => asm 0xbc000000 [(g.toNat, 23), (d.toNat, 18), (a.toNat, 13), (b.toNat, 8), (f.toNat, 2)]
  | .vext g d a b f u => asm 0xc0000000 [(g.toNat, 23), (d.toNat, 18), (a.toNat, 13), (b.toNat, 8), (f.toNat, 2), (u.toNat, 1)]
  | .vbmax g d a f t => asm 0xc4000000 [(g.toNat, 23), (d.toNat, 18), (a.toNat, 13), (f.toNat, 2), (t.toNat, 0)]
  | .vqnt g d a b s p f t => asm 0xc8000000 [(g.toNat, 23), (d.toNat, 18), (a.toNat, 13), (b.toNat, 8), (s.toNat, 7), (p.toNat, 5), (f.toNat, 2), (t.toNat, 0)]
  | .vdqnt g d a b p f s => asm 0xcc000000 [(g.toNat, 23), (d.toNat, 18), (a.toNat, 13), (b.toNat, 8), (p.toNat, 5), (f.toNat, 2), (s.toNat, 0)]
  | .vld g d a k m o => asm 0xd0000000 [(g.toNat, 23), (d.toNat, 18), (a.toNat, 14), (k.toNat, 11), (m.toNat, 10), (o.toNat, 0)]
  | .vst g d a o => asm 0xd4000000 [(g.toNat, 23), (d.toNat, 18), (a.toNat, 14), (o.toNat, 0)]
  | .vldx g d s b k => asm 0xd8000014 [(g.toNat, 23), (d.toNat, 18), (s.toNat, 13), (b.toNat, 8), (k.toNat, 5)]
  | .vstx g d s b k => asm 0xdc000014 [(g.toNat, 23), (d.toNat, 18), (s.toNat, 13), (b.toNat, 8), (k.toNat, 5)]
  | .klog g d a b l m => asm 0xe0000000 [(g.toNat, 23), (d.toNat, 18), (a.toNat, 13), (b.toNat, 8), (l.toNat, 2), (m.toNat, 0)]
  | .kmovToK g d a r => asm 0xe4000000 [(g.toNat, 23), (d.toNat, 18), (a.toNat, 13), (r.toNat, 8)]
  | .kmovToX g d a r => asm 0xe4000001 [(g.toNat, 23), (d.toNat, 18), (a.toNat, 13), (r.toNat, 8)]
  | .vrng g d a b k => asm 0xe8000014 [(g.toNat, 23), (d.toNat, 18), (a.toNat, 13), (b.toNat, 8), (k.toNat, 5)]
  | .vcadd g d a b k => asm 0xec000014 [(g.toNat, 23), (d.toNat, 18), (a.toNat, 13), (b.toNat, 8), (k.toNat, 5)]
  | .vcaddX g d a b k => asm 0xec000015 [(g.toNat, 23), (d.toNat, 18), (a.toNat, 13), (b.toNat, 8), (k.toNat, 5)]
  | .jseed g d a b k f s => asm 0xf0000000 [(g.toNat, 23), (d.toNat, 18), (a.toNat, 13), (b.toNat, 8), (k.toNat, 5), (f.toNat, 2), (s.toNat, 0)]
  | .jext g d a n k f c => asm 0xf4000000 [(g.toNat, 23), (d.toNat, 18), (a.toNat, 13), (n.toNat, 8), (k.toNat, 5), (f.toNat, 2), (c.toNat, 0)]
  | .jcoefDiff g d a k f => asm 0xf8000000 [(g.toNat, 23), (d.toNat, 18), (a.toNat, 13), (k.toNat, 5), (f.toNat, 2)]
  | .jcoefTrunc g d a m k f => asm 0xf8000001 [(g.toNat, 23), (d.toNat, 18), (a.toNat, 13), (m.toNat, 8), (k.toNat, 5), (f.toNat, 2)]
  | .jcoefRescale g d a b k f => asm 0xf8000002 [(g.toNat, 23), (d.toNat, 18), (a.toNat, 13), (b.toNat, 8), (k.toNat, 5), (f.toNat, 2)]
  | .mstrm g d a f => asm 0x4000000 [(g.toNat, 23), (d.toNat, 18), (a.toNat, 13), (f.toNat, 4)]
  | .mstrmBnd g d a => asm 0x4000001 [(g.toNat, 23), (d.toNat, 18), (a.toNat, 13)]
  | .mstrmRbnd g d a => asm 0x4000002 [(g.toNat, 23), (d.toNat, 18), (a.toNat, 13)]
  | .mzero g t i a => asm 0x8000000 [(g.toNat, 23), (t.toNat, 18), (i.toNat, 9), (a.toNat, 0)]
  | .mma g t a b j r => asm 0xc000000 [(g.toNat, 23), (t.toNat, 18), (a.toNat, 13), (b.toNat, 8), (j.toNat, 1), (r.toNat, 0)]
  | .mcell g t a n => asm 0x10000000 [(g.toNat, 23), (t.toNat, 18), (a.toNat, 13), (n.toNat, 0)]
  | .mepi g t o b c r e l => asm 0x14000000 [(g.toNat, 23), (t.toNat, 18), (o.toNat, 13), (b.toNat, 8), (c.toNat, 7), (r.toNat, 6), (e.toNat, 3), (l.toNat, 2)]
  | .msig g d t s => asm 0x18000000 [(g.toNat, 23), (d.toNat, 18), (t.toNat, 13), (s.toNat, 0)]
  | .mroute g d a => asm 0x1c000000 [(g.toNat, 23), (d.toNat, 18), (a.toNat, 13)]
  | .mrouteRd g d a => asm 0x1c000001 [(g.toNat, 23), (d.toNat, 18), (a.toNat, 13)]
  | .cpy g d a b z s c => asm 0x20000000 [(g.toNat, 23), (d.toNat, 18), (a.toNat, 13), (b.toNat, 8), (z.toNat, 7), (s.toNat, 6), (c.toNat, 0)]
  | .cpy2 g d a b z c => asm 0x24000000 [(g.toNat, 23), (d.toNat, 18), (a.toNat, 13), (b.toNat, 8), (z.toNat, 7), (c.toNat, 0)]
  | .cpyb g d a b z c => asm 0x28000000 [(g.toNat, 23), (d.toNat, 18), (a.toNat, 13), (b.toNat, 8), (z.toNat, 7), (c.toNat, 0)]
  | .cpyq g d a b z c => asm 0x2c000000 [(g.toNat, 23), (d.toNat, 18), (a.toNat, 13), (b.toNat, 8), (z.toNat, 7), (c.toNat, 0)]
  | .cpyh g d a b z h c => asm 0x30000000 [(g.toNat, 23), (d.toNat, 18), (a.toNat, 13), (b.toNat, 8), (z.toNat, 7), (h.toNat, 6), (c.toNat, 0)]
  | .binit g d a s => asm 0x34000000 [(g.toNat, 23), (d.toNat, 18), (a.toNat, 13), (s.toNat, 0)]
  | .barv g a n => asm 0x38000000 [(g.toNat, 23), (a.toNat, 13), (n.toNat, 0)]
  | .bwait g d a => asm 0x3c000000 [(g.toNat, 23), (d.toNat, 18), (a.toNat, 13)]
  | .btest g d a => asm 0x40000000 [(g.toNat, 23), (d.toNat, 18), (a.toNat, 13)]
  | .bexp g d a => asm 0x44000000 [(g.toNat, 23), (d.toNat, 18), (a.toNat, 13)]
  | .amo g d a b s z o => asm 0x48000000 [(g.toNat, 23), (d.toNat, 18), (a.toNat, 13), (b.toNat, 8), (s.toNat, 4), (z.toNat, 3), (o.toNat, 0)]
  | .acell g a b s => asm 0x4c000000 [(g.toNat, 23), (a.toNat, 13), (b.toNat, 8), (s.toNat, 4)]
  | .acrd g d a s c => asm 0x50000000 [(g.toNat, 23), (d.toNat, 18), (a.toNat, 13), (s.toNat, 4), (c.toNat, 0)]
  | .send g d a => asm 0x54000000 [(g.toNat, 23), (d.toNat, 18), (a.toNat, 13)]
  | .sendV g d a q r => asm 0x54000080 [(g.toNat, 23), (d.toNat, 18), (a.toNat, 13), (q.toNat, 5), (r.toNat, 0)]
  | .recv g d a s => asm 0x58000000 [(g.toNat, 23), (d.toNat, 18), (a.toNat, 13), (s.toNat, 4)]
  | .recvV g d a q r => asm 0x58000040 [(g.toNat, 23), (d.toNat, 18), (a.toNat, 13), (q.toNat, 4), (r.toNat, 0)]
  | .recvDrop g a => asm 0x58000080 [(g.toNat, 23), (a.toNat, 13)]
  | .lstat g d a => asm 0x5c000000 [(g.toNat, 23), (d.toNat, 18), (a.toNat, 13)]
  | .lstatPort g d a => asm 0x5c000001 [(g.toNat, 23), (d.toNat, 18), (a.toNat, 13)]
  | .ltime g d a r => asm 0x60000000 [(g.toNat, 23), (d.toNat, 18), (a.toNat, 13), (r.toNat, 0)]
  | .coll g e => asm 0x64000000 [(g.toNat, 23), (e.toNat, 0)]
  | .cdrpLd g a e => asm 0x68000000 [(g.toNat, 23), (a.toNat, 13), (e.toNat, 0)]
  | .cdrpDrop g e => asm 0x68000010 [(g.toNat, 23), (e.toNat, 0)]
  | .cdrpSt g d e => asm 0x68000020 [(g.toNat, 23), (d.toNat, 18), (e.toNat, 0)]
  | _ => 0

/-- How many bits of the word the instruction's row fixes, to choose among positions where a bare word is asked for. -/
def fixedBits : Instr → Nat
  | .nop .. => 32
  | .br .. => 6
  | .brx .. => 23
  | .call .. => 6
  | .ret .. => 29
  | .loop .. => 6
  | .loopi .. => 6
  | .lbrk .. => 29
  | .wait .. => 6
  | .realign .. => 24
  | .realignP .. => 24
  | .realignJoin .. => 19
  | .csrr .. => 12
  | .csrw .. => 6
  | .csrs .. => 6
  | .csrc .. => 6
  | .fence .. => 23
  | .launch .. => 14
  | .exit .. => 29
  | .yield .. => 29
  | .trap .. => 21
  | .rft .. => 29
  | .rftReplay .. => 29
  | .rftFault .. => 29
  | .ckpt .. => 14
  | .ckptOff .. => 24
  | .drift .. => 23
  | .cycr .. => 22
  | .strs .. => 24
  | .add .. => 10
  | .sub .. => 10
  | .mul .. => 10
  | .mulh .. => 10
  | .mulhn .. => 10
  | .div .. => 10
  | .divn .. => 10
  | .rem .. => 10
  | .remn .. => 10
  | .and .. => 10
  | .or .. => 10
  | .xor .. => 10
  | .shl .. => 10
  | .shr .. => 10
  | .sar .. => 10
  | .min .. => 10
  | .max .. => 10
  | .minn .. => 10
  | .maxn .. => 10
  | .addi .. => 6
  | .andi .. => 6
  | .ori .. => 6
  | .xori .. => 6
  | .shli .. => 6
  | .shri .. => 6
  | .sari .. => 6
  | .lop3 .. => 6
  | .fshl .. => 8
  | .fshr .. => 8
  | .clz .. => 19
  | .popc .. => 19
  | .sel .. => 7
  | .movi .. => 6
  | .movhi .. => 6
  | .cmp .. => 8
  | .cmpi .. => 8
  | .plog .. => 16
  | .aadd .. => 12
  | .aaddi .. => 8
  | .amovToA .. => 20
  | .amovToX .. => 20
  | .ld .. => 7
  | .st .. => 8
  | .lda .. => 11
  | .sta .. => 11
  | .vadd .. => 6
  | .vsub .. => 6
  | .vmul .. => 6
  | .vfma .. => 6
  | .vfms .. => 6
  | .vfnma .. => 6
  | .vdiv .. => 7
  | .vsqrt .. => 12
  | .vrsq .. => 12
  | .vrcp .. => 12
  | .vmin .. => 7
  | .vmax .. => 7
  | .vabs .. => 11
  | .vneg .. => 11
  | .vcmp .. => 8
  | .vsel .. => 7
  | .vexp .. => 15
  | .vlog .. => 15
  | .vsin .. => 15
  | .vcos .. => 15
  | .vtanh .. => 15
  | .verf .. => 15
  | .vsigm .. => 15
  | .vqtz .. => 11
  | .vcvt .. => 6
  | .vand .. => 8
  | .vor .. => 8
  | .vxor .. => 8
  | .vlop3 .. => 6
  | .vshl .. => 8
  | .vshr .. => 8
  | .vsar .. => 8
  | .vfshl .. => 6
  | .vfshr .. => 6
  | .vpopc .. => 13
  | .vclz .. => 13
  | .vmov .. => 16
  | .vmovL .. => 12
  | .vbrow .. => 12
  | .vbcol .. => 10
  | .vrotr .. => 10
  | .vrotc .. => 12
  | .vredr .. => 6
  | .vredc .. => 6
  | .vtrn .. => 16
  | .vperm .. => 11
  | .viota .. => 18
  | .vins .. => 11
  | .vext .. => 10
  | .vbmax .. => 14
  | .vqnt .. => 6
  | .vdqnt .. => 7
  | .vld .. => 6
  | .vst .. => 10
  | .vldx .. => 12
  | .vstx .. => 12
  | .klog .. => 16
  | .kmovToK .. => 17
  | .kmovToX .. => 17
  | .vrng .. => 11
  | .vcadd .. => 11
  | .vcaddX .. => 11
  | .jseed .. => 7
  | .jext .. => 9
  | .jcoefDiff .. => 13
  | .jcoefTrunc .. => 10
  | .jcoefRescale .. => 8
  | .mstrm .. => 17
  | .mstrmBnd .. => 20
  | .mstrmRbnd .. => 20
  | .mzero .. => 16
  | .mma .. => 17
  | .mcell .. => 18
  | .mepi .. => 13
  | .msig .. => 20
  | .mroute .. => 21
  | .mrouteRd .. => 21
  | .cpy .. => 10
  | .cpy2 .. => 11
  | .cpyb .. => 11
  | .cpyq .. => 11
  | .cpyh .. => 10
  | .binit .. => 16
  | .barv .. => 17
  | .bwait .. => 20
  | .btest .. => 20
  | .bexp .. => 20
  | .amo .. => 7
  | .acell .. => 16
  | .acrd .. => 15
  | .send .. => 21
  | .sendV .. => 15
  | .recv .. => 19
  | .recvV .. => 15
  | .recvDrop .. => 26
  | .lstat .. => 21
  | .lstatPort .. => 19
  | .ltime .. => 20
  | .coll .. => 25
  | .cdrpLd .. => 21
  | .cdrpDrop .. => 25
  | .cdrpSt .. => 20
  | _ => 0

/-- The instruction that a bare word stands for when no position is given: among the positions whose map accepts it, the
one whose row fixes the most bits, and of equals C before E before V before X. (DESIGN CHOICE: the spec reads a word only in
a position, log 7.) -/
def decodeAny (w : Nat) : Option (Fin 4 × Instr) :=
  let cands := [(0 : Fin 4), 3, 2, 1].filterMap fun p =>
    match decodeSlot p w with
    | .ok i => some (p, i)
    | .error _ => none
  cands.foldl (fun best c => match best with
    | none => some c
    | some b => if fixedBits b.2 < fixedBits c.2 then some c else some b) none

/-- The instruction that the decoder reads from a slot word; a slot has 32 bits, and bits above are ignored when 0. -/
def decodeTableWord (nbits w : Nat) : Option Instr :=
  if nbits ≤ 32 ∧ w < 2 ^ 32 then (decodeAny w).map (·.2) else none

end Sys2Proof
end

