-- ==== Sys2Proof/Config.lean ====
section
/-! DEFINITION. The values that the spec leaves open. Each is an opaque constant without a body: nothing in Lean can
evaluate it, so whatever is proved holds for every value. They are applied to the counter `free` of the state, which
every use advances, or to the operands they depend on. Each is a DESIGN CHOICE of the entry of notes/assumptions that it names. -/
namespace Sys2Proof.Config

/-- Cycles that a page-table walk of a PACED command takes (R347: not fixed) (log 13). -/
opaque walkDelay : Nat → Nat
/-- Where in its 600 to 2,000 cycles a correction fetch delivers (R349: not fixed) (log 14). -/
opaque fixDelay : Nat → Nat
/-- Cycles of a scrub, up to 1.2 ms (R122) (log 15). -/
opaque scrubDelay : Nat → Nat
/-- Cycles for which an invalidation stays BUSY (R455) (log 16). -/
opaque invalDelay : Nat → Nat
/-- Cycles until a host request completes (R367, R374: no fixed latency) (log 18). -/
opaque hostDelay : Nat → Nat
/-- Cycles that pinning and loading take after placement (R158) (log 19). -/
opaque loadDelay : Nat → Nat
/-- Which of a die's cached translations makes room for a new one (R343 names none) (log 147). -/
opaque evict : Nat → Nat
/-- The device address that the CRC of a parity sector covers (R348: it lies in its stack's reserved region) (log 148). -/
opaque parityAt : Nat → Nat → Nat
/-- The order in which free cores are granted (R137 names none): a key for each use and core (log 20). -/
opaque coreKey : Nat → Nat → Nat
/-- Whether an access between a change of a page table and the end of its invalidation uses the cached translation (R343) (log 17). -/
opaque useCached : Nat → Bool
/-- Temperatures of the dies and the module's power, as PLDM reports them (R461) (log 21). -/
opaque sensor : Nat → Nat
/-- The bytes of an SPDM answer to a request of this kind with these request bytes (R463: fixed from reset to reset) (log 22). -/
opaque spdm : Nat → Nat → Nat
/-- The part of a firmware image that is the boot firmware, the runtime firmware and the firmware configuration, and the SHA-384 of bytes, which
R463 names and does not define (log 150). -/
opaque stage : Nat → List (BitVec 8) → List (BitVec 8)
opaque sha384 : List (BitVec 8) → BitVec 384
/-- ASTAT after an ASSIGN to a function that is not enabled (R119, R456 give none) (log 151). -/
opaque astat : Nat → Nat
/-- Cycles of bring-up, up to 1 s, for which configuration requests are answered with retry status (R464) (log 23). -/
opaque bringUp : Nat → Nat
/-- The value that a configuration request returns (R451, R464) (log 24). -/
opaque configValue : Nat → Nat → BitVec 64
/-- What the other parts of a REALIGN.join bring (R171): the greatest TT among them, the sum of their COUNTs, and the sum of
the COUNTs of the lower-indexed ones. They stand on other packages (log 25). -/
opaque joinTT : Nat → Nat
opaque joinCount : Nat → Nat
opaque joinLower : Nat → Nat

/-- The port by which a package is reached, and what the path to it adds to a route's LLAT before the guard (R396: set by
firmware from what it measures). The first argument counts the times a port has entered TIMED (log 26, 27). -/
opaque portOf : Nat → Nat
opaque pathDelay : Nat → Nat → Nat
/-- The largest round trip that a port measures in ALIGNING (R396) (log 28). -/
opaque roundTrip : Nat → Nat
/-- The fields of an event entry that the spec does not give for its kind (R460) (log 29). -/
opaque eventField : Nat → Nat → Nat
/-- The payload of an acknowledgement flit (R417 gives none) (log 30). -/
opaque ackFlit : Nat → BitVec 512

end Sys2Proof.Config
end

