-- ==== Sys2Proof/Machine/State.lean ====
section
/-! DEFINITION. The state of the package as plain data: every register, memory, queue, table and transfer in
progress that the spec gives the machine (R12 to R24, R115 to R153, R173 to R185, R284 to R289, R313, R330 to R358,
R399 to R411, R427 to R446, R451 to R464), the agenda of effects and events that are still to come, and the machine
right after reset. Everything that computes on it stands in the other files of this folder. -/
namespace Sys2Proof.Machine

/-- A memory: (address, byte) pairs with rising addresses; an address not listed reads 0, and no listed byte is 0. That it reads 0
is a DESIGN CHOICE where the spec gives no contents (log 3). -/
abbrev Mem := List Host.Cell

/-- Why a step stops with a fault. No meaning of an instruction or event raises one. -/
inductive Fault where
  /-- An entry of the inbox is no input: nothing outside the machine brings a slot instruction or an event of the machine's own. Raised
  by State.doWork alone, in a state that no run from inputs reaches. Safe (log 140). -/
  | notEnabled
deriving DecidableEq, Repr

/-- Why a step is refused. -/
inductive Refusal where
  /-- The instruction has no meaning in this model yet. Raised by exec's arms only. Safe. -/
  | notModelled (mnemonic : String)
deriving DecidableEq, Repr

/-! ## The strand (R173 to R185) -/

/-- Privilege levels (R127). -/
inductive Level where
  | user | super | firm
deriving DecidableEq, Repr

/-- Whether a strand exists for issue: IDLE, live (READY, RUNNING, BLOCKED or TRAPPED by R176 and R177) or SAVED. -/
inductive Life where
  | idle | live | saved
deriving DecidableEq, Repr

/-- A pending transfer of control (R81): its target, the address of the bundle that made it (R82), and its order number. -/
structure Transfer where
  target : Word
  source : Nat
  order  : Nat
deriving DecidableEq, Repr

/-- What a strand waits for beyond its earliest cycle. -/
inductive Wait where
  /-- nothing -/
  | none
  /-- a REALIGN issued at this CYC and TT: destination, whether .p (R170) -/
  | realign (d : BitVec 5) (p : Bool) (cyc tt : Nat)
  /-- a REALIGN.join with its join word, the issue CYC and the issue TT (R171) -/
  | join (d : BitVec 5) (word : Word) (cyc tt : Nat)
  /-- stopped at a saving REALIGN.p; on resumption Xd receives the release bell (R170, R448) -/
  | saving (d : BitVec 5)
  /-- the completion of a host AtomicOp (R374): the command's id -/
  | hostAmo (id : Nat)
  /-- an RFT that waits for E-class returns (R439); whether .replay -/
  | rft (replay : Bool)
  /-- a FENCE (R386): the scope, whether it waits for performing, for results, and for flushed host writes, and
  the order number before which accesses count -/
  | fence (scope : Nat) (rel acq full : Bool) (before : Nat)
deriving DecidableEq, Repr

/-- The scale latch that VBMAX fills and VQNT reads (R257, R445): 64 scale bytes, source and target codes, valid. -/
structure Latch where
  scales : BitVec 512
  src    : BitVec 2
  tgt    : BitVec 2
  valid  : Bool
deriving DecidableEq, Repr

/-- The CSRs of a strand that hold a value of their own (R179 to R185). CYC, TT, SLIP, GMEM, STRID, CTX, PRE, HEALTH and
DRIFTOFS are read from where the machine keeps them. -/
structure Csrs where
  fcr    : Word
  fsr    : Word
  jcr    : Word
  jfl    : Word
  fte    : Word
  qstat  : Word
  tvec   : Word
  tcause : Word
  tpc    : Word
  npc    : Word
  tslot  : Word
  tcoef  : Word
  taddr  : Word
  ttt    : Word
  dlt    : Vector Word 64
  lps    : Vector Word 4
  lit    : Vector Word 4
deriving DecidableEq, Repr

/-- A masked write of one physical vector register: the bits of val under mask (R215). -/
structure VWrite where
  reg  : Nat
  mask : VImg
  val  : VImg
deriving DecidableEq, Repr

/-- A hardware update of the flag CSRs (R181, R182): bits ORed into FSR, JFL and QSTAT[4:0], and increments of the five
QSTAT counts from NZERO up. -/
structure HwFlags where
  fsr    : Word
  jfl    : Word
  qflags : Word
  counts : List Nat
deriving DecidableEq, Repr

/-- A trap to be raised: cause (R427), TADDR, and the coefficient when it names one (R275). -/
structure TrapInfo where
  cause : Nat
  taddr : Word
  coef  : Option (Fin 8)
deriving DecidableEq, Repr

/-- A trap with the slot it falls on: position, bundle, the trap, its instruction's order number (R430), and the rotating ring under
which the bundle issued (R193). -/
structure Pend where
  slot  : Fin 4
  pc    : Nat
  info  : TrapInfo
  order : Nat
  ring  : Nat × Nat
deriving DecidableEq, Repr

/-- A slot that RFT.replay has left to be issued again (R439): its bundle and position, the ring under which it first issued (R193),
and the first cycle in which it may issue. -/
structure Replay where
  pc    : Nat
  pos   : Fin 4
  ring  : Nat × Nat
  from_ : Nat
deriving DecidableEq, Repr

/-- A vector or scalar result still in its pipe: its flags and its trap fall at issue + latency - 1 (R218), its residue
check with them (R327), and its writes become visible one cycle later. -/
structure VRes where
  flags  : HwFlags
  trap   : Option TrapInfo
  writes : List VWrite
  kwrites : List (BitVec 3 × KMask)
  /-- one row of a mask register (R243) -/
  krow   : Option (BitVec 3 × Nat × Word)
  xwrites : List (BitVec 5 × Word)
  latch  : Option Latch
  /-- whether the residue check covers it, with the arbitration time of one element (R327) -/
  check  : Option Nat
  /-- the ring under which its bundle issued (R193) -/
  ring   : Nat × Nat
deriving DecidableEq, Repr

/-- How a CSR write combines (R200). -/
inductive CsrOp where
  | write | set | clear
deriving DecidableEq, Repr

/-! ## Engine-side registers and memories of a core -/

/-- A stream register (R284): the format code and the descriptor's fields. -/
structure Stream where
  fmt         : Nat
  base        : Nat
  scale       : Nat
  k           : Nat
  rows        : Nat
  bsram       : Bool
  scaled      : Bool
  pin         : Bool
  rowStride   : Nat
  scaleStride : Nat
  coefStride  : Nat
  refBase     : Nat
  bound       : Nat
  refStride   : Nat
deriving DecidableEq, Repr

/-- An accumulator element (R53): the 168-bit exact sum, the overflow bit and the special state. -/
structure AccElem where
  sum     : BitVec 168
  ovf     : Bool
  nan     : Bool
  payload : BitVec 22
  pinf    : Bool
  ninf    : Bool
deriving DecidableEq, Repr

/-- The 64 x 96 elements of one array's copy of a tile: the value of every element not listed, and the others by 96m + n
in rising order, none equal to it. -/
structure Acc where
  init  : AccElem
  elems : List (Nat × AccElem)
deriving DecidableEq, Repr

/-- Steps of a cell sequence (R291). -/
inductive CellStep where
  | mac | ada | mxp | mnp
deriving DecidableEq, Repr

/-- One MMA that fed a tile, as the mender needs it (R298, R319): its streams, the tile's settings it used, the jet
coefficient pairs of its passes and the reference flag. `id` is its command number. -/
structure MmaDesc where
  id     : Nat
  a      : Stream
  b      : Stream
  anc    : Int
  seq    : List CellStep
  passes : List (Nat × Nat)
  ref    : Bool
  /-- the coefficient index of the tile (R290), and the passes that the whole MMA makes (R281) -/
  coef   : Nat
  allPasses : Nat
deriving DecidableEq, Repr

/-- What MSIG.st reports of a tile's latest output (R308). -/
inductive OutState where
  | none | inPress | committed | discarded
deriving DecidableEq, Repr

/-- A tile (R289): both arrays' elements, the anchor, cell sequence, coefficient index and MMA count, the commands since
the last MZERO, and what MSIG reports (R308). -/
structure Tile where
  prim     : Acc
  shad     : Acc
  anc      : Int
  seq      : List CellStep
  coef     : Nat
  count    : Nat
  fed      : List MmaDesc
  /-- anchor, sequence length and coefficient index as MSIG sees them (R295: from start + 2) -/
  seenAnc  : Int
  seenLen  : Nat
  seenCoef : Nat
  seenMma  : Bool
  commits  : Nat
  sigP     : Word
  sigS     : Word
  arb      : Bool
  latest   : OutState
deriving DecidableEq, Repr

/-- Which memory a pin covers (R292). -/
inductive Space where
  | spm | bsram
deriving DecidableEq, Repr

/-- A pinned region (R292): the MMA that pinned it, the tiles whose output ends it, and whether it is held longer by a
stream register's PIN flag. -/
structure Pin where
  mma   : Nat
  space : Space
  /-- (offset, length) runs -/
  regions : List (Nat × Nat)
  /-- tiles whose first later MEPI has not yet ended the pin -/
  tiles : List Nat
  /-- the commands that end the pin: a MEPI by its output's end, or an MZERO that entered before any MEPI -/
  outs  : List Nat
  /-- the stream register that holds it by PIN = 1 -/
  keep  : Option Nat
deriving DecidableEq, Repr

/-- What an arbitration has found, decided when it starts (R320, R321): the corrected image, the arrays named, whether it ends
undecided, the elements recomputed, the lowest word of W and the duration. -/
structure Arb where
  words     : List Word
  namedP    : Bool
  namedS    : Bool
  undecided : Bool
  elems     : Nat
  lowWord   : Nat
  dur       : Nat
deriving DecidableEq, Repr

/-- An output in the press from s + 80 (R313): its command, tile, image and digests, signatures, and its dispute: whether it
has one, as the re-check of R317, from which TT, and what its arbitration has found. -/
structure Press where
  id       : Nat
  tile     : Nat
  p        : List Word
  sd       : List Byte
  sigP     : Word
  sigS     : Word
  disputed : Bool
  recheck  : Bool
  tt       : Nat
  arb      : Option Arb
deriving DecidableEq, Repr

/-- A flit in a landing queue: its payload (R392). -/
abbrev LandFlit := BitVec 512

/-- A landing queue L0 to L7 (R402, R403, R408). -/
structure LandQ where
  flits : List LandFlit
  ovf   : Bool
  disc  : Nat
deriving DecidableEq, Repr

/-- The states of a collective entry (R422); DONE lasts no cycle. -/
inductive EntrySt where
  | idle | armed | active | retained | redoing
deriving DecidableEq, Repr

/-- One step of a timetable (R412). -/
structure TStep where
  ofs   : Nat
  src   : Nat
  bytes : Nat
  op    : BitVec 8
  rt    : Nat
deriving DecidableEq, Repr

/-- A chunk that its sender retains (R420): the step, the encoded data, the landing offset, where it went, the due time
of its acknowledgement and whether it has been redone. -/
structure Retained where
  step  : Nat
  data  : List Byte
  ofs   : Nat
  op    : BitVec 8
  route : Word
  redo  : Bool
deriving DecidableEq, Repr

/-- A collective entry (R411, R418, R422). -/
structure Entry where
  st     : EntrySt
  desc   : List Byte
  steps  : List TStep
  /-- instances completed since load; the current instance c of R418 is this number while running and one less when ARMED -/
  inst   : Nat
  t0     : Nat
  ran    : List Nat
  /-- the strand that triggered the running instance (R386) -/
  by_    : Fin 4
  finsDone : List Nat
  kept   : List Retained
  applied : List (Nat × Nat × Nat)
  chunks : Nat
  buf    : List Chunk
  redos  : Nat
  dups   : Nat
  /-- the strand that loaded it (R414) -/
  strand : Fin 4
  /-- the bundle of a trigger that found it running (R419) -/
  late   : Option Nat
  /-- the order number of the trigger; what a FIN step has read: words and exponent bytes -/
  trig   : Nat
  /-- the last flit of the last step has left -/
  sent   : Bool
  /-- one more than the raw cycle of its last completion (R422) -/
  doneAt : Nat
  finBuf : List (Nat × List Byte × List Byte)
deriving DecidableEq, Repr

/-- What makes a TIMED member stand at its TT (R159). -/
inductive SlipCause where
  | issue | trap | dispute | residue | pressWait | overdue
  | correction (id : Nat) | redo (e : Nat) | resend (id : Nat)
deriving DecidableEq, Repr

/-- A member of a placed group: the kernel, the group's place in it and the member's INDEX (R153). -/
structure Owner where
  kid   : Nat
  gpos  : Nat
  index : Nat
deriving DecidableEq, Repr

/-- A launch held in one of a core's eight pending entries (R149, R152). -/
structure Launch where
  strand : Fin 4
  /-- the destination, and the incarnation of the strand that waits for it -/
  d      : BitVec 5
  kid    : Nat
  queue  : Fin 64
  /-- the record, once its read has performed -/
  bytes  : List Byte
  order  : Nat
  held   : Bool
  /-- the core's eight entries were full at issue: no record is held, and its answer is 0 -/
  full   : Bool
  /-- the CYC of its issue, and the CYC after which its bell comes: two cycles later, or when its group leaves step mode (R152) -/
  at_    : Nat
  from_  : Nat
  /-- the SPM offset of its record -/
  addr   : Nat
deriving DecidableEq, Repr

/-! ## Effects and the agenda -/

/-- An effect of an issued slot that has not yet taken place. Addresses are SPM offsets, registers are physical places. -/
inductive Eff where
  | x (d : BitVec 5) (v : Word)
  /-- an E-class return of command id, with the home of what it read (R379); its value once it has arrived (R434) -/
  | xret (d : BitVec 5) (id reach : Nat) (v : Option Word)
  /-- ACRD's flags and trap at +189 (R376), once its cell has been read -/
  | acflags (id : Nat) (r : Option (HwFlags × Option TrapInfo))
  | a (d : BitVec 4) (v : Word)
  | p (d : BitVec 3) (b : Bool)
  /-- a vector result, after its check, on its way to its registers -/
  | vdone (r : VRes)
  | csr (num : BitVec 12) (op : CsrOp) (v : Word)
  | flags (f : HwFlags)
  | res (r : VRes)
  /-- a divide-unit result -/
  | quot (d : BitVec 5) (v : Word)
  /-- LD (toA = false) or LDA at its read (R211) -/
  | load (addr size : Nat) (sx toA : Bool) (d : BitVec 5)
  /-- what a load or a vector load has read, on its way to its register -/
  | loaded (toA : Bool) (d : BitVec 5) (v : Word)
  | vloaded (w : VWrite)
  | store (addr size : Nat) (v : Word)
  /-- VLD at its read: mask of words, last-read mark's barrier (R238, R239) -/
  | vload (addr reg : Nat) (mask : VImg) (mark : Option Nat)
  | vstore (addr : Nat) (v : VImg)
  /-- VLDX and VSTX at row i: the row addresses, what has been read so far (R240) -/
  | vloadx (addrs : List Nat) (i reg : Nat) (mask acc : VImg)
  | vstorex (addrs : List Nat) (i : Nat) (k : KMask) (v : VImg)
  | binit (addr : Nat) (expect : BitVec 16) (due : BitVec 32) (scope : BitVec 4)
  | bexp (addr : Nat) (w : Word)
  /-- an arrival of count n and b bytes (R333) -/
  | arrive (addr n b : Nat)
  /-- BTEST's read, whose value the E-class return of this number takes (R338) -/
  | btest (addr id : Nat)
  | sreg (i : BitVec 4) (s : Stream)
  | bnd (i : BitVec 4) (v : Word)
  | rt (i : BitVec 3) (v : Word)
  | cdrpLd (e : Fin 16) (desc : List Byte) (steps : List TStep)
  | cdrpDrop (e : Fin 16)
  /-- deltas of a loop-back at e + 1 (R191), and stage predicates P4.. (R189) -/
  | delta (d : Vector Word 16)
  | stage (n : Nat) (bits : BitVec 4)
  /-- the trap of TRAP n at issue + 1 (R437), and a trap found after issue -/
  | swtrap (n : BitVec 8)
  | late (t : TrapInfo)
  /-- a LAUNCH reads its record (R149): the entry's order number -/
  | launchRead (addr order : Nat)
  /-- a value reaches the flight-save area of a trapped strand, after the reads of the cycle (R241, R434): that of the E-class return of this
  number, or that of the LAUNCH or CKPT of this order number, with its register and its due cycle -/
  | fill (key : Nat) (owed : Option (BitVec 5 × Nat)) (v : Word)
deriving DecidableEq, Repr

/-- The clock an agenda item counts on. -/
inductive Clock where
  /-- raw cycles of the package, and CYC itself (R149, R357) -/
  | time
  | cyc
  /-- cycles of a strand, which stand while its member is stopped, frozen or in a REALIGN (R161, R170) -/
  | strand (c : Fin 256) (j : Fin 4)
  /-- TT of the member on core c (R162) -/
  | tt (c : Fin 256)
  /-- the engines of core c, which run on while the member is stopped by its own slip (R161) -/
  | eng (c : Fin 256)
  /-- the least TT among the members of a group (R162) -/
  | least (kid gpos : Nat)
deriving DecidableEq, Repr

/-- What an agenda item does: an effect of a strand's slot, an event of the table, or a part of one. -/
inductive Act where
  | eff (c : Fin 256) (j : Fin 4) (pc : Nat) (pos : Fin 4) (e : Eff)
  | ev (i : Instr)
  /-- the MSIG view of a tile changes at start + 2 (R295, R296); for an MZERO, its command -/
  | seen (c : Fin 256) (t : Nat) (anc : Int) (len coef : Nat) (zeroBy : Option Nat)
  /-- a tile shows its newly committed output after the cycle of the verdict (R308) -/
  | commit (c : Fin 256) (t : Nat) (sigP sigS : Word) (arb : Bool)
  /-- one barrier's completion test of this cycle (R334): arrivals and bytes gathered so far stand in the core -/
  | btestAll (c : Fin 256) (addr : Nat)
  /-- a flit or chunk that strand (c, j) sent to another package lands there now (R386, R390) -/
  | sent (c : Fin 256) (j : Fin 4) (pkg : Nat)
  /-- an access of strand (c, j) to a home of this reach has performed in the cycle before: a FENCE waits no longer (R386) -/
  | passed (c : Fin 256) (j : Fin 4) (reach : Nat)
  /-- writes of bytes, SPM of core c: the order number of the writer decides among them (R363) -/
  | spmWrite (c : Fin 256) (bytes : List Host.Cell)
  /-- a landing write on SPM of core c (R293, R406) -/
  | land (c : Fin 256) (addr : Nat) (bytes : List Byte)
  /-- a complete chunk is at its receiving entry (R416) -/
  | chunk (ch : Chunk)
  /-- a chunk's bytes meet SPM of core c under a COMB code (R413) -/
  | combine (c : Fin 256) (addr comb : Nat) (data : List Byte)
  /-- the last flit of an entry's last step has left (R422) -/
  | sentAll (c : Fin 256) (e : Fin 16)
  /-- CYC is adopted from a neighbour (R395) -/
  | adopt (cyc : Nat)
  /-- a flit without a due TT that core c sent on a route of this package would have landed, and was lost (R404) -/
  | gap (w : Word) (c : Nat)
  /-- a flight-save area is written, after the reads of its cycle (R241, R434) -/
  | flightSave (c : Fin 256) (j : Fin 4)
  /-- an event trap of a core in whose cycle the strand issued: cause, TADDR and TPC where one is named (R429, R430) -/
  | trapEvent (c : Fin 256) (cause : Nat) (taddr : Word) (tpc : Option Nat)
  /-- bytes that the I/O die writes for context f at a resolved place: a fault record (R148), an event entry (R460) -/
  | ownWrite (host : Bool) (addr : Nat) (bytes : List Byte) (f : Fin 17)
  /-- whether the landing write of this place and order number among those of the cycle meets a pin of core c, and whether a copy does (R293) -/
  | pinCheck (c : Fin 256) (off n key order : Nat)
  | copyPins (id : Nat)
  /-- bytes of a pre-empted group's save, at a VA of context f (R444) -/
  | save (f : Fin 17) (va : Nat) (bytes : List Byte)
deriving DecidableEq, Repr

/-- One item of the agenda. Items due in a cycle take place by phase, then issuing core, then order number. -/
structure Item where
  clk   : Clock
  due   : Nat
  phase : Nat
  core  : Nat
  seq   : Nat
  act   : Act
deriving DecidableEq, Repr

/-- One held operation of a trapped strand, with its remaining count (R434) and its order number (R76, R241). -/
structure Held where
  count : Nat
  phase : Nat
  order : Nat
  pc    : Nat
  pos   : Fin 4
  eff   : Eff
deriving DecidableEq, Repr

/-- What the hold keeps of a flight-save entry beyond what the entry shows: the order number of its instruction (R76), its kind and
register as written; of an E-class return the command and the home of what it read (R379, R386), of a load that it is one; of a pending
trap its coefficient (R275) and its ring. -/
structure Origin where
  order : Nat
  kind  : Nat
  reg   : Nat
  ret   : Option (Nat × Nat)
  load  : Bool
  coef  : Option (Fin 8)
  ring  : Nat × Nat
deriving DecidableEq, Repr

/-- The hold of a trapped strand (R434): operations by index, and the remaining occupancies of its divide unit and of the
vector pipe, where they have one. -/
structure Hold where
  ops  : List Held
  div  : Option Nat
  pipe : Option Nat
  /-- E-class returns still to come: command and flight-save entry -/
  rets : List (Nat × Nat)
  /-- LAUNCHes and CKPTs whose X result has yet to come, by order number, and their flight-save entries -/
  owed : List (Nat × Nat)
  /-- what stands behind each entry of the flight-save area, in order -/
  origins : List Origin
  /-- the area while it waits to be written in this cycle: the header after the count, and the entries -/
  image : Option (List Byte × List (List Byte))
  /-- the level at trap entry (R128), and the ring of the trapping bundle (R193) -/
  level : Level
  ring  : Nat × Nat
  /-- the transfer out of the image that NPC comes from (R82), the due transfers (R81), and slots still to be replayed -/
  bad   : Option Transfer
  due1  : Option Transfer
  due2  : Option Transfer
  replay : List Replay
  /-- what the strand waited for (R386, R439), and its scale latch (R258) -/
  wait : Wait
  latch : Latch
deriving DecidableEq, Repr

/-- A translation taken from the tables (R342, R344): the first VA, whether a block, its leaf, and for a PAIR kernel's
SHADOW page the two replicas' written-line bitmaps (R351). -/
structure Xlat where
  va    : Nat
  block : Bool
  leaf  : Word
  bits0 : BitVec 32
  bits1 : BitVec 32
deriving DecidableEq, Repr

/-- A strand (R173). -/
structure Strand where
  life    : Life
  level   : Level
  trapped : Bool
  /-- byte address of the next bundle to issue -/
  pc      : Word
  x       : Vector Word 32
  a       : Vector Word 16
  p       : BitVec 8
  k       : Vector KMask 8
  csr     : Csrs
  /-- due[1] and due[2] of R81 -/
  due1    : Option Transfer
  due2    : Option Transfer
  /-- the strand's clock -/
  lt      : Nat
  /-- earliest cycle of the next bundle without its DLY, on that clock (R73, R433) -/
  base    : Nat
  /-- earliest cycle that a FENCE leaves, without DLY (R386) -/
  fenceW  : Nat
  wait    : Wait
  /-- until when the divide unit and the vector pipe are held, on the strand's clock (R77) -/
  divBusy : Nat
  pipeBusy : Nat
  latch   : Latch
  hold    : Hold
  /-- the transfer out of the image that the pc came from (R82) -/
  bad     : Option Transfer
  /-- the barrier a stalled BWAIT waits on (R337) -/
  bwait   : Option Nat
  /-- the cycle in which the strand may not issue, after YIELD (R201) -/
  yieldAt : Option Nat
  /-- pages of a stalled PACED command that are walked (R347), with what the walk has found once it has ended: none for an invalid
  entry -/
  walks   : List (Nat × Option (Option Xlat))
  /-- slots to be replayed (R439) -/
  replay  : List Replay
  /-- pending traps taken after RFT (R433) -/
  pending : List Pend
  /-- the raw cycle of the last trap point -/
  trapAt  : Nat
  /-- one more than the raw cycle of the last issue, and of the last CSR writes, with the CSRs written then (R181) -/
  issuedAt : Nat
  wrote   : Nat × List Nat
deriving DecidableEq, Repr

/-- HEALTH (R183), the outputs judged since a naming, whether that naming took the DEGRADED policy (R324), and whether an HCLR waits
for the arbitration in progress (R456). -/
structure Health where
  word  : Word
  since : Nat
  degraded : Bool
  clear : Bool
deriving DecidableEq, Repr

/-- A vector result that waits for the mender (R327, R328): the strand, what is to be released, the lowest failing
element, how many, the duration and whether the vector unit erred. -/
structure Residue where
  strand : Fin 4
  pc     : Nat
  pos    : Fin 4
  res    : VRes
  low    : Nat
  elems  : Nat
  dur    : Nat
  wrong  : Bool
  /-- TT of the cycle in which the result was due (R326) -/
  tt     : Nat
deriving DecidableEq, Repr

/-- What the mender works on (R318): an output, by its command, or a vector result. -/
inductive Mend where
  | tile (id : Nat)
  | residue (r : Residue)
deriving DecidableEq, Repr

/-- A core (R16 to R22). -/
structure Core where
  strands : Vector Strand 4
  /-- the 32 physical vector registers (R174) -/
  v       : Vector VImg 32
  vregs   : Nat
  spm     : Mem
  bsram   : Mem
  istore  : Mem
  /-- sizes of the kernel's and the handler's .text in the instruction store (R108, R128) -/
  text    : Nat
  hsize   : Nat
  streams : Vector Stream 16
  bnd     : Vector Word 16
  rt      : Vector Word 8
  tiles   : Vector Tile 4
  pins    : List Pin
  press   : List Press
  landq   : Vector LandQ 8
  entries : Vector Entry 16
  launches : List Launch
  owner   : Option Owner
  /-- GMEM, which every strand of the core reads: written at release and by a join (R153, R171, R183) -/
  gmem    : Word
  /-- TT and SLIP of the member (R157, R166) -/
  tt      : Nat
  slip    : Nat
  causes  : List SlipCause
  /-- the engines' own clock in a TIMED group (R161) -/
  eng     : Nat
  /-- first cycle at which the matrix engine and the copy engine are free for a new start (R96), on the engines' clock -/
  matFree : Nat
  copyFree : Nat
  /-- the same in TT, from which the due TTs of queued commands count (R96, R162) -/
  matTT : Nat
  copyTT : Nat
  /-- the first raw cycle in which a PACED core may issue and start matrix commands after an arbitration (R318) -/
  stopTill : Nat
  /-- selected strand and the cycle from which it may issue (R177) -/
  sel     : Fin 4
  selFrom : Nat
  health  : Health
  /-- what the mender is at, with the raw cycle of its end, and what waits for it -/
  mender  : Option (Mend × Nat)
  waiting : List Mend
  /-- one more than the raw cycle of the latest verdict or release (R314) -/
  judgedAt : Nat
  /-- offsets that a barrier operation, copy or arrival has named since release, whose DUE is watched (R332) -/
  bars    : List Nat
  /-- arrivals gathered on barriers in this cycle: offset, count, bytes (R334) -/
  arrived : List (Nat × Nat × Nat)
  /-- hardware errors to come: for each output in turn the (word, pattern) errors of the primary and of the shadow image, and for
  each checked vector result the elements that fail with whether the value is wrong (log 31, 32) -/
  errP    : List (List (Nat × Word))
  errS    : List (List (Nat × Word))
  errV    : List (List (Nat × Bool))
  /-- losses to come on the package's own edges: for each flit, chunk and acknowledgement that the core sends to a core of the
  package, and each check of a signed transfer it issued, in turn, whether it is lost (R404, log 33) -/
  errL    : List Bool
deriving DecidableEq, Repr

/-! ## Engine commands -/

/-- One run of bytes of an access: the place, and the address in it. -/
inductive Place where
  | spm (c : Fin 256)
  | bsram (c : Fin 256)
  | near
  | dev
  | host
deriving DecidableEq, Repr

/-- A run of n bytes at a resolved address of a place, with the VA it was named by; for a SHADOW page of a PAIR kernel the
replica and the page's home address (R351). -/
structure Run where
  place : Place
  addr  : Nat
  len   : Nat
  va    : Nat
  shadow : Option (Nat × Nat)
deriving DecidableEq, Repr

/-- What a copy does to the bytes on the way (R361, R366). -/
inductive CopyKind where
  | plain | quant (src tgt : Nat)
deriving DecidableEq, Repr

/-- A copy (R361), or the SPM write of a route send (R400). -/
structure Copy where
  src   : List Run
  dst   : List Run
  kind  : CopyKind
  /-- expected signature of a signed transfer, and whether a resend has begun (R368, R370) -/
  sig   : Option Word
  resent : Bool
  /-- the barrier: core and offset, bytes of its arrival (R333) -/
  bar   : Option (Fin 256 × Nat)
  /-- the route word of a route send (R442) -/
  route : Option Word
  bytes : Nat
  rd    : Nat
  lat   : Nat
  buf   : List Byte
  read  : Bool
  /-- corrected data still to arrive (R349) -/
  fetch : Bool
  /-- p has come, and the write has been found good (R369) -/
  due   : Bool
  judged : Bool
  /-- it met a pinned region where it lands, and is discarded (R293) -/
  dropped : Bool
deriving DecidableEq, Repr

/-- A CPYH (R367): its ends, whether coherent, and its barrier. -/
structure HostCopy where
  src  : List Run
  dst  : List Run
  coh  : Bool
  bar  : Option (Fin 256 × Nat)
  bytes : Nat
  /-- the source has been read, and its bytes -/
  posted : Bool
  buf  : List Byte
deriving DecidableEq, Repr

/-- An atomic (R372, R375, R376). -/
structure Atomic where
  target : Run
  size   : Nat
  op     : Nat
  x      : Word
  cmp    : Word
  d      : BitVec 5
  /-- FTE at issue, for ACRD (R376) -/
  fte    : Word
deriving DecidableEq, Repr

/-- An MMA in the queue or the engine (R297, R298): the operands as read at issue. -/
structure Mma where
  tile : Nat
  a    : Stream
  b    : Stream
  jet  : Bool
  ref  : Bool
  /-- order and group size of JCR at issue -/
  k    : Nat
  occ  : Nat
  /-- per coefficient tile, what the mender needs, once started -/
  descs : List (Nat × MmaDesc)
  /-- tiles whose MZERO has overtaken this MMA's contributions (R290), with whether its terms there raise invalid (R55) -/
  dead : List (Nat × Bool)
  /-- the QMAL events of its operands, once an MZERO has overtaken it -/
  qmal : Option Nat
deriving DecidableEq, Repr

/-- A MEPI in the queue or the engine (R300 to R307): the operands as read at issue, what the snapshot read, and the output. -/
structure Mepi where
  tile  : Nat
  out   : Stream
  bias  : Option Nat
  route : Option Word
  nolocal : Bool
  fte   : Word
  /-- the bound register (R294) -/
  bnd   : Word
  /-- what the snapshot read for the mender (R301, R319): the element that MZERO left, the anchor, the coefficient index, the bias
  words and the MMAs -/
  init  : AccElem
  anc   : Int
  coef  : Nat
  biasW : List (BitVec 32)
  fed   : List MmaDesc
  /-- the output as rounded: the slot it will stand in, its flags, the lowest element whose flags FTE enables, the elements that
  failed the bound check -/
  slot  : Option Press
  flags : HwFlags
  arith : Option Nat
  fails : List Nat
  /-- COUNT and HIT have been updated -/
  counted : Bool
deriving DecidableEq, Repr

/-- What an engine command is. -/
inductive Body where
  | mzero (t : Nat) (init : BitVec 2) (anc : Int)
  | mcell (t : Nat) (seq : List CellStep)
  | mma (m : Mma)
  | mepi (m : Mepi)
  | copy (c : Copy)
  | cpyh (h : HostCopy)
  | amo (a : Atomic)
  | acell (a : Atomic)
  | acrd (a : Atomic) (clr : Bool)
  | hostAmo (a : Atomic)
deriving DecidableEq, Repr

/-- The engines that a command may queue for (R96). -/
inductive Engine where
  | matrix | copy | none
deriving DecidableEq, Repr

/-- An engine command from its issue until it has performed (R96, R147). -/
structure Cmd where
  id     : Nat
  core   : Fin 256
  strand : Fin 4
  pc     : Nat
  owner  : Option Owner
  ctx    : Fin 17
  tag    : BitVec 8
  engine : Engine
  queued : Bool
  start  : Nat
  occ    : Nat
  seq    : Nat
  /-- widest home its accesses have, as a scope code (R379), for FENCE -/
  reach  : Nat
  /-- issued in step mode (R151), and by a strand that was TRAPPED -/
  stepped : Bool
  nested : Bool
  body   : Body
deriving DecidableEq, Repr

/-! ## Contexts, queues, kernels and groups -/

/-- The states of a context (R119). -/
inductive CtxSt where
  | free | closed | open_ | active | quiescing | scrubbing
deriving DecidableEq, Repr

/-- A partition record as assigned (R118, R457). -/
structure Partition where
  cores    : BitVec 256
  queues   : BitVec 64
  maxClass : Nat
  nearBase : Nat
  nearSize : Nat
  pins     : Vector Nat 8
deriving DecidableEq, Repr

/-- One kernel's pins on one die (R344, R346). -/
structure PinSet where
  kid  : Nat
  die  : Fin 8
  xs   : List Xlat
deriving DecidableEq, Repr

/-- The checkpoint of a context (R354 to R357): armed, the mark's bell, the area's pages, the lines logged with their
pre-images, and the lines written since the mark. -/
structure Ckpt where
  armed   : Bool
  mark    : Nat
  area    : List Nat
  used    : Nat
  written : List Nat
  /-- the lines written since the mark, those that a rollback has restored among them (R357) -/
  lines   : List Nat
deriving DecidableEq, Repr

/-- A CKPT that waits for its bell (R357). -/
structure CkptReq where
  core   : Fin 256
  strand : Fin 4
  kid    : Nat
  d      : BitVec 5
  off    : Bool
  pages  : List Nat
  order  : Nat
  at_    : Nat
deriving DecidableEq, Repr

/-- A context and its function's BAR0 context page (R115 to R124, R453, R454). -/
structure Ctx where
  st       : CtxSt
  gen      : BitVec 3
  part     : Partition
  root     : Word
  hva      : Word
  /-- the handler's .text kept in the I/O die (R128) -/
  handler  : List Byte
  err      : Nat
  busy     : Bool
  flrDone  : Bool
  byFlr    : Bool
  evBase   : Word
  evCtl    : Word
  rbRep    : Word
  stepCtl  : Word
  peers    : BitVec 1024
  /-- next sequence number, and the outcomes of past ones: (number, DONE) (R134, R135) -/
  nextSeq  : Nat
  outcomes : List (Nat × Bool)
  ckpt     : Ckpt
  ckpts    : List CkptReq
  /-- the raw cycle of entering QUIESCING, or SCRUBBING -/
  since    : Nat
  /-- a rollback waits for its drain (R356) -/
  rolling  : Bool
  /-- the first 64 KiB page and the count of an invalidation in progress (R455) -/
  inval    : Option (Nat × Nat)
  /-- CXL.io AtomicOp completion advertised by the host at 4 and at 8 bytes (R374, log 93) -/
  atomic4  : Bool
  atomic8  : Bool
deriving DecidableEq, Repr

/-- The states of a queue (R142). -/
inductive QueueSt where
  | unbound | stopped | running | overrun
deriving DecidableEq, Repr

/-- A hardware queue (R129 to R133): its state, context, kernels in the intake in order, and consumed count. -/
structure Queue where
  st      : QueueSt
  ctx     : Option (Fin 17)
  intake  : List Nat
deriving DecidableEq, Repr

/-- A launch record, parsed (R143). -/
structure Record where
  image : Nat
  args  : Nat
  deps  : List Nat
  pair  : Bool
  strands : Nat
  timed : Bool
  dies  : BitVec 8
  groups : Nat
  cores : Nat
  preemptible : Bool
  cls   : Nat
  budget : Nat
  fte   : BitVec 16
  jord  : Nat
  vregs : Nat
  prebound : Nat
  pageset : Nat
  doneVA : Nat
  doneVal : Word
  fault : Nat
  save  : Nat
  /-- a reserved bit or byte was nonzero (R136) -/
  bad   : Bool
deriving DecidableEq, Repr

/-- The states of a kernel (R146). -/
inductive KSt where
  | waiting | queued | placing | running | preempted | done | faulted | discarded
deriving DecidableEq, Repr

/-- The states of a group (R168). A group that is FROZEN is one with a freeze point: the state kept here is the one before. -/
inductive GSt where
  | forming | released | draining | saved | retired | faulted
deriving DecidableEq, Repr

/-- Step mode of a group (R151): off; stopped between steps; a step of strand j, with the cores that have issued their bundle and
its address; the same once the bundles have issued, while their commands run to completion. -/
inductive StepSt where
  | off | halted
  | stepping (j : Fin 4) (did : List (Fin 256 × Nat))
  | waiting (j : Fin 4) (did : List (Fin 256 × Nat))
deriving DecidableEq, Repr

/-- A group (R153 to R168). `freeze` is the freeze point F and, once every member is ready, the cycle Z. -/
structure Group where
  index   : Nat
  replica : Nat
  members : List (Fin 256)
  st      : GSt
  level   : Nat
  count   : Nat
  /-- added to a member's position to give INDEX (R171) -/
  offset  : Nat
  freeze  : Option (Nat × Option Nat)
  /-- PRE is 1 in a member whose TT has reached this (R139, R170) -/
  pre     : Option Nat
  step    : StepSt
  /-- how many cycles TT has advanced in steps, which BUDGET does not count (R151) -/
  stepped : Nat
  /-- REALIGNs issued at a TT: TT, form and join word, cores (R170, R171) -/
  realigns : List (Nat × Nat × Word × List (Fin 256))
  /-- raw cycle at which its load, or its save, is complete (R140, R158) -/
  saveEnd : Nat
  /-- it forms again from its save (R448) -/
  resumes : Bool
  /-- what the LLATs of the routes to other packages rested on at release, as `State.llats` (R401) -/
  llats   : List (Nat × Nat × Nat)
deriving DecidableEq, Repr

/-- What the first run of a PAIR kernel left (R353): per replica and page the bitmap and digest, and the dies used. -/
structure FirstRun where
  sums : List (Nat × Nat × BitVec 32 × Word)
  dies : List (Nat × Nat)
deriving DecidableEq, Repr

/-- The data of a fault record (R148). -/
structure FaultRec where
  reason  : Nat
  tcause  : Nat
  section_ : Nat
  group   : Nat
  site    : Nat
  reloc   : Nat
  core    : Nat
  strand  : Nat
  tpc     : Nat
  taddr   : Word
  tt      : Nat
  cyc     : Nat
deriving DecidableEq, Repr

/-- A kernel from its intake to its end (R146). -/
structure Kernel where
  kid    : Nat
  ctx    : Fin 17
  queue  : Fin 64
  seq    : Nat
  st     : KSt
  record : Record
  /-- class in which it competes now (R138) -/
  cls    : Nat
  /-- the CYC at which it rises a class if it still waits (R138) -/
  rises  : Nat
  groups : List Group
  /-- victims it waits for (R139) -/
  victims : List Nat
  reserved : List (Fin 256)
  /-- cores held at pre-emption, in group order (R448) -/
  held   : List (List (Fin 256))
  /-- where each strand that stopped at a saving REALIGN.p writes its release bell (R448) -/
  saved  : List (Fin 256 × Fin 4 × BitVec 5)
  /-- the barriers that its cores watched when they were saved (R332) -/
  bars   : List (Fin 256 × Nat)
  bsram  : Nat
  first  : Option FirstRun
  fault  : Option FaultRec
  /-- the fault was found before the strands issued in its cycle; its groups have stopped (R441) -/
  faultEarly : Bool
  halted : Bool
  /-- a cause of R356 has been found in the fault cycle -/
  rolls  : Bool
  /-- the fault record or DONE value has been written -/
  closed : Bool
deriving DecidableEq, Repr

/-! ## Links -/

/-- The states of an edge or a port (R399). -/
inductive PortSt where
  | down | training | aligning | timed | degraded | failed
deriving DecidableEq, Repr

/-- A die-to-die edge (0 to 9) or a package port (10 to 45) (R391, R394, R399, R408). -/
structure Port where
  st    : PortSt
  ofs   : Int
  /-- bells in a row with an offset within 1 (R399) -/
  good  : Nat
  /-- a beacon has come since the last bell -/
  fresh : Bool
  ow    : Nat
  /-- largest round trip measured in ALIGNING (R396) -/
  trip  : Nat
  lost  : Nat
  corr  : Nat
  errs  : Nat
  width : Nat
  tries : Nat
deriving DecidableEq, Repr

/-- A route's place in the port's books: how often it was used and what came (R392, R404). -/
structure RouteSeq where
  route : Word
  srcPkg : Nat
  srcCore : Nat
  next  : Nat
deriving DecidableEq, Repr

/-- An expected flit of a route with a due TT, or chunk flits gathered so far, at a receiving core (R404, R415). -/
structure Gather where
  route  : Word
  srcPkg : Nat
  srcCore : Nat
  due    : Nat
  port   : Nat
  flits  : List (BitVec 512)
  /-- the image has failed its check once (R370) -/
  resent : Bool
deriving DecidableEq, Repr

/-- An SPDM answer (R463): what the rule fixes of it, and the bytes of an answer that it does not give. -/
inductive SpdmAnswer where
  | version (major minor : Nat)
  | algorithms (sha384 ecdsaP384 : Bool)
  | measurement (index : Nat) (digest : BitVec 384)
  | bytes (code n : Nat)
deriving DecidableEq, Repr

/-- Answers of the device to the host, the side band or a requester. -/
inductive Resp where
  | data (bytes : List Byte) (poisoned : Bool)
  | health (ws : List Word)
  | log (ring : List Byte) (devfail : Word)
  | status (ctxs : List Word) (links : List Word)
  | resetDone (f : Nat)
  | config (retry : Bool) (v : Word)
  | pldm (n : Nat)
  | spdm (a : SpdmAnswer)
  | register (v : Word)
  | aborted
deriving DecidableEq, Repr

/-- The slot being executed: where it stands, the bits lent to it, and what its bundle has done so far (R70, R73, R81). -/
structure Cur where
  core    : Fin 256
  strand  : Fin 4
  pos     : Fin 4
  pc      : Nat
  ext     : Option (BitVec 5)
  /-- the strand's level, and whether it was TRAPPED, when the bundle issued (R428) -/
  level   : Level
  nested  : Bool
  /-- the bundle cannot issue in this cycle (R73) -/
  stall   : Bool
  /-- pages a PACED command must walk first (R347) -/
  walk    : List Nat
  /-- the barrier of a stalled BWAIT (R337) -/
  bwait   : Option Nat
  /-- the trap taken, with the order of its slot -/
  trap    : Option TrapInfo
  more    : List (Fin 4 × TrapInfo)
  /-- the strands of the core that can issue in this cycle (R202) -/
  ready   : BitVec 4
  /-- the bundle holds an RFT.fault that acts at its end (R438, R440) -/
  ends    : Bool
  xfer    : Option Word
  pops    : BitVec 8
  exit    : Bool
  /-- a LOOP not entered sends the strand here, two cycles late (R188) -/
  skip    : Option Nat
  /-- extra cycles before the next bundle (WAIT) -/
  delay   : Nat
  /-- an RFT takes the strand back at the end of the bundle, whether as .replay (R438, R439) -/
  back    : Option Bool
  /-- due[1] and due[2] as the bundle found them (R81), and the rotating ring in force with its STEP (R193) -/
  due1    : Option Transfer
  due2    : Option Transfer
  ring    : Nat × Nat
  /-- what an MMA of the bundle pins in this cycle (R292) -/
  newPins : List Pin
  replay  : Bool
  /-- for a replayed slot: where the strand goes on, and the cycles to there beyond the next (R439) -/
  npc     : Word
  gap     : Nat
deriving DecidableEq, Repr

/-- What one stored sector of a stripe differs in from the data that it should hold (R348): positions 0 to 15 are the data sectors, 16
and 17 the parity sectors; the bits that are wrong in its 32 bytes and in its CRC. -/
structure HbmErr where
  stripe : Nat
  pos    : Nat
  data   : BitVec 256
  crc    : BitVec 16
deriving DecidableEq, Repr

/-- A page-table walk (R347): its number, the strand, the VA page, whether it is under way, and the old translation with which it may
finish although the range has been invalidated since it began (R455). -/
structure Walk where
  id     : Nat
  core   : Fin 256
  strand : Fin 4
  page   : Nat
  busy   : Bool
  old    : Option Xlat
deriving DecidableEq, Repr

/-- A slip in a part of a joined group that stands on another package (R160, R171): the group here, the TT of the slip, and the count of CYC
at which the last member there is ready. -/
structure FarSlip where
  kid   : Nat
  gpos  : Nat
  tt    : Nat
  ready : Nat
deriving DecidableEq, Repr

/-- The package. -/
structure State where
  /-- cycles since reset, CYC (R156), DRIFTOFS, the sum of DRIFTs before the next bell (R410), whether this cycle is a bell -/
  time     : Nat
  cyc      : Nat
  driftOfs : BitVec 64
  drift    : Int
  /-- the sum of DRIFTs that wait for the bell after the next -/
  drift2   : Int
  /-- the sum, clamped, that steps CYC after the bell now past (R410) -/
  driftNow : Int
  /-- the queue unit has done this bell's sampling and placement -/
  belled   : Bool
  /-- the cycle repeats a bell's count and is no bell (R410) -/
  noBell   : Bool
  calib    : Bool
  adopted  : Bool
  /-- this package's number in the hall (R379, log 10) -/
  pkg      : Nat
  cores    : Vector Core 256
  ctxs     : Vector Ctx 17
  queues   : Vector Queue 64
  kernels  : List Kernel
  cmds     : List Cmd
  agenda   : List Item
  /-- device memory, near memory by offset, the submission windows, host memory by host address -/
  dev      : Mem
  near     : Mem
  windows  : Mem
  host     : Mem
  /-- what the stored sectors of device memory differ in from what they should hold (R348), double errors of near memory that no access
  has met, by word, and the poison lists, by sector and by word (R350) -/
  hbm      : List HbmErr
  nearErr  : List Nat
  poison   : List Nat
  nearPoison : List Nat
  /-- errors to come in device memory and near memory, with their raw cycles (log 146) -/
  errH     : List (Nat × HbmErr)
  errN     : List (Nat × Nat)
  pinsets  : List PinSet
  /-- page walks waiting and under way (R347); at most four under way per die -/
  walks    : List Walk
  /-- translation caches: die, context and translation (R343) -/
  tcache   : List (Fin 8 × Fin 17 × Xlat)
  ports    : Vector Port 46
  /-- per package port, how often routes' LLATs had been published when it last entered TIMED, and its OW then (R396) -/
  llats    : List (Nat × Nat × Nat)
  /-- the beacons that the ports sent at the last bell (R394) -/
  beacons  : List (Fin 46 × Flit)
  seqTx    : List RouteSeq
  seqRx    : List RouteSeq
  /-- routes inside the package, with the sending core, on which a lost flit leaves a gap that the next one shows (R404) -/
  gaps     : List (Word × Nat)
  gathers  : List Gather
  /-- slips to come in the parts of joined groups on other packages (log 186) -/
  farSlips : List FarSlip
  /-- PF0's management registers (R456): partition records as written, ASTAT, COHBASE, HCLR mask, SUSPECT, DEVFAIL -/
  records  : Vector (BitVec 512) 17
  astat    : Nat
  cohBase  : Word
  hclr     : BitVec 256
  suspect  : Vector Nat 8
  devFail  : Word
  /-- queue last granted per class (R137, log 9) -/
  lastGrant : Vector Nat 8
  /-- raw cycle from which configuration requests are answered without retry (R464) -/
  upAt     : Nat
  /-- a reset of PF0 is in progress, with its requesters (R462) -/
  pf0Reset : List Nat
  /-- how many VFs SR-IOV has enabled: VF1 to this one (R115, R451) -/
  vfs      : Nat
  /-- how often PF0's firmware has been started (R124, R464), the image it runs, and the three stages as the root of trust has measured
  them (R463) -/
  fwStarts : Nat
  measured : Vector (List Byte) 3
  firmware : List Byte
  newFirmware : Option (List Byte)
  inbox    : List (Nat × Instr)
  outbox   : List Flit
  resp     : List Resp
  /-- the next order number, command number and kernel number -/
  seq      : Nat
  /-- the order number of the agenda item that is taking place (R363) -/
  turn     : Nat
  nextId   : Nat
  nextKid  : Nat
  /-- the model's own counter for free values (log 11) -/
  free     : Nat
  /-- cores below this have had their turn in the issue phase of this cycle -/
  iss      : Nat
  cur      : Cur
deriving DecidableEq, Repr

/-! ## Reset (R464; CSR resets R182 to R185) -/

def Csrs.reset : Csrs :=
  { fcr := 0, fsr := 0, jcr := 0, jfl := 0, fte := 0, qstat := 0, tvec := 0, tcause := 0, tpc := 0, npc := 0, tslot := 0,
    tcoef := 0, taddr := 0, ttt := 0, dlt := Vector.replicate 64 0, lps := Vector.replicate 4 0, lit := Vector.replicate 4 0 }

def Latch.reset : Latch := { scales := 0, src := 0, tgt := 0, valid := false }

def Hold.empty : Hold :=
  { ops := [], div := none, pipe := none, rets := [], owed := [], origins := [], image := none, level := .user, ring := (0, 0), bad := none,
    due1 := none, due2 := none, replay := [], wait := .none, latch := Latch.reset }

def Strand.reset : Strand :=
  { life := .idle, level := .user, trapped := false, pc := 0, x := Vector.replicate 32 0, a := Vector.replicate 16 0, p := 0,
    k := Vector.replicate 8 0, csr := Csrs.reset, due1 := none, due2 := none, lt := 0, base := 0, fenceW := 0, wait := .none,
    divBusy := 0, pipeBusy := 0, latch := Latch.reset, hold := Hold.empty, bad := none, bwait := none, yieldAt := none, walks := [], replay := [],
    pending := [], trapAt := 0, issuedAt := 0, wrote := (0, []) }

def Stream.reset : Stream :=
  { fmt := 0, base := 0, scale := 0, k := 0, rows := 0, bsram := false, scaled := false, pin := false, rowStride := 0,
    scaleStride := 0, coefStride := 0, refBase := 0, bound := 0, refStride := 0 }

/-- An element after MZERO (R295) or reset. -/
def AccElem.zero : AccElem := { sum := 0, ovf := false, nan := false, payload := 0x3FFFFF, pinf := false, ninf := false }

def Acc.zero : Acc := { init := AccElem.zero, elems := [] }

def Tile.reset : Tile :=
  { prim := Acc.zero, shad := Acc.zero, anc := 0, seq := [.mac], coef := 0, count := 0, fed := [], seenAnc := 0, seenLen := 1,
    seenCoef := 0, seenMma := false, commits := 0, sigP := 0, sigS := 0, arb := false, latest := .none }

def LandQ.reset : LandQ := { flits := [], ovf := false, disc := 0 }

def Entry.reset : Entry :=
  { st := .idle, desc := [], steps := [], inst := 0, t0 := 0, ran := [], by_ := 0, finsDone := [], kept := [], applied := [], chunks := 0,
    buf := [], redos := 0, dups := 0, strand := 0, late := none, trig := 0, sent := false, doneAt := 0, finBuf := [] }

def Core.reset : Core :=
  { strands := Vector.replicate 4 Strand.reset, v := Vector.replicate 32 0, vregs := 32, spm := [], bsram := [], istore := [], text := 0, hsize := 0,
    streams := Vector.replicate 16 Stream.reset, bnd := Vector.replicate 16 0, rt := Vector.replicate 8 0,
    tiles := Vector.replicate 4 Tile.reset, pins := [], press := [], landq := Vector.replicate 8 LandQ.reset,
    entries := Vector.replicate 16 Entry.reset, launches := [], owner := none, gmem := 0, tt := 0, slip := 0, causes := [], eng := 0,
    matFree := 0, copyFree := 0, matTT := 0, copyTT := 0, stopTill := 0, sel := 0, selFrom := 0, health := { word := 0, since := 0, degraded := false, clear := false }, mender := none, waiting := [], judgedAt := 0,
    bars := [], arrived := [], errP := [], errS := [], errV := [], errL := [] }

def Partition.empty : Partition :=
  { cores := 0, queues := 0, maxClass := 0, nearBase := 0, nearSize := 0, pins := Vector.replicate 8 0 }

def Ckpt.off : Ckpt := { armed := false, mark := 0, area := [], used := 0, written := [], lines := [] }

def Ctx.reset : Ctx :=
  { st := .free, gen := 0, part := Partition.empty, root := 0, hva := 0, handler := [], err := 0, busy := false, flrDone := false,
    byFlr := false, evBase := 0, evCtl := 0, rbRep := 0, stepCtl := 0, peers := 0, nextSeq := 1, outcomes := [], ckpt := Ckpt.off,
    ckpts := [], since := 0, rolling := false, inval := none, atomic4 := false, atomic8 := false }

def Queue.reset : Queue := { st := .unbound, ctx := none, intake := [] }

def Port.reset : Port :=
  { st := .down, ofs := 0, good := 0, fresh := false, ow := 0, trip := 0, lost := 0, corr := 0, errs := 0, width := 0, tries := 0 }

/-- A die-to-die edge after bring-up: every edge TIMED with every lane (R464). -/
def Port.edge : Port := { Port.reset with st := .timed, width := 8 }

def Cur.reset : Cur :=
  { core := 0, strand := 0, pos := 0, pc := 0, ext := none, level := .user, nested := false, stall := false, walk := [], bwait := none, trap := none,
    more := [], ready := 0, ends := false, xfer := none, pops := 0, exit := false, skip := none, delay := 0, back := none, due1 := none, due2 := none,
    ring := (0, 0), newPins := [], replay := false, npc := 0, gap := 0 }

/-- The machine right after device reset (R156, R183, R464): CYC 0, every context FREE, every edge TIMED and every package
port in TRAINING (R399: device reset ends), HEALTH, pins and poison lists cleared. Values that no rule gives are DESIGN CHOICES
(log 1 to 3, 9 to 11); that the machine stands after bring-up is DEDUCED (log 5), and how a program comes to run from here stands in log 6. -/
def State.reset : State :=
  { time := 0, cyc := 0, driftOfs := 0, drift := 0, drift2 := 0, driftNow := 0, belled := false, noBell := false, calib := false, adopted := false, pkg := 0,
    cores := Vector.replicate 256 Core.reset, ctxs := Vector.replicate 17 Ctx.reset, queues := Vector.replicate 64 Queue.reset,
    kernels := [], cmds := [], agenda := [], dev := [], near := [], windows := [], host := [], hbm := [], nearErr := [],
    poison := [], nearPoison := [], errH := [], errN := [], pinsets := [], walks := [], tcache := [],
    ports := Vector.ofFn fun i : Fin 46 => if i.val < 10 then Port.edge else { Port.reset with st := .training },
    llats := [], beacons := [], seqTx := [], seqRx := [], gaps := [], gathers := [], farSlips := [], records := Vector.replicate 17 0, astat := 0, cohBase := 0, hclr := 0,
    suspect := Vector.replicate 8 0, devFail := 0, lastGrant := Vector.replicate 8 63, upAt := 0, pf0Reset := [], vfs := 0, fwStarts := 1, measured := Vector.ofFn fun i : Fin 3 => Config.stage i.val [], firmware := [],
    newFirmware := none, inbox := [], outbox := [], resp := [], seq := 0, turn := 0, nextId := 0, nextKid := 0, free := 0, iss := 0,
    cur := Cur.reset }

end Sys2Proof.Machine
end

