-- ==== Sys2Proof/Machine/Bits.lean ====
section
/-! DEFINITION. Helpers on bytes, words, vectors and memories (R4, R213 to R215): byte order is little-endian everywhere,
and wide accesses are built here from bytes once. -/
namespace Sys2Proof.Machine

/-! ## Memories -/

/-- The byte at an address; an address that is not listed reads 0. -/
def Mem.read1 : Mem → Nat → Byte
  | [], _ => 0
  | (k, v) :: r, a => if k = a then v else Mem.read1 r a

/-- n bytes from a as a little-endian number (R4). -/
def Mem.readNat (m : Mem) : Nat → Nat → Nat
  | _, 0 => 0
  | a, n + 1 => (m.read1 a).toNat + 256 * Mem.readNat m (a + 1) n

/-- n bytes from a. -/
def Mem.readBytes (m : Mem) : Nat → Nat → List Byte
  | _, 0 => []
  | a, n + 1 => m.read1 a :: Mem.readBytes m (a + 1) n

/-- The cells of n bytes of v from a, without those that hold 0. -/
def cellsOf : Nat → Nat → Nat → Mem
  | _, 0, _ => []
  | a, n + 1, v =>
    let r := cellsOf (a + 1) n (v / 256)
    if v % 256 = 0 then r else (a, BitVec.ofNat 8 v) :: r

/-- Writes the low n bytes of v at a, little-endian (R4). -/
def Mem.writeNat (m : Mem) (a n v : Nat) : Mem :=
  m.filter (fun c => c.1 < a) ++ cellsOf a n v ++ m.filter (fun c => a + n ≤ c.1)

/-- A list of bytes as a little-endian number. -/
def leNat : List Byte → Nat
  | [] => 0
  | b :: r => b.toNat + 256 * leNat r

/-- The low n bytes of v, lowest first. -/
def toBytes : Nat → Nat → List Byte
  | 0, _ => []
  | n + 1, v => BitVec.ofNat 8 v :: toBytes n (v / 256)

/-- Writes a run of bytes at a. -/
def Mem.writeBytes (m : Mem) (a : Nat) (bs : List Byte) : Mem := m.writeNat a bs.length (leNat bs)

/-- Writes single cells, later ones over earlier ones. -/
def Mem.writeCells (m : Mem) (cs : List Host.Cell) : Mem :=
  cs.foldl (fun m c => m.writeNat c.1 1 c.2.toNat) m

/-- The canonical form: addresses strictly rising, no listed byte 0. -/
def Mem.wf : Mem → Bool
  | [] => true
  | [c] => c.2 != 0
  | c :: d :: r => c.2 != 0 && decide (c.1 < d.1) && Mem.wf (d :: r)

/-! ## Vectors and bits -/

/-- One element of a vector changed by f. -/
def upd {α : Type} {n : Nat} (v : Vector α n) (i : Fin n) (f : α → α) : Vector α n := v.set i (f v[i]) i.isLt

/-- Every element of a vector changed by f. -/
def each {α : Type} {n : Nat} (v : Vector α n) (f : α → α) : Vector α n := Vector.ofFn fun i => f v[i]

/-- The element with a number below n, wrapping a number that is not. -/
def fin (n : Nat) [NeZero n] (i : Nat) : Fin n := Fin.ofNat n i

def bit (b : Bool) : Nat := if b then 1 else 0

/-- Bits lo to lo + n - 1 of a number. -/
def bits (v lo n : Nat) : Nat := v / 2 ^ lo % 2 ^ n

/-- A number of n bits taken as two's complement. -/
def toInt (n v : Nat) : Int := if v % 2 ^ n < 2 ^ (n - 1) then (v % 2 ^ n : Nat) else ((v % 2 ^ n : Nat) : Int) - (2 ^ n : Nat)

/-- An integer modulo 2^n. -/
def ofInt (n : Nat) (v : Int) : Nat := (v % ((2 ^ n : Nat) : Int)).toNat

/-- v / m rounded up. -/
def ceilDiv (v m : Nat) : Nat := (v + m - 1) / m

/-- Rotation left of a 64-bit word (R315). -/
def rotl (w : Word) (n : Nat) : Word := w.rotateLeft (n % 64)

/-- Fold of R315 over 64-bit words, counted from j. -/
def foldFrom (j : Nat) : List Word → Word
  | [] => 0
  | w :: r => rotl w j ^^^ foldFrom (j + 1) r

def fold (ws : List Word) : Word := foldFrom 0 ws

/-- ByteXor of R316. -/
def byteXor (w : Word) : Byte := (toBytes 8 w.toNat).foldl (fun x b => x ^^^ b) 0

/-- Bytes cut into 64-bit words, the last one padded with zeros (R306). -/
def wordsOf (bs : List Byte) : List Word :=
  (List.range (ceilDiv bs.length 8)).map fun i => BitVec.ofNat 64 (leNat ((bs.drop (8 * i)).take 8))

/-- CRC-16, polynomial 0x1021, one byte (R348, R392). -/
def crcByte (c : Nat) (b : Byte) : Nat :=
  (List.range 8).foldl (fun c _ => if c / 2 ^ 15 % 2 = 1 then (c * 2 % 2 ^ 16) ^^^ 0x1021 else c * 2 % 2 ^ 16) (c ^^^ (b.toNat * 256))

def crc16 (bs : List Byte) : Nat := bs.foldl crcByte 0xFFFF

/-- The first element of a list that satisfies p, with the others in order. -/
def pick {α : Type} (p : α → Bool) : List α → Option (α × List α)
  | [] => none
  | x :: r => if p x then some (x, r) else (pick p r).map fun y => (y.1, x :: y.2)

/-! ## Images and masks (R213 to R215) -/

/-- Element i of width w of an image. -/
def elem (img : VImg) (w i : Nat) : Nat := (img.extractLsb' (w * i) w).toNat

/-- An image from its elements of width w, element 0 lowest. -/
def image (w : Nat) (es : List Nat) : VImg :=
  BitVec.ofNat 32768 (es.foldr (fun e a => a * 2 ^ w + e % 2 ^ w) 0)

/-- How many elements of width w an image holds. -/
def count (w : Nat) : Nat := 32768 / w

/-- The mask bit that governs element i of width w (R215). -/
def governed (k : KMask) (w i : Nat) : Bool := k.getLsbD (w * i / 32)

/-- The bits of an image that a mask lets an instruction with elements of width w write. -/
def maskBits (k : KMask) (w : Nat) : VImg :=
  if k = BitVec.allOnes 1024 then BitVec.allOnes 32768 else image w ((List.range (count w)).map fun i => if governed k w i then 2 ^ w - 1 else 0)

/-- Every element of width w, by flat index. -/
def elems (img : VImg) (w : Nat) : List Nat := (List.range (count w)).map (elem img w)

/-- Every bit of an image. -/
def allBits : VImg := BitVec.allOnes 32768

end Sys2Proof.Machine
end

