-- ==== Sys2Proof/Machine/Ops.lean ====
section
/-! DEFINITION. The named operations over the state: reaching a core, a strand, a group and its clocks; reading registers;
putting effects on the agenda (R73 to R76); taking an exception as one shared operation (R429 to R436) and returning from
it (R438, R439); faulting a kernel (R441). -/
namespace Sys2Proof.Machine

abbrev Res := Host.Outcome State Fault Refusal

/-! ## Cores, strands, groups -/

def State.core (s : State) (c : Fin 256) : Core := s.cores[c]
def State.strand (s : State) (c : Fin 256) (j : Fin 4) : Strand := (s.core c).strands[j]
def State.onCore (s : State) (c : Fin 256) (f : Core → Core) : State := { s with cores := upd s.cores c f }
def State.onStrand (s : State) (c : Fin 256) (j : Fin 4) (f : Strand → Strand) : State :=
  s.onCore c fun k => { k with strands := upd k.strands j f }
def State.onCtx (s : State) (f : Fin 17) (g : Ctx → Ctx) : State := { s with ctxs := upd s.ctxs f g }
def State.onQueue (s : State) (q : Fin 64) (g : Queue → Queue) : State := { s with queues := upd s.queues q g }
def State.onKernel (s : State) (kid : Nat) (f : Kernel → Kernel) : State :=
  { s with kernels := s.kernels.map fun k => if k.kid = kid then f k else k }
def State.onGroup (s : State) (kid g : Nat) (f : Group → Group) : State :=
  s.onKernel kid fun k => { k with groups := (k.groups.zipIdx).map fun x => if x.2 = g then f x.1 else x.1 }
def State.onCmd (s : State) (id : Nat) (f : Cmd → Cmd) : State :=
  { s with cmds := s.cmds.map fun k => if k.id = id then f k else k }
def State.onCsr (s : State) (c : Fin 256) (j : Fin 4) (f : Csrs → Csrs) : State :=
  s.onStrand c j fun t => { t with csr := f t.csr }

def State.kernel? (s : State) (kid : Nat) : Option Kernel := s.kernels.find? (·.kid == kid)
def State.cmd? (s : State) (id : Nat) : Option Cmd := s.cmds.find? (·.id == id)
def State.group? (s : State) (kid g : Nat) : Option Group := (s.kernel? kid).bind fun k => k.groups[g]?

/-- The kernel and the group that hold core c. -/
def State.owner? (s : State) (c : Fin 256) : Option (Kernel × Group) :=
  match (s.core c).owner with
  | none => none
  | some o => match s.kernel? o.kid with
    | none => none
    | some k => (k.groups[o.gpos]?).map fun g => (k, g)

/-- The core runs a TIMED kernel (R155). -/
def State.timed (s : State) (c : Fin 256) : Bool := match s.owner? c with
  | some (k, _) => k.record.timed
  | none => false

/-- The core's group is in step mode (R151). -/
def State.stepping (s : State) (c : Fin 256) : Bool := match s.owner? c with
  | some (_, g) => g.step != .off
  | none => false

/-- The context a core runs for. -/
def State.ctxOf (s : State) (c : Fin 256) : Fin 17 := match s.owner? c with
  | some (k, _) => k.ctx
  | none => match (List.finRange 17).find? (fun f => (s.ctxs[f]).part.cores.getLsbD c.val) with
    | some f => f
    | none => 0

/-- The 8-bit tag of a context (R117). -/
def State.tagOf (s : State) (f : Fin 17) : BitVec 8 := (s.ctxs[f]).gen ++ BitVec.ofNat 5 f.val

def dieOf (c : Fin 256) : Nat := c.val / 32
def clusterOf (c : Fin 256) : Nat := c.val / 8
/-- Mesh hops between dies (R12). -/
def hops (d e : Nat) : Nat :=
  (if d / 4 = e / 4 then 0 else 1) + (if d % 4 ≤ e % 4 then e % 4 - d % 4 else d % 4 - e % 4)

/-- HLAT of a group level (R160). -/
def hlat : Nat → Nat
  | 2 => 6 | 3 => 14 | 4 => 48 | 6 => 720 | 7 => 2400 | _ => 6
/-- LFLOOR of a group level (R160). -/
def lfloor : Nat → Nat
  | 2 => 24 | 3 => 40 | 4 => 140 | 6 => 900 | 7 => 2800 | _ => 24

/-- The next bell after this cycle (R156). -/
def State.nextBell (s : State) : Nat := (s.cyc / 4096 + 1) * 4096

/-! ## Clocks and the agenda -/

/-- What a clock shows now. -/
def State.now (s : State) : Clock → Nat
  | .time => s.time
  | .cyc => s.cyc
  | .strand c j => (s.strand c j).lt
  | .tt c => (s.core c).tt
  | .eng c => (s.core c).eng
  | .least kid g => match s.group? kid g with
    | none => s.time
    | some gr => match gr.members.map fun c => (s.core c).tt with
      | [] => s.time
      | t :: r => r.foldl Nat.min t

/-- Puts an item on the agenda with the next order number. -/
def State.push (s : State) (clk : Clock) (due phase core : Nat) (act : Act) : State :=
  { s with agenda := s.agenda ++ [{ clk, due, phase, core, seq := s.seq, act }], seq := s.seq + 1 }

/-- Puts an item on the agenda under the order number of an earlier instruction (R307, R363). -/
def State.pushAs (s : State) (clk : Clock) (due phase core seq : Nat) (act : Act) : State :=
  { s with agenda := s.agenda ++ [{ clk, due, phase, core, seq, act }] }

def State.curStrand (s : State) : Strand := s.strand s.cur.core s.cur.strand
def State.curCore (s : State) : Core := s.core s.cur.core
def State.onCur (s : State) (f : Cur → Cur) : State := { s with cur := f s.cur }

/-- The place in phase 4 of what comes after the verdicts of the cycle, and before its issue. -/
def afterVerdicts : Nat := 2 ^ 40

/-- An effect of the current slot that takes place in n cycles of its strand (R75), in a phase of that cycle. -/
def State.later (s : State) (n phase : Nat) (e : Eff) : State :=
  s.push (.strand s.cur.core s.cur.strand) (s.curStrand.lt + n) phase s.cur.core.val
    (.eff s.cur.core s.cur.strand s.cur.pc s.cur.pos e)

/-- The strand has stopped at a saving REALIGN.p (R170). -/
def Strand.isSaving (t : Strand) : Bool := match t.wait with
  | .saving _ => true
  | _ => false

/-- The counts of a TIMED member run on its own clocks: not in step mode (R151), and not while it waits for its save, when they run in
CYC (R447). -/
def State.keepsTT (s : State) (c : Fin 256) : Bool := s.timed c && !s.stepping c && !(s.strand c 0).isSaving

/-- The clock on which the engine accesses of a strand of core c count: TT in a TIMED group, raw cycles in a PACED one, in
step mode, during a save, and for a handler that runs while the member's TT stands (R161, R162). -/
def State.engClock (s : State) (c : Fin 256) (nested : Bool) : Clock :=
  if s.keepsTT c && !nested then .tt c else .time

/-- The clock of core c's engines themselves (R96, R161). -/
def State.engineClock (s : State) (c : Fin 256) : Clock :=
  if s.keepsTT c then .eng c else .time

/-! ## Registers -/

/-- Xr as read (R173). -/
def Strand.rx (t : Strand) (r : BitVec 5) : Word := if r = 0 then 0 else t.x[fin 32 r.toNat]
/-- Ar as read. -/
def Strand.ra (t : Strand) (r : BitVec 4) : Word := t.a[fin 16 r.toNat]
/-- Pr as read: P0 reads true (R173). -/
def Strand.rp (t : Strand) (r : BitVec 3) : Bool := r = 0 || t.p.getLsbD r.toNat
/-- Kr as read: K0 reads all-ones (R173). -/
def Strand.rk (t : Strand) (r : BitVec 3) : KMask := if r = 0 then BitVec.allOnes 1024 else t.k[fin 8 r.toNat]

/-- Writes Xr; a write to X0 is discarded (R173). -/
def Strand.wx (t : Strand) (r : BitVec 5) (v : Word) : Strand :=
  if r = 0 then t else { t with x := upd t.x (fin 32 r.toNat) fun _ => v }
def Strand.wa (t : Strand) (r : BitVec 4) (v : Word) : Strand := { t with a := upd t.a (fin 16 r.toNat) fun _ => v }
/-- Writes Pr; a write to P0 is discarded. -/
def Strand.wp (t : Strand) (r : BitVec 3) (b : Bool) : Strand :=
  if r = 0 then t else { t with p := if b then t.p ||| ((1 : BitVec 8) <<< r.toNat) else t.p &&& ~~~((1 : BitVec 8) <<< r.toNat) }
/-- Writes Kr; a write to K0 is discarded. -/
def Strand.wk (t : Strand) (r : BitVec 3) (v : KMask) : Strand :=
  if r = 0 then t else { t with k := upd t.k (fin 8 r.toNat) fun _ => v }

/-- A guarded slot: under a false predicate it has no effect (R67). -/
def State.guarded (s : State) (g : BitVec 3) (f : State → State) : Res :=
  if s.curStrand.rp g then .next (f s) else .next s

/-- Schedules a register write of the current slot at latency n; X0 and P0 take none (R76). -/
def State.setX (s : State) (n : Nat) (d : BitVec 5) (v : Word) : State := if d = 0 then s else s.later n 2 (.x d v)
def State.setA (s : State) (n : Nat) (d : BitVec 4) (v : Word) : State := s.later n 2 (.a d v)
def State.setP (s : State) (n : Nat) (d : BitVec 3) (b : Bool) : State := if d = 0 then s else s.later n 2 (.p d b)

/-- The bundle of the current slot cannot issue in this cycle (R73). -/
def State.stall (s : State) : State := s.onCur fun k => { k with stall := true }

/-! ## Event entries (R326, R460) -/

/-- A 32-byte event entry. -/
def eventBytes (cyc tt core kind num elems low dur : Nat) : List Byte :=
  toBytes 8 cyc ++ toBytes 8 tt ++ toBytes 2 core ++ toBytes 1 kind ++ toBytes 1 num ++ toBytes 2 (Nat.min elems 65535)
    ++ toBytes 2 0 ++ toBytes 4 low ++ toBytes 4 (Nat.min dur 0xFFFFFFFF)

/-- Writes an event entry into a context's ring, among the writes of this cycle; a context with EVBASE 0 records nothing (R460). -/
def State.event (s : State) (f : Fin 17) (e : List Byte) : State :=
  let k := s.ctxs[f]
  if k.evBase = 0 then s else
    let n := bits k.evCtl.toNat 0 5
    let prod := bits k.evCtl.toNat 32 32
    let s := s.push .time s.time 8 0 (.ownWrite false (k.evBase.toNat + 32 * (prod % 2 ^ n)) e f)
    s.onCtx f fun k => { k with evCtl := BitVec.ofNat 64 ((prod + 1) % 2 ^ 32 * 2 ^ 32 + bits k.evCtl.toNat 0 32) }

/-- An event of a kind whose further fields the spec does not give: CYC and the kind, the rest free (R460). -/
def State.eventKind (s : State) (f : Fin 17) (kind : Nat) : State :=
  let v (i : Nat) : Nat := Config.eventField s.free i
  ({ s with free := s.free + 1 }).event f (eventBytes s.cyc (v 0) (v 1) kind (v 2) (v 3) (v 4) (v 5))

/-! ## Stopping groups (R120, R441) -/

/-- The command that an agenda item belongs to. -/
def actCmd : Act → Option Nat
  | .ev (.commandStart i) | .ev (.mmaReady i) | .ev (.epilogueSnapshot i) | .ev (.outputFolded i) | .ev (.verdict i)
  | .ev (.copyRead i) | .ev (.copyPerform i) | .ev (.copyResendRead i) | .ev (.copyResendLand i) | .ev (.cpyhPerform i)
  | .ev (.correctionDelivery i) | .ev (.amoPerform i) | .ev (.hostAtomicCompletion i) | .ev (.acellPerform i)
  | .ev (.acrdRead i) => some i
  | .eff _ _ _ _ (.btest _ i) | .copyPins i => some i
  | _ => none

/-- Drops a command and everything the agenda still holds for it. -/
def State.dropCmd (s : State) (id : Nat) : State :=
  { s with cmds := s.cmds.filter (·.id != id), agenda := s.agenda.filter fun i => actCmd i.act != some id }

/-- A pending effect that is a write already issued, which performs in full when its strand is stopped (R121): stores, and what BINIT and
BEXP write. -/
def Eff.isWrite : Eff → Bool
  | .store .. | .vstore .. | .vstorex .. | .binit .. | .bexp .. => true
  | _ => false

/-- A pending effect that goes on when its strand has stopped: a write, or the read of a launch record (R149). -/
def Eff.goesOn (e : Eff) : Bool := e.isWrite || match e with
  | .launchRead .. => true
  | _ => false

/-- Whether a clock counts for core c or for the group (kid, g). -/
def Clock.of (k : Clock) (c : Fin 256) : Bool := match k with
  | .strand c' _ | .tt c' | .eng c' => c' == c
  | _ => false

/-- Moves an item to the raw clock with its remaining count. -/
def State.toTime (s : State) (i : Item) : Item := { i with clk := .time, due := s.time + (i.due - s.now i.clk) }

/-- A strand that has been stopped for good (R120, R441). -/
def Strand.stopped (t : Strand) : Strand :=
  { t with life := .idle, trapped := false, wait := .none, hold := Hold.empty, due1 := none, due2 := none, pending := [],
           replay := [], bad := none, bwait := none, walks := [] }

/-- The outputs that stay in the press of a stopped core: the one the mender is at (R329). -/
def Core.keptPress (k : Core) : List Press := match k.mender with
  | some (.tile id, _) => k.press.filter (·.id == id)
  | _ => []

/-- The HELD launches of a kernel whose group leaves step mode in cycle CYC n: they enter at the first bell after it (R152). -/
def Core.unhold (k : Core) (kid n : Nat) : Core :=
  { k with launches := k.launches.map fun l => if l.held && l.kid == kid then { l with held := false, from_ := n } else l }

/-- A core whose group has been stopped. -/
def Core.stopped (k : Core) : Core :=
  { k with strands := each k.strands Strand.stopped, causes := [], press := k.keptPress, waiting := [], pins := [], bars := [],
           entries := each k.entries fun e => { e with st := .idle, kept := [], buf := [], late := none, finBuf := [] },
           tiles := each k.tiles fun t => { t with latest := if t.latest == .inPress then .discarded else t.latest } }

/-- Stops core c of a group that ends at once (R120, R441): its strands go IDLE, register results and read returns are
dropped, stores already issued and started commands go on by the raw clock, queued commands are dropped, outputs without
a verdict are discarded, collective entries go IDLE. An arbitration in progress runs to its end (R329). -/
def State.stopCore (s : State) (c : Fin 256) : State :=
  let gone := (s.cmds.filter fun k => k.core == c && (k.queued || match k.body with
    | .mepi _ | .mma _ | .mzero .. | .mcell .. => true
    | _ => false)).map (·.id)
  let keep (i : Item) : Bool := match i.act with
    | .eff c' _ _ _ e => c' != c || e.goesOn
    | .ev (.collectiveStep c' _ _) | .ev (.finStep c' _ _) | .ev (.ackTimeout c' _ _) | .ev (.ackArrival c' _ _)
    | .ev (.instanceComplete c' _) => c' != c
    | .seen c' .. | .sentAll c' _ => c' != c
    | a => match actCmd a with
      | some id => !gone.contains id
      | none => true
  let s := { s with
    cmds := s.cmds.filter (fun k => !gone.contains k.id)
    -- walks that have not begun are no request yet
    walks := s.walks.filter fun w => w.core != c || w.busy
    agenda := (s.agenda.filter keep).map fun (i : Item) => if i.clk.of c then s.toTime i else i }
  s.onCore c fun k => match k.owner with
    | some o => k.stopped.unhold o.kid s.cyc
    | none => k.stopped

/-- An item on the least TT of a kernel's group, or of its group gp alone, goes on by the raw clock. -/
def State.leastToTime (s : State) (kid : Nat) (gp : Option Nat) (i : Item) : Item := match i.clk with
  | .least k g => if k = kid ∧ (gp.getD g) = g then s.toTime i else i
  | _ => i

/-- A group that its kernel's fault stops. -/
def Group.stopped (g : Group) : Group :=
  if g.st == .retired then g else { g with st := .faulted, freeze := none, pre := none, step := .off }

/-- Stops every group of a kernel in this cycle (R441, R146); the groups that had not retired become FAULTED. -/
def State.stopKernel (s : State) (kid : Nat) : State := match s.kernel? kid with
  | none => s
  | some k =>
    let cs := k.groups.foldr (fun g l => g.members ++ l) []
    let s := { s with agenda := s.agenda.map (s.leastToTime kid none) }
    let s := cs.foldl (fun s c => match (s.core c).owner with
      | some o => if o.kid = kid then s.stopCore c else s
      | none => s) s
    s.onKernel kid fun k => { k with groups := k.groups.map Group.stopped }

/-! ## The end of a kernel (R119, R146, R356) -/

/-- A core whose group has left it: its strands are IDLE, its landing queues are emptied (R150) and its collective entries are IDLE
(R422). -/
def Core.left (k : Core) : Core :=
  { k with owner := none, landq := each k.landq (fun q => { q with flits := [] }), pins := [], bars := [], sel := 0, selFrom := 0, strands := each k.strands Strand.stopped,
           entries := each k.entries fun e => { e with st := .idle, buf := [], finBuf := [] } }

/-- Frees the cores whose owner satisfies p; results still in flight there become visible (R150). -/
def State.leave (s : State) (p : Owner → Bool) : State :=
  { s with cores := each s.cores fun k => match k.owner with
      | some o => if p o then k.left else k
      | none => k }

/-- Nothing of an earlier group's results reaches cores that start anew (R145); its writes perform. -/
def State.clearFlight (s : State) (cs : List (Fin 256)) : State :=
  let keep (i : Item) : Bool := match i.act with
    | .eff c _ _ _ e => !cs.contains c || e.goesOn
    | .seen c _ _ _ _ _ | .commit c _ _ _ _ | .passed c _ _ | .sent c _ _ => !cs.contains c
    | _ => true
  { s with agenda := s.agenda.filter keep }

/-- Frees the cores of a kernel. -/
def State.leaveCores (s : State) (kid : Nat) : State := s.leave fun o => o.kid == kid

/-- OPEN or ACTIVE as a group of the context holds a core or not (R119). -/
def State.settle (s : State) (f : Fin 17) : State :=
  let held := s.cores.toList.any fun k => match k.owner with
    | some o => s.kernels.any fun n => n.kid == o.kid && n.ctx == f
    | none => false
  s.onCtx f fun c => match c.st with
    | .open_ | .active => { c with st := if held then .active else .open_ }
    | _ => c

/-- A kernel has ended: its outcome is kept (R135: of the last 65,536 numbers), its queue, cores and pins are freed. -/
def State.endKernel (s : State) (kid : Nat) (done : Bool) : State := match s.kernel? kid with
  | none => s
  | some k =>
    let s := s.onCtx k.ctx fun c => { c with outcomes := ((k.seq, done) :: c.outcomes).filter fun o => decide (c.nextSeq ≤ o.1 + 65536) }
    let s := s.onQueue k.queue fun q => { q with intake := q.intake.filter (· != kid) }
    let s := s.leaveCores kid
    ({ s with cores := each s.cores (fun c => c.unhold kid s.cyc), kernels := s.kernels.filter (·.kid != kid), pinsets := s.pinsets.filter (·.kid != kid) }).settle k.ctx

/-- A kernel goes to DISCARDED: its groups stop at once, with no DONE write and no fault record (R120). -/
def State.discardKernel (s : State) (kid : Nat) : State := (s.stopKernel kid).endKernel kid false

/-- Every kernel, intake record and pending or HELD launch of a context goes to DISCARDED, but for the kernel named, and its
queues go to STOPPED (R120, R356). -/
def State.discardAll (s : State) (f : Fin 17) (but : Option Nat) : State :=
  let gone := (s.kernels.filter fun k => k.ctx == f && some k.kid != but).map (·.kid)
  let cs := (s.ctxs[f]).part.cores
  let s := gone.foldl State.discardKernel s
  let quiet (i : Fin 256) : Core := if cs.getLsbD i.val then { s.cores[i] with launches := [] } else s.cores[i]
  let s := { s with cores := Vector.ofFn quiet }
  { s with queues := each s.queues fun q => if q.ctx = some f then { q with st := .stopped } else q }

/-- The rollback of a context begins (R356): everything but the faulting kernel is discarded in this cycle; the rest follows the
drain. A CKPT that waits for its bell still acts (R357). -/
def State.rollback (s : State) (f : Fin 17) (but : Option Nat) : State :=
  (s.discardAll f but).onCtx f fun c => { c with rolling := true }

/-- The data of a fault record for a fault on core c (R148, R442): 0xFFFF and 0xFF where no core or strand is named. -/
def State.faultRec (s : State) (c : Option (Fin 256)) (j : Option (Fin 4)) (cause tpc : Nat) (taddr : Word) : FaultRec :=
  { reason := 0, tcause := cause, section_ := 0xFF,
    group := match c.bind s.owner? with
      | some (_, g) => g.index
      | none => 0,
    site := 0xFFFFFFFF, reloc := 0xFFFFFFFF,
    core := match c with
      | some c => c.val
      | none => 0xFFFF,
    strand := match j with
      | some j => j.val
      | none => 0xFF,
    tpc, taddr, tt := match c with
      | some c => (s.core c).tt
      | none => 0, cyc := s.cyc }

/-- Causes that roll a context with an armed checkpoint back (R356, R441). -/
def rollsBack (cause : Nat) : Bool := cause == 0x08 || cause == 0x0B || cause == 0x0C || cause == 0x0D || cause == 0x0E

/-- A fault of this rank replaces the one that a kernel has in this cycle: it has none, or that of a higher group index (R146). -/
def Kernel.takes (k : Kernel) (group : Nat) : Bool := match k.fault with
  | none => true
  | some old => !k.halted && decide (group < old.group)

/-- A fault of the kernel can roll its context back: the checkpoint is armed, and no rollback is under way (R356). -/
def State.canRoll (s : State) (k : Kernel) : Bool := (s.ctxs[k.ctx]).ckpt.armed && !(s.ctxs[k.ctx]).rolling

/-- Faults a kernel (R441): the record is kept, to be written after the drain. Every group stops in this cycle, at whose end the stop
takes place, so that a fault of a lower group index that falls in the same cycle is found (R146; log 145). A cause of R356 that comes
after the stop begins the rollback still. -/
def State.faultKernel (s : State) (kid : Nat) (r : FaultRec) : State := match s.kernel? kid with
  | none => s
  | some k =>
    let rolls := rollsBack r.tcause && r.reason == 0
    if !k.halted then s.onKernel kid fun k =>
      { k with fault := if k.takes r.group then some r else k.fault, faultEarly := k.faultEarly || s.iss == 0, rolls := k.rolls || rolls }
    else if rolls && s.canRoll k then s.rollback k.ctx (some kid) else s

/-- The stop of a kernel that has faulted in this cycle (R441). With the context's checkpoint armed, the causes of R356 begin a
rollback. -/
def State.haltKernel (s : State) (k : Kernel) : State := match k.fault with
  | none => s
  | some _ =>
    if k.halted then s else
    let s := (s.stopKernel k.kid).onKernel k.kid fun k => { k with halted := true }
    if k.rolls && s.canRoll k then s.rollback k.ctx (some k.kid) else s

/-- The stops of a cycle. -/
def State.haltKernels (s : State) : State := s.kernels.foldl State.haltKernel s

/-- A group fault raised at core c (R441, R442). -/
def State.groupFault (s : State) (c : Fin 256) (cause tpc : Nat) (taddr : Word) (strand : Option (Fin 4)) : State :=
  match (s.core c).owner with
  | none => s
  | some o => s.faultKernel o.kid (s.faultRec (some c) strand cause tpc taddr)

/-! ## Taking an exception (R429 to R436) -/

/-- The level code of the flight-save header (R433). -/
def Level.code : Level → Nat
  | .user => 0 | .super => 1 | .firm => 2

/-- The level of a code; a code that R433 does not name, which only a handler can have written, is SUPER (log 193). -/
def Level.ofCode : Nat → Level
  | 0 => .user | 2 => .firm | _ => .super

/-- The SPM offset of a strand's flight-save area (R432). -/
def flightBase (j : Fin 4) : Nat := 0xBC000 + 0x1000 * j.val

/-- A flight-save entry for a captured effect, if it is one of kinds 1 to 4 and 6 (R433, R434). -/
def flightEntry (e : Eff) (count : Nat) : Option (List Byte) :=
  let mk (v : Nat) (kind reg op pend num : Nat) : List Byte :=
    toBytes 8 v ++ toBytes 1 kind ++ toBytes 1 reg ++ toBytes 1 op ++ toBytes 1 pend ++ toBytes 2 num ++ toBytes 2 count
  match e with
  | .x d v => some (mk v.toNat 1 d.toNat 0 0 0)
  | .xret d _ _ (some v) => some (mk v.toNat 1 d.toNat 0 0 0)
  | .xret d _ _ none => some (mk 0 1 d.toNat 0 1 0)
  | .a d v => some (mk v.toNat 2 d.toNat 0 0 0)
  | .loaded toA d v => some (mk v.toNat (if toA then 2 else 1) d.toNat 0 0 0)
  | .p d b => some (mk (bit b) 3 d.toNat 0 0 0)
  | .csr n op v => some (mk v.toNat 4 0 (match op with
      | .write => 0
      | .set => 1
      | .clear => 2) 0 n.toNat)
  | .arrive a n b => if b = 0 then some (mk n 6 0 0 0 (a / 16)) else none
  | _ => none

/-- A kind-5 entry naming an operation of the hold (R433). -/
def holdEntry (i count : Nat) : List Byte := toBytes 8 0 ++ toBytes 1 5 ++ toBytes 1 i ++ toBytes 4 0 ++ toBytes 2 count

/-- A kind-7 entry for a pending trap (R433). -/
def trapEntry (p : Pend) : List Byte :=
  toBytes 8 p.info.taddr.toNat ++ toBytes 1 7 ++ toBytes 1 p.slot.val ++ toBytes 1 p.info.cause ++ toBytes 1 0 ++ toBytes 2 (p.pc / 16) ++ toBytes 2 0

/-- What the hold keeps of a kind-7 entry. -/
def Pend.origin (p : Pend) : Origin :=
  { order := p.order, kind := 7, reg := p.slot.val, ret := none, load := false, coef := p.info.coef, ring := p.ring }

/-- An item is a result or operation of strand (c, j) that a trap captures (R434): its effects on the strand's own clock, and the X
result of a LAUNCH or CKPT, which counts raw cycles. -/
def Item.inFlight (i : Item) (c : Fin 256) (j : Fin 4) : Bool := match i.clk, i.act with
  | .strand c' j', .eff _ _ _ _ _ => c' == c && j' == j
  | .time, .eff c' j' _ _ (.x _ _) => c' == c && j' == j
  | _, _ => false

/-- Puts an item in its place by order number. -/
def Item.into (i : Item) : List Item → List Item
  | [] => [i]
  | k :: r => if i.seq < k.seq then i :: k :: r else k :: Item.into i r

/-- What An of strand (c, j) will hold in its cycle `due` by the writes of a flight. -/
def State.heldA (s : State) (c : Fin 256) (j : Fin 4) (mine : List Item) (due : Nat) (n : Fin 16) : Word :=
  mine.foldl (fun v i => if i.due ≠ due then v else match i.act with
    | .eff _ _ _ _ (.a d w) => if d.toNat = n.val then w else v
    | .eff _ _ _ _ (.loaded true d w) => if d.toNat % 16 = n.val then w else v
    | _ => v) (s.strand c j).a[n]

/-- The register results of a loop-back or a loop entry, each for itself, as a capture keeps them with their values (R189, R191, R434): the A
registers that a delta changes, and the stage predicates. -/
def State.single (s : State) (c : Fin 256) (j : Fin 4) (mine : List Item) (i : Item) : List Item := match i.act with
  | .eff _ _ pc pos (.delta d) => (List.finRange 16).filterMap fun n => if d[n] = 0 then none else
      some { i with phase := 2, act := .eff c j pc pos (.a (BitVec.ofNat 4 n.val) (s.heldA c j mine i.due n + d[n])) }
  | .eff _ _ pc pos (.stage n b) => (List.range (n + 1)).map fun k =>
      { i with phase := 2, act := .eff c j pc pos (.p (BitVec.ofNat 3 (4 + k)) (b.getLsbD k)) }
  | _ => [i]

/-- What a trap of strand (c, j) captures of the agenda, in the order of issue, and the rest of the agenda. -/
def State.flight (s : State) (c : Fin 256) (j : Fin 4) : List Item × List Item :=
  let p := s.agenda.partition fun i => i.inFlight c j
  let mine := p.1.foldl (fun l i => i.into l) []
  (mine.flatMap (s.single c j mine), p.2)

/-- The bell that a CYC belongs to: the first bell after it. -/
def bellAfter (cyc : Nat) : Nat := cyc / 4096 * 4096 + 4096

/-- X results that strand (c, j) is owed at a bell (R149, R357), as order number, register and cycles until visible: a LAUNCH that is
not HELD, and a CKPT. -/
def State.owed (s : State) (c : Fin 256) (j : Fin 4) : List (Nat × BitVec 5 × Nat) :=
  ((s.core c).launches.filter fun l => l.strand == j && l.d != 0 && !l.held).map (fun l => (l.order, l.d, bellAfter l.from_ + 32 - s.cyc)) ++
  ((s.ctxs[s.ctxOf c]).ckpts.filter fun r => r.core == c && r.strand == j && r.d != 0).map fun r => (r.order, r.d, bellAfter (r.at_ + 2) + 512 - s.cyc)

/-- How many entries a trap in this cycle would capture (R434). A transfer out of the image counts as the pending trap that it will be
(R82), from its second delay bundle on (log 190). -/
def State.flightCount (s : State) (c : Fin 256) (j : Fin 4) : Nat :=
  let t := s.strand c j
  (s.flight c j).1.length + (s.owed c j).length + bit t.bad.isSome + bit (decide (t.lt < t.divBusy)) + bit (decide (t.lt < t.pipeBusy))

/-- The hold index of the divide unit's occupancy and of the vector pipe's: they follow the operations. -/
def Hold.divIndex (h : Hold) : Nat := h.ops.length
def Hold.pipeIndex (h : Hold) : Nat := h.ops.length + bit h.div.isSome

/-- The remaining count of an item when its clock shows t (R433): a vector result becomes visible in the cycle after its check. -/
def Item.remaining (i : Item) (t : Nat) : Nat := match i.act with
  | .eff _ _ _ _ (.res _) => i.due + 1 - t
  | _ => i.due - t

/-- The state of a capture under way: entries, and the hold. -/
structure Capture where
  entries : List (List Byte)
  hold : Hold
deriving Repr

/-- Adds an entry with what stands behind it. -/
def Capture.entry (k : Capture) (b : List Byte) (o : Origin) : Capture :=
  { entries := k.entries ++ [b], hold := { k.hold with origins := k.hold.origins ++ [o] } }

/-- The origin of an entry that holds a plain effect. -/
def Eff.origin (e : Eff) (order : Nat) : Origin :=
  let mk (kind reg : Nat) (ret : Option (Nat × Nat)) (load : Bool) : Origin := { order, kind, reg, ret, load, coef := none, ring := (0, 0) }
  match e with
  | .x d _ => mk 1 d.toNat none false
  | .xret d id reach _ => mk 1 d.toNat (some (id, reach)) false
  | .a d _ => mk 2 d.toNat none false
  | .loaded toA d _ => mk (if toA then 2 else 1) d.toNat none true
  | .p d _ => mk 3 d.toNat none false
  | .csr _ _ _ => mk 4 0 none false
  | .arrive _ _ _ => mk 6 0 none false
  | _ => mk 5 0 none false

/-- Captures one item with n cycles remaining (R434). -/
def Capture.add (k : Capture) (i : Item) (n : Nat) : Capture := match i.act with
  | .eff _ _ pc pos e =>
    match flightEntry e n with
    | some b =>
      let rets := match e with
        | .xret _ id _ none => k.hold.rets ++ [(id, k.entries.length)]
        | _ => k.hold.rets
      Capture.entry { k with hold := { k.hold with rets } } b (e.origin i.seq)
    | none => Capture.entry { k with hold := { k.hold with ops := k.hold.ops ++ [{ count := n, phase := i.phase, order := i.seq, pc, pos, eff := e }] } }
        (holdEntry k.hold.ops.length n) (e.origin i.seq)
  | _ => k

/-- Captures a result owed at a bell, as a return still to come. -/
def Capture.owe (k : Capture) (o : Nat × BitVec 5 × Nat) : Capture :=
  Capture.entry { k with hold := { k.hold with owed := k.hold.owed ++ [(o.1, k.entries.length)] } }
    (toBytes 8 0 ++ toBytes 1 1 ++ toBytes 1 o.2.1.toNat ++ toBytes 1 0 ++ toBytes 1 1 ++ toBytes 2 0 ++ toBytes 2 o.2.2)
    ((Eff.x o.2.1 0).origin o.1)

/-- Captures an occupancy, as an operation of the hold. -/
def Capture.occupy (k : Capture) (index : Nat) (n : Option Nat) : Capture := match n with
  | some n => k.entry (holdEntry index n) { order := 0, kind := 5, reg := 0, ret := none, load := false, coef := none, ring := (0, 0) }
  | none => k

/-- An effect that writes the scale latch. -/
def Eff.latches : Eff → Bool
  | .res r | .vdone r => r.latch.isSome
  | _ => false

/-- What the flight of strand (c, j) comes to in a capture, with the traps that are pending. -/
def State.captured (s : State) (c : Fin 256) (j : Fin 4) (mine : List Item) (more : List Pend) : Capture :=
  let t := s.strand c j
  let div := if t.lt < t.divBusy then some (t.divBusy - t.lt) else none
  let pipe := if t.lt < t.pipeBusy then some (t.pipeBusy - t.lt) else none
  let k := mine.foldl (fun k i => k.add i (i.remaining (s.now i.clk))) { entries := [], hold := Hold.empty }
  let k := (s.owed c j).foldl Capture.owe k
  let k := { k with hold := { k.hold with div, pipe } }
  more.foldl (fun k m => k.entry (trapEntry m) m.origin) ((k.occupy k.hold.divIndex div).occupy k.hold.pipeIndex pipe)

/-- Captures every effect of the strand that has not taken effect (R432 to R434) and empties the strand's flight; the area itself is
written after the reads of the cycle (R241). `more` are the pending traps of this cycle; gap, due1, due2 and level go into the header.
A latch that VBMAX has yet to write counts as not written (R258). -/
def State.capture (s : State) (c : Fin 256) (j : Fin 4) (level : Level) (ring : Nat × Nat) (gap : Nat) (due1 due2 : Option Transfer)
    (more : List Pend) : State :=
  let (mine, rest) := s.flight c j
  let k := s.captured c j mine more
  let dueIdx (d : Option Transfer) : Nat := match d with
    | none => 0
    | some d => d.target.toNat / 16 + 1
  let hdr := toBytes 1 level.code ++ toBytes 1 0 ++ toBytes 2 (dueIdx due1) ++ toBytes 2 (dueIdx due2) ++ toBytes 8 gap
  -- the accesses that E-class returns wait for run on in CYC (R161)
  let runOn (i : Item) : Item := match actCmd i.act with
    | some id => if k.hold.rets.any (fun r => r.1 == id) then s.toTime i else i
    | none => i
  let s := { s with agenda := rest.map runOn }
  (s.onStrand c j fun t =>
    { t with hold := { k.hold with image := some (hdr, k.entries), level, ring, bad := t.bad, due1, due2, replay := t.replay,
                                   wait := t.wait, latch := t.latch },
             latch := { t.latch with valid := t.latch.valid && !k.hold.ops.any (·.eff.latches) },
             wait := .none, divBusy := t.lt, pipeBusy := t.lt, replay := [], bad := none, bwait := none, walks := [] }).push
    .time s.time 8 c.val (.flightSave c j)

/-- The bytes of a flight-save area that waits to be written. -/
def areaBytes (a : List Byte × List (List Byte)) : List Byte := toBytes 2 a.2.length ++ a.1 ++ a.2.flatten

/-- The flight-save area of a strand that has trapped in this cycle is written (R432). -/
def State.saveFlight (s : State) (c : Fin 256) (j : Fin 4) : State := match (s.strand c j).hold.image with
  | none => s
  | some a => (s.onCore c fun k => { k with spm := k.spm.writeBytes (flightBase j) (areaBytes a) }).onStrand c j
      fun t => { t with hold := { t.hold with image := none } }

/-- Ends a kernel for a double trap (R428): the cause of the second trap, TPC the handler's bundle. A bundle that an RFT.fault ends is
past it (R438). -/
def State.doubleTrap (s : State) (c : Fin 256) (j : Fin 4) (cause tpc : Nat) (taddr : Word) : State :=
  match (s.core c).owner with
  | none => s
  | some o => s.faultKernel o.kid (s.faultRec (some c) (some j) cause tpc taddr)

/-- TCOEF (R183, R275). -/
def tcoefWord (c : Option (Fin 8)) : Word := match c with
  | none => 0
  | some n => BitVec.ofNat 64 (8 + n.val)

/-- The strand has left its handler and waits for E-class returns before its flight is restored (R439): whether its RFT was .replay. -/
def Strand.returning (t : Strand) : Option Bool := match t.wait with
  | .rft replay => some replay
  | _ => none

/-- The REALIGN or join that a strand waits in, or waited in when it trapped: its TT, its form (0, 1 for .p, 2 for .join) and its join word
(R170, R171). -/
def Strand.realignAt (t : Strand) : Option (Nat × Nat × Word) := match (if t.trapped || t.returning.isSome then t.hold.wait else t.wait) with
  | .realign _ p _ tt => some (tt, bit p, 0)
  | .join _ w _ tt => some (tt, 2, w)
  | _ => none

/-- A REALIGN that some member waits in is common, as far as its group has come: every other member waits in it too, or has yet to come to
its TT, or to issue there (R170; log 206). -/
def State.commonRealign (s : State) (g : Group) (x : Nat × Nat × Word) : Bool := g.members.all fun m =>
  (s.strand m 0).realignAt == some x || decide ((s.core m).tt < x.1) || ((s.core m).tt == x.1 && !(s.core m).causes.isEmpty)

/-- A freeze point as the REALIGNs of the group lower it: to t + 1 where the members stand at a common one (R170). -/
def State.realignPoint (s : State) (g : Group) (f : Nat) : Nat := (g.members.filterMap fun m => (s.strand m 0).realignAt).foldl
  (fun f x => if s.commonRealign g x then Nat.min f (x.1 + 1) else f) f

/-- A freeze point as BUDGET lowers it: no member goes past the TT at which the group takes DEADLINE (R167). -/
def Kernel.budgetPoint (k : Kernel) (g : Group) (f : Nat) : Nat := if k.record.budget = 0 then f else Nat.min f (k.record.budget + g.stepped)

/-- Adds a slip cause to the member on core c and sets the freeze point of its group (R160): F is the least slip TT plus
HLAT, or t + 1 where the members stand at a common REALIGN (R170), and BUDGET at most (R167). -/
def State.slipAt (s : State) (c : Fin 256) (cause : SlipCause) (tt : Nat) : State := match s.owner? c, (s.core c).owner with
  | some (k, g), some o =>
    if !k.record.timed then s else
    let s := s.onCore c fun x => { x with causes := if x.causes.contains cause then x.causes else cause :: x.causes }
    if g.step != .off then s else
    let f := k.budgetPoint g (s.realignPoint g (tt + hlat g.level))
    let f := match g.freeze with
      | some (f0, _) => Nat.min f0 f
      | none => f
    s.onGroup o.kid o.gpos fun g => { g with freeze := some (f, none) }
  | _, _ => s

def State.slip (s : State) (c : Fin 256) (cause : SlipCause) : State := s.slipAt c cause (s.core c).tt

/-- Software has written CSR num of the strand in the cycle `now` (R181). -/
def Strand.wroteNow (t : Strand) (now num : Nat) : Bool := t.wrote.1 == now + 1 && t.wrote.2.contains num

/-- What a CSR holds after the hardware's write v in the cycle `now`: a field that software writes in that very cycle keeps what software
wrote (R181). -/
def Strand.put (t : Strand) (now num : Nat) (old v : Word) : Word := if t.wroteNow now num then old else v

/-- The strand that enters its handler in the cycle `now` (R431, R436): TCAUSE, TPC, NPC, TSLOT, TCOEF, TADDR and TTT, level SUPER, the
strand TRAPPED at TVEC.ENTRY with its first bundle no earlier than t + 4. -/
def Strand.entering (t : Strand) (i : TrapInfo) (tt tpc npc : Nat) (slot : Fin 4) (now : Nat) : Strand :=
  { t with
    csr := { t.csr with
      tcause := t.put now 0x021 t.csr.tcause (BitVec.ofNat 64 i.cause), tpc := t.put now 0x022 t.csr.tpc (BitVec.ofNat 64 tpc),
      npc := t.put now 0x023 t.csr.npc (BitVec.ofNat 64 npc), tslot := t.put now 0x024 t.csr.tslot (BitVec.ofNat 64 slot.val),
      tcoef := t.put now 0x025 t.csr.tcoef (tcoefWord i.coef), taddr := t.put now 0x026 t.csr.taddr i.taddr,
      ttt := t.put now 0x027 t.csr.ttt (BitVec.ofNat 64 tt) },
    level := .super, trapped := true, pc := BitVec.ofNat 64 (bits t.csr.tvec.toNat 4 14 * 16), base := t.lt + 4, fenceW := 0,
    due1 := none, due2 := none, trapAt := now }

/-- A slip's cause clears (R159). -/
def State.unslip (s : State) (c : Fin 256) (cause : SlipCause) : State :=
  s.onCore c fun x => { x with causes := x.causes.filter (· != cause) }

/-- Writes the trap record and enters the handler (R431, R436). In a TIMED group the member slips (R159), and a slip of the bundle that does
not issue now is over. -/
def State.enterTrap (s : State) (c : Fin 256) (j : Fin 4) (i : TrapInfo) (tpc npc : Nat) (slot : Fin 4) : State :=
  let tt := (s.core c).tt
  let s := (s.onStrand c j fun t => t.entering i tt tpc npc slot s.time).unslip c .issue
  if s.stepping c then s else s.slipAt c .trap tt

/-- NPC of the trap record, where software has not written it in this very cycle (R181). -/
def State.setNpc (s : State) (c : Fin 256) (j : Fin 4) (npc : Word) : State := s.onStrand c j fun t =>
  { t with csr := { t.csr with npc := t.put s.time 0x023 t.csr.npc npc } }

/-- The strand's next bundle is a transfer's target out of the image, and this is the cycle in which it would issue (R82). -/
def Strand.badDue (t : Strand) : Option Transfer := match t.bad with
  | some b => if Nat.max t.base t.fenceW ≤ t.lt then some b else none
  | none => none

/-- The ADDR trap of such a transfer (R82). -/
def Transfer.pend (b : Transfer) : Pend :=
  { slot := 0, pc := b.source, info := { cause := 0x05, taddr := b.target, coef := none }, order := b.order, ring := (0, 0) }

/-- The bundle that a double trap names: the one that raised it where it is the handler's, else the handler's next (R428). -/
def State.handlerBundle (s : State) (c : Fin 256) (j : Fin 4) (tpc : Nat) : Nat :=
  if 262144 - (s.core c).hsize ≤ tpc ∧ tpc < 262144 then tpc else (s.strand c j).pc.toNat

/-- One more entry of kind 7 in the flight-save area that this cycle's trap writes, or has written (R430). -/
def State.addPending (s : State) (c : Fin 256) (j : Fin 4) (p : Pend) : State :=
  let n := (s.core c).spm.readNat (flightBase j) 2
  let s := if (s.strand c j).hold.image.isSome then s else
    s.onCore c fun k => { k with spm := (k.spm.writeBytes (flightBase j + 16 + 16 * n) (trapEntry p)).writeNat (flightBase j) 2 (n + 1) }
  s.onStrand c j fun t => { t with hold := { t.hold with
    image := t.hold.image.map fun a => (a.1, a.2 ++ [trapEntry p]), origins := t.hold.origins ++ [p.origin] } }

/-! ## Returning from an exception (R438, R439) -/

/-- One flight-save entry as stored. -/
structure FlightEntry where
  value : Nat
  kind  : Nat
  reg   : Nat
  op    : Nat
  pend  : Nat
  num   : Nat
  count : Nat
deriving DecidableEq, Repr

def readEntry (m : Mem) (base i : Nat) : FlightEntry :=
  let a := base + 16 + 16 * i
  { value := m.readNat a 8, kind := m.readNat (a + 8) 1, reg := m.readNat (a + 9) 1, op := m.readNat (a + 10) 1,
    pend := m.readNat (a + 11) 1, num := m.readNat (a + 12) 2, count := m.readNat (a + 14) 2 }

/-- The kind-5 entries that match a hold: each operation and each occupancy once, with its count. -/
def Hold.entries (h : Hold) : List (Nat × Nat) :=
  (h.ops.zipIdx.map fun o => (o.2, o.1.count % 65536)) ++
  (match h.div with
    | some n => [(h.divIndex, n % 65536)]
    | none => []) ++
  match h.pipe with
    | some n => [(h.pipeIndex, n % 65536)]
    | none => []

/-- A flight-save area that RFT accepts (R439): at most 127 entries, known kinds, the kind-5 entries matching the hold one for one,
every barrier inside SPM. -/
def flightOk (n : Nat) (es : List FlightEntry) (h : Hold) : Bool :=
  let got := (es.filter (·.kind == 5)).map fun e => (e.reg, e.count)
  decide (n ≤ 127) && (es.all fun e => (1 ≤ e.kind && e.kind ≤ 7) && (e.kind != 6 || decide (e.num * 16 + 16 ≤ 0xC0000))) &&
    got.length == h.entries.length && h.entries.all fun x => got.contains x

def State.flightEntries (s : State) (c : Fin 256) (j : Fin 4) : Nat × List FlightEntry :=
  let m := (s.core c).spm
  let n := m.readNat (flightBase j) 2
  (n, (List.range (Nat.min n 128)).map (readEntry m (flightBase j)))

/-- What stands behind entry i, where the handler has left its kind and register. -/
def Hold.originOf (h : Hold) (e : FlightEntry) (i : Nat) : Option Origin := match h.origins[i]? with
  | some o => if o.kind = e.kind ∧ (o.reg = e.reg ∨ e.kind = 5) then some o else none
  | none => none

/-- The effect that an entry of kinds 1 to 4 or 6 restores, with its phase; a result that a FENCE waits for stays one (R386). None for a
register that discards writes, for a write of a FIRM CSR by an entry that resumes a strand below FIRM (R127), and for a value that has
not arrived but of a LAUNCH or a CKPT, which its bell gives. -/
def FlightEntry.eff (e : FlightEntry) (o : Option Origin) (level : Level) : Option (Nat × Eff) :=
  let v := BitVec.ofNat 64 e.value
  let d := BitVec.ofNat 5 e.reg
  match e.kind with
  | 1 => if d = 0 then none else match o with
    | some o => (match o.ret with
      | some r => some (2, .xret d r.1 r.2 (if e.pend = 1 then none else some v))
      | none => if e.pend = 1 then none else some (2, if o.load then .loaded false d v else .x d v))
    | none => if e.pend = 1 then none else some (2, .x d v)
  | 2 => some (2, if (o.map (·.load)).getD false then .loaded true d v else .a (BitVec.ofNat 4 e.reg) v)
  | 3 => some (2, .p (BitVec.ofNat 3 e.reg) (e.value % 2 == 1))
  | 4 => if e.num = 0x017 ∧ level ≠ .firm then none else some (2, .csr (BitVec.ofNat 12 e.num) (match e.op with
      | 1 => .set
      | 2 => .clear
      | _ => .write) v)
  | 6 => some (11, .arrive (e.num * 16) e.value 0)
  | _ => none

/-- Restores entry i (R439); v is the strand's clock at u + 1. An effect keeps its instruction's order number (R76, R241); one that
the handler has added comes after it, and before a FENCE that the strand waits at (R386). -/
def State.restoreEntry (c : Fin 256) (j : Fin 4) (h : Hold) (v : Nat) (level : Level) (s : State) (x : FlightEntry × Nat) : State :=
  let e := x.1
  let o := h.originOf e x.2
  let fresh := match h.wait with
    | .fence _ _ _ _ n => n - 1
    | _ => s.seq
  let put (due phase pc : Nat) (pos : Fin 4) (order : Nat) (f : Eff) : State :=
    { s.pushAs (.strand c j) due phase c.val order (.eff c j pc pos f) with seq := s.seq + 1 }
  match e.kind with
  | 5 => (match h.ops[e.reg]? with
    | some op => put (match op.eff with
      | .res _ => v + e.count - 1
      | _ => v + e.count) op.phase op.pc op.pos op.order op.eff
    | none =>
      if e.reg = h.divIndex ∧ h.div.isSome then s.onStrand c j fun t => { t with divBusy := Nat.max t.divBusy (v + e.count) }
      else if e.reg = h.pipeIndex ∧ h.pipe.isSome then s.onStrand c j fun t => { t with pipeBusy := Nat.max t.pipeBusy (v + e.count) }
      else s)
  | 7 => s.onStrand c j fun t => { t with pending := t.pending ++
      [{ slot := fin 4 e.reg, pc := e.num * 16, order := (o.map (·.order)).getD s.seq, ring := (o.map (·.ring)).getD (0, 0),
         info := { cause := e.op, taddr := BitVec.ofNat 64 e.value, coef := o.bind (·.coef) } }] }
  | _ => match e.eff o level with
    | some (phase, f) => put (v + e.count) phase 0 (if e.kind = 6 then 3 else 0) ((o.map (·.order)).getD fresh) f
    | none => s

/-- The level that a header restores (R439): FIRM outside context 0 gives the level recorded at trap entry (R127, R128). -/
def State.headerLevel (s : State) (c : Fin 256) (code : Nat) (entry : Level) : Level := match Level.ofCode code with
  | .firm => if s.ctxOf c = 0 then .firm else entry
  | l => l

/-- A due transfer as the header gives it; where the handler has left it, the one that was captured (R81, R82). -/
def dueOf (n : Nat) (held : Option Transfer) (tpc : Nat) : Option Transfer := match n with
  | 0 => none
  | n + 1 => match held with
    | some d => if d.target.toNat = n * 16 then some d else some { target := BitVec.ofNat 64 (n * 16), source := tpc, order := d.order }
    | none => some { target := BitVec.ofNat 64 (n * 16), source := tpc, order := 0 }

/-- An RFT leaves the handler (R439): the strand has the header's level and is TRAPPED no more. -/
def State.leaveHandler (s : State) (c : Fin 256) (j : Fin 4) : State :=
  let code := (s.core c).spm.readNat (flightBase j + 2) 1
  s.onStrand c j fun t => { t with level := s.headerLevel c code t.hold.level, trapped := false }

/-- The resumption after an RFT in the strand's cycle u (R439): flight, hold, due transfers and NPC's earliest cycle. Cycle u + 1
stands for the trap point, except in a TIMED group in step mode, whose TT stands. What the handler itself still holds of the divide unit and
of the vector pipe it goes on holding. An NPC that is still the target of a transfer out of
the image raises ADDR in its turn (R82). The slip of a TIMED member ends with the cycle (R159). -/
def State.resume (s : State) (c : Fin 256) (j : Fin 4) (replay : Bool) (u : Nat) : State :=
  let m := (s.core c).spm
  let b := flightBase j
  let t := s.strand c j
  let h := t.hold
  let stands := s.timed c && s.stepping c
  let from_ := if stands then u else u + 1
  let again : List Replay := if replay then [{ pc := t.csr.tpc.toNat, pos := fin 4 t.csr.tslot.toNat, ring := h.ring, from_ }] else []
  let s := s.onStrand c j fun t => { t with
    wait := h.wait, latch := h.latch, pc := t.csr.npc,
    due1 := dueOf (m.readNat (b + 4) 2) h.due1 t.csr.tpc.toNat, due2 := dueOf (m.readNat (b + 6) 2) h.due2 t.csr.tpc.toNat,
    bad := h.bad.filter fun d => d.target == t.csr.npc,
    base := (if stands then u else u + 2) + m.readNat (b + 8) 8, fenceW := 0, hold := Hold.empty, pending := [],
    replay := again ++ h.replay.map fun r => { r with from_ } }
  (s.flightEntries c j).2.zipIdx.foldl (fun s e => s.restoreEntry c j h (u + 1) t.level e) s

/-- Whether an E-class return of the flight-save area has yet to arrive (R439). -/
def State.returnsPending (s : State) (c : Fin 256) (j : Fin 4) : Bool :=
  (s.flightEntries c j).2.any fun e => e.kind == 1 && e.pend == 1

/-! ## Taking a trap (R428 to R430) -/

/-- Takes a trap whose trap point is this cycle and that is found outside the strand's own issue (R429 rows 3 to 6), with NPC given.
A trap of a TRAPPED strand is a double trap, except that one falling in the cycle of the first is recorded as pending (R428, R430); of
an ADDR of R82 that falls in this cycle too, the earlier-issued is taken and the other is pending. In step mode SCHED is not raised
(R151). -/
def State.takeTrapAt (s : State) (c : Fin 256) (j : Fin 4) (p : Pend) (npc : Nat) : State :=
  let t := s.strand c j
  if t.life != .live then s else
  if p.info.cause = 0x07 ∧ s.stepping c then s else
  if t.trapped then
    if t.trapAt = s.time then s.addPending c j p
    else s.doubleTrap c j p.info.cause (s.handlerBundle c j p.pc) p.info.taddr
  else
    let (p, more) : Pend × List Pend := match t.badDue with
      | some b => if b.order < p.order then (b.pend, [p]) else (p, [b.pend])
      | none => (p, [])
    let s := if more.isEmpty then s else s.onStrand c j fun t => { t with bad := none }
    let gap := if npc = t.pc.toNat then t.base - (t.lt + 1) else 0
    (s.capture c j t.level p.ring gap t.due1 t.due2 more).enterTrap c j p.info p.pc npc p.slot

/-- The same with NPC the bundle that would issue next. -/
def State.takeTrap (s : State) (c : Fin 256) (j : Fin 4) (p : Pend) : State := s.takeTrapAt c j p (s.strand c j).pc.toNat

/-- Puts a pending trap in its place by the order of issue (R430). -/
def Pend.into (p : Pend) : List Pend → List Pend
  | [] => [p]
  | q :: r => if p.order < q.order then p :: q :: r else q :: Pend.into p r

/-- The traps that fall on a strand in this cycle are taken, the earliest-issued first; the others are pending in its flight-save area (R430).
A strand that has left its handler and waits for returns is restored first: this cycle stands for its trap point (R439). -/
def State.takePending (s : State) (c : Fin 256) (j : Fin 4) : State :=
  let t := s.strand c j
  let s := match t.returning with
    | some replay => s.resume c j replay (t.lt - 1)
    | none => s
  let ps := (s.strand c j).pending.foldl (fun l x => Pend.into x l) []
  ps.foldl (fun s x => s.takeTrap c j x) (s.onStrand c j fun t => { t with pending := [] })

/-- A trap found after issue, or of an event, falls on a strand in this cycle. It is taken with the others of the cycle in the core's turn of the issue
phase, or at once where that turn is over (R429, R430); in a TRAPPED strand it is a double trap at once (R428). -/
def State.meetTrap (s : State) (c : Fin 256) (j : Fin 4) (p : Pend) : State :=
  let t := s.strand c j
  if t.life != .live then s else if t.trapped then s.takeTrap c j p else
  let s := s.onStrand c j fun t => { t with pending := t.pending ++ [p] }
  if s.iss ≤ c.val then s else s.takePending c j

/-- Raises a trap in the current slot (R429 row 2): the lowest position's trap is taken at once, each further one of the
bundle is kept to be recorded as pending (R430); in a strand that was TRAPPED it is a double trap, unless an RFT.fault in a lower
position ends the kernel. NPC is provisional until the bundle's end test (R190). In step mode SCHED is not raised (R151). -/
def State.raiseWith (s : State) (i : TrapInfo) : State :=
  let k := s.cur
  if i.cause = 0x07 ∧ s.stepping k.core then s else
  if k.nested then (if k.ends then s else s.doubleTrap k.core k.strand i.cause k.pc i.taddr) else
  match k.trap with
  | some _ => s.onCur fun k => { k with more := k.more ++ [(k.pos, i)] }
  | none => (s.enterTrap k.core k.strand i k.pc (k.pc + 16) k.pos).onCur fun k => { k with trap := some i }

def State.raise (s : State) (cause : Nat) (taddr : Word) : State := s.raiseWith { cause, taddr, coef := none }

/-- The strand that an event trap goes to (R430): strand 0, or the lowest-numbered one that is not IDLE. -/
def State.eventStrand (s : State) (c : Fin 256) : Option (Fin 4) := (List.finRange 4).find? fun j => (s.strand c j).life == .live

/-- An event trap (R430), with TPC := NPC where no bundle is named; when every strand is IDLE the group takes the cause as a group
fault. In step mode SCHED is not raised (R151). -/
def State.eventTrapNow (s : State) (c : Fin 256) (cause : Nat) (taddr : Word) (tpc : Option Nat) : State :=
  if cause = 0x07 ∧ s.stepping c then s else
  match s.eventStrand c with
  | some j =>
    let t := s.strand c j
    let npc := if (t.trapped && t.trapAt == s.time) || t.returning.isSome then t.csr.npc.toNat else t.pc.toNat
    s.meetTrap c j { slot := 0, pc := tpc.getD npc, info := { cause, taddr, coef := none }, order := s.seq, ring := (0, 0) }
  | none => s.groupFault c cause (tpc.getD 0) taddr none

/-- An event trap. No bundle of a strand issues in a trap point (R429), so an event of a cycle in which the strand has issued is taken in
the next. -/
def State.eventTrap (s : State) (c : Fin 256) (cause : Nat) (taddr : Word) (tpc : Option Nat) : State :=
  match s.eventStrand c with
  | some j => if (s.strand c j).issuedAt = s.time + 1 then s.push .time (s.time + 1) 4 c.val (.trapEvent c cause taddr tpc)
      else s.eventTrapNow c cause taddr tpc
  | none => s.eventTrapNow c cause taddr tpc

/-- The level the current bundle runs at reaches SUPER (R127). -/
def State.isSuper (s : State) : Bool := s.cur.level != .user

/-- The bytes of an entry whose value has arrived. -/
def filledEntry (b : List Byte) (v : Word) : List Byte := toBytes 8 v.toNat ++ (b.drop 8).take 3 ++ [0] ++ b.drop 12

/-- The value of entry n of strand (c, j)'s flight-save area arrives (R434). -/
def State.fillEntry (s : State) (c : Fin 256) (j : Fin 4) (n : Nat) (v : Word) : State := match (s.strand c j).hold.image with
  | some a => s.onStrand c j fun t => { t with hold := { t.hold with
      image := some (a.1, a.2.zipIdx.map fun x => if x.2 = n then filledEntry x.1 v else x.1) } }
  | none =>
    let a := flightBase j + 16 + 16 * n
    s.onCore c fun k => { k with spm := (k.spm.writeNat a 8 v.toNat).writeNat (a + 11) 1 0 }

/-- An E-class value arrives in the agenda's return. -/
def State.putRet (s : State) (id : Nat) (v : Word) : State :=
  { s with agenda := s.agenda.map fun i => match i.act with
      | .eff c' j' pc pos (.xret d i' r none) => if i' = id then { i with act := .eff c' j' pc pos (.xret d i' r (some v)) } else i
      | _ => i }

/-- An E-class value arrives (R434): in the agenda's return, or in the flight-save entry of a trapped strand, which is written after the reads
of the cycle. -/
def State.arriveRet (s : State) (c : Fin 256) (j : Fin 4) (id : Nat) (v : Word) : State :=
  if (s.strand c j).hold.rets.any (·.1 == id) then s.pushAs .time s.time 8 c.val s.turn (.eff c j 0 0 (.fill id none v)) else s.putRet id v

/-- A value for a trapped strand is written to its area; one whose strand has resumed in this cycle goes where it would have gone. -/
def State.fillHeld (s : State) (c : Fin 256) (j : Fin 4) (key : Nat) (owed : Option (BitVec 5 × Nat)) (v : Word) : State :=
  let h := (s.strand c j).hold
  match owed with
  | none => (match h.rets.find? (·.1 == key) with
    | some (_, n) => s.fillEntry c j n v
    | none => s.putRet key v)
  | some (d, due) => match h.owed.find? (·.1 == key) with
    | some (_, n) => s.fillEntry c j n v
    | none => s.push .time due 2 c.val (.eff c j 0 0 (.x d v))

/-- The X result of a LAUNCH or CKPT of this order number, n cycles of the package from now (R149, R357, R410): in the flight-save area of
a strand that trapped before the bell. -/
def State.giveX (s : State) (c : Fin 256) (j : Fin 4) (order : Nat) (d : BitVec 5) (n : Nat) (v : Word) : State :=
  if d = 0 then s
  else if (s.strand c j).hold.owed.any (·.1 == order) then s.push .time s.time 8 c.val (.eff c j 0 0 (.fill order (some (d, s.time + n)) v))
  else s.push .time (s.time + n) 2 c.val (.eff c j 0 0 (.x d v))

/-! ## Quiescing and device-level failures (R119 to R124, R443) -/

/-- 10 ms in cycles (R24, R121). -/
def abandonAfter : Nat := 19000000

/-- A command whose arrival is not to be made (R339). -/
def Cmd.noArrival (k : Cmd) : Cmd := match k.body with
  | .copy cp => { k with body := .copy { cp with bar := none } }
  | .cpyh h => { k with body := .cpyh { h with bar := none } }
  | _ => k

/-- A context enters QUIESCING (R120): what its transfers have yet to arrive on barriers is discarded (R339). -/
def State.quiesce (s : State) (f : Fin 17) (flr : Bool) : State :=
  let s := { s with cmds := s.cmds.map fun (k : Cmd) => if k.ctx = f then k.noArrival else k }
  let s := (s.discardAll f none).onCtx f fun c => { c with st := .quiescing, since := s.time, byFlr := flr, rolling := false, ckpts := [] }
  s.push .time (s.time + abandonAfter) 0 0 (.ev (.hostRequestAbandon f))

/-- The reset of PF0: every context that holds a partition and is not already in a reset goes through one (R124). -/
def State.resetAll (s : State) : State :=
  (List.finRange 17).foldl (fun s f => match (s.ctxs[f]).st with
    | .closed | .open_ | .active => s.quiesce f (f == 0)
    | _ => s) s

/-- A device-level failure of a kind and unit (R443, R456): the device acts as for an FLR of PF0, which starts its firmware anew (R124; log
167), and reports the failure. -/
def State.deviceFailure (s : State) (kind unit : Nat) : State :=
  ({ s with devFail := BitVec.ofNat 64 (kind + 256 * unit), fwStarts := s.fwStarts + 1 }).resetAll

/-- Whether the environment loses the next transfer that core c sends inside the package, and the state after it (R404). -/
def State.lossy (s : State) (c : Fin 256) : Bool × State :=
  ((s.core c).errL.headD false, s.onCore c fun k => { k with errL := k.errL.drop 1 })

end Sys2Proof.Machine
end

