-- ==== Sys2Proof/Machine/Issue.lean ====
section
/-! DEFINITION. The issue of a bundle (R65 to R82): fetching and decoding it, its earliest cycle, what its slots start from,
and what happens at its end: POP, the due transfers, the end test of hardware loops (R186 to R194) and the place of the next
bundle. Slips and the freeze of a TIMED group (R159 to R166). -/
namespace Sys2Proof.Machine

/-! ## Loop state (R185) -/

def lpsAct (w : Word) : Bool := w.getLsbD 63
def lpsPe (w : Word) : Bool := w.getLsbD 62
def lpsPark (w : Word) : Bool := w.getLsbD 61
def lpsDrn (w : Word) : Bool := w.getLsbD 60
def lpsRing (w : Word) : Nat := bits w.toNat 58 2
def lpsStg (w : Word) : Nat := bits w.toNat 56 2
def lpsSince (w : Word) : Nat := bits w.toNat 54 2
def lpsLast (w : Word) : Bool := w.getLsbD 53
def lpsStart (w : Word) : Nat := bits w.toNat 14 14
def lpsEnd (w : Word) : Nat := bits w.toNat 0 14

/-- LPS from its fields. -/
def lpsMk (act pe park drn : Bool) (ring stg since : Nat) (last : Bool) (start end_ : Nat) : Word :=
  BitVec.ofNat 64 (bit act * 2 ^ 63 + bit pe * 2 ^ 62 + bit park * 2 ^ 61 + bit drn * 2 ^ 60 + ring % 4 * 2 ^ 58 + stg % 4 * 2 ^ 56
    + since % 4 * 2 ^ 54 + bit last * 2 ^ 53 + start % 2 ^ 14 * 2 ^ 14 + end_ % 2 ^ 14)

def litTrip (w : Word) : Nat := bits w.toNat 32 32
def litStep (w : Word) : Nat := bits w.toNat 0 32
def litMk (trip step : Nat) : Word := BitVec.ofNat 64 (trip % 2 ^ 32 * 2 ^ 32 + step % 2 ^ 32)

/-- The levels that are active, as a count: levels are taken lowest first (R187). -/
def Csrs.active (c : Csrs) : Nat := (c.lps.toList.filter lpsAct).length

/-- The innermost active level. -/
def Csrs.innermost (c : Csrs) : Option (Fin 4) :=
  (List.finRange 4).reverse.find? fun l => lpsAct c.lps[l]

/-- P(4 + s) by R189, as bits of P4 up. -/
def stageBits (stg since step trip : Nat) : BitVec 4 :=
  BitVec.ofNat 4 (((List.range (stg + 1)).map fun i => if i ≤ since ∧ step < trip + i then 2 ^ i else 0).sum)

/-- What the end test selects (R190). -/
structure EndResult where
  csr   : Csrs
  next  : Nat
  /-- the level that loops back -/
  back  : Option (Fin 4)

/-- The end test after a bundle at index x, from level l inwards out; fuel covers the four levels (R190, R194). -/
def endTest (x : Nat) (pre : Bool) : Nat → Csrs → EndResult
  | 0, c => { csr := c, next := x + 1, back := none }
  | n + 1, c => match c.innermost with
    | none => { csr := c, next := x + 1, back := none }
    | some l =>
      let w := c.lps[l]
      let i := c.lit[l]
      if lpsEnd w ≠ x then { csr := c, next := x + 1, back := none } else
      let stg := lpsStg w
      let drain := lpsPe w && pre && !lpsDrn w && decide (litStep i + 1 < litTrip i)
      let drn := lpsDrn w || drain
      let trip := if drain then litStep i + 1 else litTrip i
      if lpsLast w || decide (litStep i + 1 + 1 > trip + stg) then
        let w' := lpsMk false (lpsPe w) (lpsPark w || drn) drn (lpsRing w) stg (lpsSince w) (lpsLast w) (lpsStart w) (lpsEnd w)
        let i' := litMk trip (if drn then trip else litStep i)
        endTest x pre n { c with lps := c.lps.set l w' l.isLt, lit := c.lit.set l i' l.isLt }
      else
        let w' := lpsMk true (lpsPe w) (lpsPark w) drn (lpsRing w) stg (Nat.min (lpsSince w + 1) 3) (lpsLast w) (lpsStart w) (lpsEnd w)
        { csr := { c with lps := c.lps.set l w' l.isLt, lit := c.lit.set l (litMk trip (litStep i + 1)) l.isLt },
          next := lpsStart w, back := some l }

/-- A transfer that falls due in place of a loop-back of level l ends that level and every level inside it (R192). -/
def endLevels (l : Fin 4) (c : Csrs) : Csrs :=
  { c with lps := Vector.ofFn fun i : Fin 4 => if l ≤ i then c.lps[i] &&& ~~~((1 : Word) <<< 63) else c.lps[i] }

/-- The ring in force: the level with RING > 0 that is active, with its STEP (R193); none while TRAPPED (R436). -/
def Strand.ring (t : Strand) : Nat × Nat :=
  if t.trapped then (0, 0) else
  match (List.finRange 4).find? fun l => lpsAct t.csr.lps[l] && lpsRing t.csr.lps[l] != 0 with
  | some l => (lpsRing t.csr.lps[l], litStep t.csr.lit[l])
  | none => (0, 0)

/-- The register that number m names under a ring of 2^r registers at STEP (R193). -/
def rename (ring : Nat × Nat) (m : Nat) : Nat :=
  if ring.1 = 0 ∨ m < 24 ∨ 32 ≤ m then m else
    let l := 2 ^ ring.1
    let j := (m - 24) / l
    24 + j * l + ((m - 24 - j * l) + (l - ring.2 % l)) % l

/-! ## Fetch and decode -/

/-- PRE as the strands of core c read it (R139, R170). -/
def State.pre (s : State) (c : Fin 256) : Bool := match s.owner? c with
  | some (_, g) => match g.pre with
    | some p => decide (p ≤ (s.core c).tt)
    | none => false
  | none => false

/-- The slot word in a position of the bundle at a byte address. -/
def Core.slotAt (k : Core) (pc : Nat) (pos : Nat) : Nat := k.istore.readNat (pc + 4 * pos) 4

/-- A decoded bundle: its header, and an instruction for each position; `bad` is the lowest illegal position (R91). -/
structure Bundle where
  dly  : Nat
  pops : BitVec 8
  exts : Option (BitVec 5 × BitVec 5)
  slots : List (Fin 4 × Instr)
  bad  : Option (Fin 4)
deriving Repr

/-- The lent bits of a position. -/
def extOf (h : Option (BitVec 5 × BitVec 5)) (pos : Fin 4) : Option (BitVec 5) := match h with
  | none => none
  | some e => if pos = 1 then some e.1 else if pos = 3 then some e.2 else none

/-- A RECV whose queue the header pops too (R407). -/
def popClash (pops : BitVec 8) : Instr → Bool
  | .recv _ _ a _ => pops.getLsbD a.toNat
  | .recvV _ _ a _ _ => pops.getLsbD a.toNat
  | .recvDrop _ a => pops.getLsbD a.toNat
  | _ => false

/-- The V fields that an instruction names, each with whether it names a jet (R83, R216). -/
def vFields : Instr → List (Nat × Bool)
  | .vadd _ d a b _ f j _ | .vsub _ d a b _ f j _ | .vmul _ d a b _ f j _ =>
    let q := floatFmt f && j == 1
    [(d.toNat, q), (a.toNat, q), (b.toNat, q)]
  | .vmin _ d a b _ f j | .vmax _ d a b _ f j =>
    let q := floatFmt f && j == 1
    [(d.toNat, q), (a.toNat, q), (b.toNat, q)]
  | .vdiv _ d a b _ _ j | .vsel _ d a b _ _ j => [(d.toNat, j == 1), (a.toNat, j == 1), (b.toNat, j == 1)]
  | .vfma _ d a b c f | .vfms _ d a b c f | .vfnma _ d a b c f =>
    let q := decide (5 ≤ f.toNat)
    [(d.toNat, q), (a.toNat, q), (b.toNat, q), (c.toNat, q)]
  | .vsqrt _ d a _ _ j | .vrsq _ d a _ _ j | .vrcp _ d a _ _ j => [(d.toNat, j == 1), (a.toNat, j == 1)]
  | .vabs _ d a _ _ j _ | .vneg _ d a _ _ j _ => [(d.toNat, j == 1), (a.toNat, j == 1)]
  | .vexp _ d a _ j | .vlog _ d a _ j | .vsin _ d a _ j | .vcos _ d a _ j | .vtanh _ d a _ j | .verf _ d a _ j
  | .vsigm _ d a _ j => [(d.toNat, j == 1), (a.toNat, j == 1)]
  | .vcmp _ _ a b _ _ _ _ => [(a.toNat, false), (b.toNat, false)]
  | .vqtz _ d a b _ => [(d.toNat, false), (a.toNat, false), (b.toNat, false)]
  | .vcvt _ d a _ _ _ => [(d.toNat, false), (a.toNat, false)]
  | .vand _ d a b _ _ | .vor _ d a b _ _ | .vxor _ d a b _ _ | .vshl _ d a b _ _ | .vshr _ d a b _ _ | .vsar _ d a b _ _ =>
    [(d.toNat, false), (a.toNat, false), (b.toNat, false)]
  | .vlop3 _ d a b _ => [(d.toNat, false), (a.toNat, false), (b.toNat, false)]
  | .vfshl _ d a b c _ | .vfshr _ d a b c _ => [(d.toNat, false), (a.toNat, false), (b.toNat, false), (c.toNat, false)]
  | .vpopc _ d a _ _ | .vclz _ d a _ _ => [(d.toNat, false), (a.toNat, false)]
  | .vmov _ d a _ | .vtrn _ d a _ => [(d.toNat, false), (a.toNat, false)]
  | .vmovL _ d _ _ _ _ => [(d.toNat, false)]
  | .vbrow _ d a _ _ | .vrotc _ d a _ _ => [(d.toNat, false), (a.toNat, false)]
  | .vbcol _ d a _ _ _ | .vrotr _ d a _ _ _ => [(d.toNat, false), (a.toNat, false)]
  | .vredr _ d a _ _ f j _ | .vredc _ d a _ _ f j _ =>
    let q := floatFmt f && j == 1
    [(d.toNat, q), (a.toNat, q)]
  | .vperm _ d a b _ | .vrng _ d a b _ | .vcadd _ d a b _ => [(d.toNat, false), (a.toNat, false), (b.toNat, false)]
  | .vcaddX _ d a _ _ => [(d.toNat, false), (a.toNat, false)]
  | .viota _ d _ _ => [(d.toNat, false)]
  | .vins _ d _ _ _ => [(d.toNat, false)]
  | .vext _ _ a _ _ _ => [(a.toNat, false)]
  | .vbmax _ d a _ _ => [(d.toNat, false), (a.toNat, false)]
  | .vqnt _ d a b s _ _ _ => [(d.toNat, false), (a.toNat, false)] ++ (if s = 1 then [(b.toNat, false)] else [])
  | .vdqnt _ d a b _ _ s => [(d.toNat, false), (a.toNat, false)] ++ (if s = 3 then [] else [(b.toNat, false)])
  | .vld _ d _ _ _ _ | .vst _ d _ _ | .vldx _ d _ _ _ | .vstx _ d _ _ _ => [(d.toNat, false)]
  | .jseed _ d a b _ _ s => [(d.toNat, true), (a.toNat, false)] ++ (if s = 1 then [(b.toNat, false)] else [])
  | .jext _ d a _ _ _ _ => [(d.toNat, false), (a.toNat, true)]
  | .jcoefDiff _ d a _ _ | .jcoefTrunc _ d a _ _ _ => [(d.toNat, true), (a.toNat, true)]
  | .jcoefRescale _ d a b _ _ => [(d.toNat, true), (a.toNat, true), (b.toNat, false)]
  | .sendV _ _ a _ _ => [(a.toNat, false)]
  | .recvV _ d _ _ _ => [(d.toNat, false)]
  | _ => []

/-- JCR's order and group size (R182). -/
def jcrK (w : Word) : Nat := bits w.toNat 0 3
def jcrG (w : Word) : Nat := 2 ^ bits w.toNat 4 2

/-- Checks that need the strand: V fields below VREGS, jets inside it (R83, R216), no rotating ring with VREGS below 32
(R187). They hold for guarded-off slots too. -/
def strandLegal (vregs : Nat) (jcr : Word) (i : Instr) : Bool :=
  (vFields i).all (fun f => if f.2 then decide (jcrG jcr * f.1 + jcrG jcr - 1 < vregs) else decide (f.1 < vregs)) &&
  match i with
  | .loop _ _ r _ _ _ => r == 0 || decide (32 ≤ vregs)
  | .loopi _ _ r _ _ _ => r == 0 || decide (32 ≤ vregs)
  | _ => true

/-- Decodes the bundle at pc for a strand (R66 to R70, R83, R90, R91). -/
def Core.bundle (k : Core) (t : Strand) (pc : Nat) : Bundle :=
  let w0 := k.slotAt pc 0
  let h := decodeHeader w0
  let exts := h.map fun h => (h.ext1, h.ext3)
  let pops := match h with
    | some h => h.pop
    | none => 0
  let one (pos : Fin 4) : Except Unit Instr := match decodeSlot pos (k.slotAt pc pos.val) with
    | .error _ => .error ()
    | .ok i => if strandLegal k.vregs t.csr.jcr i && !popClash pops i then .ok i else .error ()
  let rs : List (Fin 4 × Except Unit Instr) := (if h.isSome then [] else [(0, one 0)]) ++ [(1, one 1), (2, one 2), (3, one 3)]
  -- nonzero lent bits that no slot takes are a fault of the header, position 0; lent bits that an instruction takes and does not
  -- accept are a fault of its own position
  let lentBad : Option (Fin 4) := match exts with
    | none => none
    | some e =>
      let at_ (pos : Fin 4) (v : BitVec 5) : Option (Fin 4) := if v = 0 then none else match one pos with
        | .ok i => if takesExt pos i then (if extLegal pos v i then none else some pos) else some 0
        | .error _ => if wordTakesExt pos (k.slotAt pc pos.val) then none else some 0
      match at_ 1 e.1, at_ 3 e.2 with
      | some a, some b => some (if a ≤ b then a else b)
      | some a, none => some a
      | none, b => b
  let firstBad := (rs.find? fun r => match r.2 with
    | .error _ => true
    | .ok _ => false).map (·.1)
  let bad := match lentBad, firstBad with
    | some a, some b => some (if a ≤ b then a else b)
    | some a, none => some a
    | none, b => b
  { dly := match h with
      | some h => h.dly.toNat
      | none => 0,
    pops, exts,
    slots := rs.filterMap fun r => match r.2 with
      | .ok .nop => none
      | .ok i => some (r.1, i)
      | .error _ => none,
    bad }

/-- A byte address that a transfer may go to: a bundle of the running image (R82, R195, R196). -/
def Core.inImage (k : Core) (level : Level) (a : Nat) : Bool :=
  a % 16 == 0 && match level with
    | .super => decide (262144 - k.hsize ≤ a ∧ a < 262144)
    | _ => decide (a < k.text)

/-! ## Slips and the freeze (R159 to R166) -/

/-- The member on core c stands at its group's freeze point (R160). -/
def State.atFreeze (s : State) (c : Fin 256) : Bool := match s.owner? c with
  | some (_, g) => match g.freeze with
    | some (f, _) => decide (f ≤ (s.core c).tt)
    | none => false
  | none => false

/-! ## The bundle -/

/-- The next bundle's earliest cycle on the strand's clock (R73, R386). -/
def Strand.earliest (t : Strand) (dly : Nat) : Nat := Nat.max t.base t.fenceW + dly

/-- What a slot starts from: the bundle of strand (c, j) at its pc. -/
def State.begin_ (s : State) (c : Fin 256) (j : Fin 4) (pc : Nat) (pops : BitVec 8) (replay : Bool) : State :=
  let t := s.strand c j
  let again := if replay then t.replay.head? else none
  -- a replay's delay: NPC's earliest cycle moves later by it (R439)
  let late := match again with
    | some r => t.lt - r.from_
    | none => 0
  let s := s.onStrand c j fun t => { t with issuedAt := s.time + 1 }
  { s with cur := { Cur.reset with core := c, strand := j, pc, level := t.level, nested := t.trapped, pops, replay, npc := t.pc,
                                   gap := t.base + late - (t.lt + 1), delay := late, due1 := t.due1, due2 := t.due2,
                                   ring := (again.map (·.ring)).getD t.ring } }

/-- Moves to the slot of a position. -/
def State.atSlot (s : State) (pos : Fin 4) (exts : Option (BitVec 5 × BitVec 5)) : State :=
  s.onCur fun k => { k with pos, ext := extOf exts pos }

/-- Advances the landing queues of a mask by one entry (R71). -/
def State.popQueues (s : State) (c : Fin 256) (m : BitVec 8) : State :=
  let one (k : Core) (q : Fin 8) : LandQ :=
    if m.getLsbD q.val then { k.landq[q] with flits := k.landq[q].flits.drop 1 } else k.landq[q]
  s.onCore c fun k => { k with landq := Vector.ofFn (one k) }

/-- Ends an exited strand (R150): pending branches and loops are abandoned, PARK is cleared. -/
def Strand.exited (t : Strand) : Strand :=
  { t with life := .idle, trapped := false, due1 := none, due2 := none, wait := .none,
           csr := { t.csr with lps := Vector.ofFn fun i : Fin 4 => t.csr.lps[i] &&& ~~~((1 : Word) <<< 63) &&& ~~~((1 : Word) <<< 61) } }

/-- The record that RFT.fault leaves (R440): the trap record's cause, TPC, TADDR and TTT, with the core and strand, and CYC now. -/
def State.rftRecord (s : State) (c : Fin 256) (j : Fin 4) : FaultRec :=
  let r := (s.strand c j).csr
  { s.faultRec (some c) (some j) r.tcause.toNat r.tpc.toNat r.taddr with tt := r.ttt.toNat }

/-- The capture that a bundle's trap makes at its end. -/
structure Trapped where
  level : Level
  gap   : Nat
  due1  : Option Transfer
  due2  : Option Transfer
  more  : List Pend
deriving Repr

/-- The pending traps of a bundle's slots. -/
def Cur.pends (k : Cur) (order : Nat) : List Pend := k.more.map fun m => { slot := m.1, pc := k.pc, info := m.2, order, ring := k.ring }

/-- The end of an RFT's bundle (R438, R439): the strand leaves its handler, and resumes at once or when its returns have arrived. -/
def State.endRft (s : State) (c : Fin 256) (j : Fin 4) (replay : Bool) : State :=
  let s := s.leaveHandler c j
  if s.returnsPending c j then s.onStrand c j fun t => { t with wait := .rft replay } else s.resume c j replay (s.strand c j).lt

/-- The end of a bundle but for the capture of a trap: the state, and what the trap captures (R71, R81, R190, R431). The queues advance, the
due transfers move on, the end test is made and the next bundle is found; a bundle whose slot trapped completes the trap record with
NPC. -/
def State.ended (s : State) : State × Option Trapped :=
  let k := s.cur
  let c := k.core
  let j := k.strand
  let s := if k.replay then s else s.popQueues c k.pops
  let s := match k.ends, (s.core c).owner with
    | true, some o => s.faultKernel o.kid (s.rftRecord c j)
    | _, _ => s
  let t := s.strand c j
  if t.life != .live then (s, none) else
  match k.back with
  | some replay => (s.endRft c j replay, none)
  | none =>
  if k.exit && k.trap.isNone then ((s.onStrand c j Strand.exited).unslip c .trap, none) else
  let x := k.pc / 16
  let core := s.core c
  if k.replay then
    -- a replayed slot alone: no end test, NPC stays (R439)
    (match k.trap with
    | none => (s.onStrand c j fun t => { t with replay := t.replay.tail, base := t.base + k.delay, bwait := none, walks := [] }, none)
    | some _ => ((s.onStrand c j fun t => { t with replay := t.replay.tail }).setNpc c j k.npc,
        some { level := k.level, gap := k.gap, due1 := k.due1, due2 := k.due2, more := k.pends s.seq }))
  else
  -- the strand as the end test sees it
  let er := if k.nested then { csr := t.csr, next := x + 1, back := none } else endTest x (s.pre c) 5 t.csr
  let seqNext : Nat := match k.skip with
    | some e => e
    | none => er.next
  let (nextPc, csr, back, bad) : Word × Csrs × Option (Fin 4) × Option Transfer := match k.due1 with
    | some d =>
      let csr := match er.back with
        | some l => endLevels l t.csr
        | none => er.csr
      (d.target, csr, none, if core.inImage k.level d.target.toNat then none else some d)
    | none => (BitVec.ofNat 64 (16 * seqNext), er.csr, er.back, none)
  -- a level that software writes in this cycle keeps what it wrote (R181)
  let csr : Csrs := { csr with
    lps := Vector.ofFn fun l : Fin 4 => t.put s.time (0x140 + l.val) t.csr.lps[l] csr.lps[l],
    lit := Vector.ofFn fun l : Fin 4 => t.put s.time (0x144 + l.val) t.csr.lit[l] csr.lit[l] }
  let due1 := k.due2
  let due2 := k.xfer.map fun x => { target := x, source := k.pc, order := s.seq : Transfer }
  let delay := k.delay + (if k.skip.isSome then 2 else 0)
  let s := s.onCsr c j fun old => { old with lps := csr.lps, lit := csr.lit }
  let s := match back with
    | none => s
    | some l =>
      let d : Vector Word 16 := Vector.ofFn fun n : Fin 16 => t.csr.dlt[fin 64 (16 * l.val + n.val)]
      let s := s.push (.strand c j) (t.lt + 1) 3 c.val (.eff c j k.pc 0 (.delta d))
      if lpsStg csr.lps[l] = 0 then s else
        s.push (.strand c j) (t.lt + 1) 3 c.val (.eff c j k.pc 0 (.stage (lpsStg csr.lps[l])
          (stageBits (lpsStg csr.lps[l]) (lpsSince csr.lps[l]) (litStep csr.lit[l]) (litTrip csr.lit[l]))))
  match k.trap with
  | none => (s.onStrand c j fun t => { t with pc := nextPc, due1, due2, base := t.lt + 1 + delay, fenceW := 0, bad, bwait := none, walks := [] }, none)
  | some _ => ((s.onStrand c j fun t => { t with bad }).setNpc c j nextPc,
      some { level := k.level, gap := delay, due1, due2, more := k.pends s.seq })

/-- The end of a bundle; a trap that one of its slots took captures the flight. -/
def State.finish (s : State) : State := match s.ended with
  | (t, none) => t
  | (t, some a) => t.capture s.cur.core s.cur.strand a.level s.cur.ring a.gap a.due1 a.due2 a.more

/-- A trap of a bundle that does not issue, or of a slot that does not: NPC and TPC both name it (R431). -/
def State.trapHere (s : State) (c : Fin 256) (j : Fin 4) (cause : Nat) (taddr : Word) (pc : Nat) (pos : Fin 4) : State :=
  let ring := match (s.strand c j).replay with
    | r :: _ => r.ring
    | [] => (s.strand c j).ring
  (s.onStrand c j fun t => { t with replay := t.replay.tail }).takeTrapAt c j
    { slot := pos, pc, info := { cause, taddr, coef := none }, order := s.seq, ring } pc

/-- The trap of an illegal encoding (R91, R429): the bundle does not issue; NPC and TPC name it. -/
def State.illegal (s : State) (c : Fin 256) (j : Fin 4) (pc : Nat) (pos : Fin 4) : State := s.trapHere c j 0x01 0 pc pos

/-- The home of a place around core c, as the least scope that holds it (R379). -/
def placeReach (c : Fin 256) : Place → Nat
  | .spm d | .bsram d => if d = c then 1 else if clusterOf d = clusterOf c then 2 else if dieOf d = dieOf c then 3 else 4
  | .near | .dev => 4
  | .host => 5

/-- Runs that lie within a scope around core c; every run of a list has one home. -/
def within (c : Fin 256) (scope : Nat) (rs : List Run) : Bool := rs.all fun r => decide (placeReach c r.place ≤ scope)

/-- The scope code that a package's bits hold: this package, its rack, its hall (R379). -/
def State.pkgReach (s : State) (p : Nat) : Nat := if p = s.pkg then 4 else if p / 64 = s.pkg / 64 then 6 else 7

end Sys2Proof.Machine
end

