-- ==== Sys2Proof/Machine/Operands.lean ====
section
/-! DEFINITION. Operand forms: immediates with the bits lent by the header (R70), the second source of an RRR instruction with
its landing-queue form (R71, R83, R203), addresses and their checks (R173, R211, R21, R79), vector registers through the
partition and the rotating window (R174, R193), jets (R216). -/
namespace Sys2Proof.Machine

/-! ## Immediates -/

/-- The full immediate of a field of n bits, with the lent bits above it where the bundle has a header (R70). -/
def State.immN (s : State) (n v : Nat) : Nat := match s.cur.ext with
  | none => v
  | some e => e.toNat * 2 ^ n + v

/-- The width of that immediate. -/
def State.immW (s : State) (n : Nat) : Nat := if s.cur.ext.isSome then n + 5 else n

/-- The full immediate, sign-extended. -/
def State.immS (s : State) (n v : Nat) : Int := toInt (s.immW n) (s.immN n v)

/-- An integer as a 64-bit word. -/
def word (i : Int) : Word := BitVec.ofInt 64 i

/-! ## Second sources -/

/-- The head of a landing queue of the issuing core. -/
def State.head? (s : State) (q : Fin 8) : Option LandFlit := s.curCore.landq[q].flits.head?

/-- 64-bit word w of a landing entry (R392). -/
def flitWord (f : LandFlit) (w : Nat) : Word := f.extractLsb' (64 * w) 64

/-- Reads the head of a landing queue and goes on with it. An empty head raises SCHED in a TIMED group; in a PACED group, and
in step mode, the bundle waits for it (R71, R151). -/
def State.withHead (s : State) (q : Fin 8) (f : LandFlit → State) : State := match s.head? q with
  | some h => f h
  | none => if s.timed s.cur.core && !s.stepping s.cur.core then s.raise 0x07 0 else s.stall

/-- Goes on with the second source of an RRR instruction: Xb, or word w of the head of Lb (R203). -/
def State.withB (s : State) (b : BitVec 5) (l : BitVec 1) (w : BitVec 3) (f : Word → State) : State :=
  if l = 1 then s.withHead (fin 8 b.toNat) fun h => f (flitWord h w.toNat) else f (s.curStrand.rx b)

def State.rx (s : State) (r : BitVec 5) : Word := s.curStrand.rx r
def State.ra (s : State) (r : BitVec 4) : Word := s.curStrand.ra r

/-! ## Addresses in SPM -/

/-- The size of SPM, and where its reserved top begins (R20, R21). -/
def spmSize : Nat := 0xC0000
def spmTop : Nat := 0xBC000

/-- The byte ranges [lo, lo + n) and [lo', lo' + n') share a byte. -/
def overlap (lo n lo' n' : Nat) : Bool := decide (lo < lo' + n' ∧ lo' < lo + n)

/-- A region of this core's SPM meets a pin (R292, R293). -/
def Core.pinned (k : Core) (sp : Space) (lo n : Nat) : Bool :=
  k.pins.any fun p => p.space == sp && p.regions.any fun r => overlap lo n r.1 r.2

/-- A write of the current slot meets a pin, that of an MMA of its own bundle included: a pin begins in the MMA's issue cycle (R292). -/
def State.meetsPin (s : State) (lo n : Nat) : Bool := s.curCore.pinned .spm lo n || ({ s.curCore with pins := s.cur.newPins } : Core).pinned .spm lo n

/-- The cause that an SPM access of n bytes at an exact address raises, in the order of R211: ADDR outside SPM or in its
reserved top at USER, then MISALIGN. -/
def State.spmFault (s : State) (addr : Int) (n align : Nat) : Option Nat :=
  if addr < 0 ∨ addr + n > spmSize then some 0x05
  else if addr + n > spmTop ∧ s.cur.level = .user then some 0x05
  else if addr.toNat % align ≠ 0 then some 0x06
  else none

/-- Checks an SPM access and goes on with its offset, or raises with TADDR the address modulo 2^64. -/
def State.withSpm (s : State) (addr : Int) (n align : Nat) (f : Nat → State) : State := match s.spmFault addr n align with
  | some c => s.raise c (word addr)
  | none => f addr.toNat

/-- Checks a write to SPM: the address, then the pins (R79, R293). -/
def State.withSpmWrite (s : State) (addr : Int) (n align : Nat) (f : Nat → State) : State :=
  s.withSpm addr n align fun a => if s.meetsPin a n then s.raise 0x07 0 else f a

/-- Exact(An + off): An unsigned, the sum exact (R173). -/
def State.exact (s : State) (a : BitVec 4) (off : Int) : Int := ((s.ra a).toNat : Int) + off

/-! ## Vector registers -/

/-- The physical register that a field value names for the current strand, renamed by the ring in force (R174, R193). -/
def State.vphys (s : State) (n : Nat) : Nat := (s.cur.strand.val * s.curCore.vregs + rename s.cur.ring n) % 32

/-- The image that a V field names, read at issue (R217). -/
def State.rv (s : State) (n : Nat) : VImg := s.curCore.v[fin 32 (s.vphys n)]

/-- The register fields that jet Jn covers under JCR: V(Gn) to V(Gn + G - 1) (R216). -/
def State.jetReg (s : State) (n i : Nat) : Nat := jcrG s.curStrand.csr.jcr * n + i

/-- Order and group size in force. -/
def State.jk (s : State) : Nat := jcrK s.curStrand.csr.jcr
def State.jg (s : State) : Nat := jcrG s.curStrand.csr.jcr

end Sys2Proof.Machine
end

