-- ==== Sys2Proof/Machine/Flags.lean ====
section
/-! DEFINITION. Flag computations: the exception kinds of R46 as sets, where they go in FSR, JFL and QSTAT (R182, R218, R266),
which of them trap under FTE (R218, R275), writes and hardware updates of the CSRs (R180, R181) and the condition codes of
scalar compares (R209). -/
namespace Sys2Proof.Machine

/-- The exception kinds that an operation raised (R46). -/
structure Flags where
  nv : Bool
  dz : Bool
  ovf : Bool
  uf : Bool
  nx : Bool
deriving DecidableEq, Repr

def Flags.none : Flags := { nv := false, dz := false, ovf := false, uf := false, nx := false }
def Flags.invalid : Flags := { Flags.none with nv := true }
def Flags.or (a b : Flags) : Flags :=
  { nv := a.nv || b.nv, dz := a.dz || b.dz, ovf := a.ovf || b.ovf, uf := a.uf || b.uf, nx := a.nx || b.nx }
def Flags.union (fs : List Flags) : Flags := fs.foldl Flags.or Flags.none

/-- The five bits NV, DZ, OF, UF, NX from bit 4 down (R182). -/
def Flags.code (f : Flags) : Nat := 16 * bit f.nv + 8 * bit f.dz + 4 * bit f.ovf + 2 * bit f.uf + bit f.nx

def HwFlags.none : HwFlags := { fsr := 0, jfl := 0, qflags := 0, counts := [0, 0, 0, 0, 0] }

/-- Flags of a plain operation: FSR and C0 of JFL alike (R218). -/
def HwFlags.plain (f : Flags) : HwFlags :=
  { HwFlags.none with fsr := BitVec.ofNat 64 f.code, jfl := BitVec.ofNat 64 f.code }

/-- Flags of a jet operation, coefficient by coefficient; those of coefficient 0 also stand in FSR (R266). -/
def HwFlags.jet (fs : List Flags) : HwFlags :=
  { HwFlags.none with
    fsr := BitVec.ofNat 64 (match fs with
      | [] => 0
      | f :: _ => f.code),
    jfl := BitVec.ofNat 64 (fs.foldr (fun f a => a * 32 + f.code) 0) }

def HwFlags.isNone (f : HwFlags) : Bool := f.fsr == 0 && f.jfl == 0 && f.qflags == 0 && f.counts.all (· == 0)

/-- The kinds among f that FTE enables for coefficient i (R182). -/
def enabled (fte : Word) (i : Nat) (f : Flags) : Bool :=
  (f.nv && fte.getLsbD i) || (f.dz && fte.getLsbD (8 + i)) || (f.ovf && fte.getLsbD (16 + i)) || (f.uf && fte.getLsbD (24 + i)) ||
    (f.nx && fte.getLsbD (32 + i))

/-- FTE as the trap logic reads it: zero while TRAPPED (R436). -/
def State.fte (s : State) : Word := if s.cur.nested then 0 else s.curStrand.csr.fte

/-! ## CSR fields -/

/-- A write of FCR: codes 5 to 7 leave a mode unchanged (R43, R180). -/
def fcrWrite (old new : Word) : Word :=
  let f (lo : Nat) : Nat := if bits new.toNat lo 3 ≤ 4 then bits new.toNat lo 3 else bits old.toNat lo 3
  BitVec.ofNat 64 (f 4 * 16 + f 0)

/-- A write of JCR: an order above G - 1 leaves it unchanged (R182). -/
def jcrWrite (old new : Word) : Word := if jcrK new ≤ jcrG new - 1 then new &&& 0x37 else old

/-- A count with an increment, saturating at 2,047 (R182). -/
def satCount (a n : Nat) : Nat := Nat.min (a + n) 2047

/-- QSTAT with flags ORed in and the five counts from NZERO up incremented (R182). -/
def qstatAdd (old flags : Word) (counts : List Nat) : Word :=
  let c (i : Nat) : Nat := satCount (bits old.toNat (5 + 11 * i) 11) (counts.getD i 0) * 2 ^ (5 + 11 * i)
  BitVec.ofNat 64 (c 0 + c 1 + c 2 + c 3 + c 4) ||| ((old ||| flags) &&& 0x1F)

/-- A hardware update of the flag CSRs (R181). -/
def Csrs.hw (c : Csrs) (f : HwFlags) : Csrs :=
  { c with fsr := c.fsr ||| f.fsr, jfl := c.jfl ||| f.jfl, qstat := qstatAdd c.qstat f.qflags f.counts }

def State.flagUpdate (s : State) (c : Fin 256) (j : Fin 4) (f : HwFlags) : State := s.onCsr c j fun k => k.hw f

/-- The writable bits of the CSRs that hold plain fields (R182, R183, R185). -/
def csrMask (n : Nat) : Word :=
  if n = 0x001 then 0x1F
  else if n = 0x003 ∨ n = 0x004 then 0xFFFFFFFFFF
  else if n = 0x005 then 0x0FFFFFFFFFFFFFFF
  else if n = 0x020 then 0x3FFF0
  else if n = 0x021 then 0xFF
  else if n = 0x024 then 0x3
  else if n = 0x025 then 0xF
  else if 0x140 ≤ n ∧ n ≤ 0x143 then 0xFFE000000FFFFFFF
  else 0xFFFFFFFFFFFFFFFF

/-- The bits of a bound register that hold fields (R294). -/
def bndMask : Word := 0xFFFF8003FFFFFFFF
/-- The bits of a route word that are not reserved: [61:60] and [31:20] read zero (R9, R400). -/
def rtMask : Word := 0xCFFFFFFF000FFFFF

/-- A read of a CSR by strand (c, j) (R179 to R185). -/
def State.csrRead (s : State) (c : Fin 256) (j : Fin 4) (num : BitVec 12) : Word :=
  let k := s.core c
  let r := (s.strand c j).csr
  let n := num.toNat
  if 0x100 ≤ n ∧ n < 0x140 then r.dlt[fin 64 (n - 0x100)]
  else if 0x140 ≤ n ∧ n < 0x144 then r.lps[fin 4 (n - 0x140)]
  else if 0x144 ≤ n ∧ n < 0x148 then r.lit[fin 4 (n - 0x144)]
  else match n with
    | 0x000 => r.fcr
    | 0x001 => r.fsr
    | 0x002 => r.jcr
    | 0x003 => r.jfl
    | 0x004 => r.fte
    | 0x005 => r.qstat
    | 0x010 => BitVec.ofNat 64 s.cyc
    | 0x011 => BitVec.ofNat 64 k.tt
    | 0x012 => BitVec.ofNat 64 k.slip
    | 0x013 => k.gmem
    | 0x014 => BitVec.ofNat 64 (c.val * 2 ^ 8 + (match s.owner? c with
      | some (kn, _) => kn.record.strands
      | none => 0) * 4 + j.val)
    | 0x015 => (s.tagOf (s.ctxOf c)).zeroExtend 64
    | 0x016 => BitVec.ofNat 64 (bit (s.pre c))
    | 0x017 => k.health.word
    | 0x018 => s.driftOfs
    | 0x020 => r.tvec
    | 0x021 => r.tcause
    | 0x022 => r.tpc
    | 0x023 => r.npc
    | 0x024 => r.tslot
    | 0x025 => r.tcoef
    | 0x026 => r.taddr
    | 0x027 => r.ttt
    | _ => 0

/-- The value a CSR instruction leaves: write, set or clear on the field's value in its take-effect cycle (R181, R200). -/
def CsrOp.apply (o : CsrOp) (old v : Word) : Word := match o with
  | .write => v
  | .set => old ||| v
  | .clear => old &&& ~~~v

/-- The change that a CSR write makes in strand (c, j) (R180 to R185). -/
def State.csrPut (s : State) (c : Fin 256) (j : Fin 4) (num : BitVec 12) (o : CsrOp) (v : Word) : State :=
  let n := num.toNat
  let f (old : Word) : Word := o.apply old v &&& csrMask n
  if 0x100 ≤ n ∧ n < 0x140 then s.onCsr c j fun r => { r with dlt := upd r.dlt (fin 64 (n - 0x100)) f }
  else if 0x140 ≤ n ∧ n < 0x144 then s.onCsr c j fun r => { r with lps := upd r.lps (fin 4 (n - 0x140)) f }
  else if 0x144 ≤ n ∧ n < 0x148 then s.onCsr c j fun r => { r with lit := upd r.lit (fin 4 (n - 0x144)) f }
  else match n with
    | 0x000 => s.onCsr c j fun r => { r with fcr := fcrWrite r.fcr (o.apply r.fcr v) }
    | 0x001 => s.onCsr c j fun r => { r with fsr := f r.fsr }
    | 0x002 => s.onCsr c j fun r => { r with jcr := jcrWrite r.jcr (o.apply r.jcr v) }
    | 0x003 => s.onCsr c j fun r => { r with jfl := f r.jfl }
    | 0x004 => s.onCsr c j fun r => { r with fte := f r.fte }
    | 0x005 => s.onCsr c j fun r => { r with qstat := f r.qstat }
    | 0x017 => s.onCore c fun k =>
      let w := o.apply k.health.word v
      { k with health := { k.health with word := if bits w.toNat 0 2 < 2 then (k.health.word &&& ~~~(3 : Word)) ||| (w &&& 3) else k.health.word } }
    | 0x020 => s.onCsr c j fun r => { r with tvec := f r.tvec }
    | 0x021 => s.onCsr c j fun r => { r with tcause := f r.tcause }
    | 0x022 => s.onCsr c j fun r => { r with tpc := f r.tpc }
    | 0x023 => s.onCsr c j fun r => { r with npc := f r.npc }
    | 0x024 => s.onCsr c j fun r => { r with tslot := f r.tslot }
    | 0x025 => s.onCsr c j fun r => { r with tcoef := f r.tcoef }
    | 0x026 => s.onCsr c j fun r => { r with taddr := f r.taddr }
    | 0x027 => s.onCsr c j fun r => { r with ttt := f r.ttt }
    | _ => s

/-- Notes that software has written a CSR in this cycle (R181). -/
def State.noteCsr (s : State) (c : Fin 256) (j : Fin 4) (num : Nat) : State := s.onStrand c j fun t =>
  { t with wrote := (s.time + 1, if t.wrote.1 = s.time + 1 then num :: t.wrote.2 else [num]) }

/-- A CSR write taking effect in strand (c, j): a hardware update of the same field in this cycle does not replace it (R181). -/
def State.csrWrite (s : State) (c : Fin 256) (j : Fin 4) (num : BitVec 12) (o : CsrOp) (v : Word) : State :=
  (s.csrPut c j num o v).noteCsr c j num.toNat

/-- Software has written this CSR of the strand in this cycle (R181). -/
def State.wroteCsr (s : State) (c : Fin 256) (j : Fin 4) (num : Nat) : Bool := (s.strand c j).wroteNow s.time num

/-- A hardware update of a loop level in its issue cycle (R188, R198): LPS and LIT, each unless software writes it in this cycle. -/
def State.hwLevel (s : State) (c : Fin 256) (j : Fin 4) (l : Fin 4) (lps lit : Word → Word) : State := s.onCsr c j fun r =>
  { r with lps := if s.wroteCsr c j (0x140 + l.val) then r.lps else upd r.lps l lps,
           lit := if s.wroteCsr c j (0x144 + l.val) then r.lit else upd r.lit l lit }

/-- The level that a write of a CSR needs (R179): HEALTH at FIRM, the trap record, TVEC and the loop state at SUPER. -/
def csrLevel (num : BitVec 12) : Level :=
  let n := num.toNat
  if n = 0x017 then .firm else if (0x020 ≤ n ∧ n ≤ 0x027) ∨ 0x140 ≤ n then .super else .user

/-- A level reaches another (R127). -/
def Level.reaches (have_ need : Level) : Bool := match need with
  | .user => true
  | .super => have_ != .user
  | .firm => have_ == .firm

/-! ## Scalar conditions (R209) -/

def scalarCond (cond : Nat) (a b : Word) : Bool := match cond with
  | 0 => a == b
  | 1 => a != b
  | 2 => BitVec.slt a b
  | 3 => !BitVec.slt a b
  | 4 => BitVec.ult a b
  | 5 => !BitVec.ult a b
  | 6 => a &&& b != 0
  | _ => a &&& b == 0

end Sys2Proof.Machine
end

