-- ==== Sys2Proof/Machine/Barrier.lean ====
section
/-! DEFINITION. The barrier (R330 to R339): its bytes and states, BINIT, BARV, BWAIT, BTEST and BEXP at issue, the events of a
cycle in their order, the completion test, and DUE. -/
namespace Sys2Proof.Machine

/-- The fields of a barrier's 16 bytes (R330). -/
structure Bar where
  pend   : Nat
  expect : Nat
  pbytes : Nat
  due    : Nat
  b12    : Nat
  rest   : Nat
deriving DecidableEq, Repr

def Core.bar (k : Core) (a : Nat) : Bar :=
  { pend := k.spm.readNat a 2, expect := k.spm.readNat (a + 2) 2, pbytes := k.spm.readNat (a + 4) 4, due := k.spm.readNat (a + 8) 4,
    b12 := k.spm.readNat (a + 12) 1, rest := k.spm.readNat (a + 13) 3 }

/-- The bytes of a barrier, as one number. -/
def Bar.toNat (b : Bar) : Nat :=
  b.pend % 2 ^ 16 + 2 ^ 16 * (b.expect % 2 ^ 16) + 2 ^ 32 * (b.pbytes % 2 ^ 32) + 2 ^ 64 * (b.due % 2 ^ 32) + 2 ^ 96 * (b.b12 % 256)
    + 2 ^ 104 * (b.rest % 2 ^ 24)

def Core.setBar (k : Core) (a : Nat) (b : Bar) : Core := { k with spm := k.spm.writeNat a 16 b.toNat }

/-- The states of R331. -/
inductive BarState where
  | uninit | poisoned | isOpen
deriving DecidableEq, Repr

def Bar.state (b : Bar) : BarState :=
  if b.expect = 0 then .uninit
  else if bits b.b12 1 1 = 1 ∨ bits b.b12 2 2 ≠ 0 ∨ b.rest ≠ 0 ∨ 8 < b.b12 / 16 then .poisoned
  else .isOpen

def Bar.phase (b : Bar) : Nat := b.b12 % 2
def Bar.poison (b : Bar) : Bar := { b with b12 := b.b12 ||| 2 }

/-- A barrier whose DUE is watched from now on (R332). -/
def Core.watch (k : Core) (a : Nat) : Core := if k.bars.contains a then k else { k with bars := a :: k.bars }

/-! ## The events of a cycle (R333, R334, R336) -/

def Core.barInit (k : Core) (a : Nat) (expect : BitVec 16) (due : BitVec 32) (scope : BitVec 4) : Core :=
  (k.setBar a { pend := expect.toNat, expect := expect.toNat, pbytes := 0, due := due.toNat, b12 := scope.toNat * 16, rest := 0 }).watch a

/-- BEXP; ignored unless the barrier is OPEN (R332). -/
def Core.barExpect (k : Core) (a : Nat) (w : Word) : Core :=
  let b := k.bar a
  if b.state = .isOpen then
    let due := bits w.toNat 32 32
    (k.setBar a { b with pbytes := (b.pbytes + bits w.toNat 0 32) % 2 ^ 32, due := if due = 0 then b.due else due }).watch a
  else k

/-- Gathers an arrival of this cycle. -/
def addArrival (a n b : Nat) : List (Nat × Nat × Nat) → List (Nat × Nat × Nat)
  | [] => [(a, n, b)]
  | x :: r => if x.1 = a then (a, x.2.1 + n, x.2.2 + b) :: r else x :: addArrival a n b r

/-- An arrival performs at a barrier of core c: it joins those of the cycle, and the test follows (R333, R334). -/
def State.arriveAt (s : State) (c : Fin 256) (a n b : Nat) : State :=
  let fresh := (s.core c).arrived.all fun x => x.1 != a
  let s := s.onCore c fun k => { k with arrived := addArrival a n b k.arrived }.watch a
  if fresh then s.push .time s.time 12 c.val (.btestAll c a) else s

/-- A barrier operation with no arrival still has its completion test (R334). -/
def State.testAt (s : State) (c : Fin 256) (a : Nat) : State := s.arriveAt c a 0 0

/-- The completion test of R334. -/
def Core.barTest (k : Core) (a : Nat) : Core :=
  let (n, by_) := match k.arrived.find? fun x => x.1 == a with
    | some x => (x.2.1, x.2.2)
    | none => (0, 0)
  let k := { k with arrived := k.arrived.filter fun x => x.1 != a }
  let b := k.bar a
  if b.state ≠ .isOpen then k
  else if n > b.pend then k.setBar a b.poison
  else
    let pend := b.pend - n
    let pbytes := (b.pbytes + 2 ^ 32 - by_ % 2 ^ 32) % 2 ^ 32
    if pend = 0 ∧ pbytes = 0 then k.setBar a { b with pend := b.expect, pbytes := 0, due := 0, b12 := b.b12 ^^^ 1 }
    else k.setBar a { b with pend, pbytes }

/-- BTEST's word (R338). -/
def Bar.test (b : Bar) : Word :=
  BitVec.ofNat 64 (b.pbytes * 2 ^ 32 + b.pend * 2 ^ 16 + bit (b.state == .uninit) * 256
    + (if b.state = .poisoned then b.b12 ||| 2 else b.b12))

/-! ## Instructions (R336 to R338) -/

/-- The checks of every barrier instruction; needOpen for those that need an OPEN barrier. -/
def State.withBar (s : State) (a : BitVec 4) (needOpen : Bool) (f : State → Nat → State) : State :=
  let off := (s.ra a).toNat
  if off % 16 ≠ 0 then s.raise 0x06 (s.ra a)
  else if off + 16 > spmSize ∨ (off + 16 > spmTop ∧ s.cur.level = .user) then s.raise 0x05 (s.ra a)
  else if needOpen && (s.curCore.bar off).state != .isOpen then s.raise 0x07 (s.ra a)
  else f s off

/-- An instruction names the barrier at off: its DUE is watched from now on. -/
def State.watching (s : State) (off : Nat) : State := s.onCore s.cur.core fun k => k.watch off

def execBinit (g : BitVec 3) (d : BitVec 5) (a sc : BitVec 4) (s : State) : Res :=
  s.guarded g fun s => s.withBar a false fun s off =>
    let w := s.rx d
    if bits w.toNat 0 16 = 0 ∨ bits w.toNat 16 16 ≠ 0 then s.raise 0x07 0
    else (s.watching off).later 2 9 (.binit off (w.extractLsb' 0 16) (w.extractLsb' 32 32) sc)

def execBarv (g : BitVec 3) (a : BitVec 4) (n : BitVec 8) (s : State) : Res :=
  s.guarded g fun s => s.withBar a true fun s off => (s.watching off).later 2 11 (.arrive off n.toNat 0)

def execBexp (g : BitVec 3) (d : BitVec 5) (a : BitVec 4) (s : State) : Res :=
  s.guarded g fun s => s.withBar a true fun s off => (s.watching off).later 2 10 (.bexp off (s.rx d))

/-- The bundle issues when the phase differs from bit 0 of Xd (R337). -/
def execBwait (g : BitVec 3) (d : BitVec 5) (a : BitVec 4) (s : State) : Res :=
  s.guarded g fun s => s.withBar a true fun s off =>
    let s := s.watching off
    if (s.curCore.bar off).phase = (s.rx d).toNat % 2 then s.stall.onCur fun k => { k with bwait := some off } else s

/-- The read at +2 is made by the barrier unit, and its value returns as an E-class return (R434). -/
def execBtest (g : BitVec 3) (d : BitVec 5) (a : BitVec 4) (s : State) : Res :=
  s.guarded g fun s => s.withBar a false fun s off =>
    let s := s.watching off
    let id := s.nextId
    let s := { s with nextId := s.nextId + 1 }
    let clk := s.engClock s.cur.core s.cur.nested
    let s := s.push clk (s.now clk + 2) 7 s.cur.core.val (.eff s.cur.core s.cur.strand s.cur.pc s.cur.pos (.btest off id))
    if d = 0 then s else s.later 4 2 (.xret d id 1 none)

/-! ## DUE and waiting strands (R332, R337) -/

/-- The member on core c stands in a freeze or in a slip of its own, in which DUE does not fire (R332). -/
def State.frozen (s : State) (c : Fin 256) : Bool := s.timed c && (s.atFreeze c || !(s.core c).causes.isEmpty)

/-- The DUE of a watched barrier of core c has come. -/
def State.isDueBar (s : State) (c : Fin 256) (off : Nat) : Bool :=
  let b := (s.core c).bar off
  (s.core c).bars.contains off && (s.core c).owner.isSome && !s.frozen c && b.state == .isOpen && b.due != 0 && b.due == (s.core c).tt % 2 ^ 32

/-- A barrier of core c whose DUE has come. -/
def State.dueBar (s : State) (c : Fin 256) : Option Nat := (s.core c).bars.find? (s.isDueBar c)

/-- BARRIER_DUE (R332): the barrier is poisoned. -/
def execBarrierDue (c : Fin 256) (off : Nat) (s : State) : Res :=
  let b := (s.core c).bar off
  if s.isDueBar c off then
    .next (s.onCore c fun k => k.setBar off b.poison)
  else .next s

/-- A strand of core c that waits in a BWAIT on a barrier that is now POISONED. -/
def State.poisonedWait (s : State) (c : Fin 256) : Option (Fin 4) :=
  (List.finRange 4).find? fun j => match (s.strand c j).bwait with
    | some a => (s.strand c j).life == .live && ((s.core c).bar a).state == .poisoned
    | none => false

/-- Such a strand takes SCHED, with TPC and NPC naming its bundle (R337). -/
def State.trapWait (s : State) (c : Fin 256) (j : Fin 4) : State := match (s.strand c j).bwait with
  | some a => s.trapHere c j 0x07 (BitVec.ofNat 64 a) (match (s.strand c j).replay with
      | r :: _ => r.pc
      | [] => (s.strand c j).pc.toNat) 3
  | none => s

end Sys2Proof.Machine
end

