-- ==== Sys2Proof/Machine/Sector.lean ====
section
/-! DEFINITION. The stored words of device memory and near memory (R348 to R350): the CRC-16 of a sector, the Reed-Solomon parity of a
stripe, correction of erasures, the poison lists, and stores. `dev` holds the bytes that a read delivers when every CRC matches; where
a stored sector differs from them, `hbm` says by which bits. -/
namespace Sys2Proof.Machine

/-! ## Sectors and stripes (R348) -/

/-- The CRC-16 of a sector's 32 bytes at a device address: over the data, then the 8 bytes of the address, little-endian. -/
def sectorCrc (bs : List Byte) (addr : Nat) : Nat := crc16 (bs ++ toBytes 8 addr)

/-- Bytes XORed one by one. -/
def xorBytes (a b : List Byte) : List Byte := (a.zip b).map fun p => p.1 ^^^ p.2

/-- Doubling in GF(2^8) with the field polynomial 0x11D, and the product of two elements. -/
def gfDouble (a : Nat) : Nat := if a < 128 then 2 * a else (2 * a) ^^^ 0x11D
def gfMul (a b : Nat) : Nat :=
  ((List.range 8).foldl (fun (x : Nat × Nat) i => (if bits b i 1 = 1 then x.1 ^^^ x.2 else x.1, gfDouble x.2)) (0, a)).1

/-- A power of α = 2, and an inverse (a to the 254th). -/
def gfAlpha (n : Nat) : Nat := (List.range n).foldl (fun a _ => gfDouble a) 1
def gfInv (a : Nat) : Nat := (List.range 253).foldl (fun x _ => gfMul x a) a

/-- The power of x that position i of a codeword stands at: data byte 0 is the highest of the 18 coefficients, parity byte 1 the lowest
(log 149). -/
def rsPower (i : Nat) : Nat := 17 - i

/-- The bytes at positions a and b of a codeword with roots α^0 and α^1, from the bytes at the other positions. -/
def rsPair (cs : List Nat) (a b : Nat) : Nat × Nat :=
  let others := cs.zipIdx.filter fun x => x.2 != a && x.2 != b
  let s0 := others.foldl (fun v x => v ^^^ x.1) 0
  let s1 := others.foldl (fun v x => v ^^^ gfMul x.1 (gfAlpha (rsPower x.2))) 0
  let y := gfMul (s1 ^^^ gfMul s0 (gfAlpha (rsPower a))) (gfInv (gfAlpha (rsPower a) ^^^ gfAlpha (rsPower b)))
  (s0 ^^^ y, y)

/-- The byte at position a from the others, when it alone is missing. -/
def rsOne (cs : List Nat) (a : Nat) : Nat := (cs.zipIdx.filter fun x => x.2 != a).foldl (fun v x => v ^^^ x.1) 0

/-- Byte i of each of some sectors. -/
def column (ss : List (List Byte)) (i : Nat) : List Nat := ss.map fun s => (s.getD i 0).toNat

/-- The two parity sectors of 16 data sectors. -/
def parityOf (ss : List (List Byte)) : List Byte × List Byte :=
  let ps := (List.range 32).map fun i => rsPair (column ss i ++ [0, 0]) 16 17
  (ps.map fun p => BitVec.ofNat 8 p.1, ps.map fun p => BitVec.ofNat 8 p.2)

/-- The data sectors of a stripe as they should be. -/
def State.stripeData (s : State) (st : Nat) : List (List Byte) := (List.range 16).map fun i => s.dev.readBytes (512 * st + 32 * i) 32

/-- What position pos of a stripe should hold, and the address that its CRC covers. -/
def State.sectorData (s : State) (st pos : Nat) : List Byte :=
  if pos < 16 then s.dev.readBytes (512 * st + 32 * pos) 32
  else if pos = 16 then (parityOf (s.stripeData st)).1 else (parityOf (s.stripeData st)).2
def sectorAddr (st pos : Nat) : Nat := if pos < 16 then 512 * st + 32 * pos else Config.parityAt st (pos - 16)

/-- A position's bytes as stored, and the CRC stored with them. -/
def HbmErr.stored (e : HbmErr) (good : List Byte) : List Byte := xorBytes good (toBytes 32 e.data.toNat)
def HbmErr.storedCrc (e : HbmErr) (good : List Byte) : Nat := sectorCrc good (sectorAddr e.stripe e.pos) ^^^ e.crc.toNat

/-- The CRC of a stored sector mismatches. -/
def State.mismatches (s : State) (e : HbmErr) : Bool :=
  let good := s.sectorData e.stripe e.pos
  sectorCrc (e.stored good) (sectorAddr e.stripe e.pos) != e.storedCrc good

/-- The mismatching positions of a stripe, of all 18. -/
def State.stripeBad (s : State) (st : Nat) : List HbmErr := s.hbm.filter fun e => e.stripe == st && s.mismatches e

/-- The 18 sectors of a stripe as stored. -/
def State.stripeStored (s : State) (st : Nat) : List (List Byte) :=
  let p := parityOf (s.stripeData st)
  (s.stripeData st ++ [p.1, p.2]).zipIdx.map fun x => match s.hbm.find? fun e => e.stripe == st && e.pos == x.2 with
    | some e => e.stored x.1
    | none => x.1

/-- The mismatching sectors of a stripe rebuilt as erasures, by position; none where there are more than two. -/
def State.rebuilt (s : State) (st : Nat) : Option (List (Nat × List Byte)) :=
  let ss := s.stripeStored st
  match (s.stripeBad st).map (·.pos) with
  | [a] => some [(a, (List.range 32).map fun i => BitVec.ofNat 8 (rsOne (column ss i) a))]
  | [a, b] =>
    let ps := (List.range 32).map fun i => rsPair (column ss i) a b
    some [(a, ps.map fun p => BitVec.ofNat 8 p.1), (b, ps.map fun p => BitVec.ofNat 8 p.2)]
  | _ => none

/-- The rebuilt sectors of a stripe whose CRCs all match; none where one fails again or nothing can be rebuilt (R349). -/
def State.correctable (s : State) (st : Nat) : Option (List (Nat × List Byte)) := (s.rebuilt st).filter fun rs =>
  rs.all fun r => match s.hbm.find? fun e => e.stripe == st && e.pos == r.1 with
    | some e => sectorCrc r.2 (sectorAddr st r.1) == e.storedCrc (s.sectorData st r.1)
    | none => true

/-- A correction fetch writes the rebuilt sectors back. -/
def State.correct (s : State) (st : Nat) : State := match s.correctable st with
  | none => s
  | some rs => { s with
      dev := (rs.filter fun r => decide (r.1 < 16)).foldl (fun m r => m.writeBytes (512 * st + 32 * r.1) r.2) s.dev
      hbm := s.hbm.filter fun e => !(e.stripe == st && rs.any fun r => r.1 == e.pos) }

/-- A new error in a stored sector. One that its CRC does not show is what a read delivers, and the parity no longer fits it. -/
def State.strike (s : State) (e : HbmErr) : State :=
  let old := s.hbm.find? fun x => x.stripe == e.stripe && x.pos == e.pos
  let n : HbmErr := match old with
    | some x => { e with data := x.data ^^^ e.data, crc := x.crc ^^^ e.crc }
    | none => e
  let rest := s.hbm.filter fun x => !(x.stripe == e.stripe && x.pos == e.pos)
  let bad := s.mismatches n
  if bad || 16 ≤ n.pos then { s with hbm := if n.data = 0 ∧ n.crc = 0 then rest else n :: rest }
  else
    let dev := s.dev.writeBytes (512 * e.stripe + 32 * e.pos) (n.stored (s.sectorData e.stripe e.pos))
    let t := { s with dev, hbm := rest }
    -- the parity sectors hold what they held
    let keep (pos : Nat) : List HbmErr :=
      let was := s.sectorData e.stripe pos
      let now := t.sectorData e.stripe pos
      let old : HbmErr := (rest.find? fun x => x.stripe == e.stripe && x.pos == pos).getD { stripe := e.stripe, pos, data := 0, crc := 0 }
      let data := BitVec.ofNat 256 (leNat (xorBytes (old.stored was) now))
      let crc := BitVec.ofNat 16 (old.storedCrc was ^^^ sectorCrc now (sectorAddr e.stripe pos))
      if data = 0 ∧ crc = 0 then [] else [{ stripe := e.stripe, pos, data, crc }]
    { t with hbm := (rest.filter fun x => !(x.stripe == e.stripe && 16 ≤ x.pos)) ++ keep 16 ++ keep 17 }

/-! ## Reads (R349) -/

/-- A sector (address / 32) has a byte among n bytes from a. -/
def touches (a n sec : Nat) : Bool := decide (32 * sec < a + n) && decide (a < 32 * sec + 32)
/-- All its bytes are among them. -/
def coversAll (a n sec : Nat) : Bool := decide (a ≤ 32 * sec) && decide (32 * sec + 32 ≤ a + n)

/-- The least of some addresses. -/
def least : List Nat → Option Nat
  | [] => none
  | a :: r => some (r.foldl Nat.min a)

/-- The sector that an error stands in. -/
def HbmErr.sector (e : HbmErr) : Nat := 16 * e.stripe + e.pos

/-- What reading n bytes meets: the lowest failing address, and the stripes to be poisoned and to be corrected. -/
structure ReadCheck where
  failed : Option Nat
  lost   : List Nat
  fetch  : List Nat
deriving Repr

def State.checkRead (s : State) (a n : Nat) : ReadCheck :=
  let poisoned := s.poison.filter (touches a n)
  let bad := s.hbm.filter fun e => decide (e.pos < 16) && touches a n e.sector && !s.poison.contains e.sector && s.mismatches e
  let dead := bad.filter fun e => (s.correctable e.stripe).isNone
  { failed := least ((poisoned ++ dead.map (·.sector)).map fun x => Nat.max (32 * x) a),
    lost := (dead.map (·.stripe)).eraseDups,
    fetch := ((bad.filter fun e => (s.correctable e.stripe).isSome).map (·.stripe)).eraseDups }

/-! ## Poison (R350) -/

/-- The number of sectors in a stack's poison list, and of words in a base die's. -/
def State.poisonCount (s : State) (stack : Nat) : Nat := (s.poison.filter fun x => x * 32 / 2 ^ 36 == stack).length
/-- The base die that holds a near-memory word: 96 MiB each (R15), in consecutive pieces by stack number (log 189). -/
def nearDie (word : Nat) : Nat := word * 8 / (96 * 2 ^ 20)
def State.nearCount (s : State) (die : Nat) : Nat := (s.nearPoison.filter fun x => nearDie x == die).length

/-- The failing data sectors of some stripes are poisoned; a sector that finds the list full is a device-level failure, of the poison
list of its stack (R443). -/
def State.lose (s : State) : List Nat → State
  | [] => s
  | st :: r =>
    let secs := ((s.stripeBad st).filter fun e => decide (e.pos < 16) && !s.poison.contains e.sector).map (·.sector)
    let stack := st * 512 / 2 ^ 36
    if 4096 < s.poisonCount stack + secs.length then ({ s with poison := s.poison ++ secs }).deviceFailure 3 stack
    else ({ s with poison := s.poison ++ secs }).lose r

/-- Words of near memory with a double error that an access has met are poisoned, under the same rules. -/
def State.nearLose (s : State) : List Nat → State
  | [] => s
  | w :: r =>
    let s := { s with nearErr := s.nearErr.filter (· != w), nearPoison := w :: s.nearPoison }
    if 1024 < s.nearCount (nearDie w) then s.deviceFailure 3 (nearDie w) else s.nearLose r

/-- The lowest address of a poisoned sector that a write of n bytes covers only in part. -/
def State.partialPoison (s : State) (a n : Nat) : Option Nat :=
  least ((s.poison.filter fun x => touches a n x && !coversAll a n x).map fun x => Nat.max (32 * x) a)

/-- The 8-byte near-memory words that n bytes from a touch, of some words. -/
def nearTouched (a n : Nat) (ws : List Nat) : List Nat := ws.filter fun x => decide (8 * x < a + n) && decide (a < 8 * x + 8)

/-- The lowest failing address of near memory that an access of n bytes meets, and the words it poisons. -/
def State.nearFail (s : State) (a n : Nat) : Option Nat :=
  least ((nearTouched a n (s.nearErr ++ s.nearPoison)).map fun x => Nat.max (8 * x) a)

def State.nearPartial (s : State) (a n : Nat) : Option Nat :=
  least (((nearTouched a n s.nearPoison).filter fun x => !(decide (a ≤ 8 * x) && decide (8 * x + 8 ≤ a + n))).map fun x => Nat.max (8 * x) a)

/-! ## Stores -/

/-- The wrong bits of a sector that are left when the bytes from a on are written anew. -/
def HbmErr.under (e : HbmErr) (a n : Nat) : HbmErr :=
  { e with data := BitVec.ofNat 256 (leNat ((toBytes 32 e.data.toNat).zipIdx.map fun b =>
      let x := 32 * e.sector + b.2
      if a ≤ x ∧ x < a + n then 0 else b.1)) }

/-- Stores bytes in device memory: a sector covered whole gets a new CRC and leaves the poison list (R350), and the parity of every stripe
that is touched is computed anew (R348). Bits that are wrong in bytes not written stay so (log 146). -/
def State.devStore (s : State) (a : Nat) (bs : List Byte) : State :=
  let n := bs.length
  let hbm := s.hbm.filterMap fun e =>
    if 16 ≤ e.pos then (if 512 * e.stripe < a + n ∧ a < 512 * e.stripe + 512 ∧ n ≠ 0 then none else some e)
    else if coversAll a n e.sector then none
    else if touches a n e.sector then some (e.under a n) else some e
  { s with dev := s.dev.writeBytes a bs, poison := s.poison.filter fun x => !coversAll a n x, hbm }

/-- Stores bytes in near memory. -/
def State.nearStore (s : State) (a : Nat) (bs : List Byte) : State :=
  let fresh (x : Nat) : Bool := !(decide (a ≤ 8 * x) && decide (8 * x + 8 ≤ a + bs.length))
  { s with near := s.near.writeBytes a bs, nearPoison := s.nearPoison.filter fresh, nearErr := s.nearErr.filter fresh }

/-- The errors whose cycle has come strike. -/
def State.strikes (s : State) : State :=
  let now (n : Nat) : Bool := decide (n ≤ s.time)
  let t := (s.errH.filter fun e => now e.1).foldl (fun s e => s.strike e.2) s
  { t with errH := s.errH.filter (fun e => !now e.1), errN := s.errN.filter fun e => !now e.1,
           nearErr := (s.errN.filter fun e => now e.1).foldl (fun l e => if l.contains e.2 || s.nearPoison.contains e.2 then l else e.2 :: l) s.nearErr }

end Sys2Proof.Machine
end

