-- ==== Sys2Proof/Machine/Page.lean ====
section
/-! DEFINITION. Virtual addresses of engine commands (R340), page tables (R341, R342), pins and the translation cache (R343 to
R347), shadow pages (R351 to R353) and the checkpoint log (R354 to R356). -/
namespace Sys2Proof.Machine

/-! ## Page tables (R341, R342) -/

/-- Device memory: twelve stacks of 64 GiB (R15). -/
def devSize : Nat := 12 * 2 ^ 36

def pteV (e : Nat) : Bool := bits e 0 1 == 1
def pteLeaf (e : Nat) : Bool := bits e 1 1 == 1
def pteW (e : Nat) : Bool := bits e 3 1 == 1
def pteHost (e : Nat) : Bool := bits e 4 1 == 1
def pteShadow (e : Nat) : Bool := bits e 5 1 == 1
def pteLogged (e : Nat) : Bool := bits e 6 1 == 1
/-- The address of the next table, page or block. -/
def ptePa (e : Nat) : Nat := bits e 16 40 * 65536

/-- A valid entry of a level (R342). -/
def entryOk (level e : Nat) : Bool :=
  let leaf := pteLeaf e
  let size := if level = 2 ∧ leaf then 2 ^ 29 else 65536
  pteV e && bits e 56 8 == 0 && bits e 7 9 == 0 && bits e 2 1 == 0 &&
  (if level = 1 then !leaf else if level = 3 then leaf else true) &&
  !(level == 2 && leaf && (ptePa e % 2 ^ 29 != 0 || pteShadow e || pteLogged e)) &&
  decide (bit (pteHost e) + bit (pteShadow e) + bit (pteLogged e) ≤ 1) &&
  ((leaf && pteHost e) || decide (ptePa e + size ≤ devSize))

/-- The walk from a root: the leaf of a VA and whether it is a block; none where an entry is invalid. -/
def State.walkTables (s : State) (root va : Nat) : Option (Bool × Nat) :=
  let e1 := s.dev.readNat (root + 8 * bits va 42 6) 8
  if !entryOk 1 e1 then none else
  let e2 := s.dev.readNat (ptePa e1 + 8 * bits va 29 13) 8
  if !entryOk 2 e2 then none else
  if pteLeaf e2 then some (true, e2) else
  let e3 := s.dev.readNat (ptePa e2 + 8 * bits va 16 13) 8
  if entryOk 3 e3 then some (false, e3) else none

/-- The addresses of the entries that a walk reads (R341). -/
def State.walkReads (s : State) (root va : Nat) : List Nat :=
  let a1 := root + 8 * bits va 42 6
  let e1 := s.dev.readNat a1 8
  if !entryOk 1 e1 then [a1] else
  let a2 := ptePa e1 + 8 * bits va 29 13
  let e2 := s.dev.readNat a2 8
  if !entryOk 2 e2 || pteLeaf e2 then [a1, a2] else [a1, a2, ptePa e2 + 8 * bits va 16 13]

/-- Reads of the I/O die or of a walker, which are not timed (log 152): mismatching sectors are corrected, or poisoned; the second part
says which of the ranges, by its number, fails first and where. -/
def State.scan (s : State) (rs : List (Nat × Nat)) : State × Option (Nat × Nat) :=
  let cs := rs.map fun r => s.checkRead r.1 r.2
  let t := (cs.flatMap (·.fetch)).eraseDups.foldl State.correct s
  (t.lose (cs.flatMap (·.lost)).eraseDups, cs.zipIdx.findSome? fun c => c.1.failed.map fun a => (c.2, a))

/-- Whether a translation covers a VA. -/
def Xlat.covers (x : Xlat) (va : Nat) : Bool :=
  if x.block then va / 2 ^ 29 == x.va / 2 ^ 29 else va / 65536 == x.va / 65536

/-- The physical address of a VA under a translation (R341). -/
def Xlat.pa (x : Xlat) (va : Nat) : Nat := ptePa x.leaf.toNat + (if x.block then va % 2 ^ 29 else va % 65536)

def mkXlat (va : Nat) (b : Bool × Nat) : Xlat :=
  { va := if b.1 then va / 2 ^ 29 * 2 ^ 29 else va / 65536 * 65536, block := b.1, leaf := BitVec.ofNat 64 b.2, bits0 := 0, bits1 := 0 }

/-- The translation that the walkers of a die give (R343): the tables', or a cached one that a change of the tables has left
behind, as the free value of each access says (log 17). -/
def State.walked (s : State) (die : Nat) (f : Fin 17) (va : Nat) : Option Xlat :=
  let fresh := (s.walkTables (s.ctxs[f]).root.toNat va).map (mkXlat va)
  match s.tcache.find? fun e => e.1.val == die && e.2.1 == f && e.2.2.covers va with
  | some e => if Config.useCached (((s.time * 2 ^ 64 + s.seq) * 2 ^ 48 + va) * 8 + die) then some e.2.2 else fresh
  | none => fresh

/-- The translation that a walk ends with: the old one, in an invalidation that has overtaken it, is as free as before (R455). -/
def State.walkEnds (s : State) (w : Walk) : Option Xlat := match w.old with
  | some x => if Config.useCached (((s.time * 2 ^ 64 + s.seq) * 2 ^ 48 + w.page * 65536) * 8 + dieOf w.core) then some x
      else s.walked (dieOf w.core) (s.ctxOf w.core) (w.page * 65536)
  | none => s.walked (dieOf w.core) (s.ctxOf w.core) (w.page * 65536)

/-! ## Translation (R344, R347) -/

/-- The pinned translation of a VA for the kernel on core c. -/
def State.pinnedXlat (s : State) (c : Fin 256) (va : Nat) : Option Xlat := match (s.core c).owner with
  | none => none
  | some o => match s.pinsets.find? fun p => p.kid == o.kid && p.die.val == dieOf c with
    | none => none
    | some p => p.xs.find? fun x => x.covers va

/-- What a translation answers: the entry and whether it is pinned, a fault, or a page whose walk has yet to end. -/
inductive Trans where
  | hit (x : Xlat) (pinned : Bool)
  | fault (cause : Nat)
  | miss
deriving DecidableEq, Repr

/-- Translates a VA for a command of the current strand (R347). -/
def State.translate (s : State) (va : Nat) : Trans :=
  let c := s.cur.core
  match s.pinnedXlat c va with
  | some x => .hit x true
  | none =>
    if s.timed c then .fault 0x09
    else match s.curStrand.walks.find? fun w => w.1 == va / 65536 with
      | some (_, some (some x)) => .hit x false
      | some (_, some none) => .fault 0x05
      | _ => .miss

/-! ## Resolving the bytes of an access -/

/-- What one chunk of an access comes to: a run, with whether it lies on a HOST page; an aperture address out of reach; an invalid
entry; an unwritable leaf, with whether it is a HOST leaf; a PAGE fault; or a page to be walked. -/
inductive Hit where
  | run (r : Run) (host : Bool)
  | reach (va : Nat)
  | invalid (va : Nat)
  | leaf (va : Nat) (host : Bool)
  | page (va : Nat)
  | walk (pg : Nat)
deriving DecidableEq, Repr

/-- The replica that the group on core c runs as, in a PAIR kernel (R351). -/
def State.replica? (s : State) (c : Fin 256) : Option Nat := match s.owner? c with
  | some (k, g) => if k.record.pair then some g.replica else none
  | none => none

/-- Resolves n bytes from VA lo that lie in one 64 KiB page, for a command of the current strand (R340 to R347, R352, R354). -/
def State.resolve (s : State) (write : Bool) (lo n : Nat) : Hit :=
  let c := s.cur.core
  let f := s.ctxOf c
  let part := (s.ctxs[f]).part
  let rep := s.replica? c
  let hi := bits lo 48 16
  if 2 ^ 64 ≤ lo then .reach lo
  else if hi = 0xFFFE then
    let id := bits lo 20 28
    let off := lo % 2 ^ 20
    let limit := if s.cur.level = .user then spmTop else spmSize
    if id ≥ 256 ∨ !part.cores.getLsbD id then .reach lo
    else if off ≥ limit then .reach lo
    else if off + n > limit then .reach (lo + (limit - off))
    else .run { place := .spm (fin 256 id), addr := off, len := n, va := lo, shadow := none } false
  else if hi = 0xFFFD then
    let off := lo % 2 ^ 31
    if bits lo 31 17 ≠ 0 ∨ off ≥ part.nearSize then .reach lo
    else if off + n > part.nearSize then .reach (lo + (part.nearSize - off))
    else if write ∧ rep.isSome then .page lo
    else .run { place := .near, addr := part.nearBase + off, len := n, va := lo, shadow := none } false
  else if hi ≠ 0 then .reach lo
  else match s.translate lo with
    | .miss => .walk (lo / 65536)
    | .fault c => if c = 0x09 then .page lo else .invalid lo
    | .hit x pinned =>
      let e := x.leaf.toNat
      if write ∧ !pteW e then .leaf lo (pteHost e)
      else if pteHost e then .run { place := .host, addr := x.pa lo, len := n, va := lo, shadow := none } true
      else if write ∧ pteLogged e then .page lo
      else match rep with
        | some r =>
          if pteShadow e then
            if pinned then .run { place := .dev, addr := x.pa lo, len := n, va := lo, shadow := some (r, ptePa e) } false else .page lo
          else if write then .page lo
          else .run { place := .dev, addr := x.pa lo, len := n, va := lo, shadow := none } false
        | none => .run { place := .dev, addr := x.pa lo, len := n, va := lo, shadow := none } false

/-- The chunks of n bytes from lo, cut at 64 KiB pages. -/
def chunks (lo n : Nat) : List (Nat × Nat) :=
  if n = 0 then [] else
  let a := lo / 65536
  let z := (lo + n - 1) / 65536
  (List.range (z - a + 1)).map fun i =>
    let x := Nat.max lo ((a + i) * 65536)
    let y := Nat.min (lo + n) ((a + i + 1) * 65536)
    (x, y - x)

/-- Resolves segments of exact addresses; one below 0 is out of reach. -/
def State.resolveAll (s : State) (write : Bool) (segs : List (Int × Nat)) : List Hit :=
  segs.flatMap fun g =>
    if g.1 < 0 then [.reach (ofInt 64 g.1)] else (chunks g.1.toNat g.2).map fun p => s.resolve write p.1 p.2

/-- The runs of hits that all resolved. -/
def runsOf (hs : List Hit) : List Run := hs.filterMap fun h => match h with
  | .run r _ => some r
  | _ => none

def reachOf (hs : List Hit) : Option Nat := least (hs.filterMap fun h => match h with
  | .reach a => some a
  | _ => none)
def leafOf (hs : List Hit) : Option Nat := least (hs.filterMap fun h => match h with
  | .leaf a _ | .invalid a => some a
  | _ => none)
/-- The lowest address with an invalid entry. -/
def invalidOf (hs : List Hit) : Option Nat := least (hs.filterMap fun h => match h with
  | .invalid a => some a
  | _ => none)
def pageOf (hs : List Hit) : Option Nat := least (hs.filterMap fun h => match h with
  | .page a => some a
  | _ => none)
def hostOf (hs : List Hit) : Option Nat := least (hs.filterMap fun h => match h with
  | .run r true => some r.va
  | .leaf a true => some a
  | _ => none)
/-- The pages to be walked, each once. -/
def walksOf (hs : List Hit) : List Nat := (hs.filterMap fun h => match h with
  | .walk p => some p
  | _ => none).eraseDups

/-- The bundle waits until these pages have been walked (R347). -/
def State.awaitWalks (s : State) (pgs : List Nat) : State :=
  s.onCur fun k => { k with stall := true, walk := k.walk ++ pgs.filter fun p => !k.walk.contains p }

/-- The wait of a command for its walks (R347): until every one has ended, or one has found an invalid entry, which raises ADDR. -/
def State.withWalks (s : State) (hs : List Hit) (f : State → State) : State := match walksOf hs, invalidOf hs with
  | [], _ => f s
  | _, some a => s.raise 0x05 (BitVec.ofNat 64 a)
  | ps, none => s.awaitWalks ps

/-- The reach checks of R362 once every walk has ended, then what goes on with the hits. -/
def State.withReach (s : State) (hs : List Hit) (f : State → State) : State :=
  match reachOf hs with
  | some a => s.raise 0x05 (BitVec.ofNat 64 a)
  | none => s.withWalks hs fun s => match leafOf hs with
    | some a => s.raise 0x05 (BitVec.ofNat 64 a)
    | none => match pageOf hs with
      | some a => s.raise 0x09 (BitVec.ofNat 64 a)
      | none => f s

/-! ## Shadow pages (R351) -/

/-- A kernel's written-line bitmap of the SHADOW page at a home address, for a replica. -/
def State.shadowBits (s : State) (kid r home : Nat) : BitVec 32 :=
  match s.pinsets.find? fun p => p.kid == kid with
  | none => 0
  | some p => match p.xs.find? fun x => ptePa x.leaf.toNat == home && pteShadow x.leaf.toNat with
    | some x => if r = 0 then x.bits0 else x.bits1
    | none => 0

/-- Sets a line's bit in every pin entry of the kernel for that page. -/
def State.shadowMark (s : State) (kid r home line : Nat) : State :=
  let mark (x : Xlat) : Xlat :=
    if ptePa x.leaf.toNat = home ∧ pteShadow x.leaf.toNat then
      let b : BitVec 32 := (1 : BitVec 32) <<< line
      if r = 0 then { x with bits0 := x.bits0 ||| b } else { x with bits1 := x.bits1 ||| b }
    else x
  { s with pinsets := s.pinsets.map fun p => if p.kid = kid then { p with xs := p.xs.map mark } else p }

/-- Copy r of a SHADOW page's byte at home address a. -/
def copyAddr (r a : Nat) : Nat := a + 65536 * (r + 1)

/-- The pieces of a device run as (address, length): a SHADOW run is cut at 2 KiB lines, each in its copy where it is
written or its bit is set. -/
def State.pieces (s : State) (kid : Option Nat) (write : Bool) (r : Run) : List (Nat × Nat) := match r.shadow, kid with
  | some (rep, home), some kid =>
    if r.len = 0 then [] else
    let a := r.addr / 2048
    let z := (r.addr + r.len - 1) / 2048
    let bm := s.shadowBits kid rep home
    (List.range (z - a + 1)).map fun i =>
      let x := Nat.max r.addr ((a + i) * 2048)
      let y := Nat.min (r.addr + r.len) ((a + i + 1) * 2048)
      let line := (x - home) / 2048
      (if write || bm.getLsbD line then copyAddr rep x else x, y - x)
  | _, _ => [(r.addr, r.len)]

/-! ## The checkpoint log (R354, R355) -/

/-- How many lines an area of pages holds: 31 pre-images a page. -/
def Ckpt.capacity (k : Ckpt) : Nat := 31 * k.area.length

/-- Where entry n of the log keeps its index dword and its pre-image. -/
def Ckpt.slot (k : Ckpt) (n : Nat) : Nat × Nat :=
  let pg := k.area.getD (n / 31) 0
  (pg + 8 * (n % 31), pg + 2048 * (n % 31 + 1))

/-- The 2 KiB lines that n bytes from a touch, by address. -/
def linesOf (a n : Nat) : List Nat := if n = 0 then [] else (List.range ((a + n - 1) / 2048 - a / 2048 + 1)).map fun i => (a / 2048 + i) * 2048

/-- A write that does not perform: the failing address, and the stripes that the read of a pre-image has lost (R349, R350, R355). -/
structure WriteFail where
  at_  : Nat
  lost : List Nat
deriving DecidableEq, Repr

/-- Logs the lines of a write of context f before it performs. It fails where the area is full (R355), where the index lies in a poisoned
sector, of which it writes a part, and where a pre-image cannot be read (R349, R350; log 201): then with the stripes lost. -/
def State.logLines (s : State) (f : Fin 17) : List Nat → Except (List Nat) State
  | [] => .ok s
  | l :: r =>
    let k := (s.ctxs[f]).ckpt
    if k.written.contains l then s.logLines f r
    else if k.capacity ≤ k.used then .error []
    else
      let (ix, img) := k.slot k.used
      let check := s.checkRead l 2048
      if (s.partialPoison ix 8).isSome then .error []
      else if check.failed.isSome then .error check.lost
      else
        let s := check.fetch.foldl State.correct s
        let s := (s.devStore ix (toBytes 8 l)).devStore img (s.dev.readBytes l 2048)
        let s := s.onCtx f fun c => { c with ckpt := { c.ckpt with
          used := c.ckpt.used + 1, written := c.ckpt.written ++ [l], lines := if c.ckpt.lines.contains l then c.ckpt.lines else c.ckpt.lines ++ [l] } }
        s.logLines f r

/-- A write of bytes to device memory that carries context f's tag: logged where the checkpoint is armed. It fails at a poisoned sector that
it covers in part, or where it cannot be logged. -/
def State.devWrite (s : State) (f : Fin 17) (a : Nat) (bs : List Byte) : Except WriteFail State :=
  match s.partialPoison a bs.length with
  | some x => .error ⟨x, []⟩
  | none =>
    if (s.ctxs[f]).ckpt.armed then
      match s.logLines f (linesOf a bs.length) with
      | .ok s => .ok (s.devStore a bs)
      | .error lost => .error ⟨a, lost⟩
    else .ok (s.devStore a bs)

/-! ## Reading and writing runs -/

/-- What reading runs gives: the bytes, the lowest failing VA, and stripes to be corrected and to be poisoned. -/
structure RunRead where
  bytes  : List Byte
  failed : Option Nat
  lost   : List Nat
  fetch  : List Nat
deriving Repr

/-- Reads one run in this cycle. -/
def State.readRun (s : State) (kid : Option Nat) (r : Run) : RunRead := match r.place with
  | .spm c => { bytes := (s.core c).spm.readBytes r.addr r.len, failed := none, lost := [], fetch := [] }
  | .bsram c => { bytes := (s.core c).bsram.readBytes r.addr r.len, failed := none, lost := [], fetch := [] }
  | .near => { bytes := s.near.readBytes r.addr r.len, failed := (s.nearFail r.addr r.len).map fun x => r.va + (x - r.addr),
               lost := [], fetch := [] }
  | .host => { bytes := s.host.readBytes r.addr r.len, failed := none, lost := [], fetch := [] }
  | .dev =>
    let ps := s.pieces kid false r
    let cs := ps.map fun p => s.checkRead p.1 p.2
    let vas := (ps.zip cs).filterMap fun pc => pc.2.failed.map fun x =>
      let homeOff := if pc.1.1 ≥ r.addr + 65536 ∧ r.shadow.isSome then (match r.shadow with
        | some (rep, _) => 65536 * (rep + 1)
        | none => 0) else 0
      r.va + (x - homeOff - r.addr)
    { bytes := ps.flatMap fun p => s.dev.readBytes p.1 p.2,
      failed := least vas, lost := (cs.flatMap (·.lost)).eraseDups, fetch := (cs.flatMap (·.fetch)).eraseDups }

def State.readRuns (s : State) (kid : Option Nat) (rs : List Run) : RunRead :=
  let xs := rs.map (s.readRun kid)
  { bytes := xs.flatMap (·.bytes), failed := least (xs.filterMap (·.failed)), lost := (xs.flatMap (·.lost)).eraseDups,
    fetch := (xs.flatMap (·.fetch)).eraseDups }

/-- Words of near memory that a read finds failing are poisoned (R350). -/
def State.nearRead (s : State) (a n : Nat) : State := s.nearLose (nearTouched a n s.nearErr)

/-- What a failed read leaves: sectors and words poisoned. -/
def State.loseRuns (s : State) (rs : List Run) (lost : List Nat) : State :=
  (rs.filter fun r => r.place == .near).foldl (fun s r => s.nearRead r.addr r.len) (s.lose lost)

/-- Writes pieces of a device run with the lines' bits set in a SHADOW page. -/
def State.writeRun (s : State) (f : Fin 17) (kid : Option Nat) (r : Run) (bs : List Byte) : Except WriteFail State := match r.place with
  | .spm c => .ok (s.onCore c fun k => { k with spm := k.spm.writeBytes r.addr bs })
  | .bsram c => .ok (s.onCore c fun k => { k with bsram := k.bsram.writeBytes r.addr bs })
  | .near => match s.nearPartial r.addr bs.length with
    | some x => .error ⟨r.va + (x - r.addr), []⟩
    | none => .ok (s.nearStore r.addr bs)
  | .host => .ok { s with host := s.host.writeBytes r.addr bs }
  | .dev => match r.shadow, kid with
    | some (rep, home), some kd =>
      (s.pieces kid true r).foldl (fun (acc : Except WriteFail (State × List Byte)) p => match acc with
        | .error e => .error e
        | .ok (s, rest) => match s.devWrite f p.1 (rest.take p.2) with
          | .error e => .error ⟨r.va, e.lost⟩
          | .ok s => .ok (s.shadowMark kd rep home ((p.1 - 65536 * (rep + 1) - home) / 2048), rest.drop p.2)) (.ok (s, bs))
      |>.map (·.1)
    | _, _ => match s.devWrite f r.addr bs with
      | .error e => .error ⟨r.va + (e.at_ - r.addr), e.lost⟩
      | .ok s => .ok s

/-- Writes bytes over runs in order; the first failing VA where one is met. -/
def State.writeRuns (s : State) (f : Fin 17) (kid : Option Nat) : List Run → List Byte → Except WriteFail State
  | [], _ => .ok s
  | r :: rs, bs => match s.writeRun f kid r (bs.take r.len) with
    | .error e => .error e
    | .ok s => s.writeRuns f kid rs (bs.drop r.len)

/-! ## Walks (R347) -/

/-- How many walks are under way on a die. -/
def State.walksBusy (s : State) (die : Nat) : Nat := (s.walks.filter fun w => dieOf w.core == die && w.busy).length

/-- A translation enters a die's cache of 2,048 entries; in a full one it takes the place of one that the spec does not name (R343). -/
def State.cache (s : State) (die : Fin 8) (f : Fin 17) (x : Xlat) : State :=
  let mine := s.tcache.filter fun e => e.1 == die
  if mine.length < 2048 then { s with tcache := s.tcache ++ [(die, f, x)] }
  else
    let gone := mine[Config.evict s.free % 2048]?
    { s with tcache := (s.tcache.filter fun e => some e != gone) ++ [(die, f, x)], free := s.free + 1 }

/-- What a walk of a page finds in the tables now goes into its die's cache, where no entry covers the page. -/
def State.fillCache (s : State) (c : Fin 256) (pg : Nat) : State :=
  let f := s.ctxOf c
  if s.tcache.any fun e => e.1.val == dieOf c && e.2.1 == f && e.2.2.covers (pg * 65536) then s else
  match s.walkTables (s.ctxs[f]).root.toNat (pg * 65536) with
  | some b => s.cache (fin 8 (dieOf c)) f (mkXlat (pg * 65536) b)
  | none => s

/-- Starts waiting walks of a die while a walker is free, each for a time that is not fixed, within 10 ms (log 13); what the tables hold
at its start is what it may end with (R343, R455). -/
def State.startWalks (s : State) (die : Nat) : Nat → State
  | 0 => s
  | n + 1 =>
    if 4 ≤ s.walksBusy die then s else
    match s.walks.find? fun w => dieOf w.core == die && !w.busy with
    | none => s
    | some w =>
      let s := { s with walks := s.walks.map fun (x : Walk) => if x.id = w.id then { x with busy := true } else x, free := s.free + 1 }
      ((s.fillCache w.core w.page).push .time (s.time + 1 + Config.walkDelay s.free % abandonAfter) 1 w.core.val
        (.ev (.walkComplete w.id))).startWalks die n

/-- Queues the walks of a stalled bundle: in issue order, then by core, then by ascending page. -/
def State.queueWalks (s : State) (c : Fin 256) (j : Fin 4) (pgs : List Nat) : State :=
  let rec insert (p : Nat) : List Nat → List Nat
    | [] => [p]
    | q :: r => if p < q then p :: q :: r else if p = q then q :: r else q :: insert p r
  let sorted := pgs.foldr insert []
  let fresh := sorted.filter fun p => !(s.strand c j).walks.any fun w => w.1 == p
  let s := fresh.foldl (fun s p =>
    { (s.onStrand c j fun t => { t with walks := t.walks ++ [(p, none)] }) with
      walks := s.walks ++ [{ id := s.nextId, core := c, strand := j, page := p, busy := false, old := none }], nextId := s.nextId + 1 }) s
  s.startWalks (dieOf c) 4

/-- WALK_COMPLETE (R347): the walk of a page ends, its die's cache is filled, and the next waiting walk starts. A walk that reads an
uncorrectable entry gives MEMORY to the core's group (R349). -/
def execWalkComplete (id : Nat) (s : State) : Res := match s.walks.find? (·.id == id) with
  | none => .next s
  | some w =>
    let (s, failed) := s.scan ((s.walkReads (s.ctxs[s.ctxOf w.core]).root.toNat (w.page * 65536)).map fun a => (a, 8))
    let ends := s.walkEnds w
    let s := { s with walks := s.walks.filter (·.id != id) }.fillCache w.core w.page
    let s := s.onStrand w.core w.strand fun t => { t with walks := t.walks.map fun x => if x.1 = w.page then (x.1, some ends) else x }
    let s := if failed.isSome then s.groupFault w.core 0x0D (s.strand w.core w.strand).pc.toNat (BitVec.ofNat 64 (w.page * 65536)) (some w.strand) else s
    .next (s.startWalks (dieOf w.core) 4)

end Sys2Proof.Machine
end

