-- ==== Sys2Proof/Machine/Control.lean ====
section
/-! DEFINITION. The C-class instructions (R68, R149, R150, R169 to R172, R195 to R202, R357, R386, R410, R437 to R440), each at
its issue, and the shared operations of REALIGN. -/
namespace Sys2Proof.Machine

/-- R68. -/
def execNop (s : State) : Res := .next s

/-! ## Branches (R81, R195, R196) -/

/-- The bundle transfers control to an address; the effect is that of R81 at the bundle's end. -/
def State.transfer (s : State) (target : Word) : State := s.onCur fun k => { k with xfer := some target }

/-- The return address of a CALL or BRX.l: two delay bundles on (R195). -/
def State.link (s : State) : State := s.setX 1 30 (BitVec.ofNat 64 (s.cur.pc + 48))

/-- The target of an offset in bundles (R195). -/
def State.offsetTarget (s : State) (o : BitVec 23) : Word := word ((s.cur.pc : Int) + 16 * o.toInt)

def execBr (g : BitVec 3) (o : BitVec 23) (s : State) : Res :=
  s.guarded g fun s => s.transfer (s.offsetTarget o)
def execCall (g : BitVec 3) (o : BitVec 23) (s : State) : Res :=
  s.guarded g fun s => (s.transfer (s.offsetTarget o)).link
def execBrx (g : BitVec 3) (a : BitVec 5) (l : BitVec 1) (s : State) : Res :=
  s.guarded g fun s =>
    let s := s.transfer (s.rx a)
    if l = 1 then s.link else s
def execRet (g : BitVec 3) (s : State) : Res :=
  s.guarded g fun s => s.transfer (s.rx 30)

/-! ## Hardware loops (R187, R188, R197, R198) -/

/-- The end bundle of an active level reaches at least x. -/
def Csrs.endsReach (c : Csrs) (x : Nat) : Bool :=
  (List.finRange 4).all fun l => !lpsAct c.lps[l] || decide (x ≤ lpsEnd c.lps[l])

/-- An active level other than those beyond has the property. -/
def Csrs.anyActive (c : Csrs) (p : Word → Bool) : Bool := (List.finRange 4).any fun l => lpsAct c.lps[l] && p c.lps[l]

/-- Loop entry (R188) with the refusals of R187; count is Xa or the immediate. -/
def State.enterLoop (s : State) (pe : Bool) (ring stg : Nat) (count : Nat) (off : Nat) : State :=
  let t := s.curStrand
  let addr := s.cur.pc / 16
  let end_ := addr + off
  let act := t.csr.active
  if s.cur.nested || act ≥ 4 || (pe && act > 0) || (stg > 0 && t.csr.anyActive fun w => lpsStg w != 0)
      || (ring > 0 && t.csr.anyActive fun w => lpsRing w != 0) || !t.csr.endsReach end_
      || s.cur.due1.isSome || s.cur.due2.isSome || count ≥ 2 ^ 32 then s.raise 0x07 0
  else if !s.curCore.inImage s.cur.level (16 * end_) then s.raise 0x05 (BitVec.ofNat 64 (16 * end_))
  else
    let l := fin 4 act
    let w := t.csr.lps[l]
    let lo := if pe ∧ act = 0 ∧ lpsPark w ∧ lpsStart w = addr + 1 ∧ lpsEnd w = end_ then litStep t.csr.lit[l] else 0
    let unpark := w &&& ~~~((1 : Word) <<< 61)
    if count = 0 ∨ lo ≥ count then
      let s := s.hwLevel s.cur.core s.cur.strand l (fun _ => unpark &&& ~~~((1 : Word) <<< 63)) id
      s.onCur fun k => { k with skip := some (end_ + 1) }
    else
      let s := s.hwLevel s.cur.core s.cur.strand l (fun _ => lpsMk true pe false false ring stg 0 false (addr + 1) end_) fun _ => litMk count lo
      if stg = 0 then s else s.later 1 3 (.stage stg (stageBits stg 0 lo count))

def execLoop (g : BitVec 3) (e : BitVec 1) (r s' : BitVec 2) (a : BitVec 5) (n : BitVec 13) (s : State) : Res :=
  s.guarded g fun s => s.enterLoop (e == 1) r.toNat s'.toNat (s.rx a).toNat n.toNat
def execLoopi (g : BitVec 3) (e : BitVec 1) (r s' : BitVec 2) (c : BitVec 10) (n : BitVec 8) (s : State) : Res :=
  s.guarded g fun s => s.enterLoop (e == 1) r.toNat s'.toNat c.toNat n.toNat

/-- R198: LAST of the innermost active level is set in the issue cycle; with no level active, SCHED. -/
def execLbrk (g : BitVec 3) (s : State) : Res :=
  s.guarded g fun s => match s.curStrand.csr.innermost with
    | none => s.raise 0x07 0
    | some l => s.hwLevel s.cur.core s.cur.strand l (fun w => w ||| ((1 : Word) <<< 53)) id

/-! ## Waiting and time (R170 to R172, R199, R201) -/

/-- R199. -/
def execWait (g : BitVec 3) (x : BitVec 5) (n : BitVec 18) (s : State) : Res :=
  s.guarded g fun s =>
    if (s.rx x).toNat ≥ 2 ^ 32 then s.raise 0x07 0
    else s.onCur fun k => { k with delay := k.delay + ((s.rx x).toNat + n.toNat) }

/-- Notes that the member on core c issues a REALIGN of a form (0, 1 for .p, 2 for .join) with a join word at its TT (R170). -/
def State.noteRealign (s : State) (c : Fin 256) (form : Nat) (w : Word) : State := match (s.core c).owner with
  | none => s
  | some o =>
    let tt := (s.core c).tt
    let add (rs : List (Nat × Nat × Word × List (Fin 256))) : List (Nat × Nat × Word × List (Fin 256)) :=
      match pick (fun r : Nat × Nat × Word × List (Fin 256) => r.1 == tt && r.2.1 == form && r.2.2.1 == w) rs with
      | some (r, rest) => (r.1, r.2.1, r.2.2.1, c :: r.2.2.2) :: rest
      | none => (tt, form, w, [c]) :: rs
    -- one that every member has issued alike is settled
    s.onGroup o.kid o.gpos fun g => { g with
      realigns := (add g.realigns).filter (fun r => r.2.2.2.length < g.members.length) }

/-- The strand waits at a REALIGN from its next cycle on (R170). -/
def State.waitRealign (s : State) (d : BitVec 5) (p : Bool) : State :=
  let c := s.cur.core
  let s := if s.timed c then s.noteRealign c (bit p) 0 else s
  s.onStrand c s.cur.strand fun t => { t with wait := .realign d p s.cyc (s.core c).tt }

def execRealign (g : BitVec 3) (d : BitVec 5) (s : State) : Res := s.guarded g fun s => s.waitRealign d false
def execRealignP (g : BitVec 3) (d : BitVec 5) (s : State) : Res := s.guarded g fun s => s.waitRealign d true

/-- R171: the join waits until joinComplete; the cases that raise SCHED. -/
def execRealignJoin (g : BitVec 3) (d a : BitVec 5) (s : State) : Res :=
  s.guarded g fun s =>
    let c := s.cur.core
    let w := s.rx a
    let lv := bits w.toNat 24 8
    let ok := match s.owner? c with
      | some (k, gr) => k.record.timed && gr.level == 4 && !k.record.preemptible
      | none => false
    if !ok || (lv != 6 && lv != 7) || decide (bits w.toNat 0 12 ≥ bits w.toNat 12 12) then s.raise 0x07 0
    else (s.noteRealign c 2 w).onStrand c s.cur.strand fun t => { t with wait := .join d w s.cyc (s.core c).tt }

/-- R172. -/
def execCycr (g : BitVec 3) (d : BitVec 5) (x : BitVec 2) (s : State) : Res :=
  s.guarded g fun s =>
    let k := s.curCore
    s.setX 2 d (BitVec.ofNat 64 (match x.toNat with
      | 0 => s.cyc
      | 1 => k.tt
      | 2 => s.nextBell
      | _ => k.slip))

/-- R201: in a PACED group the strand cannot issue in the next cycle. -/
def execYield (g : BitVec 3) (s : State) : Res :=
  s.guarded g fun s =>
    if s.timed s.cur.core then s else s.onStrand s.cur.core s.cur.strand fun t => { t with yieldAt := some (s.time + 1) }

/-! ## Strand states (R176, R202) -/

/-- The state code of strand j (R202) as the issuing strand i reads it; whether a strand can issue was found before the bundle issued. -/
def State.strandCode (s : State) (c : Fin 256) (i j : Fin 4) (strands : Nat) : Nat :=
  let t := s.strand c j
  if j.val > strands then 0xF
  else match t.life with
    | .idle => 0
    | .saved => 5
    | .live => if t.trapped then 4 else if i = j then 2 else if s.cur.ready.getLsbD j.val then 1 else 3

/-- R202. -/
def execStrs (g : BitVec 3) (d : BitVec 5) (s : State) : Res :=
  s.guarded g fun s =>
    let c := s.cur.core
    let n := match s.owner? c with
      | some (k, _) => k.record.strands
      | none => 0
    let code (j : Fin 4) : Nat := s.strandCode c s.cur.strand j n
    s.setX 2 d (BitVec.ofNat 64 (n * 2 ^ 18 + s.cur.strand.val * 2 ^ 16 + code 3 * 4096 + code 2 * 256 + code 1 * 16 + code 0))

/-! ## CSR instructions (R180, R181, R200) -/

/-- R200: the old value returns at issue + 2, and the write takes effect then; a write below its level raises PRIV. -/
def State.csrInstr (s : State) (op : CsrOp) (d : BitVec 5) (num : BitVec 12) (v : Word) : State :=
  if !s.cur.level.reaches (csrLevel num) then s.raise 0x02 0
  else (s.setX 2 d (s.csrRead s.cur.core s.cur.strand num)).later 2 2 (.csr num op v)

/-- The operand of a CSR write: Xa, or the a field itself zero-extended. -/
def State.csrArg (s : State) (a : BitVec 5) (i : BitVec 1) : Word := if i = 1 then a.zeroExtend 64 else s.rx a

def execCsrr (g : BitVec 3) (d : BitVec 5) (c : BitVec 12) (s : State) : Res :=
  s.guarded g fun s => s.setX 2 d (s.csrRead s.cur.core s.cur.strand c)
def execCsrw (g : BitVec 3) (d a : BitVec 5) (i : BitVec 1) (c : BitVec 12) (s : State) : Res :=
  s.guarded g fun s => s.csrInstr .write d c (s.csrArg a i)
def execCsrs (g : BitVec 3) (d a : BitVec 5) (i : BitVec 1) (c : BitVec 12) (s : State) : Res :=
  s.guarded g fun s => s.csrInstr .set d c (s.csrArg a i)
def execCsrc (g : BitVec 3) (d a : BitVec 5) (i : BitVec 1) (c : BitVec 12) (s : State) : Res :=
  s.guarded g fun s => s.csrInstr .clear d c (s.csrArg a i)

/-! ## Ordering (R386) -/

/-- R386: the next bundle waits until the accesses issued before the FENCE and lying within its scope have performed (.rel, .ar,
.full) or returned their values (.acq, .ar, .full); .full waits for flushed posted host writes too (R387). -/
def execFence (g : BitVec 3) (sc : BitVec 4) (k : BitVec 2) (s : State) : Res :=
  s.guarded g fun s => s.onStrand s.cur.core s.cur.strand fun t =>
    { t with wait := .fence sc.toNat (k != 0) (k != 1) (k == 3) s.seq }

/-! ## Launching, leaving (R149, R150) -/

/-- R149: the checks, then a pending entry whose record is read at issue + 2; where the core's eight entries are full, no record is held
and the bell answers 0. -/
def execLaunch (g : BitVec 3) (d : BitVec 5) (a : BitVec 4) (q : BitVec 6) (s : State) : Res :=
  s.guarded g fun s =>
    let off := (s.ra a).toNat
    let c := s.cur.core
    if off % 64 ≠ 0 ∨ off + 128 > spmSize ∨ (off + 128 > spmTop ∧ s.cur.level = .user) then s.raise 0x05 (s.ra a)
    else
      let o := s.seq
      let kid := match s.curCore.owner with
        | some w => w.kid
        | none => 0
      let full := decide (8 ≤ (s.curCore.launches.filter (!·.full)).length)
      let s := if full then { s with seq := s.seq + 1 } else
        s.push (s.engClock c s.cur.nested) (s.now (s.engClock c s.cur.nested) + 2) 7 c.val
          (.eff c s.cur.strand s.cur.pc 0 (.launchRead off o))
      s.onCore c fun k => { k with launches := k.launches ++
        [{ strand := s.cur.strand, d, kid, queue := fin 64 q.toNat, bytes := [], order := o, held := s.stepping c, full,
           at_ := s.cyc, from_ := s.cyc + 2, addr := off }] }

/-- R150: the strand ends after this bundle. -/
def execExit (g : BitVec 3) (s : State) : Res := s.guarded g fun s => s.onCur fun k => { k with exit := true }

/-! ## Traps (R437 to R440) -/

/-- R437: SWTRAP at issue + 1. -/
def execTrap (g : BitVec 3) (n : BitVec 8) (s : State) : Res := s.guarded g fun s => s.later 1 4 (.swtrap n)

/-- The checks that every form of RFT makes (R438). -/
def State.withRft (s : State) (f : State → State) : State :=
  if s.cur.level = .user then s.raise 0x02 0 else if !s.cur.nested then s.raise 0x07 0 else f s

/-- Forms 0 and 1 (R438, R439): the flight-save area is checked; the return takes place at the bundle's end, once its other slots have
acted. In step mode, which raises no SCHED (R151), an area that does not match leaves the strand where it is. -/
def State.rft (s : State) (replay : Bool) : State :=
  s.withRft fun s =>
    let c := s.cur.core
    let j := s.cur.strand
    let (n, es) := s.flightEntries c j
    if !flightOk n es (s.strand c j).hold then (if s.stepping c then s else s.doubleTrap c j 0x07 s.cur.pc 0)
    else s.onCur fun k => { k with back := some replay }

def execRft (g : BitVec 3) (s : State) : Res := s.guarded g fun s => s.rft false
def execRftReplay (g : BitVec 3) (s : State) : Res := s.guarded g fun s => s.rft true

/-- R440: the kernel ends FAULTED once the other slots of the bundle have acted (R438). -/
def execRftFault (g : BitVec 3) (s : State) : Res :=
  s.guarded g fun s => s.withRft fun s => s.onCur fun k => { k with ends := true }

/-! ## Checkpoints and drift (R357, R410) -/

/-- The LOGGED page that a VA names, by its device address. -/
def State.loggedPage (s : State) (va : Nat) : Option Nat := match s.translate va with
  | .hit x _ => if pteLogged x.leaf.toNat && !x.block && !pteHost x.leaf.toNat then some (ptePa x.leaf.toNat) else none
  | _ => none

/-- Puts a request for the bell on the kernel's context. -/
def State.askCkpt (s : State) (d : BitVec 5) (off : Bool) (pages : List Nat) : State :=
  let c := s.cur.core
  let kid := match s.curCore.owner with
    | some w => w.kid
    | none => 0
  let r : CkptReq := { core := c, strand := s.cur.strand, kid, d, off, pages, order := s.seq, at_ := s.cyc }
  { s.onCtx (s.ctxOf c) (fun k => { k with ckpts := k.ckpts ++ [r] }) with seq := s.seq + 1 }

def State.isPair (s : State) (c : Fin 256) : Bool := match s.owner? c with
  | some (k, _) => k.record.pair
  | none => false

/-- R357: the pages are translated as an engine command translates them, then the mark is set at the bell. -/
def execCkpt (g : BitVec 3) (d a b : BitVec 5) (s : State) : Res :=
  s.guarded g fun s =>
    let n := (s.rx b).toNat
    if s.isPair s.cur.core ∨ n = 0 ∨ n > 65536 then s.raise 0x07 0
    else
      let va := (s.rx a).toNat
      let ps := (chunks va (65536 * n)).map (·.1)
      let hs := ps.map fun p => s.resolve false p 1
      let bad := (ps.zip hs).find? fun ph => match ph.2 with
        | .run _ h => h || (s.loggedPage ph.1).isNone
        | _ => true
      s.withWalks hs fun s => match bad with
        | some (_, .page x) => s.raise 0x09 (BitVec.ofNat 64 x)
        | some (p, .run _ true) => s.raise (if s.timed s.cur.core then 0x09 else 0x05) (BitVec.ofNat 64 p)
        | some (p, _) => s.raise 0x05 (BitVec.ofNat 64 p)
        | none => s.askCkpt d false (ps.filterMap s.loggedPage)

def execCkptOff (g : BitVec 3) (d : BitVec 5) (s : State) : Res :=
  s.guarded g fun s => if s.isPair s.cur.core then s.raise 0x07 0 else s.askCkpt d true []

/-- R410: the step joins those that wait for the first bell with CYC > issue + 2; Xd is that bell. -/
def execDrift (g : BitVec 3) (d : BitVec 5) (x : BitVec 1) (s : State) : Res :=
  s.guarded g fun s =>
    if s.cur.level ≠ .firm then s.raise 0x02 0
    else
      let b := (s.cyc + 2) / 4096 * 4096 + 4096
      let n : Int := if x = 1 then -1 else 1
      let s := if b = s.nextBell then { s with drift := s.drift + n } else { s with drift2 := s.drift2 + n }
      s.setX 2 d (BitVec.ofNat 64 b)

end Sys2Proof.Machine
end

