-- ==== Sys2Proof/Machine/Numbers.lean ====
section
/-! DEFINITION. Number formats and rounding (R25 to R51): values of the binary formats and of decimal64 as exact numbers, RoundTo
with its flags, the NaN rule and exact-then-one-rounding sums. Every floating-point result of the machine is built here. -/
namespace Sys2Proof.Machine

/-- The rounding modes of R43. -/
inductive Rnd where
  | rne | rtz | rdn | rup | rna
deriving DecidableEq, Repr

def Rnd.ofCode : Nat → Rnd
  | 1 => .rtz | 2 => .rdn | 3 => .rup | 4 => .rna | _ => .rne

/-- The floating-point formats of R25 and R30. -/
inductive Fmt where
  | f64 | f32 | f16 | bf16 | e5m2 | e4m3 | e2m1 | d64
deriving DecidableEq, Repr

/-- A value: a NaN with its payload, an infinity, or n · β^e with a sign. For decimal64 the exponent is the encoding's own. -/
inductive FVal where
  | nan (payload : Nat) (sig : Bool)
  | inf (neg : Bool)
  | fin (neg : Bool) (n : Nat) (e : Int)
deriving DecidableEq, Repr

def Fmt.base : Fmt → Nat
  | .d64 => 10
  | _ => 2
def Fmt.width : Fmt → Nat
  | .f64 => 64 | .f32 => 32 | .f16 => 16 | .bf16 => 16 | .e5m2 => 8 | .e4m3 => 8 | .e2m1 => 4 | .d64 => 64
/-- Precision p in digits of the base. -/
def Fmt.prec : Fmt → Nat
  | .f64 => 53 | .f32 => 24 | .f16 => 11 | .bf16 => 8 | .e5m2 => 3 | .e4m3 => 4 | .e2m1 => 2 | .d64 => 16
/-- The exponent of the lowest digit of the smallest subnormal, and of the largest finite value. -/
def Fmt.xmin : Fmt → Int
  | .f64 => -1074 | .f32 => -149 | .f16 => -24 | .bf16 => -133 | .e5m2 => -16 | .e4m3 => -9 | .e2m1 => -1 | .d64 => -398
def Fmt.xmax : Fmt → Int
  | .f64 => 971 | .f32 => 104 | .f16 => 5 | .bf16 => 120 | .e5m2 => 13 | .e4m3 => 5 | .e2m1 => 1 | .d64 => 369
/-- The coefficient of the largest finite value: 448 = 14 × 2^5 for E4M3 (R27). -/
def Fmt.cmax : Fmt → Nat
  | .e4m3 => 14 | f => f.base ^ f.prec - 1
def Fmt.hasInf : Fmt → Bool
  | .e4m3 | .e2m1 => false
  | _ => true
/-- Bits of the exponent field, and of the fraction field below it. -/
def Fmt.ebits : Fmt → Nat
  | .f64 => 11 | .f32 => 8 | .f16 => 5 | .bf16 => 8 | .e5m2 => 5 | .e4m3 => 4 | .e2m1 => 2 | .d64 => 10
def Fmt.fbits (f : Fmt) : Nat := f.prec - 1
/-- The all-ones payload of a format (R48). -/
def Fmt.ones : Fmt → Nat
  | .f64 => 2 ^ 51 - 1 | .f32 => 2 ^ 22 - 1 | .f16 => 511 | .bf16 => 63 | .e5m2 => 1 | .d64 => 10 ^ 15 - 1
  | _ => 0

/-- The payload that an E4M3 NaN counts as: too large for every format, so that it becomes the all-ones payload where it is
taken (R27). -/
def e4m3Payload : Nat := 2 ^ 64

/-- A payload as it passes to a format (R49). -/
def Fmt.narrow (f : Fmt) (p : Nat) : Nat := if p ≤ f.ones then p else f.ones

/-! ## Encodings (R25 to R32) -/

/-- The value of a binary encoding. -/
def decodeBin (f : Fmt) (b : Nat) : FVal :=
  let fb := f.fbits
  let neg := bits b (f.width - 1) 1 == 1
  let e := bits b fb f.ebits
  let m := bits b 0 fb
  let top := 2 ^ f.ebits - 1
  if f = .e2m1 then .fin neg (if e = 0 then m else 2 + m) (if e = 0 then -1 else (e : Int) - 2)
  else if f = .e4m3 then
    if e = 15 ∧ m = 7 then .nan e4m3Payload false
    else .fin neg (if e = 0 then m else 8 + m) (if e = 0 then -9 else (e : Int) - 10)
  else if e = top then
    if m = 0 then .inf neg
    else .nan (m % 2 ^ (fb - 1)) (m / 2 ^ (fb - 1) % 2 == 0)
  else .fin neg (if e = 0 then m else 2 ^ fb + m) (if e = 0 then f.xmin else f.xmin + ((e : Int) - 1))

/-- The value of a BID encoding, with the non-canonical ones read as R31 says. -/
def decodeBid (b : Nat) : FVal :=
  let neg := bits b 63 1 == 1
  if bits b 58 5 = 0b11110 then .inf neg
  else if bits b 58 5 = 0b11111 then
    .nan (if bits b 0 50 < 10 ^ 15 then bits b 0 50 else 0) (bits b 57 1 == 1)
  else
    let wide := bits b 61 2 == 3
    let e := if wide then bits b 51 10 else bits b 53 10
    let c := if wide then 2 ^ 53 + bits b 0 51 else bits b 0 53
    .fin neg (if c < 10 ^ 16 then c else 0) ((e : Int) - 398)

def decodeF (f : Fmt) (b : Nat) : FVal := if f = .d64 then decodeBid b else decodeBin f b

/-- The encoding of a value that a binary format holds: n below 2^p, and the exponent in range. -/
def encodeBin (f : Fmt) (v : FVal) : Nat :=
  let fb := f.fbits
  let top := 2 ^ f.ebits - 1
  let sgn (neg : Bool) : Nat := bit neg * 2 ^ (f.width - 1)
  match v with
  | .nan p _ => if f = .e4m3 then 0x7F else if f = .e2m1 then 0 else top * 2 ^ fb + 2 ^ (fb - 1) + f.narrow p % 2 ^ (fb - 1)
  | .inf neg => sgn neg + top * 2 ^ fb
  | .fin neg n e =>
    if n = 0 then sgn neg
    else
      -- move to a coefficient of full precision, or to the subnormal exponent
      let up := Nat.min (f.prec - (n.log2 + 1)) (e - f.xmin).toNat
      let c := n * 2 ^ up
      let x := e - (up : Int)
      if c < 2 ^ fb then sgn neg + c else sgn neg + ((x - f.xmin).toNat + 1) * 2 ^ fb + (c - 2 ^ fb)

def encodeBid (v : FVal) : Nat := match v with
  | .nan p _ => 0b11111 * 2 ^ 58 + Fmt.narrow .d64 p
  | .inf neg => bit neg * 2 ^ 63 + 0b11110 * 2 ^ 58
  | .fin neg n e =>
    let x := (e + 398).toNat
    if n < 2 ^ 53 then bit neg * 2 ^ 63 + x * 2 ^ 53 + n
    else bit neg * 2 ^ 63 + 3 * 2 ^ 61 + x * 2 ^ 51 + (n - 2 ^ 53)

def encodeF (f : Fmt) (v : FVal) : Nat := if f = .d64 then encodeBid v else encodeBin f v

/-- The generated NaN (R48). -/
def Fmt.gen (f : Fmt) : FVal := .nan f.ones false

/-! ## Rounding (R43 to R45) -/

/-- Digits of n in base 10 or 2. -/
def digits (β n : Nat) : Nat :=
  if n = 0 then 0
  else if β = 2 then n.log2 + 1
  else
    let k := n.log2 * 30103 / 100000
    if n < 10 ^ k then k else if n < 10 ^ (k + 1) then k + 1 else k + 2

/-- n / m rounded to an integer in a mode, for a value of the given sign. -/
def roundQuot (mode : Rnd) (neg : Bool) (n m : Nat) : Nat :=
  let c := n / m
  let r := n % m
  let up := match mode with
    | .rtz => false
    | .rdn => neg && r != 0
    | .rup => !neg && r != 0
    | .rne => decide (m < 2 * r) || (decide (m = 2 * r) && c % 2 == 1)
    | .rna => decide (m ≤ 2 * r)
  if up then c + 1 else c

/-- n · β^e moved to the exponent x: the rounded coefficient and whether it is exact. -/
def quantize (β : Nat) (mode : Rnd) (neg : Bool) (n : Nat) (e x : Int) : Nat × Bool :=
  if x ≤ e then (n * β ^ (e - x).toNat, true)
  else (roundQuot mode neg n (β ^ (x - e).toNat), n % β ^ (x - e).toNat == 0)

/-- Raises the exponent of an exact decimal toward q while the coefficient ends in 0 (R222). -/
def raiseExp : Nat → Nat → Int → Int → Nat × Int
  | 0, c, x, _ => (c, x)
  | k + 1, c, x, q => if c % 10 = 0 ∧ x < q then raiseExp k (c / 10) (x + 1) q else (c, x)

/-- What overflow gives (R44). -/
def overflowed (f : Fmt) (mode : Rnd) (neg : Bool) : FVal :=
  let top : FVal := .fin neg f.cmax f.xmax
  if !f.hasInf then top else match mode with
    | .rne | .rna => .inf neg
    | .rtz => top
    | .rdn => if neg then .inf neg else top
    | .rup => if neg then top else .inf neg

/-- An integer clamped to a range. -/
def clampInt (v lo hi : Int) : Int := if v < lo then lo else if hi < v then hi else v

/-- RoundTo of a finite value n · β^e (R44, R45), with the preferred exponent q of a decimal result (R222). -/
def roundTo (f : Fmt) (mode : Rnd) (neg : Bool) (n : Nat) (e q : Int) : FVal × Flags :=
  if n = 0 then (.fin neg 0 (if f = .d64 then clampInt q (-398) 369 else f.xmin), Flags.none)
  else
    let β := f.base
    let x0 := e + (digits β n : Int) - (f.prec : Int)
    let x := if x0 < f.xmin then f.xmin else x0
    let (c, exact) := quantize β mode neg n e x
    let (c, x) := if c = β ^ f.prec then (β ^ (f.prec - 1), x + 1) else (c, x)
    let big := decide (f.xmax < x) || (x == f.xmax && decide (f.cmax < c))
    -- tiny: the value rounded without a least exponent is below the smallest normal
    let tiny := decide (x0 < f.xmin) && !((quantize β mode neg n e x0).1 == β ^ f.prec && x0 + 1 == f.xmin)
    if big then (overflowed f mode neg, { Flags.none with ovf := true, nx := true })
    else if exact then
      let (c, x) := if f = .d64 then raiseExp 20 c x (if q < 369 then q else 369) else (c, x)
      (.fin neg c x, Flags.none)
    else (.fin neg c x, { Flags.none with nx := true, uf := tiny })

/-! ## NaNs (R48 to R50) -/

/-- The payloads of the NaN operands. -/
def payloads (vs : List FVal) : List Nat := vs.filterMap fun v => match v with
  | .nan p _ => some p
  | _ => none

def FVal.isNan : FVal → Bool
  | .nan _ _ => true
  | _ => false
def FVal.isSig : FVal → Bool
  | .nan _ s => s
  | _ => false
def FVal.isInf : FVal → Bool
  | .inf _ => true
  | _ => false
def FVal.isZero : FVal → Bool
  | .fin _ 0 _ => true
  | _ => false
def FVal.sign : FVal → Bool
  | .nan _ _ => false
  | .inf s => s
  | .fin s _ _ => s
/-- The other sign, on a value that is no NaN. -/
def FVal.neg : FVal → FVal
  | .nan p s => .nan p s
  | .inf s => .inf (!s)
  | .fin s n e => .fin (!s) n e

/-- The NaN that NaN operands give: the least payload, quiet, with invalid where one signals. -/
def nanRule (f : Fmt) (vs : List FVal) : FVal × Flags :=
  (.nan (match payloads vs with
    | [] => f.ones
    | p :: r => f.narrow (r.foldl Nat.min p)) false, { Flags.none with nv := vs.any FVal.isSig })

/-! ## Exact sums (R51) -/

/-- The least exponent among finite terms. -/
def minExp : List FVal → Int
  | [] => 0
  | [.fin _ _ e] => e
  | .fin _ _ e :: r => if e < minExp r then e else minExp r
  | _ :: r => minExp r

/-- The exact sum of finite terms in units of β^e, e not above any term's exponent. -/
def sumAt (β : Nat) (e : Int) (vs : List FVal) : Int :=
  vs.foldl (fun a v => match v with
    | .fin s n x => let m : Int := (n * β ^ (x - e).toNat : Nat)
                    if s then a - m else a + m
    | _ => a) 0

/-- SumRound with a decimal result's preferred exponent (R51, R222). -/
def sumRoundQ (f : Fmt) (mode : Rnd) (vs : List FVal) (q : Int) : FVal × Flags :=
  if vs.any FVal.isNan then nanRule f vs
  else if vs.contains (.inf false) && vs.contains (.inf true) then (f.gen, Flags.invalid)
  else if vs.contains (.inf false) then (.inf false, Flags.none)
  else if vs.contains (.inf true) then (.inf true, Flags.none)
  else match vs with
    | [.fin s n e] => roundTo f mode s n e q
    | _ =>
      let e := minExp vs
      let t := sumAt f.base e vs
      if t = 0 then
        let neg := vs.all (fun v => v.isZero && v.sign) || (mode == .rdn && !vs.all (fun v => v.isZero && v.sign))
        roundTo f mode neg 0 e q
      else roundTo f mode (decide (t < 0)) t.natAbs e q

/-- SumRound; a decimal result prefers the least exponent of its terms. -/
def sumRound (f : Fmt) (mode : Rnd) (vs : List FVal) : FVal × Flags := sumRoundQ f mode vs (minExp vs)

/-- The exact product of values that are no NaN; none for ∞ × 0. -/
def prod : FVal → FVal → Option FVal
  | .nan p s, _ => some (.nan p s)
  | _, .nan p s => some (.nan p s)
  | .inf s, .inf t => some (.inf (s != t))
  | .inf s, .fin t n _ => if n = 0 then none else some (.inf (s != t))
  | .fin s n _, .inf t => if n = 0 then none else some (.inf (s != t))
  | .fin s n e, .fin t m x => some (.fin (s != t) (n * m) (e + x))

/-- Rounds an exact value: VCVT, RoundTo of R47. -/
def roundVal (f : Fmt) (mode : Rnd) (v : FVal) : FVal × Flags := match v with
  | .nan p s => nanRule f [.nan p s]
  | .inf s => (.inf s, Flags.none)
  | .fin s n e => roundTo f mode s n e e

/-- Multiplication (R221). -/
def mulF (f : Fmt) (mode : Rnd) (a b : FVal) : FVal × Flags :=
  if a.isNan || b.isNan then nanRule f [a, b]
  else match prod a b with
    | none => (f.gen, Flags.invalid)
    | some v => roundVal f mode v

/-- a · b + c with one rounding, the product negated or the addend negated (R224). -/
def fmaF (f : Fmt) (mode : Rnd) (negP negC : Bool) (a b c : FVal) : FVal × Flags :=
  let bad := (a.isInf && b.isZero) || (a.isZero && b.isInf)
  if a.isNan || b.isNan || c.isNan then
    let (r, fl) := nanRule f [a, b, c]
    (r, if bad then { fl with nv := true } else fl)
  else match prod a b with
    | none => (f.gen, Flags.invalid)
    | some p => sumRound f mode [if negP then p.neg else p, if negC then c.neg else c]

/-- Exact comparison of two values that are no NaN: less, equal, greater by value (R225). -/
def cmpF (β : Nat) (a b : FVal) : Ordering := match a, b with
  | .inf s, .inf t => if s = t then .eq else if s then .lt else .gt
  | .inf s, _ => if s then .lt else .gt
  | _, .inf t => if t then .gt else .lt
  | a, b => compare (sumAt β (minExp [a, b]) [a]) (sumAt β (minExp [a, b]) [b])

/-- The order of VMIN and VMAX (R223): by value, −0 below +0, then a decimal's exponent. -/
def below (β : Nat) (a b : FVal) : Bool := match cmpF β a b with
  | .lt => true
  | .gt => false
  | .eq => match a, b with
    | .fin s n e, .fin t m x =>
      if n = 0 ∧ m = 0 ∧ s ≠ t then s else β == 10 && decide (e < x)
    | _, _ => false

/-- The least, or the greatest, of two values by R223. -/
def minmaxF (f : Fmt) (max : Bool) (a b : FVal) : FVal × Flags :=
  if a.isNan || b.isNan then nanRule f [a, b]
  else (if max then (if below f.base a b then b else a) else (if below f.base b a then b else a), Flags.none)

/-- The rounding mode in force for a format (R43). -/
def modeOf (fcr : Word) (f : Fmt) : Rnd := Rnd.ofCode (if f = .d64 then bits fcr.toNat 4 3 else bits fcr.toNat 0 3)

/-- The format that a V-class code names, if floating-point (R85). -/
def fmtOf (c : BitVec 3) : Option Fmt := match c.toNat with
  | 0 => some .f32 | 1 => some .f16 | 2 => some .bf16 | 3 => some .f64 | 4 => some .d64 | _ => none

/-- The element width of a V-class code in bits (R214). -/
def viewWidth (c : BitVec 3) : Nat := match c.toNat with
  | 0 => 32 | 1 => 16 | 2 => 16 | 3 => 64 | 4 => 64 | 5 => 32 | 6 => 16 | _ => 8

/-- Rounding to an integer of n bits, saturating: the integer, and flags with invalid where it saturated (R46). -/
def roundInt (mode : Rnd) (lo hi : Int) (v : FVal) (β : Nat) : Int × Flags := match v with
  | .nan _ _ => (0, Flags.invalid)
  | .inf s => (if s then lo else hi, Flags.invalid)
  | .fin s n e =>
    let (c, exact) := quantize β mode s n e 0
    let i : Int := if s then -(c : Int) else c
    if i < lo then (lo, Flags.invalid) else if hi < i then (hi, Flags.invalid)
    else (i, { Flags.none with nx := !exact })

end Sys2Proof.Machine
end

