-- ==== Sys2Proof/Machine/Reals.lean ====
section
/-! DEFINITION. Exact quotients, roots and the special functions (R245 to R250): each forms its exact result to far more digits
than any rounding needs, marks whether digits were cut, and rounds once. Fixed-point integers only. -/
namespace Sys2Proof.Machine

/-! ## Quotients and roots (R245, R246) -/

/-- The integer square root, from bit k down. -/
def isqrtFrom (n : Nat) : Nat → Nat → Nat
  | 0, r => r
  | k + 1, r => if (r + 2 ^ k) * (r + 2 ^ k) ≤ n then isqrtFrom n k (r + 2 ^ k) else isqrtFrom n k r

def isqrt (n : Nat) : Nat := isqrtFrom n (n.log2 / 2 + 1) 0

/-- Rounds n · β^e with a cut part below the last digit when sticky. -/
def roundCut (f : Fmt) (mode : Rnd) (neg : Bool) (n : Nat) (e : Int) (sticky : Bool) (q : Int) : FVal × Flags :=
  roundTo f mode neg (n * f.base + bit sticky) (e - 1) q

/-- (n · β^e) / (m · β^x), rounded once. -/
def divFin (f : Fmt) (mode : Rnd) (neg : Bool) (n : Nat) (e : Int) (m : Nat) (x q : Int) : FVal × Flags :=
  let k := f.prec + 3 + digits f.base m - digits f.base n
  let t := n * f.base ^ k
  roundCut f mode neg (t / m) (e - x - (k : Int)) (t % m != 0) q

/-- The VDIV rows of R245 on exact values. -/
def divF (f : Fmt) (mode : Rnd) (a b : FVal) (q : Int) : FVal × Flags :=
  match a, b with
  | .nan _ _, _ | _, .nan _ _ => nanRule f [a, b]
  | .inf _, .inf _ => (f.gen, Flags.invalid)
  | .inf s, .fin t _ _ => (.inf (s != t), Flags.none)
  | .fin s _ _, .inf t => roundTo f mode (s != t) 0 0 q
  | .fin s n e, .fin t m x =>
    if m = 0 then (if n = 0 then (f.gen, Flags.invalid) else (.inf (s != t), { Flags.none with dz := true }))
    else if n = 0 then roundTo f mode (s != t) 0 0 q
    else divFin f mode (s != t) n e m x q

/-- The exponent of a value, for decimal preferences (R246, R274); an infinity, which has none, counts as exponent 0 (log 196). -/
def FVal.exp : FVal → Int
  | .fin _ _ e => e
  | _ => 0

/-- VDIV (R245, R246). -/
def vdivF (f : Fmt) (mode : Rnd) (a b : FVal) : FVal × Flags := divF f mode a b (a.exp - b.exp)

/-- VSQRT (R245, R246). -/
def sqrtF (f : Fmt) (mode : Rnd) (a : FVal) : FVal × Flags := match a with
  | .nan _ _ => nanRule f [a]
  | .inf s => if s then (f.gen, Flags.invalid) else (a, Flags.none)
  | .fin s n e =>
    let q := e / 2
    if n = 0 then roundTo f mode s 0 e q
    else if s then (f.gen, Flags.invalid)
    else
      let odd := decide (e % 2 ≠ 0)
      let n := if odd then n * f.base else n
      let e := if odd then e - 1 else e
      let k := f.prec + 3
      let t := n * f.base ^ (2 * k)
      let r := isqrt t
      roundCut f mode false r (e / 2 - (k : Int)) (r * r != t) q

/-- VRCP (R245). -/
def rcpF (f : Fmt) (mode : Rnd) (a : FVal) : FVal × Flags := match a with
  | .nan _ _ => nanRule f [a]
  | .inf s => roundTo f mode s 0 0 0
  | .fin s n _ => if n = 0 then (.inf s, { Flags.none with dz := true }) else divF f mode (.fin false 1 0) a 0

/-- VRSQ (R245): 1 / √(n · 2^e) with e made even is √(2^2k / n) · 2^(−e/2 − k). -/
def rsqF (f : Fmt) (mode : Rnd) (a : FVal) : FVal × Flags := match a with
  | .nan _ _ => nanRule f [a]
  | .inf s => if s then (f.gen, Flags.invalid) else roundTo f mode false 0 0 0
  | .fin s n e =>
    if n = 0 then (.inf s, { Flags.none with dz := true })
    else if s then (f.gen, Flags.invalid)
    else
      let odd := decide (e % 2 ≠ 0)
      let n := if odd then n * 2 else n
      let e := if odd then e - 1 else e
      let k := f.prec + 4 + digits 2 n
      let r := isqrt (2 ^ (2 * k) / n)
      roundCut f mode false r (-(e / 2) - (k : Int)) (r * r * n != 2 ^ (2 * k)) 0

/-! ## Constants in fixed point

Numbers x stand as integers near x · 2^B. Every series is cut where its terms fall below one unit, so an error stays below a few
thousand units of 2^−B; B leaves over two hundred bits beyond the 24 that the rounding needs. -/

/-- Fractional bits of the fixed-point numbers. -/
def fixB : Nat := 512
def one : Int := 2 ^ fixB

/-- Σ (±1)^i z^(2i+1) / (2i+1) for z = 1/m: arctangent with sign −1, its hyperbolic partner with +1. -/
def atanInv (m : Nat) (sign : Int) : Int :=
  ((List.range 260).foldl (fun (a : Int × Int × Int) i =>
    let (sum, pow, sg) := a
    (sum + sg * (pow / ((2 * i + 1 : Nat) : Int)), pow / ((m * m : Nat) : Int), sg * sign)) (0, one / (m : Int), 1)).1

def piFix : Int := 16 * atanInv 5 (-1) - 4 * atanInv 239 (-1)
def ln2Fix : Int := 2 * atanInv 3 1

/-- n · 2^e in fixed point, floored. -/
def toFix (neg : Bool) (n : Nat) (e : Int) : Int :=
  let x : Int := e + (fixB : Int)
  let m : Int := if neg then -(n : Int) else n
  if 0 ≤ x then m * 2 ^ x.toNat else m / 2 ^ (-x).toNat

/-- Σ r^i / i! for 0 ≤ r < 1. -/
def expSeries (r : Int) : Int :=
  ((List.range 120).foldl (fun (a : Int × Int) i =>
    let t := a.2 * r / one / ((i + 1 : Nat) : Int)
    (a.1 + t, t)) (one, one)).1

/-- e^x as (m, k): about m · 2^(k − B), m at least 1. -/
def expFix (x : Int) : Nat × Int :=
  let k := x / ln2Fix
  (expSeries (x - k * ln2Fix)).toNat |> fun m => (m, k)

/-- sin r and cos r for 0 ≤ r < 2. -/
def sinCosSeries (r : Int) : Int × Int :=
  let ts := (List.range 130).foldl (fun (a : List Int × Int) i =>
    let t := a.2 * r / one / ((i + 1 : Nat) : Int)
    (t :: a.1, t)) ([one], one)
  let xs := ts.1.reverse
  let sum (p : Nat) : Int := ((xs.zipIdx.filter fun t => t.2 % 2 == p).foldl
    (fun (a : Int × Int) t => (a.1 + a.2 * t.1, -a.2)) (0, 1)).1
  (sum 1, sum 0)

/-! ## The special functions on FP32 (R248) -/

/-- A value m · 2^e that is not exact, rounded. -/
def roundReal (mode : Rnd) (neg : Bool) (m : Nat) (e : Int) : FVal × Flags := roundCut .f32 mode neg m e true 0

/-- A little below n · 2^e. -/
def justBelow (mode : Rnd) (neg : Bool) (n : Nat) (e : Int) : FVal × Flags := roundReal mode neg (n * 2 ^ 200 - 1) (e - 200)

def exactF (v : FVal) : FVal × Flags := (v, Flags.none)
def one32 : FVal := .fin false (2 ^ 23) (-23)

/-- |a| at least 2^b. -/
def atLeast (n : Nat) (e : Int) (b : Int) : Bool := decide (b ≤ e + (n.log2 : Int)) && n != 0

def expF (mode : Rnd) (a : FVal) : FVal × Flags := match a with
  | .nan _ _ => nanRule .f32 [a]
  | .inf s => exactF (if s then .fin false 0 (-149) else a)
  | .fin s n e =>
    if n = 0 then exactF one32
    else if atLeast n e 8 then (if s then roundReal mode false 1 (-400) else roundReal mode false 1 200)
    else
      let (m, k) := expFix (toFix s n e)
      roundReal mode false m (k - (fixB : Int))

def logF (mode : Rnd) (a : FVal) : FVal × Flags := match a with
  | .nan _ _ => nanRule .f32 [a]
  | .inf s => if s then (Fmt.gen .f32, Flags.invalid) else exactF a
  | .fin s n e =>
    if n = 0 then (.inf true, { Flags.none with dz := true })
    else if s then (Fmt.gen .f32, Flags.invalid)
    else if n = 2 ^ n.log2 ∧ e = -(n.log2 : Int) then exactF (.fin false 0 (-149))
    else
      -- a = m · 2^k with m in [1/2, 1); ln m = 2 artanh ((m − 1) / (m + 1))
      let l : Nat := n.log2 + 1
      let m := toFix false n (-(l : Int))
      let z := (m - one) * one / (m + one)
      let z2 := z * z / one
      let ser := ((List.range 170).foldl (fun (a : Int × Int) i =>
        (a.1 + a.2 / ((2 * i + 1 : Nat) : Int), a.2 * z2 / one)) (0, z)).1
      let v := (e + (l : Int)) * ln2Fix + 2 * ser
      roundReal mode (decide (v < 0)) v.natAbs (-(fixB : Int))

/-- sin (which = 0) or cos of a finite nonzero FP32 value. -/
def trigF (which : Nat) (mode : Rnd) (s : Bool) (n : Nat) (e : Int) : FVal × Flags :=
  if which = 0 ∧ !atLeast n e (-40) then justBelow mode s n e
  else
    let x := toFix false n e
    let half := piFix / 2
    let q := (2 * x) / piFix
    let r := (2 * x - q * piFix) / 2
    let (sn, cs) := sinCosSeries (if half < r then half else r)
    let j := (q % 4).toNat
    let v : Int := if which = 0 then (match j with
        | 0 => sn
        | 1 => cs
        | 2 => -sn
        | _ => -cs) else (match j with
        | 0 => cs
        | 1 => -sn
        | 2 => -cs
        | _ => sn)
    let neg := decide (v < 0) != (which == 0 && s)
    roundReal mode neg v.natAbs (-(fixB : Int))

def sinF (mode : Rnd) (a : FVal) : FVal × Flags := match a with
  | .nan _ _ => nanRule .f32 [a]
  | .inf _ => (Fmt.gen .f32, Flags.invalid)
  | .fin s n e => if n = 0 then exactF a else trigF 0 mode s n e

def cosF (mode : Rnd) (a : FVal) : FVal × Flags := match a with
  | .nan _ _ => nanRule .f32 [a]
  | .inf _ => (Fmt.gen .f32, Flags.invalid)
  | .fin s n e => if n = 0 then exactF one32 else trigF 1 mode s n e

/-- The quotient of two positive fixed-point numbers, with many digits. -/
def fixQuot (a b : Nat) : Nat := a * 2 ^ fixB / b

def tanhF (mode : Rnd) (a : FVal) : FVal × Flags := match a with
  | .nan _ _ => nanRule .f32 [a]
  | .inf s => exactF (.fin s (2 ^ 23) (-23))
  | .fin s n e =>
    if n = 0 then exactF a
    else if !atLeast n e (-40) then justBelow mode s n e
    else if atLeast n e 5 then justBelow mode s 1 0
    else
      let (m, k) := expFix (2 * toFix false n e)
      let ex := m * 2 ^ k.toNat
      roundReal mode s (fixQuot (ex - 2 ^ fixB) (ex + 2 ^ fixB)) (-(fixB : Int))

/-- 2 / √π in fixed point. -/
def twoOverSqrtPi : Nat := 2 * isqrt (2 ^ (4 * fixB) / (piFix.toNat * 2 ^ fixB) * 2 ^ fixB) / 2 ^ (fixB / 2)

def erfF (mode : Rnd) (a : FVal) : FVal × Flags := match a with
  | .nan _ _ => nanRule .f32 [a]
  | .inf s => exactF (.fin s (2 ^ 23) (-23))
  | .fin s n e =>
    if n = 0 then exactF a
    else if atLeast n e 3 then justBelow mode s 1 0
    else
      -- erf a = a · (2/√π) · Σ (−1)^i a^2i / (i! (2i+1))
      let x := toFix false n e
      let x2 := x * x / one
      let ser := ((List.range 460).foldl (fun (a : Int × Int) i =>
        (a.1 + a.2 / ((2 * i + 1 : Nat) : Int), -(a.2 * x2 / one / ((i + 1 : Nat) : Int)))) (0, one)).1
      roundReal mode s (n * twoOverSqrtPi * ser.toNat) (e - 2 * (fixB : Int))

def sigmF (mode : Rnd) (a : FVal) : FVal × Flags := match a with
  | .nan _ _ => nanRule .f32 [a]
  | .inf s => exactF (if s then .fin false 0 (-149) else one32)
  | .fin s n e =>
    if n = 0 then exactF (.fin false (2 ^ 23) (-24))
    else if atLeast n e 8 then (if s then roundReal mode false 1 (-400) else justBelow mode false 1 0)
    else
      let (m, k) := expFix (-(toFix false n e))
      -- e^(−|a|) in units of 2^(−2B)
      let ex := m * 2 ^ (((fixB : Int) + k).toNat)
      let u := 2 ^ (2 * fixB)
      roundReal mode false (fixQuot (if s then ex else u) (u + ex)) (-(fixB : Int))

/-- (2/√π) · e^(−a²) for a finite a, as m · 2^x (R271). -/
def erfSlope (n : Nat) (e : Int) : Nat × Int :=
  if atLeast n e 10 then (1, -2000000)
  else
    let x := toFix false n e
    let (m, k) := expFix (-(x * x / one))
    (m * twoOverSqrtPi, k - 2 * (fixB : Int))

/-! ## Decimal quantize (R250) -/

def qtzF (mode : Rnd) (a b : FVal) : FVal × Flags := match a, b with
  | .nan _ _, _ | _, .nan _ _ => nanRule .d64 [a, b]
  | .inf _, .inf _ => exactF a
  | .inf _, _ | _, .inf _ => (Fmt.gen .d64, Flags.invalid)
  | .fin s n e, .fin _ _ q =>
    -- a magnitude far above the range is refused without forming it
    if n ≠ 0 ∧ q + 40 < e then (Fmt.gen .d64, Flags.invalid)
    else
      let (c, exact) := quantize 10 mode s n e q
      if c > 10 ^ 16 - 1 then (Fmt.gen .d64, Flags.invalid)
      else (.fin s c q, { Flags.none with nx := !exact })

end Sys2Proof.Machine
end

