-- ==== Sys2Proof/Machine/Series.lean ====
section
/-! DEFINITION. Coefficients of jets (R263 to R274): monomials and Coef, the series rules of every instruction that acts on jets,
and whole-jet selection. Each function takes the operand jets as lists of k + 1 coefficients and answers the result's k + 1
coefficients as encodings with their flags; at k = 0 it is the plain instruction (R267). -/
namespace Sys2Proof.Machine

/-- A monomial: a nonzero integer constant times stored coefficients (R265). -/
structure Mono where
  c  : Int
  fs : List FVal
deriving Repr

/-- Mono of R265. -/
def Mono.val (f : Fmt) (m : Mono) : FVal × Flags :=
  if m.fs.any FVal.isNan then nanRule f m.fs
  else if m.fs.any FVal.isInf && m.fs.any FVal.isZero then (f.gen, Flags.invalid)
  else
    let neg := m.fs.foldl (fun s v => s != v.sign) (decide (m.c < 0))
    if m.fs.any FVal.isInf then (.inf neg, Flags.none)
    else (m.fs.foldl (fun (a : FVal) v => match a, v with
      | .fin s n e, .fin _ k x => .fin s (n * k) (e + x)
      | a, _ => a) (.fin neg m.c.natAbs 0), Flags.none)

/-- The exact sum of R51 without its final rounding. -/
def exactSum (f : Fmt) (mode : Rnd) (vs : List FVal) : FVal × Flags :=
  if vs.any FVal.isNan then nanRule f vs
  else if vs.contains (.inf false) && vs.contains (.inf true) then (f.gen, Flags.invalid)
  else if vs.contains (.inf false) then (.inf false, Flags.none)
  else if vs.contains (.inf true) then (.inf true, Flags.none)
  else match vs with
    | [v] => (v, Flags.none)
    | _ =>
      let e := minExp vs
      let t := sumAt f.base e vs
      if t = 0 then (.fin (vs.all (fun v => v.isZero && v.sign) || mode == .rdn) 0 e, Flags.none)
      else (.fin (decide (t < 0)) t.natAbs e, Flags.none)

/-- Coef of R265: N, or N / D, rounded once, with the preferred exponent of R274. -/
def coef (f : Fmt) (mode : Rnd) (n : List Mono) (d : Option Mono) : FVal × Flags :=
  let ms := n.map (Mono.val f)
  let fl := Flags.union (ms.map (·.2))
  let vs := ms.map (·.1)
  match d with
  | none =>
    let r := sumRound f mode vs
    (r.1, r.2.or fl)
  | some d =>
    let s := exactSum f mode vs
    let dv := d.val f
    let r := divF f mode s.1 dv.1 (s.1.exp - dv.1.exp)
    (r.1, (r.2.or fl).or (s.2.or dv.2))

/-- Coefficient i of a jet; beyond the list it is the zero of R263. -/
def at_ (a : List FVal) (i : Nat) : FVal := a.getD i (.fin false 0 0)

abbrev CoefRes := FVal × Flags

/-- The results so far as operands. -/
def vals (rs : List CoefRes) : List FVal := rs.map (·.1)

/-- Builds coefficients 0 to k, each from the ones before it. -/
def buildUp (k : Nat) (r0 : CoefRes) (next : Nat → List FVal → CoefRes) : List CoefRes :=
  (List.range k).foldl (fun rs i => rs ++ [next (i + 1) (vals rs)]) [r0]

def each0 (k : Nat) (g : Nat → CoefRes) : List CoefRes := (List.range (k + 1)).map g

/-- Monomials over i = lo to hi. -/
def monos (lo hi : Nat) (g : Nat → List Mono) : List Mono := (List.range (hi + 1 - lo)).flatMap fun i => g (lo + i)

/-! ## Linear and product rules (R268) -/

def addJ (f : Fmt) (m : Rnd) (sub : Bool) (k : Nat) (a b : List FVal) : List CoefRes :=
  each0 k fun n => coef f m [⟨1, [at_ a n]⟩, ⟨if sub then -1 else 1, [at_ b n]⟩] none

def negJ (f : Fmt) (k : Nat) (a : List FVal) : List CoefRes :=
  each0 k fun n => if (at_ a n).isNan then nanRule f [at_ a n] else ((at_ a n).neg, Flags.none)

def mulJ (f : Fmt) (m : Rnd) (k : Nat) (a b : List FVal) : List CoefRes :=
  each0 k fun n => coef f m (monos 0 n fun i => [⟨1, [at_ a i, at_ b (n - i)]⟩]) none

def fmaJ (f : Fmt) (m : Rnd) (negP negC : Bool) (k : Nat) (a b c : List FVal) : List CoefRes :=
  each0 k fun n => coef f m
    ((monos 0 n fun i => [⟨if negP then -1 else 1, [at_ a i, at_ b (n - i)]⟩]) ++ [⟨if negC then -1 else 1, [at_ c n]⟩]) none

/-! ## Quotients and roots (R269) -/

def divJ (f : Fmt) (m : Rnd) (k : Nat) (a b : List FVal) : List CoefRes :=
  buildUp k (vdivF f m (at_ a 0) (at_ b 0)) fun n r =>
    coef f m (⟨1, [at_ a n]⟩ :: monos 0 (n - 1) fun i => [⟨-1, [at_ r i, at_ b (n - i)]⟩]) (some ⟨1, [at_ b 0]⟩)

def rcpJ (f : Fmt) (m : Rnd) (k : Nat) (a : List FVal) : List CoefRes :=
  buildUp k (rcpF f m (at_ a 0)) fun n r =>
    coef f m (monos 1 n fun i => [⟨-1, [at_ a i, at_ r (n - i)]⟩]) (some ⟨1, [at_ a 0]⟩)

def sqrtJ (f : Fmt) (m : Rnd) (k : Nat) (a : List FVal) : List CoefRes :=
  buildUp k (sqrtF f m (at_ a 0)) fun n r =>
    coef f m (⟨1, [at_ a n]⟩ :: monos 1 (n - 1) fun i => [⟨-1, [at_ r i, at_ r (n - i)]⟩]) (some ⟨2, [at_ r 0]⟩)

/-- The constants i/2 − n over n a_0, both doubled. -/
def rsqJ (f : Fmt) (m : Rnd) (k : Nat) (a : List FVal) : List CoefRes :=
  buildUp k (rsqF f m (at_ a 0)) fun n r =>
    coef f m (monos 1 n fun i => [⟨(i : Int) - 2 * (n : Int), [at_ a i, at_ r (n - i)]⟩]) (some ⟨2 * (n : Int), [at_ a 0]⟩)

/-! ## Exponential, logarithm, trigonometric and error functions (R270, R271) -/

def expJ (m : Rnd) (k : Nat) (a : List FVal) : List CoefRes :=
  buildUp k (expF m (at_ a 0)) fun n r =>
    coef .f32 m (monos 1 n fun i => [⟨i, [at_ a i, at_ r (n - i)]⟩]) (some ⟨n, []⟩)

def logJ (m : Rnd) (k : Nat) (a : List FVal) : List CoefRes :=
  buildUp k (logF m (at_ a 0)) fun n r =>
    coef .f32 m (⟨n, [at_ a n]⟩ :: monos 1 (n - 1) fun i => [⟨-(i : Int), [at_ r i, at_ a (n - i)]⟩]) (some ⟨n, [at_ a 0]⟩)

/-- Both series of R270: sines first, cosines second. -/
def trigJ (m : Rnd) (k : Nat) (a : List FVal) : List (CoefRes × CoefRes) :=
  (List.range k).foldl (fun rs t =>
    let n := t + 1
    let sn := rs.map fun r => r.1.1
    let cs := rs.map fun r => r.2.1
    rs ++ [(coef .f32 m (monos 1 n fun i => [⟨i, [at_ a i, at_ cs (n - i)]⟩]) (some ⟨n, []⟩),
            coef .f32 m (monos 1 n fun i => [⟨-(i : Int), [at_ a i, at_ sn (n - i)]⟩]) (some ⟨n, []⟩))])
    [(sinF m (at_ a 0), cosF m (at_ a 0))]

def sinJ (m : Rnd) (k : Nat) (a : List FVal) : List CoefRes := (trigJ m k a).map (·.1)
def cosJ (m : Rnd) (k : Nat) (a : List FVal) : List CoefRes := (trigJ m k a).map (·.2)

def tanhJ (m : Rnd) (k : Nat) (a : List FVal) : List CoefRes :=
  buildUp k (tanhF m (at_ a 0)) fun n r =>
    coef .f32 m (monos 1 n fun i =>
      (if i = n then [⟨(i : Int), [at_ a i]⟩] else []) ++
      monos 0 (n - i) fun j => [⟨-(i : Int), [at_ a i, at_ r j, at_ r (n - i - j)]⟩]) (some ⟨n, []⟩)

def sigmJ (m : Rnd) (k : Nat) (a : List FVal) : List CoefRes :=
  buildUp k (sigmF m (at_ a 0)) fun n r =>
    coef .f32 m (monos 1 n fun i =>
      ⟨(i : Int), [at_ a i, at_ r (n - i)]⟩ ::
      monos 0 (n - i) fun j => [⟨-(i : Int), [at_ a i, at_ r j, at_ r (n - i - j)]⟩]) (some ⟨n, []⟩)

/-- The monomials of g_m / g_0, times 5040^m so that every constant is an integer: g_m = (1/m) Σ i h_i g_(m−i). -/
def erfAux (a : List FVal) : Nat → Nat → List Mono
  | 0, _ => [⟨1, []⟩]
  | _, 0 => [⟨1, []⟩]
  | fuel + 1, m =>
    monos 1 m fun i => (erfAux a fuel (m - i)).flatMap fun g =>
      monos 0 i fun j => [⟨-(i : Int) * (5040 ^ i : Nat) / (m : Int) * g.c, at_ a j :: at_ a (i - j) :: g.fs⟩]

/-- VERF at n ≥ 1: (2/√π) e^(−a0²) · Σ i a_i (g_(n−i)/g_0) / n, the real factor entering every monomial; it is exactly 0 for an
infinite a_0 (R265). -/
def erfN (m : Rnd) (a : List FVal) (n : Nat) : CoefRes :=
  let g0 : FVal := match at_ a 0 with
    | .inf _ => .fin false 0 0
    | .nan p s => .nan p s
    | .fin _ _ _ => .fin false 1 0
  let ms := monos 1 n fun i => (erfAux a 8 (n - i)).map fun g =>
    (⟨(i : Int) * g.c * (5040 ^ i : Nat), at_ a i :: g0 :: g.fs⟩ : Mono)
  let d : Int := (n : Int) * (5040 ^ n : Nat)
  match at_ a 0 with
  | .fin _ n0 e0 =>
    let vs := ms.map (Mono.val .f32)
    let fl := Flags.union (vs.map (·.2))
    let s := exactSum .f32 m (vs.map (·.1))
    match s.1 with
    | .fin sg t e =>
      if t = 0 then ((roundTo .f32 m sg 0 0 0).1, fl)
      else
        let (g, x) := erfSlope n0 e0
        -- the real factor is irrational, so the quotient is never exact
        let num := t * g * 2 ^ 200
        ((roundReal m sg (num / d.natAbs) (e + x - 200)).1, (roundReal m sg (num / d.natAbs) (e + x - 200)).2.or fl)
    | v => (v, s.2.or fl)
  | _ => coef .f32 m ms (some ⟨d, []⟩)

def erfJ (m : Rnd) (k : Nat) (a : List FVal) : List CoefRes :=
  erfF m (at_ a 0) :: (List.range k).map fun i => erfN m a (i + 1)

/-! ## Selection (R272, R223) -/

/-- A decimal encoding made canonical, a NaN keeping its sign, payload and signalling bit; others unchanged. -/
def canonRaw (f : Fmt) (b : Nat) : Nat :=
  if f = .d64 then match decodeBid b with
    | .nan p s => bits b 63 1 * 2 ^ 63 + 0b11111 * 2 ^ 58 + bit s * 2 ^ 57 + p
    | v => encodeBid v
  else b

/-- JSelect over jets given as encodings, from coefficient m on; the fuel is k + 1 − m. -/
def jselect (f : Fmt) (max : Bool) : Nat → Nat → List (List Nat) → List (Nat × Flags)
  | 0, _, _ => []
  | fuel + 1, m, cand =>
    let at1 (j : List Nat) (i : Nat) : Nat := j.getD i 0
    let vm := cand.map fun j => decodeF f (at1 j m)
    if vm.any FVal.isNan then
      let r := nanRule f (vm.filter FVal.isNan)
      (encodeF f r.1, r.2) :: List.replicate fuel (encodeF f r.1, Flags.none)
    else
      let best := vm.foldl (fun b v => if max then (if below f.base b v then v else b) else (if below f.base v b then v else b))
        (vm.headD (.fin false 0 0))
      let keep := cand.filter fun j => !below f.base best (decodeF f (at1 j m)) && !below f.base (decodeF f (at1 j m)) best
      match keep with
      | [j] => (List.range (fuel + 1)).map fun i => (canonRaw f (at1 j (m + i)), Flags.none)
      | j :: _ => (canonRaw f (at1 j m), Flags.none) :: jselect f max fuel (m + 1) keep
      | [] => []

/-- VABS on jets (R272). -/
def absJ (f : Fmt) (k : Nat) (a : List FVal) : List CoefRes :=
  match (List.range (k + 1)).find? fun m => (at_ a m).isNan || !(at_ a m).isZero with
  | none => each0 k fun n => (.fin false 0 (at_ a n).exp, Flags.none)
  | some m => each0 k fun n =>
    let v := at_ a n
    if n < m then (.fin false 0 v.exp, Flags.none)
    else if (at_ a m).isNan then
      -- every coefficient from m on is a NaN with the payload of a_m
      (.nan (match at_ a m with
        | .nan p _ => f.narrow p
        | _ => f.ones) false, { Flags.none with nv := v.isSig })
    else if v.isNan then nanRule f [v]
    else (if (at_ a m).sign then v.neg else v, Flags.none)

end Sys2Proof.Machine
end

