-- ==== Sys2Proof/Machine/Vector.lean ====
section
/-! DEFINITION. The vector pipe (R77, R78, R80, R94, R95, R217 to R219) and the instructions of the vector chapter (R220 to R243):
arithmetic, integer, bit, movement, memory and mask instructions. -/
namespace Sys2Proof.Machine

/-! ## The pipe -/

/-- Goes on when the vector pipe can take an instruction: SCHED while the strand's own previous one holds it, a wait while
another strand's does (R78, R80). -/
def State.withPipe (s : State) (f : State → State) : State :=
  let t := s.curStrand
  if t.lt < t.pipeBusy then s.raise 0x07 0
  else if (List.finRange 4).any fun j => j != s.cur.strand && decide ((s.strand s.cur.core j).lt < (s.strand s.cur.core j).pipeBusy) then s.stall
  else f s

/-- Holds the pipe for n cycles from this one (R77). -/
def State.holdPipe (s : State) (n : Nat) : State :=
  s.onStrand s.cur.core s.cur.strand fun t => { t with pipeBusy := t.lt + n }

/-- The trap of a floating-point instruction (R218, R275): the lowest coefficient that raised an enabled kind, and the lowest
flat index among the elements that raised one in it. -/
def arithTrap (fte : Word) (cols : List (List Flags)) : Option TrapInfo :=
  (cols.zipIdx.findSome? fun c =>
    (c.1.zipIdx.find? fun e => enabled fte c.2 e.1).map fun e =>
      ({ cause := 0x03, taddr := BitVec.ofNat 64 e.2, coef := some (fin 8 c.2) } : TrapInfo))

/-- Schedules a vector result: flags, trap and check at issue + latency − 1, the writes one cycle later (R75, R218, R327). -/
def State.vresult (s : State) (lat occ : Nat) (r : VRes) : State := (s.holdPipe occ).later (lat - 1) 4 (.res { r with ring := s.cur.ring })

def VRes.empty : VRes :=
  { flags := HwFlags.none, trap := none, writes := [], kwrites := [], krow := none, xwrites := [], latch := none, check := none, ring := (0, 0) }

/-- A register write of every element that a mask allows. -/
def vwrite (reg : Nat) (k : KMask) (w : Nat) (es : List Nat) : VWrite := { reg, mask := maskBits k w, val := image w es }

/-! ## Timing (R94, R95) -/

structure Timing where
  lat : Nat
  occ : Nat

/-- Add class: add, sub, min, max, abs, neg, compare, select. -/
def tAdd (f : Fmt) : Timing := match f with
  | .f64 => ⟨12, 4⟩ | .d64 => ⟨40, 32⟩ | _ => ⟨8, 4⟩
def tMul (f : Fmt) : Timing := match f with
  | .f64 => ⟨12, 4⟩ | .d64 => ⟨44, 32⟩ | _ => ⟨8, 4⟩
def tFma (f : Fmt) : Timing := match f with
  | .f64 => ⟨12, 4⟩ | .d64 => ⟨76, 64⟩ | _ => ⟨8, 4⟩
def tDiv (f : Fmt) : Timing := match f with
  | .f64 => ⟨80, 64⟩ | .d64 => ⟨280, 256⟩ | _ => ⟨28, 16⟩
def tFun : Timing := ⟨36, 16⟩
def tInt : Timing := ⟨4, 4⟩
/-- Under a jet multiplier. -/
def Timing.times (t : Timing) (m : Nat) : Timing := ⟨t.lat + t.occ * (m - 1), t.occ * m⟩
/-- The linear and the product multiplier of order k. -/
def multLin (k : Nat) : Nat := k + 1
def multProd (k : Nat) : Nat := (k + 1) * (k + 2) / 2

/-! ## Floating-point instructions in general -/

/-- The zero that coefficients above k hold (R263). -/
def Fmt.zeroBits (f : Fmt) : Nat := if f = .d64 then 0x31C0000000000000 else 0

/-- The arbitration time of one element where the residue check covers the format (R327). -/
def checkOf (w : Nat) (float : Option Fmt) (dur : Nat) : Option Nat := match float with
  | some .f32 => some dur
  | none => if w ≤ 32 then some dur else none
  | _ => none

/-- An element-wise floating-point instruction, plain (jet = false) or on jets: fn takes the order and the operands' encodings,
one list of k + 1 for each source field, and answers k + 1 encodings with flags (R216, R218, R266). -/
def State.vfloat (s : State) (f : Fmt) (jet : Bool) (t : Timing) (mult : Nat → Nat) (dur : Nat) (d : Nat) (srcs : List Nat) (k : KMask)
    (fn : Nat → List (List Nat) → List (Nat × Flags)) : State :=
  s.withPipe fun s =>
    let w := f.width
    let kk := if jet then s.jk else 0
    let g := if jet then s.jg else 1
    let m := if jet then mult kk else 1
    let field (n i : Nat) : Nat := if jet then s.jetReg n i else n
    let imgs := srcs.map fun n => (List.range (kk + 1)).map fun i => s.rv (field n i)
    let table := (List.range (count w)).map fun i =>
      if governed k w i then fn kk (imgs.map fun js => js.map fun v => elem v w i) else []
    let col (c : Nat) : List (Nat × Flags) := table.map fun r => r.getD c (0, Flags.none)
    let cols := (List.range (kk + 1)).map col
    let fls := cols.map fun c => c.map (·.2)
    let out (c : Nat) : VWrite :=
      vwrite (s.vphys (field d c)) k w (if c ≤ kk then (col c).map (·.1) else List.replicate (count w) f.zeroBits)
    let tm := t.times m
    s.vresult tm.lat tm.occ
      { VRes.empty with
        flags := HwFlags.jet (fls.map Flags.union), trap := arithTrap s.fte fls,
        writes := (List.range g).map out, check := checkOf w (some f) (dur * m) }

/-- A function on values as one on encodings. -/
def onVals (f : Fmt) (g : Nat → List (List FVal) → List CoefRes) (k : Nat) (xs : List (List Nat)) : List (Nat × Flags) :=
  (g k (xs.map fun j => j.map (decodeF f))).map fun r => (encodeF f r.1, r.2)

/-- The n-th operand of a list. -/
def arg {α : Type} (xs : List (List α)) (n : Nat) : List α := xs.getD n []

/-- The rounding mode of the current strand for a format, read at issue (R217). -/
def State.mode (s : State) (f : Fmt) : Rnd := modeOf s.curStrand.csr.fcr f

def State.kmask (s : State) (k : BitVec 3) : KMask := s.curStrand.rk k

/-! ## Integer instructions in general -/

/-- An element-wise instruction on an integer view: fn takes the elements of the sources (R227, R228). -/
def State.vint (s : State) (w : Nat) (t : Timing) (check : Bool) (d : Nat) (srcs : List Nat) (k : KMask) (fn : List Nat → Nat) : State :=
  s.withPipe fun s =>
    let imgs := srcs.map s.rv
    let es := (List.range (count w)).map fun i => if governed k w i then fn (imgs.map fun v => elem v w i) else 0
    s.vresult t.lat t.occ
      { VRes.empty with writes := [vwrite (s.vphys d) k w es], check := if check then checkOf w none 200 else none }

/-- An operand as signed or unsigned. -/
def asInt (unsigned : Bool) (w v : Nat) : Int := if unsigned then (v % 2 ^ w : Nat) else toInt w v

/-- An exact result wrapped, or clamped to the range of the view. -/
def narrowInt (unsigned sat : Bool) (w : Nat) (v : Int) : Nat :=
  if sat then ofInt w (if unsigned then clampInt v 0 ((2 ^ w : Nat) - 1) else clampInt v (-(2 ^ (w - 1) : Nat)) ((2 ^ (w - 1) : Nat) - 1))
  else ofInt w v

/-! ## Arithmetic (R221, R224, R227) -/

def State.vaddsub (s : State) (sub : Bool) (d a b : BitVec 5) (k f : BitVec 3) (j x : BitVec 1) : State := match fmtOf f with
  | some fm =>
    let m := s.mode fm
    s.vfloat fm (j == 1) (tAdd fm) multLin 200 d.toNat [a.toNat, b.toNat] (s.kmask k)
      (onVals fm fun kk xs => addJ fm m sub kk (arg xs 0) (arg xs 1))
  | none =>
    let w := viewWidth f
    s.vint w tInt true d.toNat [a.toNat, b.toNat] (s.kmask k) fun xs =>
      let p := asInt (j == 1) w (xs.getD 0 0)
      let q := asInt (j == 1) w (xs.getD 1 0)
      narrowInt (j == 1) (x == 1) w (if sub then p - q else p + q)

def execVadd (g : BitVec 3) (d a b : BitVec 5) (k f : BitVec 3) (j x : BitVec 1) (s : State) : Res :=
  s.guarded g fun s => s.vaddsub false d a b k f j x
def execVsub (g : BitVec 3) (d a b : BitVec 5) (k f : BitVec 3) (j x : BitVec 1) (s : State) : Res :=
  s.guarded g fun s => s.vaddsub true d a b k f j x

def execVmul (g : BitVec 3) (d a b : BitVec 5) (k f : BitVec 3) (j x : BitVec 1) (s : State) : Res :=
  s.guarded g fun s => match fmtOf f with
    | some fm =>
      let m := s.mode fm
      s.vfloat fm (j == 1) (tMul fm) multProd 200 d.toNat [a.toNat, b.toNat] (s.kmask k)
        (onVals fm fun kk xs => mulJ fm m kk (arg xs 0) (arg xs 1))
    | none =>
      let w := viewWidth f
      s.vint w tInt true d.toNat [a.toNat, b.toNat] (s.kmask k) fun xs =>
        let p := asInt (j == 1) w (xs.getD 0 0) * asInt (j == 1) w (xs.getD 1 0)
        if x = 1 then ofInt w (p / (2 ^ w : Nat)) else ofInt w p

/-- The V4 forms: every element, jets by format codes 5 to 7 (R85). -/
def State.vfmaOp (s : State) (negP negC : Bool) (d a b c : BitVec 5) (f : BitVec 3) : State :=
  let fm : Fmt := match f.toNat with
    | 0 => .f32 | 1 => .f16 | 2 => .bf16 | 3 => .f64 | 4 => .d64 | 5 => .f32 | 6 => .f64 | _ => .d64
  let m := s.mode fm
  s.vfloat fm (decide (5 ≤ f.toNat)) (tFma fm) multProd 200 d.toNat [a.toNat, b.toNat, c.toNat] (BitVec.allOnes 1024)
    (onVals fm fun kk xs => fmaJ fm m negP negC kk (arg xs 0) (arg xs 1) (arg xs 2))

def execVfma (g : BitVec 3) (d a b c : BitVec 5) (f : BitVec 3) (s : State) : Res :=
  s.guarded g fun s => s.vfmaOp false false d a b c f
def execVfms (g : BitVec 3) (d a b c : BitVec 5) (f : BitVec 3) (s : State) : Res :=
  s.guarded g fun s => s.vfmaOp false true d a b c f
def execVfnma (g : BitVec 3) (d a b c : BitVec 5) (f : BitVec 3) (s : State) : Res :=
  s.guarded g fun s => s.vfmaOp true false d a b c f

/-! ## Minimum, maximum, absolute value, negation (R221, R223, R227, R272) -/

def State.vminmax (s : State) (max : Bool) (d a b : BitVec 5) (k f : BitVec 3) (j : BitVec 1) : State := match fmtOf f with
  | some fm => s.vfloat fm (j == 1) (tAdd fm) multLin 200 d.toNat [a.toNat, b.toNat] (s.kmask k) fun kk xs => jselect fm max (kk + 1) 0 xs
  | none =>
    let w := viewWidth f
    s.vint w tInt true d.toNat [a.toNat, b.toNat] (s.kmask k) fun xs =>
      let p := xs.getD 0 0
      let q := xs.getD 1 0
      let less := decide (asInt (j == 1) w q < asInt (j == 1) w p)
      if less != max then q else p

def execVmin (g : BitVec 3) (d a b : BitVec 5) (k f : BitVec 3) (j : BitVec 1) (s : State) : Res :=
  s.guarded g fun s => s.vminmax false d a b k f j
def execVmax (g : BitVec 3) (d a b : BitVec 5) (k f : BitVec 3) (j : BitVec 1) (s : State) : Res :=
  s.guarded g fun s => s.vminmax true d a b k f j

def execVabs (g : BitVec 3) (d a : BitVec 5) (k f : BitVec 3) (j x : BitVec 1) (s : State) : Res :=
  s.guarded g fun s => match fmtOf f with
    | some fm => s.vfloat fm (j == 1) (tAdd fm) multLin 200 d.toNat [a.toNat] (s.kmask k)
        (onVals fm fun kk xs => absJ fm kk (arg xs 0))
    | none =>
      let w := viewWidth f
      s.vint w tInt true d.toNat [a.toNat] (s.kmask k) fun xs =>
        narrowInt false (x == 1) w ((toInt w (xs.getD 0 0)).natAbs : Int)
def execVneg (g : BitVec 3) (d a : BitVec 5) (k f : BitVec 3) (j x : BitVec 1) (s : State) : Res :=
  s.guarded g fun s => match fmtOf f with
    | some fm => s.vfloat fm (j == 1) (tAdd fm) multLin 200 d.toNat [a.toNat] (s.kmask k)
        (onVals fm fun kk xs => negJ fm kk (arg xs 0))
    | none =>
      let w := viewWidth f
      s.vint w tInt true d.toNat [a.toNat] (s.kmask k) fun xs => narrowInt false (x == 1) w (-(toInt w (xs.getD 0 0)))

/-! ## Comparison and selection (R225, R226) -/

/-- A floating-point condition with its flag. -/
def floatCond (β cond : Nat) (a b : FVal) : Bool × Flags :=
  let nan := a.isNan || b.isNan
  let sig := a.isSig || b.isSig
  let o := cmpF β a b
  (match cond with
    | 0 => !nan && o == .eq
    | 1 => nan || o != .eq
    | 2 => !nan && o == .lt
    | 3 => !nan && o != .gt
    | 4 => !nan && o == .gt
    | 5 => !nan && o != .lt
    | 6 => nan
    | _ => !nan,
   { Flags.none with nv := sig || (nan && decide (2 ≤ cond ∧ cond ≤ 5)) })

/-- An integer condition. -/
def intCond (unsigned : Bool) (w cond a b : Nat) : Bool :=
  let x := asInt unsigned w a
  let y := asInt unsigned w b
  match cond with
  | 0 => x == y
  | 1 => x != y
  | 2 => decide (x < y)
  | 3 => decide (x ≤ y)
  | 4 => decide (y < x)
  | 5 => decide (y ≤ x)
  | 6 => a &&& b != 0
  | _ => a &&& b == 0

/-- The mask from element results of width w: a pair's two bits alike, and the AND or OR of the elements of one word (R225). -/
def condMask (w : Nat) (any : Bool) (rs : List Bool) : KMask :=
  let get (i : Nat) : Bool := rs.getD i false
  BitVec.ofNat 1024 (((List.range 1024).map fun b =>
    let r := if w = 64 then get (b / 2)
      else if w = 32 then get b
      else
        let n := 32 / w
        let xs := (List.range n).map fun m => get (n * b + m)
        if any then xs.any id else xs.all id
    if r then 2 ^ b else 0).foldl (fun x y => x ||| y) 0)

def execVcmp (g : BitVec 3) (d : BitVec 3) (a b : BitVec 5) (c f : BitVec 3) (u y : BitVec 1) (s : State) : Res :=
  s.guarded g fun s => s.withPipe fun s =>
    let va := s.rv a.toNat
    let vb := s.rv b.toNat
    match fmtOf f with
    | some fm =>
      let w := fm.width
      let rs := (List.range (count w)).map fun i => floatCond fm.base c.toNat (decodeF fm (elem va w i)) (decodeF fm (elem vb w i))
      let fls := rs.map (·.2)
      s.vresult (tAdd fm).lat (tAdd fm).occ { VRes.empty with
        flags := HwFlags.plain (Flags.union fls), trap := arithTrap s.fte [fls],
        kwrites := [(d, condMask w (y == 1) (rs.map (·.1)))], check := checkOf w (some fm) 200 }
    | none =>
      let w := viewWidth f
      let rs := (List.range (count w)).map fun i => intCond (u == 1) w c.toNat (elem va w i) (elem vb w i)
      s.vresult tInt.lat tInt.occ { VRes.empty with
        kwrites := [(d, condMask w (y == 1) rs)], check := checkOf w none 200 }

/-- R226, R273: bits copied, every element written, every coefficient by one mask bit. -/
def execVsel (g : BitVec 3) (d a b : BitVec 5) (k f : BitVec 3) (j : BitVec 1) (s : State) : Res :=
  s.guarded g fun s =>
    let km := s.kmask k
    match fmtOf f with
    | some fm =>
      s.withPipe fun s =>
        let w := fm.width
        let jet := j == 1
        let kk := if jet then s.jk else 0
        let n := if jet then s.jg else 1
        let field (r i : Nat) : Nat := if jet then s.jetReg r i else r
        let m := maskBits km w
        let out (c : Nat) : VWrite :=
          { reg := s.vphys (field d.toNat c), mask := allBits,
            val := if c ≤ kk then (s.rv (field a.toNat c) &&& m) ||| (s.rv (field b.toNat c) &&& ~~~m)
              else image w (List.replicate (count w) fm.zeroBits) }
        let tm := (tAdd fm).times (if jet then multLin kk else 1)
        s.vresult tm.lat tm.occ { VRes.empty with
          writes := (List.range n).map out, check := checkOf w (some fm) (200 * (if jet then multLin kk else 1)) }
    | none =>
      s.withPipe fun s =>
        let w := viewWidth f
        let m := maskBits km w
        s.vresult tInt.lat tInt.occ { VRes.empty with
          writes := [{ reg := s.vphys d.toNat, mask := allBits, val := (s.rv a.toNat &&& m) ||| (s.rv b.toNat &&& ~~~m) }],
          check := checkOf w none 200 }

/-! ## Bit instructions (R228 to R230) -/

def execVand (g : BitVec 3) (d a b : BitVec 5) (k f : BitVec 3) (s : State) : Res :=
  s.guarded g fun s => s.vint (viewWidth f) tInt false d.toNat [a.toNat, b.toNat] (s.kmask k) fun xs => xs.getD 0 0 &&& xs.getD 1 0
def execVor (g : BitVec 3) (d a b : BitVec 5) (k f : BitVec 3) (s : State) : Res :=
  s.guarded g fun s => s.vint (viewWidth f) tInt false d.toNat [a.toNat, b.toNat] (s.kmask k) fun xs => xs.getD 0 0 ||| xs.getD 1 0
def execVxor (g : BitVec 3) (d a b : BitVec 5) (k f : BitVec 3) (s : State) : Res :=
  s.guarded g fun s => s.vint (viewWidth f) tInt false d.toNat [a.toNat, b.toNat] (s.kmask k) fun xs => xs.getD 0 0 ^^^ xs.getD 1 0
def execVshl (g : BitVec 3) (d a b : BitVec 5) (k f : BitVec 3) (s : State) : Res :=
  s.guarded g fun s => s.vint (viewWidth f) tInt false d.toNat [a.toNat, b.toNat] (s.kmask k) fun xs =>
    if viewWidth f ≤ xs.getD 1 0 then 0 else xs.getD 0 0 * 2 ^ xs.getD 1 0 % 2 ^ viewWidth f
def execVshr (g : BitVec 3) (d a b : BitVec 5) (k f : BitVec 3) (s : State) : Res :=
  s.guarded g fun s => s.vint (viewWidth f) tInt false d.toNat [a.toNat, b.toNat] (s.kmask k) fun xs =>
    if viewWidth f ≤ xs.getD 1 0 then 0 else xs.getD 0 0 / 2 ^ xs.getD 1 0
def execVsar (g : BitVec 3) (d a b : BitVec 5) (k f : BitVec 3) (s : State) : Res :=
  s.guarded g fun s => s.vint (viewWidth f) tInt false d.toNat [a.toNat, b.toNat] (s.kmask k) fun xs =>
    ofInt (viewWidth f) (toInt (viewWidth f) (xs.getD 0 0) / ((2 ^ Nat.min (xs.getD 1 0) (viewWidth f) : Nat) : Int))
def execVpopc (g : BitVec 3) (d a : BitVec 5) (k f : BitVec 3) (s : State) : Res :=
  s.guarded g fun s => s.vint (viewWidth f) tInt false d.toNat [a.toNat] (s.kmask k) fun xs =>
    ((List.range (viewWidth f)).map fun i => bits (xs.getD 0 0) i 1).sum
def execVclz (g : BitVec 3) (d a : BitVec 5) (k f : BitVec 3) (s : State) : Res :=
  s.guarded g fun s => s.vint (viewWidth f) tInt false d.toNat [a.toNat] (s.kmask k) fun xs => viewWidth f - digits 2 (xs.getD 0 0)

/-- R229: the truth table over the whole image. -/
def execVlop3 (g : BitVec 3) (d a b : BitVec 5) (l : BitVec 8) (s : State) : Res :=
  s.guarded g fun s => s.withPipe fun s =>
    let x := s.rv d.toNat
    let y := s.rv a.toNat
    let z := s.rv b.toNat
    let pick (i : Nat) (v : VImg) : VImg := if l.getLsbD i then v else 0
    s.vresult tInt.lat tInt.occ { VRes.empty with
      writes := [{ reg := s.vphys d.toNat, mask := allBits,
                   val := pick 0 (~~~x &&& ~~~y &&& ~~~z) ||| pick 1 (~~~x &&& ~~~y &&& z) ||| pick 2 (~~~x &&& y &&& ~~~z) |||
                     pick 3 (~~~x &&& y &&& z) ||| pick 4 (x &&& ~~~y &&& ~~~z) ||| pick 5 (x &&& ~~~y &&& z) |||
                     pick 6 (x &&& y &&& ~~~z) ||| pick 7 (x &&& y &&& z) }] }

def execVfshl (g : BitVec 3) (d a b c : BitVec 5) (f : BitVec 3) (s : State) : Res :=
  s.guarded g fun s => s.vint (viewWidth f) tInt false d.toNat [a.toNat, b.toNat, c.toNat] (BitVec.allOnes 1024) fun xs =>
    (xs.getD 0 0 * 2 ^ viewWidth f + xs.getD 1 0) * 2 ^ (xs.getD 2 0 % viewWidth f) / 2 ^ viewWidth f % 2 ^ viewWidth f
def execVfshr (g : BitVec 3) (d a b c : BitVec 5) (f : BitVec 3) (s : State) : Res :=
  s.guarded g fun s => s.vint (viewWidth f) tInt false d.toNat [a.toNat, b.toNat, c.toNat] (BitVec.allOnes 1024) fun xs =>
    (xs.getD 0 0 * 2 ^ viewWidth f + xs.getD 1 0) / 2 ^ (xs.getD 2 0 % viewWidth f) % 2 ^ viewWidth f

/-! ## Movement (R231 to R237) -/

/-- A movement of words: word (r, c) of the result from its place (R232, R234, R235). -/
def State.vwords (s : State) (t : Timing) (d : BitVec 5) (k : BitVec 3) (fn : Nat → Nat → Nat) : State :=
  s.withPipe fun s => s.vresult t.lat t.occ
    { VRes.empty with writes := [vwrite (s.vphys d.toNat) (s.kmask k) 32 ((List.range 1024).map fun i => fn (i / 64) (i % 64))] }

def execVmov (g : BitVec 3) (d a : BitVec 5) (k : BitVec 3) (s : State) : Res :=
  s.guarded g fun s => s.vwords tInt d k fun r c => elem (s.rv a.toNat) 32 (64 * r + c)
/-- R231, landing form: the head's 16 words into one quarter row. -/
def execVmovL (g : BitVec 3) (d : BitVec 5) (q : BitVec 3) (r : BitVec 4) (k : BitVec 3) (t : BitVec 2) (s : State) : Res :=
  s.guarded g fun s => s.withHead (fin 8 q.toNat) fun h => s.withPipe fun s =>
    let lo := 32 * (64 * r.toNat + 16 * t.toNat)
    s.vresult tInt.lat tInt.occ { VRes.empty with
      writes := [{ reg := s.vphys d.toNat, mask := maskBits (s.kmask k) 32 &&& (BitVec.ofNat 32768 (2 ^ 512 - 1) <<< lo),
                   val := BitVec.ofNat 32768 h.toNat <<< lo }] }
def execVbrow (g : BitVec 3) (d a : BitVec 5) (n : BitVec 4) (k : BitVec 3) (s : State) : Res :=
  s.guarded g fun s => s.vwords ⟨12, 4⟩ d k fun _ c => elem (s.rv a.toNat) 32 (64 * n.toNat + c)
/-- The amount n stands in fn[0]:vb. -/
def execVbcol (g : BitVec 3) (d a : BitVec 5) (n : BitVec 5) (k : BitVec 3) (h : BitVec 1) (s : State) : Res :=
  s.guarded g fun s => s.vwords ⟨6, 4⟩ d k fun r _ => elem (s.rv a.toNat) 32 (64 * r + (32 * h.toNat + n.toNat))
def execVrotr (g : BitVec 3) (d a : BitVec 5) (n : BitVec 5) (k : BitVec 3) (h : BitVec 1) (s : State) : Res :=
  s.guarded g fun s => s.vwords ⟨6, 4⟩ d k fun r c => elem (s.rv a.toNat) 32 (64 * r + (c + 64 - (32 * h.toNat + n.toNat)) % 64)
def execVrotc (g : BitVec 3) (d a : BitVec 5) (n : BitVec 4) (k : BitVec 3) (s : State) : Res :=
  s.guarded g fun s => s.vwords ⟨12, 4⟩ d k fun r c => elem (s.rv a.toNat) 32 (64 * ((r + 16 - n.toNat) % 16) + c)
def execVtrn (g : BitVec 3) (d a : BitVec 5) (k : BitVec 3) (s : State) : Res :=
  s.guarded g fun s => s.vwords ⟨16, 8⟩ d k fun r c => elem (s.rv a.toNat) 32 (64 * (c % 16) + (c / 16 * 16 + r))
def execVperm (g : BitVec 3) (d a b : BitVec 5) (k : BitVec 3) (s : State) : Res :=
  s.guarded g fun s => s.vwords ⟨10, 4⟩ d k fun r c => elem (s.rv a.toNat) 32 (elem (s.rv b.toNat) 32 (64 * r + c) % 1024)
def execViota (g : BitVec 3) (d : BitVec 5) (k f : BitVec 3) (s : State) : Res :=
  s.guarded g fun s => s.withPipe fun s =>
    let w := viewWidth f
    s.vresult tInt.lat tInt.occ { VRes.empty with
      writes := [vwrite (s.vphys d.toNat) (s.kmask k) w ((List.range (count w)).map fun i => i % 2 ^ w)] }

/-- R237: the index is Xb modulo the element count. -/
def execVins (g : BitVec 3) (d a b : BitVec 5) (f : BitVec 3) (s : State) : Res :=
  s.guarded g fun s => s.withPipe fun s =>
    let w := viewWidth f
    let i := (s.rx b).toNat % count w
    s.vresult 6 2 { VRes.empty with
      writes := [{ reg := s.vphys d.toNat, mask := BitVec.ofNat 32768 (2 ^ w - 1) <<< (w * i),
                   val := BitVec.ofNat 32768 ((s.rx a).toNat % 2 ^ w) <<< (w * i) }] }
def execVext (g : BitVec 3) (d a b : BitVec 5) (f : BitVec 3) (u : BitVec 1) (s : State) : Res :=
  s.guarded g fun s => s.withPipe fun s =>
    let w := viewWidth f
    let e := elem (s.rv a.toNat) w ((s.rx b).toNat % count w)
    let v : Word := if floatFmt f || u == 1 then BitVec.ofNat 64 e else word (toInt w e)
    s.vresult 6 2 { VRes.empty with xwrites := [(d, v)] }

/-! ## Reductions (R233, R273) -/

/-- An integer reduction of a list of elements. -/
def redInt (unsigned sat : Bool) (w op : Nat) (xs : List Nat) : Nat :=
  let is := xs.map (asInt unsigned w)
  let h := is.headD 0
  match op with
  | 0 => narrowInt unsigned sat w is.sum
  | 1 => ofInt w (is.foldl (fun a b => if b < a then b else a) h)
  | 2 => ofInt w (is.foldl (fun a b => if a < b then b else a) h)
  | 3 => xs.foldl (fun a b => a &&& b) (2 ^ w - 1)
  | 4 => xs.foldl (fun a b => a ||| b) 0
  | _ => xs.foldl (fun a b => a ^^^ b) 0

/-- A floating-point reduction over jets given as encodings. -/
def redFloat (f : Fmt) (m : Rnd) (op kk : Nat) (jets : List (List Nat)) : List (Nat × Flags) :=
  if op = 0 then (List.range (kk + 1)).map fun c =>
    let r := sumRound f m (jets.map fun j => decodeF f (j.getD c 0))
    (encodeF f r.1, r.2)
  else jselect f (op == 2) (kk + 1) 0 jets

/-- VREDR and VREDC: each set of elements (a row or an element column) reduces to one value, written over the whole set. -/
def State.vreduce (s : State) (column : Bool) (t : Timing) (d a o : BitVec 5) (k f : BitVec 3) (j x : BitVec 1) : State :=
  let km := s.kmask k
  let w := viewWidth f
  let per := count w / 16
  let set (i : Nat) : Nat := if column then i % per else i / per
  let members (z : Nat) : List Nat := if column then (List.range 16).map fun r => per * r + z else (List.range per).map fun c => per * z + c
  let sets := if column then per else 16
  match fmtOf f with
  | some fm =>
    s.withPipe fun s =>
      let jet := j == 1
      let kk := if jet then s.jk else 0
      let n := if jet then s.jg else 1
      let m := s.mode fm
      let field (r i : Nat) : Nat := if jet then s.jetReg r i else r
      let imgs := (List.range (kk + 1)).map fun i => s.rv (field a.toNat i)
      let rs := (List.range sets).map fun z => redFloat fm m o.toNat kk ((members z).map fun i => imgs.map fun v => elem v w i)
      let col (c : Nat) : List (Nat × Flags) := (List.range (count w)).map fun i =>
        if governed km w i then (rs.getD (set i) []).getD c (0, Flags.none) else (0, Flags.none)
      let fls := (List.range (kk + 1)).map fun c => (col c).map (·.2)
      let out (c : Nat) : VWrite := vwrite (s.vphys (field d.toNat c)) km w
        (if c ≤ kk then (col c).map (·.1) else List.replicate (count w) fm.zeroBits)
      let mult := if jet then multLin kk else 1
      let tm := t.times mult
      s.vresult tm.lat tm.occ { VRes.empty with
        flags := HwFlags.jet (fls.map Flags.union), trap := arithTrap s.fte fls,
        writes := (List.range n).map out, check := checkOf w (some fm) (200 * mult) }
  | none =>
    s.withPipe fun s =>
      let v := s.rv a.toNat
      let rs := (List.range sets).map fun z => redInt (j == 1) (x == 1) w o.toNat ((members z).map fun i => elem v w i)
      s.vresult tInt.lat tInt.occ { VRes.empty with
        writes := [vwrite (s.vphys d.toNat) km w ((List.range (count w)).map fun i => rs.getD (set i) 0)], check := checkOf w none 200 }

def execVredr (g : BitVec 3) (d a o : BitVec 5) (k f : BitVec 3) (j x : BitVec 1) (s : State) : Res :=
  s.guarded g fun s => s.vreduce false ⟨10, 4⟩ d a o k f j x
def execVredc (g : BitVec 3) (d a o : BitVec 5) (k f : BitVec 3) (j x : BitVec 1) (s : State) : Res :=
  s.guarded g fun s => s.vreduce true ⟨16, 4⟩ d a o k f j x

/-! ## Vector memory (R238 to R240) -/

/-- Exact(An + 64 · off). -/
def State.vaddr (s : State) (a : BitVec 4) (o : BitVec 10) : Int := s.exact a (64 * o.toInt)

/-- The barrier of a last-read mark (R239): A15, or an ADDR. -/
def State.withMark (s : State) (m : BitVec 1) (f : Option Nat → State) : State :=
  if m = 0 then f none
  else
    let b := (s.ra 15).toNat
    if b % 16 ≠ 0 ∨ b + 16 > spmSize ∨ (b + 16 > spmTop ∧ s.cur.level = .user) then s.raise 0x05 (s.ra 15) else f (some b)

def execVld (g : BitVec 3) (d : BitVec 5) (a : BitVec 4) (k : BitVec 3) (m : BitVec 1) (o : BitVec 10) (s : State) : Res :=
  s.guarded g fun s => s.withPipe fun s => s.withSpm (s.vaddr a o) 4096 64 fun addr => s.withMark m fun mark =>
    (s.holdPipe 4).later 6 7 (.vload addr (s.vphys d.toNat) (maskBits (s.kmask k) 32) mark)
def execVst (g : BitVec 3) (d : BitVec 5) (a : BitVec 4) (o : BitVec 10) (s : State) : Res :=
  s.guarded g fun s => s.withPipe fun s => s.withSpmWrite (s.vaddr a o) 4096 64 fun addr =>
    (s.holdPipe 4).later 6 8 (.vstore addr (s.rv d.toNat))

/-- The sixteen row addresses, checked in order (R240). -/
def State.withRows (s : State) (b : BitVec 4) (x : BitVec 5) (f : List Nat → State) : State :=
  let ra := (List.range 16).map fun (i : Nat) => s.exact b ((i : Int) * (s.rx x).toInt)
  match ra.findSome? fun a => (s.spmFault a 256 4).map fun c => (c, a) with
  | some (c, a) => s.raise c (word a)
  | none => f (ra.map Int.toNat)

def execVldx (g : BitVec 3) (d x : BitVec 5) (b : BitVec 4) (k : BitVec 3) (s : State) : Res :=
  s.guarded g fun s => s.withPipe fun s => s.withRows b x fun rows =>
    (s.holdPipe 16).later 6 7 (.vloadx rows 0 (s.vphys d.toNat) (maskBits (s.kmask k) 32) 0)

/-- The offsets in an image of the words of row i that a mask allows. -/
def rowWords (k : KMask) (i : Nat) : List Nat := (List.range 64).filter fun c => k.getLsbD (64 * i + c)

def execVstx (g : BitVec 3) (d x : BitVec 5) (b : BitVec 4) (k : BitVec 3) (s : State) : Res :=
  s.guarded g fun s => s.withPipe fun s => s.withRows b x fun rows =>
    let km := s.kmask k
    if rows.zipIdx.any fun r => (rowWords km r.2).any fun c => s.meetsPin (r.1 + 4 * c) 4 then s.raise 0x07 0
    else (s.holdPipe 16).later 6 8 (.vstorex rows 0 km (s.rv d.toNat))

/-! ## Mask instructions (R242, R243) -/

/-- lut[3:2] stands in l, lut[1:0] in m. -/
def execKlog (g : BitVec 3) (d a b : BitVec 3) (l m : BitVec 2) (s : State) : Res :=
  s.guarded g fun s => s.withPipe fun s =>
    let x := s.kmask a
    let y := s.kmask b
    let pick (t : Bool) (v : KMask) : KMask := if t then v else 0
    s.vresult 2 1 { VRes.empty with
      kwrites := [(d, pick (m.getLsbD 0) (~~~x &&& ~~~y) ||| pick (m.getLsbD 1) (~~~x &&& y) ||| pick (l.getLsbD 0) (x &&& ~~~y) |||
        pick (l.getLsbD 1) (x &&& y))] }

/-- Row r of Kd from Xa; the other rows keep what they hold in the write cycle. -/
def execKmovToK (g : BitVec 3) (d : BitVec 3) (a : BitVec 5) (r : BitVec 4) (s : State) : Res :=
  s.guarded g fun s => s.withPipe fun s => s.vresult 2 1 { VRes.empty with krow := some (d, r.toNat, s.rx a) }
def execKmovToX (g : BitVec 3) (d : BitVec 5) (a : BitVec 3) (r : BitVec 4) (s : State) : Res :=
  s.guarded g fun s => s.withPipe fun s => s.vresult 2 1 { VRes.empty with
    xwrites := [(d, (s.kmask a).extractLsb' (64 * r.toNat) 64)] }

end Sys2Proof.Machine
end

