-- ==== Sys2Proof/Machine/Jet.lean ====
section
/-! DEFINITION. The jet instructions JSEED, JEXT and JCOEF (R276 to R279). -/
namespace Sys2Proof.Machine

/-- one(fmt) of R276. -/
def Fmt.oneBits (f : Fmt) : Nat := match f with
  | .f64 => 0x3FF0000000000000 | .d64 => 0x31C0000000000001 | _ => 0x3F800000

/-- A result that copies bits into the registers of a jet; out answers the elements of register c (R276, R278). -/
def State.jcopy (s : State) (f : Fmt) (d : BitVec 5) (k : BitVec 3) (out : Nat → List Nat) : State :=
  s.withPipe fun s =>
    s.vresult (4 + 4 * (s.jg - 1)) (4 * s.jg) { VRes.empty with
      writes := (List.range s.jg).map fun c => vwrite (s.vphys (s.jetReg d.toNat c)) (s.kmask k) f.width (out c) }

def execJseed (g : BitVec 3) (d a b : BitVec 5) (k f : BitVec 3) (dir : BitVec 1) (s : State) : Res :=
  s.guarded g fun s =>
    let fm := (fmtOf f).getD .f32
    let w := fm.width
    let fill (v : Nat) : List Nat := List.replicate (count w) v
    s.jcopy fm d k fun c =>
      if c = 0 then elems (s.rv a.toNat) w
      else if c = 1 ∧ 1 ≤ s.jk then (if dir = 1 then elems (s.rv b.toNat) w else fill fm.oneBits)
      else fill fm.zeroBits

/-- n! -/
def fact : Nat → Nat
  | 0 => 1
  | n + 1 => (n + 1) * fact n

/-- A plain result from a function on one register's values, with flags (R277). -/
def execJext (g : BitVec 3) (d a : BitVec 5) (n k f : BitVec 3) (c : BitVec 1) (s : State) : Res :=
  s.guarded g fun s => s.withPipe fun s =>
    let fm := (fmtOf f).getD .f32
    let w := fm.width
    let km := s.kmask k
    let m := s.mode fm
    let src := elems (s.rv (s.jetReg a.toNat n.toNat)) w
    if c = 0 then
      s.vresult 4 4 { VRes.empty with
        writes := [vwrite (s.vphys d.toNat) km w (if s.jk < n.toNat then List.replicate (count w) fm.zeroBits else src)] }
    else
      let one (b : Nat) : Nat × Flags :=
        if s.jk < n.toNat then (fm.zeroBits, Flags.none)
        else
          let r := coef fm m [⟨(fact n.toNat : Nat), [decodeF fm b]⟩] none
          (encodeF fm r.1, r.2)
      let rs := src.zipIdx.map fun x => if governed km w x.2 then one x.1 else (0, Flags.none)
      let fls := rs.map (·.2)
      s.vresult (tMul fm).lat (tMul fm).occ { VRes.empty with
        flags := HwFlags.plain (Flags.union fls), trap := arithTrap s.fte [fls],
        writes := [vwrite (s.vphys d.toNat) km w (rs.map (·.1))], check := checkOf w (some fm) 200 }

/-- n copies of a value. -/
def FVal.times (v : FVal) (n : Nat) : List FVal := List.replicate n v

/-- Coefficient n of `.diff`. -/
def execJcoefDiff (g : BitVec 3) (d a : BitVec 5) (k f : BitVec 3) (s : State) : Res :=
  s.guarded g fun s =>
    let fm := (fmtOf f).getD .f32
    let m := s.mode fm
    s.vfloat fm true (tMul fm) multLin 200 d.toNat [a.toNat] (s.kmask k)
      (onVals fm fun kk xs => each0 kk fun n => coef fm m [⟨(n + 1 : Nat), [if n < kk then at_ (arg xs 0) (n + 1) else .fin false 0 0]⟩] none)

def execJcoefTrunc (g : BitVec 3) (d a : BitVec 5) (n k f : BitVec 3) (s : State) : Res :=
  s.guarded g fun s =>
    let fm := (fmtOf f).getD .f32
    let w := fm.width
    s.jcopy fm d k fun c =>
      if c ≤ n.toNat ∧ c ≤ s.jk then elems (s.rv (s.jetReg a.toNat c)) w else List.replicate (count w) fm.zeroBits

/-- The factor h is a plain register's element. -/
def execJcoefRescale (g : BitVec 3) (d a b : BitVec 5) (k f : BitVec 3) (s : State) : Res :=
  s.guarded g fun s =>
    let fm := (fmtOf f).getD .f32
    let w := fm.width
    let m := s.mode fm
    let km := s.kmask k
    s.withPipe fun s =>
      let kk := s.jk
      let h := s.rv b.toNat
      let imgs := (List.range (kk + 1)).map fun i => s.rv (s.jetReg a.toNat i)
      let one (c i : Nat) : Nat × Flags :=
        let x := elem (imgs.getD c 0) w i
        if !governed km w i then (0, Flags.none)
        else if c = 0 then (x, Flags.none)
        else
          let r := coef fm m [⟨1, decodeF fm x :: (decodeF fm (elem h w i)).times c⟩] none
          (encodeF fm r.1, r.2)
      let cols := (List.range (kk + 1)).map fun c => (List.range (count w)).map (one c)
      let fls := cols.map fun c => c.map (·.2)
      let tm := (tMul fm).times (multLin kk)
      s.vresult tm.lat tm.occ { VRes.empty with
        flags := HwFlags.jet (fls.map Flags.union), trap := arithTrap s.fte fls,
        writes := (List.range s.jg).map fun c => vwrite (s.vphys (s.jetReg d.toNat c)) km w
          (match cols[c]? with
          | some col => col.map (·.1)
          | none => List.replicate (count w) fm.zeroBits),
        check := checkOf w (some fm) (200 * multLin kk) }

end Sys2Proof.Machine
end

