-- ==== Sys2Proof/Machine/Loader.lean ====
section
/-! DEFINITION. The kernel image and its loader (R106 to R114), the handler image (R128), and how the I/O die reads and writes
a context's VAs (R147, R148, R344). -/
namespace Sys2Proof.Machine

/-! ## VAs as the I/O die uses them -/

/-- The leaf of a translated VA of context f and where the VA lies under it. -/
def State.vaLeaf (s : State) (f : Fin 17) (va : Nat) : Option (Nat × Nat) :=
  if va / 2 ^ 48 ≠ 0 then none else
  match s.walkTables (s.ctxs[f]).root.toNat va with
  | none => none
  | some b => some (b.2, (mkXlat va b).pa va)

/-- Every byte of a range is mapped by a valid leaf; for devOnly, by one of device memory. -/
def State.vaMapped (s : State) (f : Fin 17) (va n : Nat) (devOnly : Bool) : Bool :=
  (chunks va n).all fun p => match s.vaLeaf f p.1 with
    | some (e, _) => !devOnly || !pteHost e
    | none => false

/-- The bytes of a range that is mapped; a byte that is not reads 0. -/
def State.vaRead (s : State) (f : Fin 17) (va n : Nat) : List Byte :=
  (chunks va n).flatMap fun p => match s.vaLeaf f p.1 with
    | some (e, a) => if pteHost e then s.host.readBytes a p.2 else s.dev.readBytes a p.2
    | none => List.replicate p.2 0

def State.vaNat (s : State) (f : Fin 17) (va n : Nat) : Nat := leNat (s.vaRead f va n)

/-- The device ranges of a VA range, each with the VA that it begins at. -/
def State.vaRanges (s : State) (f : Fin 17) (va n : Nat) : List (Nat × Nat × Nat) :=
  (chunks va n).filterMap fun p => match s.vaLeaf f p.1 with
    | some (e, a) => if pteHost e then none else some (p.1, a, p.2)
    | none => none

/-- Checks the page-table entries that VA ranges need, and then the sectors of the ranges, before they are read (R349): what can be
corrected is; the lowest VA of the first range that fails. -/
def State.vaScan (s : State) (f : Fin 17) (rs : List (Nat × Nat)) : State × Option Nat :=
  let root := (s.ctxs[f]).root.toNat
  let entries := (rs.flatMap fun r => chunks r.1 r.2).flatMap fun p => (s.walkReads root p.1).map fun a => (p.1, a)
  match s.scan (entries.map fun e => (e.2, 8)) with
  | (t, some x) => (t, (entries[x.1]?).map (·.1))
  | (s, none) =>
    let ps := rs.flatMap fun r => s.vaRanges f r.1 r.2
    let (t, failed) := s.scan (ps.map (·.2))
    (t, failed.bind fun x => (ps[x.1]?).map fun p => p.1 + (x.2 - p.2.1))

/-- Bytes written by the I/O die to a place: such writes carry no context tag (R117), so no checkpoint logs them (R354). -/
def State.putPlace (s : State) (host : Bool) (a : Nat) (bs : List Byte) : State :=
  if host then { s with host := s.host.writeBytes a bs } else s.devStore a bs

/-- The pieces of a write to a VA, as place, address and bytes; where `all` is false, only those that a leaf lets be written (R342). -/
def State.vaPieces (s : State) (f : Fin 17) (all : Bool) (va : Nat) (bs : List Byte) : List (Bool × Nat × List Byte) :=
  (chunks va bs.length).filterMap fun p => match s.vaLeaf f p.1 with
    | some (e, a) => if all || pteW e then some (pteHost e, a, (bs.drop (p.1 - va)).take p.2) else none
    | none => none

def State.vaPut (s : State) (f : Fin 17) (all : Bool) (va : Nat) (bs : List Byte) : State :=
  (s.vaPieces f all va bs).foldl (fun s p => s.putPlace p.1 p.2.1 p.2.2) s

def State.vaWrite (s : State) (f : Fin 17) (va : Nat) (bs : List Byte) : State := s.vaPut f false va bs

/-- The lowest VA at which a write of n bytes covers only part of a poisoned sector (R350). -/
def State.vaPartial (s : State) (f : Fin 17) (va n : Nat) : Option Nat :=
  least ((s.vaRanges f va n).filterMap fun p => (s.partialPoison p.2.1 p.2.2).map fun x => p.1 + (x - p.2.1))

/-- Writes bytes to a range of the context's device memory; the failing VA where a write does not perform (R350, R355). A LOGGED page is
not logged (R354). -/
def State.saveBytes (s : State) (f : Fin 17) (va : Nat) (bs : List Byte) : Except WriteFail State :=
  (chunks va bs.length).foldl (fun (acc : Except WriteFail State) p => match acc with
    | .error e => .error e
    | .ok s => match s.vaLeaf f p.1 with
      | none => .error ⟨p.1, []⟩
      | some (e, a) =>
        let part := (bs.drop (p.1 - va)).take p.2
        let done := if pteLogged e then (match s.partialPoison a part.length with
            | some x => .error ⟨x, []⟩
            | none => .ok (s.devStore a part))
          else s.devWrite f a part
        match done with
        | .error x => .error ⟨p.1 + (x.at_ - a), x.lost⟩
        | .ok s => .ok s) (.ok s)

/-! ## The image (R106, R109, R110) -/

/-- One section: its offset and size. -/
structure Section where
  off  : Nat
  size : Nat
deriving DecidableEq, Repr

/-- A symbol-table entry. -/
structure Sym where
  name : List Byte
  off  : Nat
  sec  : Nat
  bind : Nat
  /-- a reserved byte is nonzero -/
  res  : Bool
deriving DecidableEq, Repr

/-- A relocation-table entry. -/
structure Reloc where
  site   : Nat
  sec    : Nat
  kind   : Nat
  signed : Bool
  sym    : Nat
  addend : Int
  res    : Bool
deriving DecidableEq, Repr

/-- An image's header (R106). -/
structure Header where
  magic : Nat
  version : Nat
  routes : BitVec 8
  res   : Nat
  secs  : List Section
  origin : Nat
  symOff : Nat
  syms  : Nat
  relocs : Nat
  relOff : Nat
deriving DecidableEq, Repr

def parseHeader (bs : List Byte) : Header :=
  let n (o w : Nat) : Nat := leNat ((bs.drop o).take w)
  { magic := n 0 4, version := n 4 2, routes := BitVec.ofNat 8 (n 6 1), res := n 7 1,
    secs := (List.range 5).map fun i => { off := n (8 + 8 * i) 4, size := n (12 + 8 * i) 4 },
    origin := n 0x30 4, symOff := n 0x34 4, syms := n 0x38 2, relocs := n 0x3A 2, relOff := n 0x3C 4 }

def Header.sec (h : Header) (i : Nat) : Section := h.secs.getD i { off := 0, size := 0 }

/-- The end of the image's extent. -/
def Header.extent (h : Header) : Nat :=
  (h.secs.map fun x => x.off + x.size).foldl Nat.max (Nat.max 256 (Nat.max (h.symOff + 32 * h.syms) (h.relOff + 24 * h.relocs)))

/-- Step 1.1 of R113, but for the mapping of the extent. -/
def Header.ok (h : Header) : Bool :=
  h.magic == 0x4B4E5341 && h.version == 1 && h.res == 0 && decide (h.origin < 2 ^ 31) &&
  ((h.secs.map (·.off)) ++ [h.symOff, h.relOff]).all fun o => o % 64 == 0 && decide (256 ≤ o)

def parseSym (bs : List Byte) : Sym :=
  let n (o w : Nat) : Nat := leNat ((bs.drop o).take w)
  { name := bs.take 16, off := n 16 8, sec := n 24 1, bind := n 25 1, res := n 26 6 != 0 }

def parseReloc (bs : List Byte) : Reloc :=
  let n (o w : Nat) : Nat := leNat ((bs.drop o).take w)
  { site := n 0 4, sec := n 4 1, kind := n 5 1, signed := n 6 1 % 2 == 1, sym := n 8 4, addend := toInt 64 (n 16 8),
    res := decide (1 < n 6 1) || n 7 1 != 0 || n 12 4 != 0 }

/-- A zero-padded ASCII name. -/
def nameOk (bs : List Byte) : Bool :=
  let used := bs.takeWhile (· != 0)
  used.all (fun b => decide (b.toNat < 128)) && (bs.drop used.length).all (· == 0)

def asName (t : String) : List Byte :=
  let bs := t.toList.map fun c => BitVec.ofNat 8 c.toNat
  bs ++ List.replicate (16 - bs.length) 0

/-- The loader symbols (R112): the value of an extern name. -/
def loaderSym (r : Record) (name : List Byte) : Option Nat :=
  if name = asName "_image" then some r.image
  else if name = asName "_args" then some r.args
  else if name = asName "_save" then some r.save
  else if name = asName "_fault" then some r.fault
  else none

/-- A well-formed entry of the symbol table at an index (R109): the first five are the section symbols. What makes an entry malformed the
spec does not list: here a nonzero reserved byte, an unknown binding, a name that is not zero-padded ASCII, a section code that does not
fit the binding, and one of the first five that is not its section's symbol; a section symbol further on, one with a nonzero offset and a
table of fewer than five entries are taken (log 153). -/
def Sym.ok (y : Sym) (i : Nat) : Bool :=
  !y.res && decide (y.bind ≤ 2) && nameOk y.name && (if y.bind = 2 then y.sec == 0xFF else decide (y.sec ≤ 4)) &&
  (if i < 5 then y.bind == 0 && y.sec == i else true)

/-! ## The checks (R108, R111, R113, R114) -/

/-- A loader failure: reason, section code, site offset, relocation index. -/
structure LoadFail where
  reason : Nat
  sec    : Nat
  site   : Nat
  index  : Nat
deriving DecidableEq, Repr

def LoadFail.plain (reason sec : Nat) : LoadFail := { reason, sec, site := 0xFFFFFFFF, index := 0xFFFFFFFF }

/-- What a relocation writes: the site, its width in bytes, the bits of it that are replaced, and the value; for SPM20 the value
lacks the placing core's bits. -/
structure Patch where
  sec   : Nat
  site  : Nat
  bytes : Nat
  mask  : Nat
  value : Nat
  spm   : Bool
deriving DecidableEq, Repr

/-- Bytes of a site and the sections that may hold it, by relocation kind (R111). -/
def siteOf : Nat → Option (Nat × List Nat)
  | 1 => some (8, [1, 2, 3, 4])
  | 2 => some (4, [1, 2, 3, 4])
  | 3 | 4 | 5 | 7 | 8 => some (4, [0])
  | 6 => some (8, [1])
  | _ => none

/-- The value that a relocation of a kind writes and the mask of the bits it replaces; none where it does not fit (R111). -/
def Reloc.value (r : Reloc) (v : Int) (inText : Bool) (textSize : Nat) : Option (Nat × Nat) :=
  let imm (w : Nat) : Option (Nat × Nat) :=
    let lo : Int := if r.signed then -(2 ^ (w - 1) : Nat) else 0
    let hi : Int := if r.signed then (2 ^ (w - 1) : Nat) else (2 ^ w : Nat)
    if lo ≤ v ∧ v < hi then some (ofInt w v, 2 ^ w - 1) else none
  match r.kind with
  | 1 => if 0 ≤ v ∧ v < (2 ^ 64 : Nat) then some (v.toNat, 2 ^ 64 - 1) else none
  | 2 => if 0 ≤ v ∧ v < (2 ^ 32 : Nat) then some (v.toNat, 2 ^ 32 - 1) else none
  | 3 =>
    let d := v - (r.site / 16 * 16 : Nat)
    let q := d / 16
    if inText ∧ 0 ≤ v ∧ v < (textSize : Int) ∧ d % 16 = 0 ∧ -(2 ^ 22 : Nat) ≤ q ∧ q < (2 ^ 22 : Nat) then some (ofInt 23 q, 2 ^ 23 - 1) else none
  | 4 => imm 13
  | 5 => imm 18
  | 6 => if 0 ≤ v ∧ v < (spmTop : Int) then some (v.toNat, 2 ^ 64 - 1) else none
  | 7 => if 0 ≤ v ∧ v < (2 ^ 36 : Nat) then some (v.toNat / 2 ^ 18, 2 ^ 18 - 1) else none
  | 8 => if 0 ≤ v ∧ v < (2 ^ 36 : Nat) then some (v.toNat % 2 ^ 18, 2 ^ 18 - 1) else none
  | _ => none

/-- Two relocations' sites share a byte. -/
def Reloc.meets (r o : Reloc) : Bool := match siteOf r.kind, siteOf o.kind with
  | some (n, _), some (m, _) => o.sec == r.sec && decide (o.site < r.site + n) && decide (r.site < o.site + m)
  | _, _ => false

/-- Step 1.5 for one entry: a patch, or the first check that fails. A slot site that is not 4-aligned fails for its site, reason 5, as no
site of its kind (log 154). -/
def Reloc.check (r : Reloc) (i : Nat) (h : Header) (syms : List Sym) (value : Sym → Nat) (all : List (Reloc × Nat)) : Except LoadFail Patch :=
  let fail (reason : Nat) : Except LoadFail Patch := .error { reason, sec := r.sec, site := r.site, index := i }
  match siteOf r.kind, syms[r.sym]? with
  | some (n, secs), some y =>
    if r.res then fail 1
    else if !secs.contains r.sec || decide ((h.sec r.sec).size < r.site + n) || (r.sec == 0 && r.site % 4 != 0)
        || all.any (fun o => o.2 != i && r.meets o.1) then fail 5
    else if (r.sec == 3 || r.sec == 4) && y.bind == 2 && y.name != asName "_image" then fail 6
    else match r.value ((value y : Int) + r.addend) (y.sec == 0) (h.sec 0).size with
      | some (v, m) => .ok { sec := r.sec, site := r.site, bytes := n, mask := m, value := v, spm := r.kind == 6 }
      | none => fail 2
  | _, _ => fail 1

def checkRelocs (h : Header) (syms : List Sym) (value : Sym → Nat) (all : List (Reloc × Nat)) : List (Reloc × Nat) → Except LoadFail (List Patch)
  | [] => .ok []
  | r :: rs => match r.1.check r.2 h syms value all with
    | .error e => .error e
    | .ok p => (checkRelocs h syms value all rs).map (p :: ·)

/-- An image that has passed every check. -/
structure Image where
  header  : Header
  patches : List Patch
deriving DecidableEq, Repr

/-- The fields of the template that a record must repeat (R107). -/
def templateDiffers (t r : Record) : Bool :=
  t.timed != r.timed || t.strands != r.strands || t.jord != r.jord || (t.vregs != 0 && t.vregs != r.vregs)

/-- The first section beyond its limit (R108). -/
def sectionBeyond (h : Header) (hsize nearSize : Nat) : Option Nat :=
  if 262144 - hsize < (h.sec 0).size ∨ (h.sec 0).size % 16 ≠ 0 then some 0
  else if spmTop < (h.sec 1).size then some 1
  else if 6 * 2 ^ 20 < (h.sec 2).size then some 2
  else if nearSize < h.origin + (h.sec 4).size then some 4
  else none

/-- A symbol's value (R108, R112). -/
def Sym.value (y : Sym) (r : Record) (h : Header) : Nat := match y.sec with
  | 3 => r.image + (h.sec 3).off + y.off
  | 4 => 0xFFFD000000000000 + h.origin + y.off
  | 0xFF => (loaderSym r y.name).getD 0
  | _ => y.off

/-- The reason of the first symbol-table entry that fails (step 1.4). -/
def symFail (r : Record) : List (Sym × Nat) → Option Nat
  | [] => none
  | y :: ys =>
    if !y.1.ok y.2 then some 1
    else if y.1.bind = 2 ∧ (loaderSym r y.1.name).isNone then some 3
    else symFail r ys

/-- The tables of an image in context f. -/
def State.imageSyms (s : State) (f : Fin 17) (image : Nat) (h : Header) : List Sym :=
  (List.range h.syms).map fun i => parseSym (s.vaRead f (image + h.symOff + 32 * i) 32)
def State.imageRelocs (s : State) (f : Fin 17) (image : Nat) (h : Header) : List (Reloc × Nat) :=
  (List.range h.relocs).map fun i => (parseReloc (s.vaRead f (image + h.relOff + 24 * i) 24), i)

/-- Every check of step 1 of R113 in its order. A failure that is not of one section's limit or one relocation's site names no section: code
0xFF (log 155). -/
def State.checkImage (s : State) (f : Fin 17) (r : Record) (template : List Byte → Record) : Except LoadFail Image :=
  if !s.vaMapped f r.image 256 false then .error (LoadFail.plain 1 0xFF) else
  let h := parseHeader (s.vaRead f r.image 64)
  if !h.ok || !s.vaMapped f r.image h.extent false then .error (LoadFail.plain 1 0xFF) else
  if templateDiffers (template (s.vaRead f (r.image + 64) 128)) r then .error (LoadFail.plain 7 0xFF) else
  match sectionBeyond h (s.ctxs[f]).handler.length (s.ctxs[f]).part.nearSize with
  | some c => .error (LoadFail.plain 4 c)
  | none =>
    let syms := s.imageSyms f r.image h
    match symFail r syms.zipIdx with
    | some n => .error (LoadFail.plain n 0xFF)
    | none => (checkRelocs h syms (fun y => y.value r h) (s.imageRelocs f r.image h) (s.imageRelocs f r.image h)).map fun ps => { header := h, patches := ps }

/-! ## Loading (R108, R113) -/

/-- Bits [47:20] of a core's SPM aperture, as SPM20 writes them (R111). -/
def spmBase (c : Fin 256) : Nat := 0xFFFE000000000000 + dieOf c * 2 ^ 25 + c.val % 32 * 2 ^ 20

/-- Writes one site of a memory that holds a section from an address: only the named bits are replaced. -/
def Patch.apply (c : Option (Fin 256)) (base : Nat) (m : Mem) (p : Patch) : Mem :=
  let v := if p.spm then p.value + (c.map spmBase).getD 0 else p.value
  let a := base + p.site
  let old := m.readNat a p.bytes
  m.writeNat a p.bytes (old - old % (p.mask + 1) + v % (p.mask + 1))

/-- Writes the sites of a section. -/
def applyPatches (c : Option (Fin 256)) (sec base : Nat) (ps : List Patch) (m : Mem) : Mem :=
  (ps.filter (·.sec == sec)).foldl (Patch.apply c base) m

/-- A section's bytes in the image. -/
def State.sectionBytes (s : State) (f : Fin 17) (r : Record) (h : Header) (i : Nat) : List Byte :=
  s.vaRead f (r.image + (h.sec i).off) (h.sec i).size

/-- Loads a core: .text with the handler at the top of the store (R128); .spm and .bsram unless the kernel resumes; the route
registers of the route-valid mask. -/
def State.loadCore (s : State) (f : Fin 17) (r : Record) (im : Image) (resumed : Bool) (c : Fin 256) : State :=
  let h := im.header
  let hd := (s.ctxs[f]).handler
  let text := applyPatches (some c) 0 0 im.patches (Mem.writeBytes [] 0 (s.sectionBytes f r h 0))
  let store := text.writeBytes (262144 - hd.length) hd
  let spm := applyPatches (some c) 1 0 im.patches (Mem.writeBytes [] 0 (s.sectionBytes f r h 1))
  let bsr := applyPatches (some c) 2 0 im.patches (Mem.writeBytes [] 0 (s.sectionBytes f r h 2))
  let routes (k : Core) : Vector Word 8 := Vector.ofFn fun i : Fin 8 =>
    if h.routes.getLsbD i.val && !resumed then BitVec.ofNat 64 (s.vaNat f (r.image + 0xC0 + 8 * i.val) 8) &&& rtMask else k.rt[i]
  s.onCore c fun k => { k with
    istore := store, text := (h.sec 0).size, hsize := hd.length, vregs := r.vregs,
    -- the top 16 KiB of SPM are no part of .spm (R21)
    spm := if resumed then k.spm else spm ++ k.spm.filter (fun x => spmTop ≤ x.1),
    bsram := if resumed then k.bsram else bsr, rt := routes k }

/-- Loads the kernel's cores, and once per launch its .near section and the sites of .data: every site is written, whatever W of its leaf
(log 156). A second run of a PAIR kernel is the same launch. -/
def State.loadAll (s : State) (f : Fin 17) (r : Record) (im : Image) (resumed again : Bool) (cs : List (Fin 256)) : State :=
  let h := im.header
  let base := (s.ctxs[f]).part.nearBase + h.origin
  let near := (applyPatches none 4 0 im.patches (Mem.writeBytes [] 0 (s.sectionBytes f r h 4))).readBytes 0 (h.sec 4).size
  let site (s : State) (p : Patch) : State :=
    s.vaPut f true (r.image + (h.sec 3).off + p.site) (toBytes p.bytes p.value)
  let s := cs.foldl (fun s c => s.loadCore f r im resumed c) s
  if resumed || again then s else
  (im.patches.filter (·.sec == 3)).foldl site (if (h.sec 4).size = 0 then s else s.nearStore base near)

/-! ## The handler image (R128) -/

/-- The .text of a handler image at a VA: only .text, at most 64 KiB, no relocation and no extern. -/
def State.handlerText (s : State) (f : Fin 17) (va : Nat) : Option (List Byte) :=
  if !s.vaMapped f va 256 false then none else
  let h := parseHeader (s.vaRead f va 64)
  if !h.ok || !s.vaMapped f va h.extent false then none else
  let size := (h.sec 0).size
  if size = 0 ∨ 65536 < size ∨ size % 16 ≠ 0 ∨ ((h.secs.drop 1).any fun x => x.size != 0) = true ∨ h.relocs ≠ 0 then none else
  let syms := s.imageSyms f va h
  if syms.any (fun y => y.bind == 2) || !(syms.zipIdx.all fun y => y.1.ok y.2) then none
  else some (s.vaRead f (va + (h.sec 0).off) size)

end Sys2Proof.Machine
end

