-- ==== Sys2Proof/Machine/Quant.lean ====
section
/-! DEFINITION. Block formats and quantisation (R34 to R42): E8M0 scales, I4X blocks, the choice of a block's scale and the
quantisation of 32 values, as VBMAX, VQNT, CPYQ and MEPI use them; and DPD (R32). -/
namespace Sys2Proof.Machine

/-! ## Reading blocks (R35 to R38) -/

/-- A value times 2^(scale − 127). -/
def FVal.scaled (v : FVal) (scale : Nat) : FVal := match v with
  | .fin s n e => .fin s n (e + (scale : Int) - 127)
  | v => v

/-- The all-ones NaN of whatever format takes it. -/
def onesNan : FVal := .nan e4m3Payload false

/-- Nibble i of packed bytes (R29). -/
def nibble (bs : List Byte) (i : Nat) : Nat := (bs.getD (i / 2) 0).toNat / 16 ^ (i % 2) % 16

/-- What the pairs of an I4X block have given so far (R38). -/
structure I4xDecode where
  vals : List FVal
  rank : Nat
  mal  : Nat

def i4xPair (bs : List Byte) (sc : Nat) (d : I4xDecode) (k : Nat) : I4xDecode :=
  let lo := nibble bs (2 * k)
  let hi := nibble bs (2 * k + 1)
  let zero : FVal := .fin false 0 0
  let plain (c : Nat) : FVal :=
    let v := toInt 4 c
    FVal.scaled (.fin (decide (v < 0)) v.natAbs 0) sc
  if lo = 8 ∧ hi = 8 then { d with vals := d.vals ++ [zero, zero], mal := d.mal + 1 }
  else if lo = 8 ∨ hi = 8 then
    let ok := decide (d.rank ≤ 3)
    let other := if lo = 8 then hi else lo
    let v := if ok then (decodeF .e4m3 (other * 16 + nibble bs (32 + d.rank))).scaled sc else zero
    { vals := d.vals ++ (if lo = 8 then [v, zero] else [zero, v]), rank := d.rank + 1, mal := d.mal + bit (!ok) }
  else { d with vals := d.vals ++ [plain lo, plain hi] }

/-- The 32 values of a 19-byte I4X block, and how often it raises QMAL. -/
def decodeI4x (bs : List Byte) : List FVal × Nat :=
  let sc := (bs.getD 18 0).toNat
  if sc = 255 then (List.replicate 32 onesNan, 0)
  else
    let d := (List.range 16).foldl (i4xPair bs sc) { vals := [], rank := 0, mal := 0 }
    (d.vals, d.mal)

/-! ## Choosing a scale (R40 to R42) -/

/-- The block targets: 0 E4M3, 1 E5M2, 2 E2M1, 3 I4X. -/
def targetFmt (tgt : Nat) : Fmt := match tgt with
  | 0 => .e4m3 | 1 => .e5m2 | _ => .e2m1

/-- The element format of a VBMAX, VQNT or VDQNT register. -/
def blockFmt (f : BitVec 3) : Fmt := match f.toNat with
  | 0 => .f32 | 1 => .f16 | _ => .bf16

def FVal.finite : FVal → Bool
  | .fin _ _ _ => true
  | _ => false

/-- Magnitudes of finite values in units of 2^e. -/
def mags (e : Int) (vs : List FVal) : List Nat := vs.map fun v => (sumAt 2 e [v]).natAbs

/-- Inserts into a falling list. -/
def insertDown (x : Nat) : List Nat → List Nat
  | [] => [x]
  | y :: r => if y ≤ x then x :: y :: r else y :: insertDown x r

/-- The smallest integer X with m · 2^e ≤ 7 · 2^X, for m > 0. -/
def leastScale (m : Nat) (e : Int) : Int :=
  let q := ceilDiv (8 * m) 7
  let j := if q ≤ 1 then 0 else (q - 1).log2 + 1
  e + (j : Int) - 3

/-- X of the chosen-scale rules, before it is clamped; the block is finite and not all zero. -/
def chosenX (tgt : Nat) (vs : List FVal) : Int :=
  let e := minExp vs
  let ms := (mags e vs).foldr insertDown []
  let top := ms.getD 0 0
  match tgt with
  | 0 => e + (top.log2 : Int) - 8
  | 1 => e + (top.log2 : Int) - 15
  | 2 => e + (top.log2 : Int) - 2
  | _ =>
    let m5 := ms.getD 4 0
    let xb := leastScale top e - 6
    if m5 = 0 then xb else
      let xa := leastScale m5 e
      if xa < xb then xb else xa

/-- The scale byte that a block gets (R40 to R42, R257). -/
def chosenScale (tgt : Nat) (vs : List FVal) : Nat :=
  if vs.any (!·.finite) then 255
  else if vs.all FVal.isZero then 127
  else (clampInt (chosenX tgt vs) (-127) 127 + 127).toNat

/-! ## Quantising a block (R39 to R42, R258) -/

/-- A quantised block: its element codes or I4X bytes, its scale byte, QSTAT flags and counts, and invalid. -/
structure QBlock where
  bytes  : List Nat
  scale  : Nat
  qflags : Nat
  counts : List Nat
  nv     : Bool

def qcounts (zeros under sat ovf mal : Nat) : Nat × List Nat :=
  (bit (zeros != 0) + 2 * bit (under != 0) + 4 * bit (sat != 0) + 8 * bit (ovf != 0) + 16 * bit (mal != 0), [zeros, under, sat, ovf, mal])

/-- One element rounded to a target, saturated: its encoding and whether it saturated. A nonzero element that rounds to zero keeps its
sign (R44; log 142). -/
def quantElem (f : Fmt) (v : FVal) (x : Int) : Nat × Bool := match v with
  | .fin s n e =>
    let r := roundTo f .rne s n (e - x) 0
    if r.2.ovf then (encodeF f (.fin s f.cmax f.xmax), true) else (encodeF f r.1, false)
  | _ => (0, false)

/-- The element codes of a block of a format with plain elements. QUNDER goes by the scale byte 0, for CPYQ and MEPI too: an X that
comes out as −127 without having been clamped counts as clamped (log 141). -/
def quantPlain (f : Fmt) (vs : List FVal) (scale : Nat) : QBlock :=
  let x := (scale : Int) - 127
  let rs := vs.map fun v => quantElem f v x
  let sat := (rs.filter (·.2)).length
  let under := if scale = 0 then ((vs.zip rs).filter fun p => !p.1.isZero && p.2.1 % 2 ^ (f.width - 1) == 0).length else 0
  let (qflags, counts) := qcounts 0 under sat 0 0
  { bytes := rs.map (·.1), scale, qflags, counts, nv := false }

/-- What becomes of the elements of an I4X block (R42): outliers in rank order, elements stored as ±7, elements given up. -/
structure Outliers where
  out  : List Nat
  seven : List Nat
  gone : List Nat

def takeCandidate (o : Outliers) (i : Nat) : Outliers :=
  if o.out.contains (i ^^^ 1) then { o with gone := i :: o.gone }
  else if 4 ≤ o.out.length then { o with seven := i :: o.seven }
  else { o with out := i :: o.out }

/-- Candidates in decreasing magnitude, ties by lower index. -/
def insertCand (x : Nat × Nat) : List (Nat × Nat) → List (Nat × Nat)
  | [] => [x]
  | y :: r => if y.1 < x.1 ∨ (y.1 = x.1 ∧ x.2 < y.2) then x :: y :: r else y :: insertCand x r

/-- The I4X bytes of a block (R42). QUNDER goes by the scale byte 0, as for the plain elements (log 141). -/
def quantI4x (vs : List FVal) (scale : Nat) : QBlock :=
  let x := (scale : Int) - 127
  let q (v : FVal) : Int := match v with
    | .fin s n e =>
      let c := (quantize 2 .rne s n (e - x) 0).1
      if s then -(c : Int) else c
    | _ => 0
  let qs := vs.map q
  let ms := mags (minExp vs) vs
  let qi (i : Nat) : Int := qs.getD i 0
  let cands := ((List.range 32).filter fun i => decide (8 ≤ (qi i).natAbs)).map fun i => (ms.getD i 0, i)
  let o := ((cands.foldr insertCand []).map (·.2)).foldl takeCandidate { out := [], seven := [], gone := [] }
  let ranked := (List.range 32).filter fun i => o.out.contains i
  let enc (i : Nat) : Nat × Bool := quantElem .e4m3 (vs.getD i (.fin false 0 0)) x
  let code (i : Nat) : Nat :=
    if o.out.contains i then 8
    else if o.out.contains (i ^^^ 1) then (enc (i ^^^ 1)).1 / 16
    else if o.seven.contains i then (if qi i < 0 then 9 else 7)
    else ofInt 4 (qi i)
  let spill (j : Nat) : Nat := match ranked[j]? with
    | some i => (enc i).1 % 16
    | none => 0
  let nib (k : Nat) : Nat := if k < 32 then code k else spill (k - 32)
  let lost := ((List.range 32).filter fun i => o.seven.contains i || (o.out.contains (i ^^^ 1) && qi i != 0)).length
  let sat := (ranked.filter fun i => (enc i).2).length
  let under := if scale = 0 then ((List.range 32).filter fun i => qi i == 0 && !(vs.getD i (.fin false 0 0)).isZero).length else 0
  let (qflags, counts) := qcounts 0 under sat lost 0
  { bytes := ((List.range 18).map fun k => nib (2 * k) + 16 * nib (2 * k + 1)) ++ [scale], scale, qflags, counts, nv := false }

/-- Quantises a block of 32 values under a scale byte. `supplied`: the scale came from a register, for a target with no scale
of its own in the block (R258). -/
def quantBlock (tgt : Nat) (supplied : Bool) (scale : Nat) (vs : List FVal) : QBlock :=
  let zeros (sc : Nat) : List Nat := if tgt = 3 then List.replicate 18 0 ++ [sc] else List.replicate 32 0
  let nv := vs.any FVal.isSig
  if vs.any (!·.finite) then
    { bytes := zeros 255, scale := 255, qflags := 0, counts := [0, 0, 0, 0, 0], nv := nv || (supplied && tgt != 3) }
  else if scale = 255 then { bytes := zeros 255, scale := 255, qflags := 0, counts := [0, 0, 0, 0, 0], nv }
  else if vs.all FVal.isZero then
    let (qflags, counts) := qcounts 1 0 0 0 0
    { bytes := zeros scale, scale, qflags, counts, nv }
  else if tgt = 3 then quantI4x vs scale
  else quantPlain (targetFmt tgt) vs scale

/-- A block under the scale that its own values choose (R41, R42), as CPYQ and MEPI quantise. -/
def quantChosen (tgt : Nat) (vs : List FVal) : QBlock := quantBlock tgt false (chosenScale tgt vs) vs

/-- The QSTAT update of several blocks. -/
def qUpdate (bs : List QBlock) : Nat × List Nat :=
  (bs.foldl (fun a b => a ||| b.qflags) 0, (List.range 5).map fun i => (bs.map fun b => b.counts.getD i 0).sum)

/-- Packs the element codes of a plain block: a byte each, or a nibble each for E2M1 (R29). -/
def packCodes (tgt : Nat) (cs : List Nat) : List Nat :=
  if tgt = 2 then (List.range (cs.length / 2)).map fun k => cs.getD (2 * k) 0 + 16 * cs.getD (2 * k + 1) 0 else cs

/-! ## DPD (R32) -/

/-- The declet of three digits (IEEE 754-2019 clause 3.5.2). -/
def declet (n : Nat) : Nat :=
  let dig (i j : Nat) : Bool := bits (n / 10 ^ i % 10) j 1 == 1
  let a := dig 2 3
  let b := dig 2 2
  let c := dig 2 1
  let d := dig 2 0
  let e := dig 1 3
  let f := dig 1 2
  let g := dig 1 1
  let h := dig 1 0
  let i := dig 0 3
  let j := dig 0 2
  let k := dig 0 1
  let m := dig 0 0
  let p := b || (a && j) || (a && f && i)
  let q := c || (a && k) || (a && g && i)
  let s := (f && (!a || !i)) || (!a && e && j) || (e && i)
  let t := g || (!a && e && k) || (a && i)
  let v := a || e || i
  let w := a || (e && i) || (!e && j)
  let x := e || (a && i) || (!a && k)
  [p, q, d, s, t, h, v, w, x, m].foldl (fun acc z => 2 * acc + bit z) 0

/-- The three digits of a declet, of the 24 that are not canonical too. -/
def undeclet (n : Nat) : Nat :=
  let z (i : Nat) : Bool := bits n i 1 == 1
  let p := z 9
  let q := z 8
  let r := z 7
  let s := z 6
  let t := z 5
  let u := z 4
  let v := z 3
  let w := z 2
  let x := z 1
  let y := z 0
  let keep := !v || !w || (s && !t && x)
  let a := v && w && (!s || t || !x)
  let b := p && keep
  let c := q && keep
  let e := v && ((!w && x) || (!t && x) || (s && x))
  let f := (s && (!v || !x)) || (p && !s && t && v && w && x)
  let g := (t && (!v || !x)) || (q && !s && t && w && v && x)
  let i := v && ((!w && !x) || (w && x && (s || t)))
  let j := (!v && w) || (s && v && !w && x) || (p && w && (!x || (!s && !t)))
  let k := (!v && x) || (t && !w && x) || (q && v && w && (!x || (!s && !t)))
  let digit (a b c d : Bool) : Nat := 8 * bit a + 4 * bit b + 2 * bit c + bit d
  100 * digit a b c r + 10 * digit e f g u + digit i j k y

/-- BID to DPD (R255): the same sign, exponent, coefficient, payload and signalling bit. -/
def toDpd (b : Nat) : Nat :=
  let sign := bits b 63 1 * 2 ^ 63
  let cont (c : Nat) : Nat := ((List.range 5).map fun i => declet (c / 1000 ^ i % 1000) * 1024 ^ i).sum
  match decodeBid b with
  | .inf _ => sign + 0b11110 * 2 ^ 58
  | .nan p s => sign + 0b11111 * 2 ^ 58 + bit s * 2 ^ 57 + cont p
  | .fin _ n e =>
    let x := (e + 398).toNat
    let lead := n / 10 ^ 15
    let comb := if lead < 8 then x / 256 * 8 + lead else 24 + x / 256 * 2 + (lead - 8)
    sign + comb * 2 ^ 58 + x % 256 * 2 ^ 50 + cont (n % 10 ^ 15)

/-- DPD to BID. -/
def ofDpd (b : Nat) : Nat :=
  let sign := bits b 63 1 * 2 ^ 63
  let c := ((List.range 5).map fun i => undeclet (bits b (10 * i) 10) * 1000 ^ i).sum
  let comb := bits b 58 5
  if comb = 0b11110 then sign + 0b11110 * 2 ^ 58
  else if comb = 0b11111 then sign + 0b11111 * 2 ^ 58 + bits b 57 1 * 2 ^ 57 + c
  else
    let lead := if comb / 8 = 3 then 8 + comb % 2 else comb % 8
    let top := if comb / 8 = 3 then comb / 2 % 4 else comb / 8
    encodeBid (.fin (bits b 63 1 == 1) (lead * 10 ^ 15 + c) (((top * 256 + bits b 50 8 : Nat) : Int) - 398))

end Sys2Proof.Machine
end

