-- ==== Sys2Proof/Machine/Tile.lean ====
section
/-! DEFINITION. The matrix engine up to the press (R53 to R57, R280 to R299, R308): stream registers, pins, the matrix queue,
MSTRM, MZERO, MCELL, MMA, MSIG, the accumulation of an MMA, and MMA_READY. -/
namespace Sys2Proof.Machine

/-! ## Stream registers (R284 to R287) -/

/-- B-SRAM and its lines (R286). -/
def bsramSize : Nat := 1024 * 6144
def bsramLine : Nat := 6144

/-- Bytes of a row or column of k elements (R285). -/
def rowBytes (fmt k : Nat) : Nat := match fmt with
  | 2 => ceilDiv k 2 | 3 => 19 * k / 32 | 4 => 2 * k | 6 => 4 * k | 7 => 2 * k | 8 => 4 * k | _ => k

/-- The descriptor of 32 bytes as a stream register, unless R287 refuses it. Bits of SCALE above the offset's width are reserved where
SCALED = 1, as those of BASE are; those of REFBASE are not (log 198). -/
def parseStream (bs : List Byte) (fmt : Nat) : Option Stream :=
  let f (o n : Nat) : Nat := leNat ((bs.drop o).take n)
  let fl := f 0x0B 1
  let st : Stream :=
    { fmt, base := f 0 4, scale := f 4 4, k := f 8 2, rows := f 0x0A 1, bsram := bits fl 0 1 == 1, scaled := bits fl 1 1 == 1,
      pin := bits fl 2 1 == 1, rowStride := f 0x0C 4, scaleStride := f 0x10 4, coefStride := f 0x14 4, refBase := f 0x18 4,
      bound := f 0x1C 1 % 16, refStride := f 0x1E 2 }
  let top := if st.bsram then 2 ^ 23 else 2 ^ 20
  let reserved := fl / 8 != 0 || f 0x1C 1 / 16 != 0 || f 0x1D 1 != 0 || decide (top ≤ st.base) || (st.scaled && decide (top ≤ st.scale))
    || (!st.scaled && st.scale != 0)
  let outOnly := decide (6 ≤ fmt)
  let badK := st.k == 0 || decide (8192 < st.k) || (outOnly && decide (96 < st.k))
  let badScale := st.scaled && (decide (3 ≤ fmt) || st.k % 32 != 0)
  let badShape := (fmt == 3 && st.k % 32 != 0) || (fmt == 2 && st.k % 2 != 0)
  let badB := st.bsram && (st.base % bsramLine != 0 || st.scale % bsramLine != 0 || st.coefStride % bsramLine != 0
    || st.refBase % bsramLine != 0 || st.rowStride != 0 || st.scaleStride != 0 || st.refStride != 0 || outOnly)
  let badA := !st.bsram && (st.base % 16 != 0 || st.rowStride % 16 != 0 || st.refBase % 16 != 0 || st.refStride % 16 != 0)
  let badRows := decide ((if st.bsram then 95 else 63) < st.rows)
  if reserved || badK || badScale || badShape || badB || badA || badRows then none else some st

/-- The runs of n bytes of each of cols columns from a B-SRAM base: whole lines hold all columns in one run (R286). -/
def columnRuns (base n cols : Nat) : List (Nat × Nat) :=
  (List.range (ceilDiv n 64)).flatMap fun l =>
    let lo := base + l * bsramLine
    let w := Nat.min 64 (n - 64 * l)
    if w = 64 then [(lo, 64 * cols)] else (List.range cols).map fun c => (lo + 64 * c, w)

/-- The runs of n bytes of each of a number of rows of an SPM stream. -/
def rowRuns (base stride n rows : Nat) : List (Nat × Nat) := (List.range rows).map fun m => (base + m * stride, n)

def Stream.count (st : Stream) : Nat := st.rows + 1

/-- The runs that a stream covers in coefficient image i: elements and scales (R285, R286). -/
def Stream.runs (st : Stream) (i : Nat) : List (Nat × Nat) :=
  let n := rowBytes st.fmt st.k
  let c := i * st.coefStride
  let nb := if st.scaled then st.k / 32 else 0
  if st.bsram then columnRuns (st.base + c) n st.count ++ columnRuns (st.scale + c) nb st.count
  else rowRuns (st.base + c) st.rowStride n st.count ++ (if st.scaled then rowRuns (st.scale + c) st.scaleStride nb st.count else [])

/-- The runs of the FP16 reference source (R299). -/
def Stream.refRuns (st : Stream) : List (Nat × Nat) :=
  if st.bsram then columnRuns st.refBase (2 * st.k) st.count else rowRuns st.refBase st.refStride (2 * st.k) st.count

/-- The lowest byte of some runs at or above a limit. -/
def beyond (limit : Nat) (rs : List (Nat × Nat)) : Option Nat :=
  least ((rs.filter fun r => decide (limit < r.1 + r.2)).map fun r => Nat.max r.1 limit)

/-- The end of SPM for the current level (R21). -/
def State.spmLimit (s : State) : Nat := if s.cur.level = .user then spmTop else spmSize

/-! ## The queues of the engines (R73, R96) -/

/-- The core is stopped by an arbitration (R318). -/
def State.arbitrating (s : State) (c : Fin 256) : Bool := (s.core c).mender.isSome || decide (s.time < (s.core c).stopTill)

/-- Press slots in use: outputs from their MEPI's start to their end (R313). -/
def State.pressUsed (s : State) (c : Fin 256) : Nat :=
  (s.cmds.filter fun k => k.core == c && !k.queued && match k.body with
    | .mepi _ => true
    | _ => false).length + ((s.core c).press.filter fun p => (s.cmd? p.id).isNone).length

/-- A matrix command cannot start: the core is stopped (PACED), or a MEPI finds no press slot (R301, R318). -/
def State.startBlocked (s : State) (c : Fin 256) (b : Body) : Bool :=
  (!s.timed c && s.arbitrating c) || match b with
    | .mepi _ => decide (8 ≤ s.pressUsed c)
    | _ => false

/-- The entries of a core's queue that have not left it (R96). -/
def State.queueUsed (s : State) (c : Fin 256) (e : Engine) : Nat :=
  let now := s.now (s.engineClock c)
  (s.cmds.filter fun k => k.core == c && k.engine == e && k.queued &&
    (decide (now < k.start) || (k.start == now && e == .matrix && s.startBlocked c k.body))).length

/-- Goes on where the queue has a free entry; otherwise the bundle does not issue (R73). -/
def State.withQueue (s : State) (e : Engine) (f : State → State) : State :=
  if s.queueUsed s.cur.core e < (if e = .matrix then 4 else 8) then f s else s.stall

/-- A command of the current slot. -/
def State.mkCmd (s : State) (engine : Engine) (start occ reach : Nat) (body : Body) : Cmd :=
  let c := s.cur.core
  { id := s.nextId, core := c, strand := s.cur.strand, pc := s.cur.pc, owner := (s.core c).owner, ctx := s.ctxOf c, tag := s.tagOf (s.ctxOf c),
    engine, queued := engine != .none, start, occ, seq := s.seq, reach, stepped := s.stepping c, nested := s.cur.nested, body }

def State.addCmd (s : State) (k : Cmd) : State := { s with cmds := s.cmds ++ [k], nextId := s.nextId + 1 }

/-- Enters a command of the current slot into an engine's queue with its occupancy and the widest home of its accesses: it
starts when its engine is free, and its accesses count from that start (R96, R162). -/
def State.enqueue (s : State) (e : Engine) (occ reach : Nat) (body : Body) : State :=
  let c := s.cur.core
  let k := s.core c
  let now := s.now (s.engineClock c)
  let start := Nat.max now (if e = .matrix then k.matFree else k.copyFree)
  let clk := s.engClock c s.cur.nested
  let due := if s.timed c && !s.stepping c && !s.cur.nested then Nat.max k.tt (if e = .matrix then k.matTT else k.copyTT)
    else s.time + (start - now)
  let id := s.nextId
  let s := s.addCmd (s.mkCmd e start occ reach body)
  let s := s.onCore c fun k =>
    if e = .matrix then { k with matFree := start + occ, matTT := Nat.max k.tt k.matTT + occ }
    else { k with copyFree := start + occ, copyTT := Nat.max k.tt k.copyTT + occ }
  s.push clk due 6 c.val (.ev (.commandStart id))

/-- The id that the next command gets. -/
def State.newId (s : State) : Nat := s.nextId

/-! ## MSTRM, MROUTE, MSIG (R294, R308, R309) -/

def execMstrm (g : BitVec 3) (d a f : BitVec 4) (s : State) : Res :=
  s.guarded g fun s =>
    let addr := (s.ra a).toNat
    if addr % 32 ≠ 0 then s.raise 0x06 (s.ra a)
    else if addr + 32 > s.spmLimit then s.raise 0x05 (s.ra a)
    else match parseStream (s.curCore.spm.readBytes addr 32) f.toNat with
      | none => s.raise 0x07 0
      | some st => s.later 2 2 (.sreg d st)
/-- The reserved bits [46:34] read 0 (R288). -/
def execMstrmBnd (g : BitVec 3) (d : BitVec 4) (a : BitVec 5) (s : State) : Res :=
  s.guarded g fun s => s.later 2 2 (.bnd d (s.rx a &&& bndMask))
def execMstrmRbnd (g : BitVec 3) (d : BitVec 5) (a : BitVec 4) (s : State) : Res :=
  s.guarded g fun s => s.setX 2 d (s.curCore.bnd[fin 16 a.toNat])
def execMroute (g d : BitVec 3) (a : BitVec 5) (s : State) : Res :=
  s.guarded g fun s => s.later 2 2 (.rt d (s.rx a &&& rtMask))
def execMrouteRd (g : BitVec 3) (d : BitVec 5) (a : BitVec 3) (s : State) : Res :=
  s.guarded g fun s => s.setX 2 d (s.curCore.rt[fin 8 a.toNat])

def OutState.code : OutState → Nat
  | .none => 0 | .inPress => 1 | .committed => 2 | .discarded => 3

/-- The status word of R308. -/
def Tile.status (t : Tile) : Word :=
  BitVec.ofNat 64 (t.commits % 2 ^ 32 * 2 ^ 32 + t.seenCoef % 4 * 2 ^ 20 + ofInt 9 t.seenAnc * 2 ^ 11 + (t.seenLen - 1) % 16 * 2 ^ 7
    + bit t.arb * 2 ^ 6 + bit t.seenMma * 4 + t.latest.code)

def execMsig (g : BitVec 3) (d : BitVec 5) (t sel : BitVec 2) (s : State) : Res :=
  s.guarded g fun s =>
    let tl := s.curCore.tiles[fin 4 t.toNat]
    s.setX 4 d (match sel.toNat with
      | 0 => tl.sigP
      | 1 => tl.sigS
      | _ => tl.status)

/-! ## Pins (R292, R293) -/

/-- Drops the pins that nothing holds any longer. -/
def Core.dropPins (k : Core) : Core :=
  { k with pins := k.pins.filter fun p => !p.tiles.isEmpty || !p.outs.isEmpty || p.keep.isSome }

/-- A command's end ends the pins that hung on it. -/
def Core.endPins (k : Core) (id : Nat) : Core :=
  Core.dropPins { k with pins := k.pins.map fun p => { p with outs := p.outs.filter (· != id) } }

/-- A MEPI or MZERO of a tile enters the queue: the pins that wait for the tile hang on it from now on. -/
def Core.hangPins (k : Core) (t id : Nat) : Core :=
  { k with pins := k.pins.map fun p =>
      if p.tiles.contains t then { p with tiles := p.tiles.filter (· != t), outs := id :: p.outs } else p }

/-- A write to a stream register ends the extended pins of its previous contents (R294). -/
def Core.releaseStream (k : Core) (i : Nat) : Core :=
  Core.dropPins { k with pins := k.pins.map fun p => if p.keep = some i then { p with keep := none } else p }

/-! ## MZERO and MCELL (R295, R296) -/

def execMzero (g : BitVec 3) (t i : BitVec 2) (a : BitVec 9) (s : State) : Res :=
  s.guarded g fun s => s.withQueue .matrix fun s =>
    let id := s.newId
    let s := s.onCore s.cur.core fun k =>
      Core.hangPins { k with tiles := upd k.tiles (fin 4 t.toNat) fun tl => { tl with count := 0 } } t.toNat id
    s.enqueue .matrix 1 0 (.mzero t.toNat i a.toInt)

/-- The cell sequence of n + 1 steps in a word. -/
def cellSteps (w : Word) (n : Nat) : List CellStep :=
  (List.range (n + 1)).map fun i => match bits w.toNat (2 * i) 2 with
    | 0 => .mac
    | 1 => .ada
    | 2 => .mxp
    | _ => .mnp

def execMcell (g : BitVec 3) (t : BitVec 2) (a : BitVec 5) (n : BitVec 4) (s : State) : Res :=
  s.guarded g fun s => s.withQueue .matrix fun s => s.enqueue .matrix 1 0 (.mcell t.toNat (cellSteps (s.rx a) n.toNat))

/-! ## MMA at issue (R280 to R283, R297) -/

/-- The K-step of an operand pair that is accepted (R283). -/
def kStep (a b : Nat) : Option Nat :=
  if a = 4 ∧ b = 4 then some 64
  else if a = 5 ∧ b = 5 then some 128
  else if a < 4 ∧ b < 4 then some (if 2 ≤ a ∧ 2 ≤ b then 256 else 128)
  else none

/-- The product pairs of a jet MMA of order k (R280, R281). -/
def jetPasses (k : Nat) (bJet : Bool) : List (Nat × Nat) :=
  (List.range (k + 1)).flatMap fun i => if bJet then (List.range (k + 1 - i)).map fun j => (i, j) else [(i, 0)]

/-- The cell sequence that a tile will hold after every command now in the queue (R290). -/
def State.queuedSeq (s : State) (c : Fin 256) (t : Nat) : List CellStep :=
  (s.cmds.filter fun k => k.core == c && k.queued).foldl (fun q k => match k.body with
    | .mzero t' _ _ => if t' = t then [.mac] else q
    | .mcell t' q' => if t' = t then q' else q
    | _ => q) (s.core c).tiles[fin 4 t].seq

/-- The pins that an MMA sets, one for each stream. -/
def mmaPins (id : Nat) (tiles : List Nat) (sa sb : Nat × Stream) (ra rb : List (Nat × Nat)) : List Pin :=
  let one (x : Nat × Stream) (rs : List (Nat × Nat)) : Pin :=
    { mma := id, space := if x.2.bsram then .bsram else .spm, regions := rs, tiles, outs := [], keep := if x.2.pin then some x.1 else none }
  [one sa ra, one sb rb]

/-- The runs that an MMA reads of a stream. -/
def mmaRuns (st : Stream) (ref : Bool) (images : List Nat) : List (Nat × Nat) :=
  if ref then st.refRuns else images.flatMap st.runs

def execMma (g : BitVec 3) (t : BitVec 2) (a b : BitVec 4) (j r : BitVec 1) (s : State) : Res :=
  s.guarded g fun s => s.withQueue .matrix fun s =>
    let c := s.cur.core
    let k := s.curCore
    let sa := k.streams[fin 16 a.toNat]
    let sb := k.streams[fin 16 b.toNat]
    let jet := j == 1
    let ref := r == 1
    let order := if jet then s.jk else 0
    let tiles := (List.range (order + 1)).map fun n => t.toNat + n
    let full := tiles.any fun n => decide (2 ^ 26 ≤ (k.tiles[fin 4 n]).count)
    match (if sa.bsram || !sb.bsram || sa.k != sb.k then none else kStep sa.fmt sb.fmt) with
    | none => s.raise 0x07 0
    | some step =>
      if (ref && (sa.fmt == 4 || sa.fmt == 5 || jet)) then s.raise 0x07 0
      else if jet && (decide (3 < order) || decide (3 < t.toNat + order) || (s.queuedSeq c t.toNat).any (· != .mac) || sa.coefStride == 0)
        then s.raise 0x07 0
      else if full then s.raise 0x07 0
      else
        let bJet := jet && sb.coefStride != 0
        let images (on : Bool) : List Nat := if on then List.range (order + 1) else [0]
        let ra := mmaRuns sa ref (images jet)
        let rb := mmaRuns sb ref (images bJet)
        match least ((beyond s.spmLimit ra).toList ++ (beyond bsramSize rb).toList) with
        | some x => s.raise 0x05 (BitVec.ofNat 64 x)
        | none =>
          let passes := if jet then (jetPasses order bJet).length else 1
          let occ := 64 * ceilDiv sa.k step * (if ref then 4 else 1) * passes
          let s := s.onCore c fun k =>
            { k with pins := k.pins ++ mmaPins s.newId tiles (a.toNat, sa) (b.toNat, sb) ra rb,
                     tiles := tiles.foldl (fun ts n => upd ts (fin 4 n) fun tl => { tl with count := tl.count + 1 }) k.tiles }
          s.enqueue .matrix occ 0
            (.mma { tile := t.toNat, a := sa, b := sb, jet, ref, k := order, occ, descs := [], dead := [], qmal := none })

/-! ## Operands of an MMA (R285, R286, R298, R299) -/

/-- n bytes of row or column i of a stream from an offset. -/
def Core.streamBytes (k : Core) (bsram : Bool) (base stride i n : Nat) : List Byte :=
  if bsram then ((List.range n).map fun x => k.bsram.read1 (base + x / 64 * bsramLine + 64 * i + x % 64))
  else k.spm.readBytes (base + i * stride) n

/-- The elements of a row from its bytes and block scales, with the QMAL events of an I4X row. -/
def decodeElems (fmt n : Nat) (bs : List Byte) (scales : Option (List Nat)) : List FVal × Nat :=
  if fmt = 3 then
    let ds := (List.range (n / 32)).map fun b => decodeI4x ((bs.drop (19 * b)).take 19)
    (ds.flatMap (·.1), (ds.map (·.2)).sum)
  else
    let raw : List FVal := match fmt with
      | 0 => bs.map fun b => decodeF .e4m3 b.toNat
      | 1 => bs.map fun b => decodeF .e5m2 b.toNat
      | 2 => (List.range n).map fun i => decodeF .e2m1 (nibble bs i)
      | 5 => bs.map fun b => .fin b.msb b.toInt.natAbs 0
      | _ => (List.range n).map fun i => decodeF .f16 ((bs.getD (2 * i) 0).toNat + 256 * (bs.getD (2 * i + 1) 0).toNat)
    match scales with
    | none => (raw, 0)
    | some sc => (raw.zipIdx.map fun x =>
        let e := sc.getD (x.2 / 32) 0
        if e = 255 then onesNan else x.1.scaled e, 0)

/-- Row or column i of coefficient image q of an operand. -/
def Core.operand (k : Core) (st : Stream) (ref : Bool) (q i : Nat) : List FVal × Nat :=
  if ref then decodeElems 4 st.k (k.streamBytes st.bsram st.refBase st.refStride i (2 * st.k)) none
  else
    let c := q * st.coefStride
    let sc := if st.scaled then
        some ((k.streamBytes st.bsram (st.scale + c) st.scaleStride i (st.k / 32)).map BitVec.toNat)
      else none
    decodeElems st.fmt st.k (k.streamBytes st.bsram (st.base + c) st.rowStride i (rowBytes st.fmt st.k)) sc

/-! ## Terms and steps (R55, R291) -/

/-- Floor of a finite value in units of 2^anc (R52). -/
def floorAt (anc : Int) (neg : Bool) (n : Nat) (e : Int) : Int :=
  let v : Int := if neg then -(n : Int) else n
  if anc ≤ e then v * (2 ^ (e - anc).toNat : Nat) else v / ((2 ^ (anc - e).toNat : Nat) : Int)

/-- A term: a finite integer with whether it was clamped, a NaN with its payload and whether invalid is raised, an infinity,
or nothing. -/
inductive Term where
  | fin (t : Int) (ovf : Bool)
  | nan (payload : Nat) (nv : Bool)
  | inf (neg : Bool)
deriving DecidableEq, Repr

def maxPayload : Nat := 0x3FFFFF

/-- A finite value as a term, clamped to 128 bits. -/
def finTerm (anc : Int) (neg : Bool) (n : Nat) (e : Int) : Term :=
  let t := floorAt anc neg n e
  let hi : Int := (2 ^ 127 : Nat) - 1
  let lo : Int := -(2 ^ 127 : Nat)
  if t < lo ∨ hi < t then .fin (clampInt t lo hi) true else .fin t false

/-- NaN operands as a term: the least payload, narrowed to 22 bits (R49). -/
def nanTerm (vs : List FVal) : Term := .nan (((payloads vs).map (Fmt.narrow .f32)).foldl Nat.min maxPayload) false

/-- The term of a × b. -/
def macTerm (anc : Int) (a b : FVal) : Term :=
  if a.isNan || b.isNan then nanTerm [a, b]
  else match prod a b with
    | none => .nan maxPayload true
    | some (.inf s) => .inf s
    | some (.fin s n e) => finTerm anc s n e
    | some (.nan _ _) => .nan maxPayload false

/-- The term of a + b, or of |a − b|. -/
def sumTerm (anc : Int) (diff : Bool) (a b : FVal) : Term :=
  let b := if diff then b.neg else b
  if a.isNan || b.isNan then nanTerm [a, b]
  else match a, b with
    | .inf s, .inf t => if s = t then .inf (if diff then false else s) else .nan maxPayload true
    | .inf s, _ => .inf (if diff then false else s)
    | _, .inf t => .inf (if diff then false else t)
    | a, b =>
      let e := minExp [a, b]
      let v := sumAt 2 e [a, b]
      finTerm anc (!diff && decide (v < 0)) v.natAbs e

def AccElem.addNan (x : AccElem) (p : Nat) : AccElem :=
  { x with nan := true, payload := BitVec.ofNat 22 (Nat.min x.payload.toNat p) }
def AccElem.addInf (x : AccElem) (neg : Bool) : AccElem :=
  if neg then { x with ninf := true } else { x with pinf := true }

/-- Adds a term (R55). -/
def AccElem.add (x : AccElem) : Term → AccElem
  | .fin t o => { x with sum := x.sum + BitVec.ofInt 168 t, ovf := x.ovf || o }
  | .nan p _ => x.addNan p
  | .inf s => x.addInf s

/-- Takes a term into a maximum, or a minimum (R291): an infinity of the other sign is dropped. -/
def AccElem.pick (max : Bool) (x : AccElem) : Term → AccElem
  | .fin t o =>
    let v := BitVec.ofInt 168 t
    let better := if max then BitVec.slt x.sum v else BitVec.slt v x.sum
    { x with sum := if better then v else x.sum, ovf := x.ovf || o }
  | .nan p _ => x.addNan p
  | .inf s => if s = max then x else x.addInf s

def Term.invalid : Term → Bool
  | .nan _ nv => nv
  | _ => false

/-- One step on one pair. -/
def AccElem.step (anc : Int) (st : CellStep) (x : AccElem × Bool) (ab : FVal × FVal) : AccElem × Bool :=
  let t := match st with
    | .mac => macTerm anc ab.1 ab.2
    | .ada => sumTerm anc true ab.1 ab.2
    | _ => sumTerm anc false ab.1 ab.2
  (match st with
    | .mac | .ada => x.1.add t
    | .mxp => x.1.pick true t
    | .mnp => x.1.pick false t, x.2 || t.invalid)

/-- All the terms of one pass on one element, chunk by chunk (R298). -/
def AccElem.run (anc : Int) (seq : List CellStep) (step : Nat) (x : AccElem × Bool) (as bs : List FVal) : AccElem × Bool :=
  ((as.zip bs).zipIdx).foldl (fun x p => AccElem.step anc (seq.getD (p.2 / step % seq.length) .mac) x p.1) x

/-! ## Accumulators -/

/-- Rebuilds the elements i to i + fuel − 1 under f; listed ones are met in order. -/
def accMap (init : AccElem) (f : Nat → AccElem → AccElem) : Nat → Nat → List (Nat × AccElem) → List (Nat × AccElem)
  | 0, _, _ => []
  | n + 1, i, [] => if f i init = init then accMap init f n (i + 1) [] else (i, f i init) :: accMap init f n (i + 1) []
  | n + 1, i, (j, e) :: r =>
    if i = j then (if f i e = init then accMap init f n (i + 1) r else (i, f i e) :: accMap init f n (i + 1) r)
    else if f i init = init then accMap init f n (i + 1) ((j, e) :: r) else (i, f i init) :: accMap init f n (i + 1) ((j, e) :: r)

def Acc.map (a : Acc) (f : Nat → AccElem → AccElem) : Acc := { a with elems := accMap a.init f 6144 0 a.elems }

/-- Element 96m + n. -/
def Acc.at_ (a : Acc) (i : Nat) : AccElem := match a.elems.find? (·.1 == i) with
  | some e => e.2
  | none => a.init

/-- The operand rows and columns of a pass. -/
structure Pass where
  rows : List (List FVal)
  cols : List (List FVal)

/-- Reads the operands of an MMA's passes into one tile (R280, R298). -/
def Core.passes (k : Core) (d : MmaDesc) : List Pass :=
  d.passes.map fun ij =>
    { rows := (List.range d.a.count).map fun m => (k.operand d.a d.ref ij.1 m).1,
      cols := (List.range d.b.count).map fun n => (k.operand d.b d.ref ij.2 n).1 }

/-- What an MMA makes of element 96m + n of a tile, with whether it raised invalid. -/
def MmaDesc.apply (d : MmaDesc) (ps : List Pass) (i : Nat) (x : AccElem) : AccElem × Bool :=
  let m := i / 96
  let n := i % 96
  let step := (kStep d.a.fmt d.b.fmt).getD 128
  ps.foldl (fun x p => match p.rows[m]?, p.cols[n]? with
    | some as, some bs => AccElem.run d.anc d.seq step x as bs
    | _, _ => x) (x, false)

/-! ## MMA_READY (R55, R298) -/

/-- The QMAL events of an MMA's I4X operands, each row and column decoded once. -/
def Core.qmal (k : Core) (m : Mma) : Nat :=
  let one (st : Stream) (images : Nat) : Nat :=
    if st.fmt = 3 ∧ !m.ref then
      ((List.range images).flatMap fun q => (List.range st.count).map fun i => (k.operand st false q i).2).sum
    else 0
  one m.a (if m.jet then m.k + 1 else 1) + one m.b (if m.jet && m.b.coefStride != 0 then m.k + 1 else 1)

/-- Flags of an MMA in a coefficient: JFL at its index, FSR too at index 0. -/
def coefFlags (i : Nat) (f : Flags) : HwFlags :=
  { HwFlags.none with fsr := if i = 0 then BitVec.ofNat 64 f.code else 0, jfl := BitVec.ofNat 64 (f.code * 2 ^ (5 * i)) }

/-- A term of an MMA into one tile raises invalid; that does not depend on what the tile holds (R55, R291). -/
def Core.raisesInvalid (k : Core) (d : MmaDesc) : Bool :=
  let ps := k.passes d
  (List.range 6144).any fun i => decide (i / 96 < d.a.count) && decide (i % 96 < d.b.count) && (d.apply ps i AccElem.zero).2

/-- The invalid of an MMA's terms, at the coefficient index that it used (R55, R290). -/
def State.mmaInvalid (s : State) (c : Fin 256) (j : Fin 4) (d : MmaDesc) (nv : Bool) : State :=
  if nv then s.flagUpdate c j (coefFlags d.coef Flags.invalid) else s

/-- One coefficient tile takes its contributions, in both arrays, and raises its flags. -/
def State.mmaInto (s : State) (c : Fin 256) (j : Fin 4) (jet : Bool) (td : Nat × MmaDesc) : State :=
  let k := s.core c
  let d := td.2
  let ps := k.passes d
  let f (i : Nat) (x : AccElem) : AccElem := (d.apply ps i x).1
  let s := s.onCore c fun k => { k with tiles := upd k.tiles (fin 4 td.1) fun tl =>
    { tl with prim := tl.prim.map f, shad := tl.shad.map f, fed := tl.fed ++ [d], seenMma := true,
              seenCoef := if jet then d.coef else tl.seenCoef } }
  s.mmaInvalid c j d (k.raisesInvalid d)

/-- MMA_READY: the contributions of one that an MZERO has overtaken are dropped; its flags rise none the less. -/
def execMmaReady (id : Nat) (s : State) : Res := match s.cmd? id with
  | none => .next s
  | some cmd => match cmd.body with
    | .mma m =>
      let n := m.qmal.getD ((s.core cmd.core).qmal m)
      let s := m.descs.foldl (fun s d => match m.dead.find? (·.1 == d.1) with
        | some x => s.mmaInvalid cmd.core cmd.strand d.2 x.2
        | none => s.mmaInto cmd.core cmd.strand m.jet d) s
      let s := if n = 0 then s else
        s.flagUpdate cmd.core cmd.strand { HwFlags.none with qflags := 16, counts := [0, 0, 0, 0, n] }
      .next { s with cmds := s.cmds.filter (·.id != id) }
    | _ => .next s

/-! ## The start of matrix commands (R290, R295 to R298) -/

/-- The element that MZERO leaves. -/
def zeroElem (init : BitVec 2) : AccElem :=
  { AccElem.zero with sum := match init.toNat with
    | 1 => BitVec.ofInt 168 (-(2 ^ 127 : Nat))
    | 2 => BitVec.ofNat 168 (2 ^ 127 - 1)
    | _ => 0 }

/-- Marks a tile dead in every MMA that has started and not yet contributed; its operands have been read by now, and the pins that kept
them end here (R292). -/
def Body.kill (co : Core) (t : Nat) : Body → Body
  | .mma m => match m.descs.find? (·.1 == t) with
    | some d => .mma { m with dead := (t, co.raisesInvalid d.2) :: m.dead, qmal := some (m.qmal.getD (co.qmal m)) }
    | none => .mma m
  | b => b

def Cmd.kill (co : Core) (c : Fin 256) (t : Nat) (k : Cmd) : Cmd := if k.core = c ∧ !k.queued then { k with body := k.body.kill co t } else k

/-- MZERO takes effect in queue order. -/
def State.startMzero (s : State) (c : Fin 256) (t : Nat) (init : BitVec 2) (anc : Int) : State :=
  let a : Acc := { init := zeroElem init, elems := [] }
  { s.onCore c (fun k => { k with tiles := upd k.tiles (fin 4 t) fun tl =>
      { tl with prim := a, shad := a, anc, seq := [.mac], coef := 0, fed := [] } }) with
    cmds := s.cmds.map (Cmd.kill (s.core c) c t) }

/-- The descriptions of an MMA's coefficient tiles, with each tile's anchor and sequence as they stand (R280, R290). A jet MMA runs MAC in
every coefficient tile, whatever the sequence of one beyond its base tile is (R282; log 197). -/
def Core.describe (k : Core) (id : Nat) (m : Mma) : List (Nat × MmaDesc) :=
  (List.range (m.k + 1)).map fun n =>
    let tl := k.tiles[fin 4 (m.tile + n)]
    let all := if m.jet then jetPasses m.k (m.b.coefStride != 0) else [(0, 0)]
    (m.tile + n, { id, a := m.a, b := m.b, anc := tl.anc, seq := if m.jet then [.mac] else tl.seq,
                   passes := all.filter (fun ij => ij.1 + ij.2 == n), ref := m.ref, coef := if m.jet then n else tl.coef,
                   allPasses := all.length })

/-- An MMA starts: its settings are fixed, and a jet MMA numbers its tiles. -/
def State.startMma (s : State) (cmd : Cmd) (m : Mma) : State :=
  let ds := (s.core cmd.core).describe cmd.id m
  let s := s.onCmd cmd.id fun k => { k with queued := false, body := .mma { m with descs := ds } }
  if m.jet then
    s.onCore cmd.core fun k => { k with tiles := (List.range (m.k + 1)).foldl (fun ts n =>
      upd ts (fin 4 (m.tile + n)) fun tl => { tl with coef := n }) k.tiles }
  else s

end Sys2Proof.Machine
end

