-- ==== Sys2Proof/Machine/VFunc.lean ====
section
/-! DEFINITION. Functions, conversions, quantisation and random numbers (R244 to R261). -/
namespace Sys2Proof.Machine

/-! ## Divide, roots, reciprocals (R245 to R247) -/

/-- The format of a floating-point code; the codes that name none are illegal here (R244). -/
def fmtIn (f : BitVec 3) : Fmt := (fmtOf f).getD .f32

def execVdiv (g : BitVec 3) (d a b : BitVec 5) (k f : BitVec 3) (j : BitVec 1) (s : State) : Res :=
  s.guarded g fun s =>
    let fm := fmtIn f
    let m := s.mode fm
    s.vfloat fm (j == 1) (tDiv fm) multProd 600 d.toNat [a.toNat, b.toNat] (s.kmask k)
      (onVals fm fun kk xs => divJ fm m kk (arg xs 0) (arg xs 1))

/-- A function of one operand, on values. -/
def State.vfun1 (s : State) (fm : Fmt) (t : Timing) (dur : Nat) (j : BitVec 1) (d a : BitVec 5) (k : BitVec 3)
    (fn : Rnd → Nat → List FVal → List CoefRes) : State :=
  let m := s.mode fm
  s.vfloat fm (j == 1) t multProd dur d.toNat [a.toNat] (s.kmask k) (onVals fm fun kk xs => fn m kk (arg xs 0))

def execVsqrt (g : BitVec 3) (d a : BitVec 5) (k f : BitVec 3) (j : BitVec 1) (s : State) : Res :=
  s.guarded g fun s => s.vfun1 (fmtIn f) (tDiv (fmtIn f)) 600 j d a k (sqrtJ (fmtIn f))
def execVrsq (g : BitVec 3) (d a : BitVec 5) (k f : BitVec 3) (j : BitVec 1) (s : State) : Res :=
  s.guarded g fun s => s.vfun1 (fmtIn f) (tDiv (fmtIn f)) 600 j d a k (rsqJ (fmtIn f))
def execVrcp (g : BitVec 3) (d a : BitVec 5) (k f : BitVec 3) (j : BitVec 1) (s : State) : Res :=
  s.guarded g fun s => s.vfun1 (fmtIn f) (tDiv (fmtIn f)) 600 j d a k (rcpJ (fmtIn f))

/-! ## Special functions (R248, R249) -/

def execVexp (g : BitVec 3) (d a : BitVec 5) (k : BitVec 3) (j : BitVec 1) (s : State) : Res :=
  s.guarded g fun s => s.vfun1 .f32 tFun 2000 j d a k expJ
def execVlog (g : BitVec 3) (d a : BitVec 5) (k : BitVec 3) (j : BitVec 1) (s : State) : Res :=
  s.guarded g fun s => s.vfun1 .f32 tFun 2000 j d a k logJ
def execVsin (g : BitVec 3) (d a : BitVec 5) (k : BitVec 3) (j : BitVec 1) (s : State) : Res :=
  s.guarded g fun s => s.vfun1 .f32 tFun 2000 j d a k sinJ
def execVcos (g : BitVec 3) (d a : BitVec 5) (k : BitVec 3) (j : BitVec 1) (s : State) : Res :=
  s.guarded g fun s => s.vfun1 .f32 tFun 2000 j d a k cosJ
def execVtanh (g : BitVec 3) (d a : BitVec 5) (k : BitVec 3) (j : BitVec 1) (s : State) : Res :=
  s.guarded g fun s => s.vfun1 .f32 tFun 2000 j d a k tanhJ
def execVerf (g : BitVec 3) (d a : BitVec 5) (k : BitVec 3) (j : BitVec 1) (s : State) : Res :=
  s.guarded g fun s => s.vfun1 .f32 tFun 2000 j d a k erfJ
def execVsigm (g : BitVec 3) (d a : BitVec 5) (k : BitVec 3) (j : BitVec 1) (s : State) : Res :=
  s.guarded g fun s => s.vfun1 .f32 tFun 2000 j d a k sigmJ

/-! ## Decimal quantize (R250) -/

def execVqtz (g : BitVec 3) (d a b : BitVec 5) (k : BitVec 3) (s : State) : Res :=
  s.guarded g fun s =>
    let m := s.mode .d64
    s.vfloat .d64 false ⟨40, 32⟩ multLin 0 d.toNat [a.toNat, b.toNat] (s.kmask k)
      (onVals .d64 fun _ xs => [qtzF m (at_ (arg xs 0) 0) (at_ (arg xs 1) 0)])

/-! ## Conversions (R251 to R255) -/

/-- The floating-point format of a VCVT code. -/
def cvtFmt : Nat → Option Fmt
  | 0 => some .f32 | 1 => some .f16 | 2 => some .bf16 | 3 => some .f64 | 4 => some .d64
  | 11 => some .e4m3 | 12 => some .e5m2 | 13 => some .e2m1 | _ => none

/-- The range of an integer code. -/
def cvtRange : Nat → Int × Int
  | 5 => (-(2 ^ 31 : Nat), (2 ^ 31 : Nat) - 1) | 6 => (-(2 ^ 15 : Nat), (2 ^ 15 : Nat) - 1) | 7 => (-128, 127)
  | 8 => (0, (2 ^ 32 : Nat) - 1) | 9 => (0, 65535) | _ => (0, 255)

/-- The integer that an element of an integer code holds. -/
def cvtInt (code b : Nat) : Int := if code ≤ 7 then toInt (cvtWidth code) b else (b : Int)

/-- A floating-point value into another binary format or micro format (R253, R255). -/
def cvtToBinary (f : Fmt) (m : Rnd) (decimal : Bool) (v : FVal) : FVal × Flags := match v with
  | .nan p s => if f = .e2m1 then (.fin false 0 f.xmin, Flags.invalid) else nanRule f [.nan p s]
  | .inf s => if f.hasInf then (.inf s, Flags.none) else (.fin s f.cmax f.xmax, { Flags.none with ovf := true, nx := true })
  | .fin s n e =>
    if !decimal then roundTo f m s n e e
    else if 0 ≤ e then roundTo f m s (n * 10 ^ e.toNat) 0 0
    else if n = 0 then roundTo f m s 0 0 0
    else divFin f m s n 0 (10 ^ (-e).toNat) 0 0

/-- A binary value into decimal64: the largest exponent that carries an exact result (R255). -/
def cvtToDecimal (m : Rnd) (v : FVal) : FVal × Flags := match v with
  | .nan p s => nanRule .d64 [.nan p s]
  | .inf s => (.inf s, Flags.none)
  | .fin s n e =>
    if n = 0 then (.fin s 0 0, Flags.none)
    else if 0 ≤ e then roundTo .d64 m s (n * 2 ^ e.toNat) 0 369
    else roundTo .d64 m s (n * 5 ^ (-e).toNat) e 369

/-- One element from code src to code dst, with the binary and the decimal mode. -/
def cvtElem (frm drm : Rnd) (dst src b : Nat) : Nat × Flags :=
  if dst = 14 then (toDpd b, Flags.none)
  else if src = 14 then (ofDpd b, Flags.none)
  else match cvtFmt src, cvtFmt dst with
    | some fs, some fd =>
      let v := decodeF fs b
      let r := if fd = .d64 then cvtToDecimal drm v else cvtToBinary fd frm (fs == .d64) v
      (encodeF fd r.1, r.2)
    | some fs, none =>
      let (lo, hi) := cvtRange dst
      let r := roundInt (if fs = .d64 then drm else frm) lo hi (decodeF fs b) fs.base
      (ofInt (cvtWidth dst) r.1, r.2)
    | none, some fd =>
      let i := cvtInt src b
      let r := if fd = .d64 then (.fin (decide (i < 0)) i.natAbs 0, Flags.none) else roundTo fd frm (decide (i < 0)) i.natAbs 0 0
      (encodeF fd r.1, r.2)
    | none, none =>
      let (lo, hi) := cvtRange dst
      (ofInt (cvtWidth dst) (clampInt (cvtInt src b) lo hi), Flags.none)

/-- The part p stands in k (R252). -/
def execVcvt (g : BitVec 3) (d a src : BitVec 5) (k : BitVec 3) (t : BitVec 5) (s : State) : Res :=
  s.guarded g fun s => s.withPipe fun s =>
    let ws := cvtWidth src.toNat
    let wd := cvtWidth t.toNat
    let n := count (Nat.max ws wd)
    let p := k.toNat
    let img := s.rv a.toNat
    let rs := (List.range n).map fun i =>
      cvtElem (s.mode .f32) (s.mode .d64) t.toNat src.toNat (elem img ws (if ws < wd then p * n + i else i))
    let lo := if wd < ws then p * n else 0
    let fls := rs.map (·.2)
    let v := image wd (rs.map (·.1))
    let part : VImg := if wd < ws then BitVec.ofNat 32768 (2 ^ (n * wd) - 1) <<< (lo * wd) else allBits
    let decimal := t == 4 || t == 14 || src == 4 || src == 14
    let tm : Timing := if decimal then ⟨48, 32⟩ else ⟨8, 4⟩
    s.vresult tm.lat tm.occ { VRes.empty with
      flags := HwFlags.plain (Flags.union fls), trap := arithTrap s.fte [List.replicate lo Flags.none ++ fls],
      writes := [{ reg := s.vphys d.toNat, mask := part, val := v <<< (lo * wd) }],
      check := if t == 0 || decide (5 ≤ t.toNat ∧ t.toNat ≤ 10) then some 200 else none }

/-! ## Block quantisation (R256 to R259) -/

/-- The blocks of an image in a format, by index. -/
def blocksOf (f : Fmt) (img : VImg) : List (List FVal) :=
  (List.range (count f.width / 32)).map fun b => (List.range 32).map fun i => decodeF f (elem img f.width (32 * b + i))

/-- R257. -/
def execVbmax (g : BitVec 3) (d a : BitVec 5) (f : BitVec 3) (t : BitVec 2) (s : State) : Res :=
  s.guarded g fun s => s.withPipe fun s =>
    let scales := (blocksOf (blockFmt f) (s.rv a.toNat)).map (chosenScale t.toNat)
    s.vresult 6 4 { VRes.empty with
      writes := [{ reg := s.vphys d.toNat, mask := allBits, val := image 8 scales }],
      latch := some { scales := BitVec.ofNat 512 (image 8 scales).toNat, src := f.truncate 2, tgt := t, valid := true } }

/-- A VBMAX of the current strand whose latch write lies after this cycle (R258). -/
def State.latchInFlight (s : State) : Bool :=
  (s.flight s.cur.core s.cur.strand).1.any fun i => match i.act with
    | .eff _ _ _ _ (.res r) | .eff _ _ _ _ (.vdone r) => r.latch.isSome
    | _ => false

/-- The slot of a part: bytes from p × S, S by the register's format (R256). -/
def slotBytes (f : Fmt) : Nat := if f = .f32 then 1024 else 2048

/-- The packed bytes of quantised blocks (R256). -/
def packBlocks (tgt : Nat) (bs : List QBlock) : List Nat :=
  if tgt = 3 then bs.flatMap (·.bytes) else packCodes tgt (bs.flatMap (·.bytes))

def execVqnt (g : BitVec 3) (d a b : BitVec 5) (sp : BitVec 1) (p : BitVec 2) (f : BitVec 3) (t : BitVec 2) (s : State) : Res :=
  s.guarded g fun s => s.withPipe fun s =>
    let l := s.curStrand.latch
    if sp = 0 ∧ (!l.valid || s.latchInFlight || l.src != f.truncate 2 || l.tgt != t) then s.raise 0x07 0
    else
      let fm := blockFmt f
      let scales : VImg := if sp = 1 then s.rv b.toNat else BitVec.ofNat 32768 l.scales.toNat
      let bs := (blocksOf fm (s.rv a.toNat)).zipIdx.map fun x => quantBlock t.toNat (sp == 1) (elem scales 8 x.2) x.1
      let bytes := packBlocks t.toNat bs
      let lo := p.toNat * slotBytes fm
      let (qflags, counts) := qUpdate bs
      let fl := HwFlags.plain { Flags.none with nv := bs.any (·.nv) }
      s.vresult 10 4 { VRes.empty with
        flags := { fl with qflags := BitVec.ofNat 64 qflags, counts },
        writes := [{ reg := s.vphys d.toNat, mask := BitVec.ofNat 32768 (2 ^ (8 * bytes.length) - 1) <<< (8 * lo),
                     val := image 8 bytes <<< (8 * lo) }] }

/-- The values of a packed slot, with what QMAL counts (R259). -/
def unpackSlot (src : Nat) (n : Nat) (slot : List Byte) (scales : VImg) : List FVal × Nat :=
  if src = 3 then
    let ds := (List.range (n / 32)).map fun b => decodeI4x ((slot.drop (19 * b)).take 19)
    (ds.flatMap (·.1), (ds.map (·.2)).sum)
  else
    let f := targetFmt src
    ((List.range n).map fun i =>
      let sc := elem scales 8 (i / 32)
      let code := if src = 2 then nibble slot i else (slot.getD i 0).toNat
      if sc = 255 then onesNan else (decodeF f code).scaled sc, 0)

def execVdqnt (g : BitVec 3) (d a b : BitVec 5) (p : BitVec 2) (f : BitVec 3) (src : BitVec 2) (s : State) : Res :=
  s.guarded g fun s => s.withPipe fun s =>
    let fm := blockFmt f
    let n := count fm.width
    let img := s.rv a.toNat
    let lo := p.toNat * slotBytes fm
    let slot := (List.range (slotBytes fm)).map fun i => BitVec.ofNat 8 (elem img 8 (lo + i))
    let (vs, mal) := unpackSlot src.toNat n slot (s.rv b.toNat)
    let rs := vs.map (roundVal fm .rne)
    let fls := rs.map (·.2)
    let (qflags, counts) := qcounts 0 0 0 0 mal
    s.vresult 10 4 { VRes.empty with
      flags := { HwFlags.plain (Flags.union fls) with qflags := BitVec.ofNat 64 qflags, counts },
      trap := arithTrap s.fte [fls],
      writes := [{ reg := s.vphys d.toNat, mask := allBits, val := image fm.width (rs.map fun r => encodeF fm r.1) }],
      check := checkOf fm.width (some fm) 200 }

/-! ## Random numbers (R260, R261) -/

/-- The ten Philox rounds on (c0, c1, c2, c3) and (k0, k1). -/
def philox : Nat → Nat → Nat → Nat → Nat → Nat → Nat → List Nat
  | 0, c0, c1, c2, c3, _, _ => [c0, c1, c2, c3]
  | n + 1, c0, c1, c2, c3, k0, k1 =>
    let p0 := 0xD2511F53 * c0
    let p1 := 0xCD9E8D57 * c2
    philox n (p1 / 2 ^ 32 ^^^ c1 ^^^ k0) (p1 % 2 ^ 32) (p0 / 2 ^ 32 ^^^ c3 ^^^ k1) (p0 % 2 ^ 32)
      ((k0 + 0x9E3779B9) % 2 ^ 32) ((k1 + 0xBB67AE85) % 2 ^ 32)

/-- An instruction on groups of four words of a row: fn takes the register's and the second source's group. -/
def State.vgroups (s : State) (t : Timing) (d : BitVec 5) (k : BitVec 3) (x y : VImg) (fn : List Nat → List Nat → List Nat) : State :=
  s.withPipe fun s =>
    let es := (List.range 256).flatMap fun q =>
      fn ((List.range 4).map fun i => elem x 32 (4 * q + i)) ((List.range 4).map fun i => elem y 32 (4 * q + i))
    s.vresult t.lat t.occ { VRes.empty with writes := [vwrite (s.vphys d.toNat) (s.kmask k) 32 es], check := checkOf 32 none 200 }

def execVrng (g : BitVec 3) (d a b : BitVec 5) (k : BitVec 3) (s : State) : Res :=
  s.guarded g fun s => s.vgroups ⟨48, 40⟩ d k (s.rv a.toNat) (s.rv b.toNat) fun c q =>
    philox 10 (c.getD 0 0) (c.getD 1 0) (c.getD 2 0) (c.getD 3 0) (q.getD 0 0) (q.getD 1 0)

/-- Four words as one number, and back. -/
def join32 (ws : List Nat) : Nat := ws.foldr (fun w a => w + 2 ^ 32 * a) 0
def split32 (v : Nat) : List Nat := (List.range 4).map fun i => bits v (32 * i) 32

def execVcadd (g : BitVec 3) (d a b : BitVec 5) (k : BitVec 3) (s : State) : Res :=
  s.guarded g fun s => s.vgroups ⟨6, 4⟩ d k (s.rv a.toNat) (s.rv b.toNat) fun c q => split32 (join32 c + join32 q)
def execVcaddX (g : BitVec 3) (d a b : BitVec 5) (k : BitVec 3) (s : State) : Res :=
  s.guarded g fun s => s.vgroups ⟨6, 4⟩ d k (s.rv a.toNat) 0 fun c _ => split32 (join32 c + (s.rx b).toNat)

end Sys2Proof.Machine
end

