-- ==== Sys2Proof/Machine/Transfer.lean ====
section
/-! DEFINITION. Transfers (R359 to R377): CPY, CPY2, CPYB, CPYQ and CPYH at issue, their reads, writes and arrivals; signed
transfers and resends; correction fetches; AMO, ACELL and ACRD with anchored cells (R62 to R64) and host AtomicOps. -/
namespace Sys2Proof.Machine

/-! ## Where accesses of a command count -/

/-- Core d runs another member of core c's group (R162). -/
def State.fellow (s : State) (c d : Fin 256) : Bool := d != c && match (s.core c).owner, (s.core d).owner with
  | some o, some p => o.kid == p.kid && o.gpos == p.gpos
  | _, _ => false

/-- The clock on which an access of a command counts: raw cycles in a PACED group, the owning member's TT for a member's own
state, and the least TT among the members otherwise (R162). -/
def State.placeClock (s : State) (k : Cmd) (p : Place) : Clock := match s.engClock k.core k.nested, (s.core k.core).owner with
  | .tt c, some o => match p with
    | .spm d | .bsram d => if d = c ∨ s.fellow c d then .tt d else .least o.kid o.gpos
    | _ => .least o.kid o.gpos
  | .tt c, none => .tt c
  | k, _ => k

/-- The command's group still holds its core. -/
def State.holds (s : State) (k : Cmd) : Bool := k.owner.isSome && (s.core k.core).owner == k.owner

/-- The kernel that a command's accesses belong to. -/
def Cmd.kid? (k : Cmd) : Option Nat := k.owner.map (·.kid)

/-! ## Paths (R360, R361) -/

/-- Base, rate and read offset between two places, for a command of core c (R360). -/
def path (c : Fin 256) (src dst : Place) : Nat × Nat × Nat :=
  let far (p : Place) (isSrc : Bool) : Nat × Nat × Nat := match p with
    | .spm d =>
      if d = c then (16, 512, 2)
      else if clusterOf d = clusterOf c then (40, 256, if isSrc then 20 else 2)
      else if dieOf d = dieOf c then (64, 256, if isSrc then 32 else 2)
      else
        let h := hops (dieOf c) (dieOf d)
        (140 + 20 * (h - 1), 256, if isSrc then 70 + 10 * (h - 1) else 2)
    | .near => if isSrc then (180, 256, 90) else (160, 256, 2)
    | .bsram _ => (24, 512, 2)
    | _ => if isSrc then (520, 64, 260) else (500, 64, 2)
  match dst with
  | .bsram _ => (match src with
    | .dev => (540, 64, 270)
    | _ => (24, 512, 2))
  | _ => if src = .spm c then far dst false else far src true

/-- The offsets of r and p from the start, and the occupancy, for n bytes (R361). -/
def State.copyTiming (s : State) (c : Fin 256) (src dst : Place) (n : Nat) : Nat × Nat × Nat :=
  let (base, rate, rd) := path c src dst
  let w := ceilDiv n rate
  let floor := match s.owner? c with
    | some (_, g) => lfloor g.level
    | none => 0
  let other (p : Place) : Bool := s.timed c && match p with
    | .spm d => s.fellow c d
    | _ => false
  let r := if other src then Nat.max rd floor else rd
  let p := if other src then Nat.max (base + w) (r + w) else base + w
  let p := if other dst then Nat.max p (floor + w) else p
  (r, p, Nat.max 1 w)

/-! ## The checks at issue (R359, R362) -/

/-- The memory that a VA names: 0 translated, 1 near, 2 + n the SPM of core n. -/
def vaMem (va : Int) : Option Nat :=
  if va < 0 ∨ (2 ^ 64 : Nat) ≤ va then none
  else
    let a := va.toNat
    if bits a 48 16 = 0xFFFE then some (2 + bits a 20 28)
    else if bits a 48 16 = 0xFFFD then some 1
    else if bits a 48 16 = 0 then some 0
    else none

/-- Every segment of an end names one memory, as far as it names any. -/
def oneMem (segs : List (Int × Nat)) : Bool := match segs.filterMap fun g => vaMem g.1 with
  | [] => true
  | m :: r => r.all (· == m)

def allIn (m : Nat) (segs : List (Int × Nat)) : Bool := segs.all fun g => vaMem g.1 == some m

/-- What a copy instruction asks for. `own` ends are checked by R359: plain copies need an end in the issuing core's SPM, CPYQ
needs its source there, CPYB its source there or in device memory. -/
inductive CopyForm where
  | plain | quant (src tgt : Nat) | bsram | host (coh : Bool)
deriving DecidableEq, Repr

/-- The end rules (R359). -/
def CopyForm.endsOk (f : CopyForm) (c : Fin 256) (src dst : List (Int × Nat)) : Bool :=
  let own := 2 + c.val
  match f with
  | .plain => oneMem src && oneMem dst && (allIn own src || allIn own dst)
  | .quant _ _ => oneMem dst && allIn own src
  | .bsram => allIn own src || allIn 0 src
  | .host _ => true

/-- The barrier operand: none, or the barrier core and offset after the checks of R362. -/
def State.withArrival (s : State) (z : BitVec 1) (a : BitVec 4) (core : Fin 256) (f : Option (Fin 256 × Nat) → State) : State :=
  if z = 0 then f none else
  let off := (s.ra a).toNat
  if off % 16 ≠ 0 then s.raise 0x06 (s.ra a)
  else if off + 16 > s.spmLimit then s.raise 0x05 (s.ra a)
  else f (some (core, off))

/-- A copy that names a barrier has it watched (R332). -/
def State.watchFor (s : State) (bar : Option (Fin 256 × Nat)) : State := match bar with
  | some (c, off) => s.onCore c fun k => k.watch off
  | none => s

/-- The lowest byte of some runs that a pin of core c covers, by the address that named it (R293). -/
def State.pinnedByte (s : State) (c : Fin 256) (rs : List Run) : Option Nat :=
  let hit (sp : Space) (r : Run) : Option Nat :=
    least ((((s.core c).pins.filter (·.space == sp)).flatMap (·.regions)).filterMap fun (g : Nat × Nat) =>
      if overlap r.addr r.len g.1 g.2 then some (r.va + (Nat.max r.addr g.1 - r.addr)) else none)
  least (rs.filterMap fun r => match r.place with
    | .spm d => if d = c then hit .spm r else none
    | .bsram d => if d = c then hit .bsram r else none
    | _ => none)

def placeOf (rs : List Run) : Place := match rs with
  | r :: _ => r.place
  | [] => .dev

/-- The core whose barrier a copy arrives on. -/
def barrierCore (c : Fin 256) : Place → Fin 256
  | .spm d => d
  | _ => c

/-- The least monotone due time for a host transfer of core c after those that it has under way (R367). -/
def State.afterHost (s : State) (c : Fin 256) (t : Nat) : Nat :=
  s.agenda.foldl (fun m i => match i.act with
    | .ev (.cpyhPerform _) => if i.core = c.val then Nat.max m i.due else m
    | _ => m) t

/-- A copy after its form has been found good: reach, barrier and pins in the order of R362, then its place in the queue. -/
def State.copyWith (s : State) (form : CopyForm) (src dst : List (Int × Nat)) (n : Nat) (sig : Option Word) (z : BitVec 1) (a : BitVec 4) : State :=
  let c := s.cur.core
  let hs := s.resolveAll false src
  let boff := match form, dst with
    | .bsram, g :: _ => some (g.1.toNat, g.2)
    | _, _ => none
  let hd := match boff with
    | some _ => []
    | none => s.resolveAll true dst
  let rd : List Run := match boff with
    | some (o, m) => [{ place := .bsram c, addr := o, len := m, va := o, shadow := none }]
    | none => runsOf hd
  let hits := hs ++ hd
  let isHost := match form with
    | .host _ => true
    | _ => false
  let badB := match boff with
    | some (o, m) => if bsramSize < o + m then some (Nat.max o bsramSize) else none
    | none => none
  s.withWalks hits fun s =>
  match (if isHost then none else hostOf hits) with
  | some va => s.raise 0x07 (BitVec.ofNat 64 va)
  | none =>
  match (if (reachOf hits).isSome then none else badB) with
  | some x => s.raise 0x05 (BitVec.ofNat 64 x)
  | none =>
  s.withReach hits fun s =>
    let rs := runsOf hs
    let srcHost := rs.any fun r => r.place == .host
    let dstHost := rd.any fun r => r.place == .host
    let hostBad : Option (Nat × Nat) := match form with
      | .host coh =>
        let he := if srcHost then rs else rd
        let local_ := if srcHost then rd else rs
        let lowest := (least ((rs ++ rd).map (·.va))).getD 0
        let out := he.filter fun r => !(bits s.cohBase.toNat 0 1 == 1 && decide (s.cohBase.toNat / 2 ^ 36 = r.addr / 2 ^ 36)
          && decide (s.cohBase.toNat / 2 ^ 36 = (r.addr + r.len - 1) / 2 ^ 36))
        if s.timed c ∧ (srcHost ∨ dstHost) then (hostOf hits).map fun v => (0x09, v)
        else if srcHost = dstHost then some (0x05, lowest)
        else if !(he.all fun r => r.place == .host) ∨ !(local_.all fun r => match r.place with
            | .spm d => d == c
            | .near | .dev => true
            | _ => false) then some (0x05, lowest)
        else if dstHost ∧ (s.replica? c).isSome then (least (rd.map (·.va))).map fun v => (0x09, v)
        else if coh then (least (out.map (·.va))).map fun v => (0x05, v)
        else none
      | _ => none
    match hostBad with
    | some (k, va) => s.raise k (BitVec.ofNat 64 va)
    | none =>
    s.withArrival z a (barrierCore c (placeOf rd)) fun bar =>
      match s.pinnedByte c rd with
      | some x => s.raise 0x07 (BitVec.ofNat 64 x)
      | none =>
        let reach := Nat.max (placeReach c (placeOf rs)) (placeReach c (placeOf rd))
        let s := s.watchFor bar
        match form with
        | .host coh => s.enqueue .copy (ceilDiv n 64) reach (.cpyh { src := rs, dst := rd, coh, bar, bytes := n, posted := false, buf := [] })
        | _ =>
          let (r, p, occ) := s.copyTiming c (placeOf rs) (placeOf rd) n
          s.enqueue .copy occ reach (.copy
            { src := rs, dst := rd, kind := (match form with
                | .quant x y => .quant x y
                | _ => .plain),
              sig, resent := false, bar, route := none, bytes := n, rd := r, lat := p, buf := [], read := false, fetch := false, due := false, judged := false,
              dropped := false })

/-- A copy instruction: a free queue entry (R73), then its form (R362). -/
def State.copyOp (s : State) (form : CopyForm) (ok : Bool) (src dst : List (Int × Nat)) (n : Nat) (sig : Option Word) (z : BitVec 1)
    (a : BitVec 4) : State :=
  s.withQueue .copy fun s =>
    if !ok || n == 0 || decide (2 ^ 26 < n) || !form.endsOk s.cur.core src dst then s.raise 0x07 0
    else s.copyWith form src dst n sig z a

def State.raI (s : State) (a : BitVec 4) : Int := ((s.ra a).toNat : Int)

/-! ## The copy instructions (R365 to R368) -/

def execCpy (g : BitVec 3) (d a : BitVec 4) (b : BitVec 5) (z sg : BitVec 1) (c : BitVec 4) (s : State) : Res :=
  s.guarded g fun s =>
    let x := (s.rx b).toNat
    let n := bits x 0 32
    let toSpm := match vaMem (s.raI d) with
      | some m => decide (2 ≤ m)
      | none => false
    s.copyOp .plain (bits x 32 32 == 0 && (sg == 0 || (n % 8 == 0 && toSpm))) [(s.raI a, n)] [(s.raI d, n)] n
      (if sg = 1 then some (s.rx (b + 1)) else none) z c

/-- Rows of a strided end. -/
def rowSegs (base stride : Int) (bytes rows : Nat) : List (Int × Nat) :=
  (List.range rows).map fun (i : Nat) => (base + stride * (i : Int), bytes)

def execCpy2 (g : BitVec 3) (d a : BitVec 4) (b : BitVec 5) (z : BitVec 1) (c : BitVec 4) (s : State) : Res :=
  s.guarded g fun s =>
    let x := (s.rx b).toNat
    let y := (s.rx (b + 1)).toNat
    let w := bits x 0 32
    let rows := bits x 32 16 + 1
    let ok := bits x 48 16 == 0
    let segs (base : Int) (lo : Nat) : List (Int × Nat) :=
      if w = 0 ∨ 2 ^ 26 < w * rows then [] else rowSegs base (toInt 32 (bits y lo 32)) w rows
    s.copyOp .plain ok (segs (s.raI a) 0) (segs (s.raI d) 32) (w * rows) none z c

def execCpyb (g : BitVec 3) (d a : BitVec 4) (b : BitVec 5) (z : BitVec 1) (c : BitVec 4) (s : State) : Res :=
  s.guarded g fun s =>
    let x := (s.rx b).toNat
    let n := bits x 0 32
    s.copyOp .bsram (bits x 32 32 == 0) [(s.raI a, n)] [(s.raI d, n)] n none z c

/-- Bytes that n elements quantised to a target take, scales included (R366). -/
def quantBytes (tgt n : Nat) : Nat := match tgt with
  | 0 | 1 => 33 * n / 32
  | 2 => 17 * n / 32
  | _ => 19 * n / 32

def execCpyq (g : BitVec 3) (d a : BitVec 4) (b : BitVec 5) (z : BitVec 1) (c : BitVec 4) (s : State) : Res :=
  s.guarded g fun s =>
    let x := (s.rx b).toNat
    let n := bits x 0 32
    let src := bits x 32 2
    let tgt := bits x 34 2
    let bytes := n * (if src = 0 then 4 else 2)
    let ok := bits x 36 28 == 0 && src != 3 && n % 32 == 0 && n != 0 && decide (n ≤ 2 ^ 26)
    -- the bound of R362 counts elements here
    s.withQueue .copy fun s =>
      if !ok || !(CopyForm.quant src tgt).endsOk s.cur.core [(s.raI a, bytes)] [(s.raI d, quantBytes tgt n)] then s.raise 0x07 0
      else s.copyWith (.quant src tgt) [(s.raI a, bytes)] [(s.raI d, quantBytes tgt n)] bytes none z c

def execCpyh (g : BitVec 3) (d a : BitVec 4) (b : BitVec 5) (z h : BitVec 1) (c : BitVec 4) (s : State) : Res :=
  s.guarded g fun s =>
    let x := (s.rx b).toNat
    let n := bits x 0 32
    s.copyOp (.host (h == 1)) (bits x 32 32 == 0) [(s.raI a, n)] [(s.raI d, n)] n none z c

/-! ## Reading the source (R349, R361, R364) -/

/-- A command meets a poisoned or uncorrectable place: it ends, and its group takes MEMORY (R350, R364). -/
def State.memoryFault (s : State) (k : Cmd) (va : Nat) : State :=
  let t := s.dropCmd k.id
  if t.holds k then t.groupFault k.core 0x0D k.pc (BitVec.ofNat 64 va) (some k.strand) else t

/-- Reads runs for a command in this cycle and goes on with the bytes and whether a correction fetch delivers them later. -/
def State.readSource (s : State) (k : Cmd) (rs : List Run) (f : State → List Byte → Bool → State) : State :=
  let rr := s.readRuns k.kid? rs
  match rr.failed with
  | some va => (s.loseRuns rs rr.lost).memoryFault k va
  | none =>
    if rr.fetch.isEmpty then f s rr.bytes false
    else
      let t := { s with free := s.free + 1 }
      f (t.push .time (s.time + 600 + Config.fixDelay s.free % 1401) 4 k.core.val (.ev (.correctionDelivery k.id))) rr.bytes true

/-- A copy's source is read; a copy whose time to perform has come already goes on at once. -/
def State.copyReads (s : State) (k : Cmd) (cp : Copy) : State :=
  s.readSource k cp.src fun s bs fetch =>
    let s := s.onCmd k.id fun k => { k with body := .copy { cp with buf := bs, read := true, fetch } }
    if cp.due && !fetch then s.push .time (s.time + 1) 4 k.core.val (.ev (.copyPerform k.id)) else s

/-- COPY_READ (R361). -/
def execCopyRead (id : Nat) (s : State) : Res := match s.cmd? id with
  | none => .next s
  | some k => match k.body with
    | .copy cp => if k.queued || cp.read then .next s else .next (s.copyReads k cp)
    | _ => .next s

/-- COPY_RESEND_READ (R370): the source is read again at P + RD. -/
def execCopyResendRead (id : Nat) (s : State) : Res := match s.cmd? id with
  | none => .next s
  | some k => match k.body with
    | .copy cp => if cp.resent && !cp.read then .next (s.copyReads k cp) else .next s
    | _ => .next s

/-! ## Performing (R361, R363, R366, R369, R370) -/

/-- The quantised blocks of a CPYQ. -/
def quantCopy (src tgt : Nat) (bs : List Byte) : List QBlock :=
  let f := blockFmt (BitVec.ofNat 3 src)
  let w := f.width / 8
  (List.range (bs.length / (32 * w))).map fun b => quantChosen tgt ((List.range 32).map fun i => decodeF f (leNat ((bs.drop (w * (32 * b + i))).take w)))

/-- The bytes that a copy writes. -/
def Copy.out (cp : Copy) : List Byte := match cp.kind with
  | .plain => cp.buf
  | .quant src tgt =>
    let qs := quantCopy src tgt cp.buf
    (packBlocks tgt qs).map (BitVec.ofNat 8) ++ (if tgt = 3 then [] else qs.map fun q => BitVec.ofNat 8 q.scale)

/-- The flags of a CPYQ (R366). -/
def Copy.flags (cp : Copy) : Option HwFlags := match cp.kind with
  | .plain => none
  | .quant src tgt =>
    let qs := quantCopy src tgt cp.buf
    let (qf, counts) := qUpdate qs
    let nv : Word := if qs.any (·.nv) then 16 else 0
    some { HwFlags.none with qflags := BitVec.ofNat 64 qf, counts, fsr := nv, jfl := nv }

/-- A core whose pins a landing write meets, with the lowest written offset (R293): another core than the writer's, or for a
route send or a host transfer any core. -/
def State.landsOnPin (s : State) (c : Fin 256) (rs : List Run) (sent : Bool) : Option (Fin 256 × Nat) :=
  (rs.findSome? fun r => match r.place with
    | .spm d => if (d != c || sent) && (s.core d).pinned .spm r.addr r.len then some d else none
    | _ => none).map fun d => (d, (least (rs.map (·.addr))).getD 0)

/-- A copy that cannot perform at its due TT stops its issuing member (R159, R370), and the member whose SPM it writes, so that nothing there
differs at a TT from a run without the slip (R164; log 208). -/
def State.slipCopy (s : State) (k : Cmd) (cp : Copy) (cause : SlipCause) : State :=
  if !s.holds k then s else
  let s := s.slip k.core cause
  match placeOf cp.dst with
  | .spm d | .bsram d => if s.fellow k.core d then s.slip d cause else s
  | _ => s

/-- Those slips end. -/
def State.unslipCopy (s : State) (k : Cmd) (cp : Copy) : State :=
  let one (s : State) (c : Fin 256) : State := (s.unslip c (.correction k.id)).unslip c (.resend k.id)
  match placeOf cp.dst with
  | .spm d | .bsram d => one (one s k.core) d
  | _ => one s k.core

/-- A signature mismatch (R370): the first starts a resend, the second raises LINK at the receiving core, with the route word of a route
send (R442). A started transfer of a context that drains is sent again too (log 157). -/
def State.mismatch (s : State) (k : Cmd) (cp : Copy) : State :=
  if cp.resent then
    let at_ := barrierCore k.core (placeOf cp.dst)
    let t := s.dropCmd k.id
    if t.holds k then t.faultKernel ((k.owner.map (·.kid)).getD 0) { t.faultRec (some (if t.fellow k.core at_ then at_ else k.core)) none 0x0E 0 (cp.route.getD 0) with core := at_.val } else t
  else
    let kept := cp.src.isEmpty
    let buf := if kept then cp.buf else []
    let s := s.onCmd k.id fun k => { k with body := .copy { cp with resent := true, read := kept, buf, due := false } }
    let rd := (path k.core (placeOf cp.src) (placeOf cp.dst)).2.2
    let s := if kept then s else s.push .time (s.time + rd) 7 k.core.val (.ev (.copyResendRead k.id))
    let s := s.push .time (s.time + cp.lat) 4 k.core.val (.ev (.copyResendLand k.id))
    s.slipCopy k cp (.resend k.id)

/-- A copy that has passed its checks meets a pin where it lands: it writes nothing, and SCHED is raised there (R293). -/
def State.pinTrap (s : State) (p : Fin 256 × Nat) : State := s.eventTrap p.1 0x07 (BitVec.ofNat 64 p.2) none

/-- The pins where a copy or a host transfer of this cycle lands, as the verdicts of the cycle have left them (R292, R293). -/
def State.copyPins (s : State) (id : Nat) : State := match s.cmd? id with
  | none => s
  | some k => match k.body with
    | .copy cp => (match s.landsOnPin k.core cp.dst cp.src.isEmpty with
      | some p => (s.onCmd id fun k => { k with body := .copy { cp with dropped := true } }).pinTrap p
      | none => s)
    | .cpyh h => (match s.landsOnPin k.core h.dst true with
      | some p => (s.dropCmd id).pinTrap p
      | none => s)
    | _ => s

/-- The moment to perform has come: data that are still to be read or corrected hold it (a slip in a TIMED group, R164, R349); a signed
transfer is checked; otherwise it writes in this cycle (R369). -/
def State.copyJudge (s : State) (k : Cmd) (cp : Copy) : State :=
  if !cp.read || cp.fetch then
    let s := s.onCmd k.id fun k => { k with body := .copy { cp with due := true } }
    s.slipCopy k cp (.correction k.id)
  else
    let (lost, s) := if cp.sig.isSome then s.lossy k.core else (false, s)
    let good := match cp.sig with
      | some w => fold (wordsOf cp.buf) == w && !lost
      | none => true
    if !good then s.mismatch k cp
    else
      let s := s.onCmd k.id fun k => { k with body := .copy { cp with judged := true, dropped := false } }
      let s := s.unslipCopy k cp
      let s := match cp.flags with
        | some f => s.flagUpdate k.core k.strand f
        | none => s
      (s.pushAs .time s.time 4 afterVerdicts k.seq (.copyPins k.id)).pushAs .time s.time 8 k.core.val k.seq (.ev (.copyPerform k.id))

/-- The arrival of a transfer on its barrier (R333). -/
def State.arrival (s : State) (bar : Option (Fin 256 × Nat)) (n : Nat) : State := match bar with
  | some (c, off) => s.arriveAt c off 1 n
  | none => s

/-- Every destination byte is written and the arrival made; a copy that met a pin where it lands does neither (R293, R333). A partial write
of a poisoned sector, or one that finds the checkpoint log full, raises MEMORY (R350, R355, R363). A pin that an MMA has set in this very
cycle counts (R292). -/
def State.copyWrites (s : State) (k : Cmd) (cp : Copy) : State :=
  if cp.dropped then s.dropCmd k.id
  else match s.landsOnPin k.core cp.dst cp.src.isEmpty with
  | some p => (s.dropCmd k.id).pinTrap p
  | none => match s.writeRuns k.ctx k.kid? cp.dst cp.out with
    | .error e => (s.lose e.lost).memoryFault k e.at_
    | .ok t => (t.dropCmd k.id).arrival cp.bar cp.bytes

/-- COPY_PERFORM (R361): the check in the cycle p, then the writes of that cycle. -/
def execCopyPerform (id : Nat) (s : State) : Res := match s.cmd? id with
  | none => .next s
  | some k => match k.body with
    | .copy cp =>
      if k.queued then .next s
      else .next (if cp.judged then s.copyWrites k cp else s.copyJudge k cp)
    | _ => .next s

/-- COPY_RESEND_LAND (R370): the resent data land at P + (p − s). -/
def execCopyResendLand (id : Nat) (s : State) : Res := match s.cmd? id with
  | none => .next s
  | some k => match k.body with
    | .copy cp => if cp.resent && !cp.judged then .next (s.copyJudge k cp) else .next s
    | _ => .next s

/-- An access of a command that performs on another clock than its own core's is one that a FENCE of its strand waits for by the due TT: until
the TT after it, n counts from now (R386). -/
def State.markPassed (s : State) (k : Cmd) (p : Place) (n : Nat) : State :=
  let mine := s.engClock k.core k.nested
  if s.placeClock k p = mine then s else s.pushAs mine (s.now mine + n + 1) 0 k.core.val k.seq (.passed k.core k.strand (placeReach k.core p))

/-- A copy leaves the queue (R96): its read and its performing are due from its start. -/
def State.startCopy (s : State) (k : Cmd) (cp : Copy) : State :=
  let base := s.now (s.engClock k.core k.nested)
  let s := s.onCmd k.id fun k => { k with queued := false }
  let s := (s.markPassed k (placeOf cp.src) cp.rd).markPassed k (placeOf cp.dst) cp.lat
  let s := s.push (s.placeClock k (placeOf cp.src)) (base + cp.rd) 7 k.core.val (.ev (.copyRead k.id))
  s.push (s.placeClock k (placeOf cp.dst)) (base + cp.lat) 4 k.core.val (.ev (.copyPerform k.id))

/-! ## Host transfers (R367, R387) -/

/-- A CPYH leaves the copy queue at its start cycle. -/
def State.startCpyh (s : State) (k : Cmd) : State :=
  let s := s.onCmd k.id fun k => { k with queued := false }
  let due := s.afterHost k.core (s.time + 1 + Config.hostDelay s.free)
  ({ s with free := s.free + 1 }).push .time due 7 k.core.val (.ev (.cpyhPerform k.id))

/-- CPYH_PERFORM (R367): first the source is read and, towards the host, the writes are posted; then the last write is made and
the transfer performs with its arrival. One that has started writes its destination in a drain too (R121; log 158). -/
def execCpyhPerform (id : Nat) (s : State) : Res := match s.cmd? id with
  | none => .next s
  | some k => match k.body with
    | .cpyh h =>
      if k.queued then .next s
      else if !h.posted then
        .next (s.readSource k h.src fun s bs fetch =>
          let s := s.onCmd k.id fun k => { k with body := .cpyh { h with posted := true, buf := bs } }
          let due := s.afterHost k.core ((if fetch then s.time + 600 + Config.fixDelay s.free % 1401 else s.time) + 1 + Config.hostDelay s.free)
          (({ s with free := s.free + 1 }).pushAs .time due 4 afterVerdicts k.seq (.copyPins k.id)).pushAs .time due 8 k.core.val k.seq
            (.ev (.cpyhPerform k.id)))
      else
        .next (match s.landsOnPin k.core h.dst true with
        | some p => (s.dropCmd k.id).pinTrap p
        | none => match s.writeRuns k.ctx k.kid? h.dst h.buf with
          | .error e => (s.lose e.lost).memoryFault k e.at_
          | .ok t => (t.dropCmd k.id).arrival h.bar h.bytes)
    | _ => .next s

/-! ## Correction fetches (R349) -/

/-- CORRECTION_DELIVERY: the mismatching sectors of the fetched stripes are rebuilt and written back, and the data arrive. -/
def execCorrectionDelivery (id : Nat) (s : State) : Res := match s.cmd? id with
  | none => .next s
  | some k =>
    let fix (rs : List Run) : State := ((s.readRuns k.kid? rs).fetch).foldl State.correct s
    match k.body with
    | .copy cp =>
      if !cp.fetch then .next s
      else
        let s := (fix cp.src).onCmd id fun k => { k with body := .copy { cp with fetch := false } }
        .next (if cp.due then s.copyJudge k { cp with fetch := false } else s)
    | .cpyh h => .next (fix h.src)
    | _ => .next s

/-! ## Atomics (R371 to R374) -/

/-- What an AMO makes of the target's value (R372), on 8·size bits. -/
def amoValue (op size : Nat) (v x cmp : Nat) : Nat :=
  let w := 8 * size
  let lo (n : Nat) : Nat := n % 2 ^ w
  match op with
  | 0 => lo (v + lo x)
  | 1 => lo x
  | 2 => if v = lo cmp then lo x else v
  | 3 => if toInt w (lo x) < toInt w v then lo x else v
  | 4 => if toInt w v < toInt w (lo x) then lo x else v
  | 5 => v &&& lo x
  | 6 => v ||| lo x
  | _ => v ^^^ lo x

/-- A value sign-extended to 64 bits. -/
def signed (size v : Nat) : Word := BitVec.ofInt 64 (toInt (8 * size) v)

/-- Issues a command that is not queued. -/
def State.issueCmd (s : State) (reach : Nat) (body : Body) : State :=
  s.addCmd (s.mkCmd .none (s.now (s.engineClock s.cur.core)) 0 reach body)

/-- The result of a command that returns at an offset (R434). -/
def State.returns (s : State) (n : Nat) (d : BitVec 5) (id reach : Nat) : State :=
  if d = 0 then s else s.later n 2 (.xret d id reach none)

/-- The event of a command at an offset from its issue, on the clock of the place it touches. -/
def State.eventAt (s : State) (k : Cmd) (p : Place) (n phase : Nat) (i : Instr) : State :=
  (s.markPassed k p n).push (s.placeClock k p) (s.now (s.engClock k.core k.nested) + n) phase k.core.val (.ev i)

/-- Resolves an atomic's target of n bytes. -/
def State.atomicHits (s : State) (write : Bool) (va n : Nat) : List Hit := [s.resolve write va (Nat.min n (65536 - va % 65536))]

/-- The run of an atomic's target. -/
def targetOf (hs : List Hit) : Run := match runsOf hs with
  | r :: _ => r
  | [] => { place := .dev, addr := 0, len := 0, va := 0, shadow := none }

def execAmo (g : BitVec 3) (d : BitVec 5) (a : BitVec 4) (b : BitVec 5) (_sc : BitVec 4) (z : BitVec 1) (o : BitVec 3) (s : State) : Res :=
  s.guarded g fun s =>
    let c := s.cur.core
    let va := s.ra a
    let size := if z = 1 then 8 else 4
    let hs := s.atomicHits true va.toNat size
    s.withReach hs fun s =>
      let t := { targetOf hs with len := size }
      let at_ : Atomic := { target := t, size, op := o.toNat, x := s.rx b, cmp := s.rx d, d, fte := 0 }
      let own := match t.place with
        | .spm e => e == c
        | .near | .host => true
        | _ => false
      if !own then s.raise 0x05 va
      else if t.place = .host ∧ (s.timed c ∨ (s.replica? c).isSome) then s.raise 0x09 va
      else if va.toNat % size ≠ 0 then s.raise 0x06 va
      else match t.place with
        | .host =>
          let can := if size = 4 then (s.ctxs[s.ctxOf c]).atomic4 else (s.ctxs[s.ctxOf c]).atomic8
          if 2 < o.toNat ∨ !can then s.raise 0x0A va
          else
            let id := s.nextId
            let s := s.issueCmd 5 (.hostAmo at_)
            let s := s.onStrand c s.cur.strand fun t => { t with wait := .hostAmo id }
            let due := s.time + 1 + Config.hostDelay s.free
            (({ s with free := s.free + 1 }).push .time due 14 c.val (.ev (.hostAtomicCompletion id))).returns 1 d id 5
        | p =>
          if p = .spm c ∧ s.curCore.pinned .spm t.addr size then s.raise 0x07 0
          else
            let k := s.mkCmd .none 0 0 (placeReach c p) (.amo at_)
            let near := p = .near
            ((s.addCmd k).eventAt k p (if near then 180 else 6) 13 (.amoPerform k.id)).returns (if near then 190 else 8) d k.id k.reach

/-- Reads n bytes of a run's place as a number, and writes them. -/
def State.peek (s : State) (r : Run) (n : Nat) : Nat := match r.place with
  | .spm c => (s.core c).spm.readNat r.addr n
  | .near => s.near.readNat r.addr n
  | .host => s.host.readNat r.addr n
  | _ => 0

def State.poke (s : State) (r : Run) (n v : Nat) : State := match r.place with
  | .spm c => s.onCore c fun k => { k with spm := k.spm.writeNat r.addr n v }
  | .near => s.nearStore r.addr (toBytes n v)
  | .host => { s with host := s.host.writeNat r.addr n v }
  | _ => s

/-- Whether the near-memory words that an atomic touches fail, and the state once they are poisoned (R350). -/
def State.nearBad (s : State) (r : Run) (n : Nat) : Bool × State :=
  if r.place == .near && (s.nearFail r.addr n).isSome then (true, s.nearRead r.addr n) else (false, s)

/-- An atomic command's access to its target: MEMORY where a word fails (R350). -/
def State.atomicTry (s : State) (k : Cmd) (a : Atomic) (f : State → State) : State := match s.nearBad a.target a.size with
  | (true, t) => t.memoryFault k a.target.va
  | (false, t) => f t

/-- The read, the modification and the write as one (R372). -/
def State.amoNow (s : State) (k : Cmd) (a : Atomic) : State :=
  let old := s.peek a.target a.size
  let s := (s.poke a.target a.size (amoValue a.op a.size old a.x.toNat a.cmp.toNat)).dropCmd k.id
  s.arriveRet k.core k.strand k.id (signed a.size old)

/-- AMO_PERFORM (R372, R373). -/
def execAmoPerform (id : Nat) (s : State) : Res := match s.cmd? id with
  | none => .next s
  | some k => match k.body with
    | .amo a => .next (s.atomicTry k a fun s => s.amoNow k a)
    | _ => .next s

/-- A strand no longer waits for a host AtomicOp. -/
def State.unwait (s : State) (c : Fin 256) (j : Fin 4) (id : Nat) : State :=
  s.onStrand c j fun t => { t with
    wait := if t.wait = .hostAmo id then .none else t.wait,
    hold := if t.hold.wait = .hostAmo id then { t.hold with wait := .none } else t.hold }

/-- HOST_ATOMIC_COMPLETION (R374): the AtomicOp has performed at the host's memory controller, and its completion arrives. -/
def execHostAtomicCompletion (id : Nat) (s : State) : Res := match s.cmd? id with
  | none => .next s
  | some k => match k.body with
    | .hostAmo a => .next ((s.amoNow k a).unwait k.core k.strand id)
    | _ => .next s

/-! ## Anchored cells (R62 to R64, R375, R376) -/

/-- Adds the FP32 value of some bits to the 16 bytes of a cell (R63). -/
def cellAdd (cell x : Nat) : Nat :=
  let v := bits cell 0 88
  let a := bits cell 88 8
  let sp := bits cell 96 26
  let mk (v sp : Nat) : Nat := v + a * 2 ^ 88 + sp * 2 ^ 96
  -- the biased exponent: a subnormal counts as 1, a zero has 0
  let ex := if bits x 0 31 = 0 then 0 else Nat.max 1 (bits x 23 8)
  if a = 255 then mk v (sp ||| 2 ^ 25)
  else match decodeF .f32 x with
    | .nan p _ => mk v (((sp / 2 ^ 22 * 2 ^ 22) + Nat.min (sp % 2 ^ 22) p) ||| 2 ^ 22)
    | .inf neg => mk v (sp ||| (if neg then 2 ^ 24 else 2 ^ 23))
    | .fin neg n e =>
      if a < ex then mk v (sp ||| 2 ^ 25)
      else mk (ofInt 88 ((v : Int) + floorAt ((a : Int) - 167) neg n e)) sp

/-- The FP32 result of a cell and its flags (R64): the value zero gives +0; a nonzero value that rounds to zero keeps its sign (log 142). -/
def cellRead (cell : Nat) : FVal × Flags :=
  let sp := bits cell 96 26
  let b (i : Nat) : Bool := bits sp i 1 == 1
  if b 22 then (.nan (sp % 2 ^ 22) false, Flags.invalid)
  else if b 23 && b 24 then (Fmt.gen .f32, Flags.invalid)
  else if b 23 || b 24 then (.inf (b 24), Flags.none)
  else if b 25 then (Fmt.gen .f32, { Flags.none with ovf := true })
  else
    let v := toInt 88 (bits cell 0 88)
    roundVal .f32 .rne (.fin (decide (v < 0)) v.natAbs ((bits cell 88 8 : Int) - 167))

/-- The cell after ACRD.clr. -/
def cellClear (cell : Nat) : Nat := bits cell 88 8 * 2 ^ 88 + 0x3FFFFF * 2 ^ 96

/-- The checks of ACELL and ACRD: a cell in near memory, aligned to 16; a TIMED group reaches no HOST page (R347), and a PAIR kernel writes
none (R352). -/
def State.withCell (s : State) (a : BitVec 4) (write : Bool) (f : State → Run → State) : State :=
  let va := s.ra a
  let hs := s.atomicHits write va.toNat 16
  s.withReach hs fun s =>
    let t : Run := { targetOf hs with len := 16 }
    if t.place = .host ∧ (s.timed s.cur.core ∨ (write ∧ (s.replica? s.cur.core).isSome)) then s.raise 0x09 va
    else if t.place ≠ .near then s.raise 0x05 va else if va.toNat % 16 ≠ 0 then s.raise 0x06 va else f s t

def execAcell (g : BitVec 3) (a : BitVec 4) (b : BitVec 5) (_sc : BitVec 4) (s : State) : Res :=
  s.guarded g fun s =>
    if bits (s.rx b).toNat 32 32 ≠ 0 then s.raise 0x07 0
    else s.withCell a true fun s t =>
      let k := s.mkCmd .none 0 0 4 (.acell { target := t, size := 16, op := 0, x := s.rx b, cmp := 0, d := 0, fte := 0 })
      (s.addCmd k).eventAt k .near 180 13 (.acellPerform k.id)

/-- ACELL_PERFORM (R375). -/
def execAcellPerform (id : Nat) (s : State) : Res := match s.cmd? id with
  | none => .next s
  | some k => match k.body with
    | .acell a =>
      .next (s.atomicTry k a fun s => (s.poke a.target 16 (cellAdd (s.peek a.target 16) a.x.toNat)).dropCmd id)
    | _ => .next s

def execAcrd (g : BitVec 3) (d : BitVec 5) (a _sc : BitVec 4) (cl : BitVec 1) (s : State) : Res :=
  s.guarded g fun s => s.withCell a (cl == 1) fun s t =>
    let k := s.mkCmd .none 0 0 4 (.acrd { target := t, size := 16, op := 0, x := 0, cmp := 0, d, fte := s.fte } (cl == 1))
    let s := (s.addCmd k).eventAt k .near 180 (if cl = 1 then 13 else 7) (.acrdRead k.id)
    (s.later 189 4 (.acflags k.id none)).returns 190 d k.id 4

/-- The flags of an ACRD reach its strand's agenda or hold. -/
def State.fillFlags (s : State) (k : Cmd) (r : HwFlags × Option TrapInfo) : State :=
  let put (e : Eff) : Eff := match e with
    | .acflags id none => if id = k.id then .acflags id (some r) else e
    | _ => e
  let item (i : Item) : Item := match i.act with
    | .eff c j pc pos e => { i with act := .eff c j pc pos (put e) }
    | _ => i
  let held (h : Held) : Held := { h with eff := put h.eff }
  ({ s with agenda := s.agenda.map item }).onStrand k.core k.strand fun t => { t with hold := { t.hold with ops := t.hold.ops.map held } }

/-- ACRD_READ (R376). -/
def execAcrdRead (id : Nat) (s : State) : Res := match s.cmd? id with
  | none => .next s
  | some k => match k.body with
    | .acrd a clr =>
      .next (s.atomicTry k a fun s =>
        let cell := s.peek a.target 16
        let (v, fl) := cellRead cell
        let s := if clr then s.poke a.target 16 (cellClear cell) else s
        let trap : Option TrapInfo := if enabled a.fte 0 fl then some { cause := 0x03, taddr := BitVec.ofNat 64 a.target.va, coef := some 0 } else none
        let s := (s.dropCmd id).fillFlags k (HwFlags.plain fl, trap)
        s.arriveRet k.core k.strand id (BitVec.ofNat 64 (encodeF .f32 v)))
    | _ => .next s

end Sys2Proof.Machine
end

