-- ==== Sys2Proof/Machine/Link.lean ====
section
/-! DEFINITION. The link (R391 to R410): flits and their CRC, routes and their checks, LLATs, SEND, RECV, LSTAT and LTIME,
landing queues, arrivals from other packages, ports and edges, beacons and the adoption of a common CYC, and DRIFT's step. -/
namespace Sys2Proof.Machine

/-! ## Flits (R392) -/

/-- Header bytes 0 to 17. -/
def flitHeader (f : Flit) : List Byte :=
  toBytes 8 f.route.toNat ++ toBytes 4 f.due.toNat ++ toBytes 2 f.srcPkg.toNat ++ toBytes 1 f.srcCore.toNat ++
    toBytes 1 (f.func.toNat + 32 * bit f.isBeacon + 64 * bit f.trailer) ++ toBytes 2 f.rseq.toNat

/-- The CRC-16 over bytes 0 to 17 and the payload. -/
def flitCrc (f : Flit) : BitVec 16 := BitVec.ofNat 16 (crc16 (flitHeader f ++ toBytes 64 f.payload.toNat))

/-- A payload from its bytes; the bytes beyond are zero. -/
def payloadOf (bs : List Byte) : BitVec 512 := BitVec.ofNat 512 (leNat (bs.take 64))

/-! ## Route words (R400) -/

def rtKind (w : Word) : Nat := bits w.toNat 62 2
def rtPkg (w : Word) : Nat := bits w.toNat 50 10
def rtLocal (w : Word) : Bool := w.getLsbD 49
def rtFunc (w : Word) : Nat := bits w.toNat 44 5
/-- The package core number of the destination. -/
def rtCore (w : Word) : Fin 256 := fin 256 (bits w.toNat 41 3 * 32 + bits w.toNat 36 5)
def rtIndex (w : Word) : Nat := bits w.toNat 32 4
def rtOffset (w : Word) : Nat := bits w.toNat 0 20

/-- The route word without the bits that a chunk's flits carry their instance in (R415). -/
def bareRoute (w : Word) : Word := if rtKind w = 2 then w &&& 0xFFFFFFFF00000000 else w

/-- The port that leads to a package, as its number among the 46 links. -/
def portTo (pkg : Nat) : Fin 46 := fin 46 (10 + Config.portOf pkg % 36)

/-- The static checks of R401 for a use of a route by core c that carries n bytes. The reserved bits of a routing register read zero (log 210). -/
def State.routeFault (s : State) (c : Fin 256) (w : Word) (n : Nat) : Option Nat :=
  let kind := rtKind w
  let bad := kind == 3 || bits w.toNat 60 2 != 0 || bits w.toNat 20 12 != 0 || (rtLocal w && (rtPkg w != 0 || rtFunc w != 0)) ||
    (kind == 0 && decide (7 < rtIndex w)) || (kind == 1 && rtIndex w != 0) || (kind != 1 && rtOffset w != 0)
  let ctx := s.ctxs[s.ctxOf c]
  if bad then some 0x07
  else if rtLocal w && !ctx.part.cores.getLsbD (rtCore w).val then some 0x05
  else if !rtLocal w && !ctx.peers.getLsbD (rtPkg w) then some 0x05
  else if kind == 1 && (rtOffset w % 64 != 0 || decide (spmTop < rtOffset w + n)) then some 0x05
  else none

/-- The edges from die d to die e, in the order of the path: along the row first (R12; log 160). -/
def dieEdges (d e : Nat) : List (Fin 46) :=
  let lo := Nat.min (d % 4) (e % 4)
  let row := (List.range (Nat.max (d % 4) (e % 4) - lo)).map fun i => fin 46 (3 * (d / 4) + lo + i)
  (if d % 4 ≤ e % 4 then row else row.reverse) ++ (if d / 4 = e / 4 then [] else [fin 46 (6 + e % 4)])

/-- The links on the path of a route of core c. -/
def routeLinks (c : Fin 256) (w : Word) : List (Fin 46) := if rtLocal w then dieEdges (dieOf c) (dieOf (rtCore w)) else [portTo (rtPkg w)]

/-! ## LLAT (R396, R397) -/

/-- The calibrated LLAT of a route to a package over port p, once the port has been aligned: the OW of this package's port, what the rest of
the path adds, and the guard (R396). -/
def farLlat (l : List (Nat × Nat × Nat)) (p pkg : Nat) : Option Nat :=
  (l.find? fun x => x.1 == p).map fun x => ceilDiv (x.2.2 + Config.pathDelay x.2.1 pkg + 8) 4 * 4

/-- The LINK check of R401: in a TIMED group every port on the path is TIMED, and the route's LLAT has not changed since release. Inside the
package it never changes (R397); elsewhere it changes where a calibration gives another value. -/
def State.linkBad (s : State) (c : Fin 256) (w : Word) : Bool := match s.owner? c with
  | some (k, g) => k.record.timed && (((routeLinks c w).any fun p => (s.ports[p]).st != .timed) ||
      (!rtLocal w && farLlat g.llats (portTo (rtPkg w)).val (rtPkg w) != farLlat s.llats (portTo (rtPkg w)).val (rtPkg w)))
  | none => false

/-- The calibrated LLAT of a route of core c. -/
def State.llat (s : State) (c : Fin 256) (w : Word) : Nat :=
  if rtLocal w then
    let d := rtCore w
    if d = c then 8
    else if clusterOf d = clusterOf c then 24
    else if dieOf d = dieOf c then 40
    else 140 + 20 * (hops (dieOf c) (dieOf d) - 1)
  else
    let p := portTo (rtPkg w)
    (farLlat s.llats p.val (rtPkg w)).getD (ceilDiv ((s.ports[p]).ow + Config.pathDelay 0 (rtPkg w) + 8) 4 * 4)

/-- The effective LLAT: raised to LFLOOR in a TIMED group. -/
def State.effLlat (s : State) (c : Fin 256) (w : Word) : Nat := match s.owner? c with
  | some (k, g) => if k.record.timed then Nat.max (s.llat c w) (lfloor g.level) else s.llat c w
  | none => s.llat c w

/-- The clock on which something that core c sends to core d of this package lands there: in a TIMED group by its due TT, from a handler
too (R162, R406). -/
def State.landClock (s : State) (c d : Fin 256) : Clock := match s.engClock c false, (s.core c).owner with
  | .tt _, some o => if d = c ∨ s.fellow c d then .tt d else .least o.kid o.gpos
  | k, _ => k

/-! ## Sending -/

/-- The next sequence number of a route at its sender, and the state that remembers it (R392). -/
def State.nextSeq (s : State) (route : Word) (c : Fin 256) : BitVec 16 × State :=
  let w := bareRoute route
  match s.seqTx.find? fun r => r.route == w && r.srcCore == c.val with
  | some r => (BitVec.ofNat 16 r.next, { s with seqTx := s.seqTx.map fun x =>
      if x.route = w ∧ x.srcCore = c.val then { x with next := (x.next + 1) % 2 ^ 16 } else x })
  | none => (0, { s with seqTx := s.seqTx ++ [{ route := w, srcPkg := s.pkg, srcCore := c.val, next := 1 }] })

/-- The low half of a due TT some TTs after now, or zero: from a PACED sender, and in what is sent again (R392, R421). -/
def State.dueField (s : State) (c : Fin 256) (after : Option Nat) : BitVec 32 := match after with
  | some n => if s.timed c then BitVec.ofNat 32 ((s.core c).tt + n) else 0
  | none => 0

/-- A port that carries traffic. -/
def PortSt.carries : PortSt → Bool
  | .timed | .degraded => true
  | _ => false

/-- A flit of core c as it leaves. -/
def State.flitOf (s : State) (c : Fin 256) (w : Word) (payload : BitVec 512) : Flit :=
  { route := w, due := 0, srcPkg := BitVec.ofNat 10 s.pkg, srcCore := BitVec.ofNat 8 c.val, func := BitVec.ofNat 5 (s.ctxOf c).val,
    isBeacon := false, trailer := false, rseq := 0, crc := 0, payload, image := false, part := 0, gen := (s.ctxs[s.ctxOf c]).gen, port := 46 }

/-- One flit leaves for another package, the n-th of its image or chunk, due some TTs after now. A port that is not up carries none: the
flit is lost (R404). -/
def State.emit (s : State) (c : Fin 256) (w : Word) (after : Option Nat) (n : Nat) (trailer image : Bool) (payload : BitVec 512) : State :=
  let (q, s) := s.nextSeq w c
  let f : Flit := { s.flitOf c w payload with due := s.dueField c after, trailer, rseq := q, image, part := n }
  if (s.ports[portTo (rtPkg w)]).st.carries then { s with outbox := s.outbox ++ [{ f with crc := flitCrc f }] } else s

/-- The key that orders what several packages' cores land in one queue in one cycle (R402). -/
def srcKey (pkg core : Nat) : Nat := 256 * pkg + core

/-- A FENCE after an access of strand (c, j) waits until the cycle after its performing (R386). -/
def State.passes (s : State) (clk : Clock) (due : Nat) (c : Fin 256) (j : Fin 4) (order reach : Nat) : State :=
  s.pushAs clk (due + 1) 0 c.val order (.passed c j reach)

/-- A port counts a lost flit (R408): one that R401 discards is no error of the link (R399). -/
def State.countLost (s : State) (p : Fin 46) (error : Bool) : State :=
  { s with ports := upd s.ports p fun q => { q with lost := Nat.min (q.lost + 1) 65535, errs := q.errs + bit error } }

/-- What core c sent to core d of this package was lost: the last edge of the path counts it (log 161). -/
def State.lostInside (s : State) (c d : Fin 256) (error : Bool) : State := match (dieEdges (dieOf c) (dieOf d)).getLast? with
  | some p => s.countLost p error
  | none => s

/-- Whether a transfer that core c now sends to core d of this package is lost, and the state that has counted it: an edge of its path
carries no traffic, and counts it, or the environment loses it (R404; log 199). -/
def State.lostSend (s : State) (c d : Fin 256) : Bool × State :=
  match (dieEdges (dieOf c) (dieOf d)).find? fun p => !(s.ports[p]).st.carries with
  | some p => (true, s.countLost p false)
  | none => match s.lossy c with
    | (true, t) => (true, t.lostInside c d true)
    | r => r

/-- Sends one flit of core c on a route, under an instruction's order number; it lands n cycles from now on the sender's clock, in a TIMED
group by its TT. A flit that is lost inside the package leaves a gap there, and where it carried a due TT raises LINK (R404). A FENCE of a
handler counts the same cycles, for TT stands (log 200). -/
def State.sendFlit (s : State) (c : Fin 256) (j : Fin 4) (order : Nat) (w : Word) (n : Nat) (payload : BitVec 512) (nested : Bool) : State :=
  let clk := s.engClock c false
  let due := s.now clk + n
  let mine := s.engClock c nested
  if rtLocal w then
    let d := rtCore w
    let at_ := s.landClock c d
    let key := srcKey s.pkg c.val
    let s := s.passes mine (s.now mine + n) c j order (placeReach c (.spm d))
    match s.lostSend c d with
    | (true, s) =>
      let s := s.pushAs at_ due 3 key order (.gap w c.val)
      if s.timed c then s.pushAs at_ due 3 key order (.ev (.flitMissing d w)) else s
    | (false, s) => s.pushAs at_ due 3 key order (.ev (.flitLanding (s.flitOf c w payload)))
  else
    (s.emit c w (some n) 0 false false payload).pushAs mine (s.now mine + n + 1) 0 c.val order (.sent c j (rtPkg w))

/-- R509 at issue: a static failure traps the strand with its row's cause and the route word; a LINK failure faults the group. -/
def State.withRoute (s : State) (w : Word) (n : Nat) (f : State → State) : State :=
  match s.routeFault s.cur.core w n with
  | some k => s.raise k w
  | none => f s

def State.send (s : State) (d : BitVec 3) (payload : BitVec 512) : State :=
  let c := s.cur.core
  let w := s.curCore.rt[fin 8 d.toNat]
  s.withRoute w 64 fun s =>
    if rtKind w = 2 then s.raise 0x07 0
    else if s.linkBad c w then s.groupFault c 0x0E 0 w none
    else { s.sendFlit c s.cur.strand s.seq w (s.effLlat c w) payload s.cur.nested with seq := s.seq + 1 }

def execSend (g : BitVec 3) (d : BitVec 3) (a : BitVec 5) (s : State) : Res :=
  s.guarded g fun s => s.send d (BitVec.ofNat 512 ((s.rx a).toNat + 2 ^ 64 * (s.rx (a + 1)).toNat))
def execSendV (g : BitVec 3) (d : BitVec 3) (a : BitVec 5) (q : BitVec 2) (r : BitVec 4) (s : State) : Res :=
  s.guarded g fun s => s.send d ((s.rv a.toNat).extractLsb' (2048 * r.toNat + 512 * q.toNat) 512)

/-! ## RECV (R407) -/

/-- The head of a queue for RECV, popped at the end of the bundle. -/
def State.receive (s : State) (a : BitVec 3) (f : State → LandFlit → State) : State :=
  s.withHead (fin 8 a.toNat) fun h => f (s.onCur fun k => { k with pops := k.pops ||| ((1 : BitVec 8) <<< a.toNat) }) h

def execRecv (g : BitVec 3) (d : BitVec 5) (a : BitVec 3) (p : BitVec 2) (s : State) : Res :=
  s.guarded g fun s => s.receive a fun s h => (s.setX 2 d (flitWord h (2 * p.toNat))).setX 2 (d + 1) (flitWord h (2 * p.toNat + 1))
def execRecvV (g : BitVec 3) (d : BitVec 5) (a : BitVec 3) (q : BitVec 2) (r : BitVec 4) (s : State) : Res :=
  s.guarded g fun s => s.receive a fun s h =>
    let lo := 2048 * r.toNat + 512 * q.toNat
    s.later 2 2 (.vloaded { reg := s.vphys d.toNat, mask := BitVec.ofNat 32768 (2 ^ 512 - 1) <<< lo, val := h.zeroExtend 32768 <<< lo })
def execRecvDrop (g : BitVec 3) (a : BitVec 3) (s : State) : Res := s.guarded g fun s => s.receive a fun s _ => s

/-! ## LSTAT and LTIME (R408, R409) -/

def PortSt.code : PortSt → Nat
  | .down => 0 | .training => 1 | .aligning => 2 | .timed => 3 | .degraded => 4 | .failed => 5

def LandQ.status (q : LandQ) : Word :=
  BitVec.ofNat 64 (Nat.min q.disc 65535 * 2 ^ 32 + bit q.ovf * 2 ^ 16 + q.flits.length)

def Port.status (p : Port) : Word :=
  BitVec.ofNat 64 (ofInt 16 (clampInt p.ofs (-32768) 32767) * 2 ^ 48 + Nat.min p.lost 65535 * 2 ^ 32 + Nat.min p.corr 65535 * 2 ^ 16
    + p.width * 2 ^ 8 + p.st.code)

/-- The link that Xa names: edges 0 to 9, package port n as 16 + n. -/
def portIndex (x : Nat) : Option (Fin 46) :=
  if x < 10 then some (fin 46 x) else if 16 ≤ x ∧ x < 52 then some (fin 46 (x - 6)) else none

def execLstat (g : BitVec 3) (d : BitVec 5) (a : BitVec 3) (s : State) : Res :=
  s.guarded g fun s => s.setX 2 d (s.curCore.landq[fin 8 a.toNat]).status
def execLstatPort (g : BitVec 3) (d a : BitVec 5) (s : State) : Res :=
  s.guarded g fun s => s.setX 2 d (match portIndex (s.rx a).toNat with
    | some p => (s.ports[p]).status
    | none => BitVec.allOnes 64)

def execLtime (g : BitVec 3) (d : BitVec 5) (a : BitVec 3) (r : BitVec 1) (s : State) : Res :=
  s.guarded g fun s =>
    let c := s.cur.core
    let w := s.curCore.rt[fin 8 a.toNat]
    s.setX 2 d (if (s.routeFault c w 64).isSome || s.linkBad c w then BitVec.allOnes 64
      else BitVec.ofNat 64 (if r = 1 then s.llat c w else s.effLlat c w))

/-! ## Landing (R402, R403) -/

/-- A landing queue takes a flit, or discards it as an overflow. -/
def LandQ.land (q : LandQ) (f : LandFlit) : LandQ :=
  if 96 ≤ q.flits.length then { q with ovf := true, disc := q.disc + 1 } else { q with flits := q.flits ++ [f] }

/-- How core d stands to what arrives there for a function (R401, R405): its group takes it, has been saved and takes nothing more, or no
context of the function holds the core. -/
inductive Taker where
  | takes | saved | nobody
deriving DecidableEq, Repr

/-- The taker for a function, and inside the package for the generation of the sender's tag (R117). -/
def State.taker (s : State) (d : Fin 256) (func : Nat) (gen : Option (BitVec 3)) : Taker := match s.owner? d with
  | some (k, g) =>
    if k.ctx.val != func || (gen.map fun x => x != (s.ctxs[k.ctx]).gen).getD false then .nobody
    else if g.st == .saved || (s.core d).strands.toList.any (fun t => t.life == .saved) then .saved else .takes
  | none => .nobody

/-- A write request of the package that context f issued before it was quiesced performs in its drain (R121). -/
def State.performsIn (s : State) (f : Flit) (d : Fin 256) : Bool :=
  let k := s.ctxs[fin 17 f.func.toNat]
  rtLocal f.route && rtKind f.route == 1 && k.st == .quiescing && k.gen == f.gen && k.part.cores.getLsbD d.val

/-- A landing write on SPM of core d among the writes of this cycle, by the issuing core's number and the order of its instruction; one that
meets a pin is discarded and raises SCHED there (R293, R363; log 162), a pin that ends with a verdict of this cycle no longer counting (R292). -/
def State.landWrite (s : State) (d : Fin 256) (core order off : Nat) (bs : List Byte) : State :=
  (s.pushAs .time s.time 8 core order (.land d off bs)).pushAs .time s.time 4 afterVerdicts order (.pinCheck d off bs.length core order)

/-- The context that a flit is for: the sender's own on this package, the one the route names otherwise. -/
def flitCtx (f : Flit) : Nat := if rtLocal f.route then f.func.toNat else rtFunc f.route

/-- The taker of a flit at core d. -/
def State.flitTaker (s : State) (f : Flit) (d : Fin 256) : Taker :=
  if s.performsIn f d then .takes else s.taker d (flitCtx f) (if rtLocal f.route then some f.gen else none)

/-! ## Arrivals from other packages (R398, R401, R404, R415) -/

/-- LINK in the group of core d, with the route word (R404, R442). -/
def State.linkFault (s : State) (d : Fin 256) (w : Word) : State := s.groupFault d 0x0E 0 w none

/-- Takes a flit's sequence number: whether it closes no gap, and the books after it (R404). -/
def State.takeSeq (s : State) (f : Flit) : Bool × State :=
  let w := bareRoute f.route
  let same (r : RouteSeq) : Bool := r.route == w && r.srcPkg == f.srcPkg.toNat && r.srcCore == f.srcCore.toNat
  let next := (f.rseq.toNat + 1) % 2 ^ 16
  match s.seqRx.find? same with
  | some r => (r.next == f.rseq.toNat, { s with seqRx := s.seqRx.map fun x => if same x then { x with next } else x })
  | none => (true, { s with seqRx := s.seqRx ++ [{ route := w, srcPkg := f.srcPkg.toNat, srcCore := f.srcCore.toNat, next }] })

/-- When a flit with a due TT lands at core d: on its TT, unless that has passed. -/
def State.landDue (s : State) (d : Fin 256) (due : BitVec 32) : Option (Clock × Nat) :=
  if due = 0 ∨ !s.timed d then some (.time, s.time)
  else
    let tt := (s.core d).tt
    let n := (due - BitVec.ofNat 32 tt).toNat
    if n < 2 ^ 31 then some (.tt d, tt + n) else none

/-- A gap in a route's numbers breaks off the chunk that was being gathered on it, of whatever instance (R416, R417). -/
def State.breakOff (s : State) (f : Flit) : State :=
  { s with gathers := s.gathers.filter fun (g : Gather) => !(rtKind g.route == 2 && bareRoute g.route == bareRoute f.route && g.srcPkg == f.srcPkg.toNat
      && g.srcCore == f.srcCore.toNat) }

/-- A flit belongs to a gathering. -/
def Gather.of (g : Gather) (f : Flit) : Bool := g.route == f.route && g.srcPkg == f.srcPkg.toNat && g.srcCore == f.srcCore.toNat

/-- Adds a flit to what has come of its image or chunk. The first part begins anew; one that does not follow what has come breaks it off,
so that nothing of it is applied (R416, R417; log 159). -/
def State.gather (s : State) (f : Flit) (p : Nat) : Option Gather × State :=
  let old := s.gathers.find? (·.of f)
  let others := s.gathers.filter fun g => !g.of f
  let fresh : Gather := { route := f.route, srcPkg := f.srcPkg.toNat, srcCore := f.srcCore.toNat, due := f.due.toNat, port := p, flits := [],
                          resent := (old.map (·.resent)).getD false }
  let g := if f.part = 0 then fresh else old.getD fresh
  if f.part = g.flits.length then
    let g := { g with flits := g.flits ++ [f.payload] }
    (some g, { s with gathers := others ++ [g] })
  else (none, { s with gathers := others ++ (if g.resent then [fresh] else []) })

/-- Ends a gathering; kept empty with its mark when the image must be sent again (R370). -/
def State.ungather (s : State) (f : Flit) (again : Bool) : State :=
  if again then { s with gathers := s.gathers.map fun g => if g.of f then { g with flits := [], resent := true } else g }
  else { s with gathers := s.gathers.filter fun g => !g.of f }

/-- The chunk that gathered flits make once all F + 1 have come (R415). -/
def chunkOf (d : Fin 256) (g : Gather) : Option Chunk := match g.flits with
  | [] => none
  | h :: data =>
    let f (lo n : Nat) : Nat := bits h.toNat (8 * lo) (8 * n)
    let len := f 4 4
    if data.length < ceilDiv len 64 then none
    else some { core := d, entry := fin 16 (rtIndex g.route), srcPkg := g.srcPkg, srcCore := g.srcCore, srcEntry := 0, inst := bits g.route.toNat 20 12,
                ofs := f 0 4, op := BitVec.ofNat 8 (f 8 1), step := f 9 1, redo := false, func := rtFunc g.route, gen := 0, port := g.port,
                data := (data.flatMap fun x => toBytes 64 x.toNat).take len }

/-- A trailer closes an image: its fold is compared with the signature, and the image is written where it matches; a second
mismatch raises LINK (R368 to R370, R400). -/
def State.closeImage (s : State) (d : Fin 256) (f : Flit) : State :=
  match s.gathers.find? (·.of f) with
  | none => s
  | some g =>
    let bs := g.flits.flatMap fun x => toBytes 64 x.toNat
    if fold (wordsOf bs) = f.payload.extractLsb' 0 64 ∧ g.flits.length = f.part then
      (s.ungather f false).landWrite d f.srcCore.toNat s.turn (rtOffset f.route) bs
    else if g.resent then (s.ungather f false).linkFault d f.route
    else s.ungather f true

/-- Whether a flit that lands shows a gap on its route inside the package, and the state without it (R404). -/
def State.closeGap (s : State) (f : Flit) : Bool × State :=
  let g : Word × Nat := (f.route, f.srcCore.toNat)
  if rtLocal f.route && s.gaps.contains g then (true, { s with gaps := s.gaps.filter (· != g) }) else (false, s)

/-- A flit that R401 discards at its landing counts as lost, and on a route of the package leaves a gap (R404). -/
def State.discardFlit (s : State) (f : Flit) (d : Fin 256) : State :=
  if rtLocal f.route then
    { (s.lostInside (fin 256 f.srcCore.toNat) d false) with gaps := (f.route, f.srcCore.toNat) :: s.gaps }
  else if f.port < 46 then s.countLost (fin 46 f.port) false else s

/-- FLIT_LANDING (R402, R403, R406): a trailer closes its image in the cycle in which it lands (R400). A KIND 1 write takes its place among
the writes of the cycle as that of its SEND (R363). -/
def execFlitLanding (f : Flit) (s : State) : Res :=
  let d := rtCore f.route
  match s.flitTaker f d with
  | .saved => .next s
  | .nobody => .next (s.discardFlit f d)
  | .takes =>
    let gap := s.closeGap f
    let s := gap.2
    let s := if gap.1 then s.linkFault d f.route else s
    if f.trailer then .next (s.closeImage d f)
    else if rtKind f.route = 0 then
      let q := fin 8 (rtIndex f.route)
      let full := decide (96 ≤ ((s.core d).landq[q]).flits.length)
      let s := s.onCore d fun k => { k with landq := upd k.landq q fun q => q.land f.payload }
      .next (if full then s.eventTrap d 0x07 (BitVec.ofNat 64 q.val) none else s)
    else .next (s.landWrite d f.srcCore.toNat s.turn (rtOffset f.route) (toBytes 64 f.payload.toNat))

/-! ## Beacons (R392, R394, R395) -/

def State.onPort (s : State) (p : Fin 46) (f : Port → Port) : State := { s with ports := upd s.ports p f }

/-- The beacon of this bell: no route, no due TT and no sequence number (log 163). -/
def State.beaconFlit (s : State) : Flit :=
  let f : Flit :=
    { route := 0, due := 0, srcPkg := BitVec.ofNat 10 s.pkg, srcCore := 0, func := 0, isBeacon := true, trailer := false, rseq := 0, crc := 0,
      payload := payloadOf (toBytes 8 s.cyc ++ toBytes 8 s.driftOfs.toNat ++ toBytes 1 (bit s.calib)), image := false, part := 0, gen := 0, port := 46 }
  { f with crc := flitCrc f }

/-- A port sends beacons. -/
def PortSt.beacons : PortSt → Bool
  | .aligning | .timed | .degraded => true
  | _ => false

/-- The beacons that leave at a bell (R394). -/
def State.sendBeacons (s : State) : State :=
  { s with beacons := ((List.finRange 46).filter fun p => (s.ports[p]).st.beacons).map fun p => (p, s.beaconFlit) }

/-- What a beacon's flit says. -/
def beaconOf (f : Flit) : Beacon :=
  { cyc := f.payload.extractLsb' 0 64, driftOfs := f.payload.extractLsb' 64 64, calib := f.payload.getLsbD 128, srcPkg := f.srcPkg }

/-- BEACON (R394, R395): the port stores its offset, and an ALIGNING port may adopt the sender's count. -/
def execBeacon (p : Fin 46) (b : Beacon) (s : State) : Res :=
  let q := s.ports[p]
  match q.st with
  | .aligning | .timed | .degraded =>
    let o : Int := (b.cyc.toNat : Int) + q.ow - s.cyc
    let s := s.onPort p fun q => { q with ofs := o, fresh := true }
    let adopt := q.st == .aligning && decide (10 ≤ p.val) && !s.adopted && !s.calib && (b.calib || decide (b.srcPkg.toNat < s.pkg))
    .next (if adopt then
      ({ s with adopted := true }.onPort p fun q => { q with ofs := 0 }).push .time (s.time + 1) 0 0 (.adopt (b.cyc.toNat + q.ow + 1))
    else s)
  | _ => .next s

/-! ## Arrival (R398, R401, R404) -/

/-- A flit for which its core has a taker, once its CRC is good: its sequence number is taken, and it is held until its due TT. -/
def State.acceptFlit (s : State) (p : Fin 46) (f : Flit) (d : Fin 256) : State :=
  let (whole, s) := s.takeSeq f
  let kind := rtKind f.route
  let s := if whole then s else if kind = 2 then s.breakOff f else if f.image || f.trailer then s.ungather f true else s.linkFault d f.route
  let f := { f with port := p.val }
  match s.landDue d f.due with
  | none => if kind = 2 then s.ungather f false else s.linkFault d f.route
  | some (clk, due) =>
    let key := srcKey f.srcPkg.toNat f.srcCore.toNat
    if kind = 2 then
      match s.gather f p.val with
      | (some g, s) => (match chunkOf d g with
        | some ch => (s.ungather f false).push clk due 3 key (.chunk ch)
        | none => s)
      | (none, s) => s
    else if f.image && !f.trailer then (s.gather f p.val).2
    else s.push clk due 3 key (.ev (.flitLanding f))

/-- FLIT_ARRIVAL (R392, R398, R401, R404, R408): a flit comes in at a port, with what the FEC found of its codeword. -/
def execFlitArrival (p : Fin 46) (f : Flit) (fec : Fec) (s : State) : Res :=
  let s := if fec = .corrected then s.onPort p fun q => { q with corr := Nat.min (q.corr + 1) 65535 } else s
  if fec = .failed || flitCrc f != f.crc then .next (s.countLost p true)
  else if f.isBeacon then (if (s.ports[p]).st.beacons then execBeacon p (beaconOf f) s else .next (s.countLost p false))
  else
    let d := rtCore f.route
    if !(s.ports[p]).st.carries then .next (s.countLost p false)
    else match s.taker d (rtFunc f.route) none with
      | .nobody => .next (s.countLost p false)
      | .saved => .next (s.takeSeq f).2
      | .takes => .next (s.acceptFlit p f d)

/-- FLIT_MISSING (R404): a flit with a due TT has not come. A lost collective flit raises no LINK (R417). -/
def execFlitMissing (c : Fin 256) (route : BitVec 64) (s : State) : Res :=
  if rtKind route = 2 then .next s else
  match s.owner? c with
  | some (k, _) => if k.record.timed then .next (s.linkFault c route) else .next s
  | none => .next s

/-! ## Ports and edges (R395, R396, R399) -/

/-- A link leaves TIMED; for a die-to-die edge that is a device-level failure (R399). -/
def State.leaveTimed (s : State) (p : Fin 46) (dst : PortSt) : State :=
  let was := (s.ports[p]).st
  let s := s.onPort p fun q => { q with st := dst, good := 0 }
  if was = .timed ∧ p.val < 10 then s.deviceFailure 2 p.val else s

/-- What waits for a count of CYC waits for as many counts as before, from the adopted one (R395): the first bell of that count comes next. -/
def State.recount (s : State) (cyc : Nat) : State :=
  let moved (n : Nat) : Nat := n + cyc - s.cyc
  let wait (w : Wait) : Wait := match w with
    | .realign d p n t => .realign d p (moved n) t
    | .join d x n t => .join d x (moved n) t
    | w => w
  let strand (t : Strand) : Strand := { t with wait := wait t.wait, hold := { t.hold with wait := wait t.hold.wait } }
  let group (g : Group) : Group := { g with freeze := g.freeze.map fun f => (f.1, f.2.map moved) }
  { s with
    cores := each s.cores fun k => { k with strands := each k.strands strand, launches := k.launches.map fun (l : Launch) => { l with at_ := moved l.at_, from_ := moved l.from_ } },
    ctxs := each s.ctxs fun c => { c with ckpts := c.ckpts.map fun (r : CkptReq) => { r with at_ := moved r.at_ } },
    kernels := s.kernels.map fun k => { k with groups := k.groups.map group, rises := moved k.rises },
    agenda := s.agenda.map fun i => if i.clk = .cyc then { i with due := moved i.due } else i }

/-- The adoption takes place (R395). -/
def State.adoptNow (s : State) (cyc : Nat) : State := { s.recount cyc with cyc, driftOfs := 0, calib := true }

/-- PORT_ENABLE (R399). -/
def execPortEnable (p : Fin 46) (s : State) : Res :=
  if (s.ports[p]).st = .down then .next (s.onPort p fun q => { q with st := .training }) else .next s

/-- TRAINING_COMPLETE (R399, R396): with every lane the port aligns and measures its round trip; with 4 to 7 lanes a package
port goes to DEGRADED. -/
def execTrainingComplete (p : Fin 46) (lanes : Fin 9) (s : State) : Res :=
  if (s.ports[p]).st ≠ .training then .next s
  else if lanes.val = 8 then
    let trip := Config.roundTrip s.free
    .next ({ s with free := s.free + 1 }.onPort p fun q =>
      { q with st := .aligning, width := 8, good := 0, errs := 0, fresh := false, trip, ow := ceilDiv trip 2 })
  else if 4 ≤ lanes.val ∧ 10 ≤ p.val then .next (s.onPort p fun q => { q with st := .degraded, width := lanes.val })
  else .next s

/-- TRAINING_FAIL (R399): an entry of kind 9 in PF0's ring (R460). -/
def execTrainingFail (p : Fin 46) (s : State) : Res :=
  if (s.ports[p]).st = .training then .next ((s.onPort p fun q => { q with st := .failed }).eventKind 0 9) else .next s

/-- ALIGN_COMPLETE (R396, R399): after 16 bells with an offset within 1 the port goes to TIMED, its routes' LLATs are published,
and the package is calibrated. -/
def execAlignComplete (p : Fin 46) (s : State) : Res :=
  let q := s.ports[p]
  if q.st ≠ .aligning ∨ q.good < 16 then .next s
  else
    let s := s.onPort p fun q => { q with st := .timed, lost := 0, corr := 0, errs := 0 }
    let n := s.free
    .next { s with free := n + 1, llats := (p.val, n, q.ow) :: s.llats.filter (·.1 != p.val), calib := s.calib || decide (10 ≤ p.val) }

/-- LINK_DEGRADE (R399), with the lanes that are left (R408). -/
def execLinkDegrade (l : LaneLoss) (s : State) : Res :=
  if (s.ports[l.port]).st = .timed then .next ((s.onPort l.port fun q => { q with width := l.lanes.val }).leaveTimed l.port .degraded) else .next s

/-- RETRAIN (R399). -/
def execRetrain (p : Fin 46) (s : State) : Res :=
  if (s.ports[p]).st = .degraded then .next (s.onPort p fun q => { q with st := .training }) else .next s

/-- What of core c of this package goes to core d over an edge. -/
def overEdge (p : Fin 46) (c d : Fin 256) : Bool := (dieEdges (dieOf c) (dieOf d)).contains p

/-- An item is a flit, a chunk or an acknowledgement that is under way over a link: at a package port one that came in there, on a die-to-die
edge one of the package whose path takes the edge and that has yet to land (log 199). -/
def State.isOn (s : State) (p : Fin 46) (i : Item) : Bool := match i.act with
  | .ev (.flitLanding f) => f.port == p.val || (rtLocal f.route && f.port == 46 && overEdge p (fin 256 f.srcCore.toNat) (rtCore f.route))
  | .chunk ch => ch.port == p.val || (ch.port == 46 && overEdge p (fin 256 ch.srcCore) ch.core)
  | .ev (.ackArrival c e n) => match ((s.core c).entries[e]).kept.find? fun r => r.step == n with
    | some r => rtLocal r.route && overEdge p (rtCore r.route) c
    | none => false
  | _ => false

/-- What is lost with a link leaves of itself (R404): a flit with a due TT is missed then, and one of the package leaves its gap; an image
that has lost its trailer is to be sent again; a chunk is not applied, and an acknowledgement does not come. -/
def Item.remains (i : Item) : List Item := match i.act with
  | .ev (.flitLanding f) =>
    let gap : List Item := if f.port = 46 then [{ i with act := .gap f.route f.srcCore.toNat }] else []
    let missing : List Item := if f.trailer ∨ (f.port = 46 ∧ i.clk = .time) then [] else [{ i with act := .ev (.flitMissing (rtCore f.route) f.route) }]
    gap ++ missing
  | _ => []

/-- A link goes DOWN: the flits on it are lost (R399, R404), each counted. -/
def State.loseFlits (s : State) (p : Fin 46) : State :=
  let n := (s.agenda.filter (s.isOn p)).length + ((s.gathers.filter fun (g : Gather) => g.port == p.val).map fun (g : Gather) => g.flits.length).sum
  let trailers := s.agenda.filterMap fun i => match i.act with
    | .ev (.flitLanding f) => if f.port = p.val ∧ f.trailer then some f else none
    | _ => none
  let s := trailers.foldl (fun s f => s.ungather f true) { s with agenda := s.agenda.flatMap fun i => if s.isOn p i then i.remains else [i] }
  let broken (g : Gather) : Option Gather :=
    if g.port ≠ p.val then some g else if rtKind g.route = 2 then none else some { g with flits := [], resent := true }
  ({ s with gathers := s.gathers.filterMap broken }).onPort p fun q => { q with lost := Nat.min (q.lost + n) 65535 }

/-- PORT_DISABLE and SIGNAL_LOSS (R399). -/
def execPortDisable (p : Fin 46) (s : State) : Res := .next ((s.loseFlits p).leaveTimed p .down)
def execSignalLoss (p : Fin 46) (s : State) : Res := .next ((s.loseFlits p).leaveTimed p .down)

/-- PORT_RESET (R399). -/
def execPortReset (p : Fin 46) (s : State) : Res :=
  if (s.ports[p]).st = .failed then .next (s.onPort p fun q => { q with st := .down }) else .next s

/-- A die-to-die edge joins two sides that show one count: its offset is 0 at every bell (R394; log 164). -/
def Port.inside (p : Fin 46) (q : Port) : Port := if p.val < 10 ∧ q.st.beacons then { q with ofs := 0, fresh := true } else q

/-- What a bell does to a port (R394, R399): an ALIGNING port counts bells with an offset within 1. -/
def Port.bell (q : Port) : Port :=
  { q with good := if q.st == .aligning && q.fresh && decide (-1 ≤ q.ofs ∧ q.ofs ≤ 1) then q.good + 1 else 0, fresh := false }

/-- A bell's cycle has ended, and with it the interval whose errors a port counts (R399). -/
def Port.interval (q : Port) : Port := { q with errs := 0 }

/-- A link whose state must change: an aligned port, and a TIMED one with an offset beyond 4 or too many errors since the last bell. -/
def State.portDue (s : State) : Option Instr :=
  (List.finRange 46).findSome? fun p =>
    let q := s.ports[p]
    match q.st with
    | .aligning => if 16 ≤ q.good then some (.alignComplete p) else none
    | .timed => if q.ofs < -4 ∨ 4 < q.ofs ∨ 16 < q.errs then some (.linkDegrade ⟨p, fin 9 q.width⟩) else none
    | _ => none

/-! ## DRIFT_STEP (R410) -/

/-- The sum of DRIFTs, clamped. -/
def clampDrift (d : Int) : Int := clampInt d (-1) 1

/-- The bell takes the sum for the step of the next cycle. -/
def State.driftBell (s : State) : State :=
  let n := clampDrift s.drift
  let s := { s with driftNow := n, drift := s.drift2, drift2 := 0 }
  if n = 0 then s else s.push .time (s.time + 1) 0 0 (.ev .driftStep)

/-- DRIFT_STEP: +1 reads b + 2, −1 reads b again, which is then no bell. -/
def execDriftStep (s : State) : Res :=
  if s.driftNow = 0 then .next s
  else .next { s with cyc := (((s.cyc : Int) + s.driftNow).toNat), driftOfs := s.driftOfs + BitVec.ofInt 64 s.driftNow,
                      driftNow := 0, noBell := decide (s.driftNow < 0) }

end Sys2Proof.Machine
end

