-- ==== Sys2Proof/Machine/Collective.lean ====
section
/-! DEFINITION. The collective (R58 to R61, R411 to R426): W64 words, descriptors and timetables, chunks and acknowledgements,
instances and overrun, retention and redo, triggers, COLL and CDRP. -/
namespace Sys2Proof.Machine

/-! ## W64 words (R58 to R61) -/

def wClass (w : Nat) : Nat := bits w 62 2
def wNan (payload flags : Nat) : Nat := 3 * 2 ^ 62 + flags * 2 ^ 22 + payload

/-- The bits [24:22] that an operand brings into a NaN. -/
def wFlags (w : Nat) : Nat := match wClass w with
  | 1 => 2
  | 2 => 4
  | 3 => bits w 22 3
  | _ => 0

/-- R60. An infinity passes through as the word that it stands in, whatever its bits [61:0] (log 143). -/
def wCombine (a b : Nat) : Nat :=
  match wClass a, wClass b with
  | 0, 0 => (bits a 0 62 + bits b 0 62) % 2 ^ 62
  | 3, 3 => wNan (Nat.min (bits a 0 22) (bits b 0 22)) (wFlags a ||| wFlags b)
  | 3, _ => wNan (bits a 0 22) (wFlags a ||| wFlags b)
  | _, 3 => wNan (bits b 0 22) (wFlags a ||| wFlags b)
  | 0, _ => b
  | _, 0 => a
  | x, y => if x = y then a else wNan 0x3FFFFF 6

/-- The word of an FP32 value at an agreed exponent (R59, R414). -/
def wEncode (x e : Nat) : Nat :=
  let e := if e = 0 then 1 else e
  match decodeF .f32 x with
  | .nan p sig => wNan p (bit sig)
  | .inf neg => (if neg then 2 else 1) * 2 ^ 62
  | .fin neg n q => if e < Nat.max 1 (bits x 23 8) then wNan 0x3FFFFF 1 else ofInt 62 (floorAt ((e : Int) - 167) neg n q)

/-- The FP32 result of a word and its flags (R61). -/
def wFinal (w e : Nat) : Nat × Flags :=
  let e := if e = 0 then 1 else e
  match wClass w with
  | 0 =>
    let v := toInt 62 (bits w 0 62)
    let r := roundVal .f32 .rne (.fin (decide (v < 0)) v.natAbs ((e : Int) - 167))
    (encodeF .f32 r.1, r.2)
  | 1 => (encodeF .f32 (.inf false), Flags.none)
  | 2 => (encodeF .f32 (.inf true), Flags.none)
  | _ => (encodeF .f32 (.nan (bits w 0 22) false), if bits w 22 1 = 1 ∨ bits w 23 2 = 3 then Flags.invalid else Flags.none)

/-- The exponent byte of an FP32 value (R414). -/
def expByte (x : Nat) : Nat := match bits x 23 8 with
  | 0 => 1
  | 255 => 0
  | e => e

/-! ## Descriptors (R411 to R413) -/

def Entry.f (e : Entry) (off n : Nat) : Nat := leNat ((e.desc.drop off).take n)
def Entry.nin (e : Entry) : Nat := e.f 6 2
/-- SBASE and DBASE of instance i (R411). -/
def Entry.sbase (e : Entry) (i : Nat) : Int := (e.f 8 4 : Int) + toInt 32 (e.f 0x14 4) * ((i % e.f 0x1C 2 : Nat) : Int)
def Entry.dbase (e : Entry) (i : Nat) : Int := (e.f 0x0C 4 : Int) + toInt 32 (e.f 0x18 4) * ((i % e.f 0x1C 2 : Nat) : Int)
def Entry.ebase (e : Entry) : Nat := e.f 0x10 4
/-- The routing register that redo uses in place of RTk. -/
def Entry.alt (e : Entry) (k : Nat) : Nat := bits (e.f 0x24 4) (3 * k) 3

def TStep.code (t : TStep) : Nat := bits t.op.toNat 0 2
def TStep.comb (t : TStep) : Nat := bits t.op.toNat 4 2
def TStep.dest (t : TStep) : Bool := bits t.op.toNat 6 1 == 1
def TStep.isFin (t : TStep) : Bool := t.code == 3
/-- Sent bytes L, and the landing offset (R413). -/
def TStep.len (t : TStep) : Nat := match t.code with
  | 0 => t.bytes
  | 1 => t.bytes / 4
  | 2 => 2 * t.bytes
  | _ => 0
def TStep.land (t : TStep) : Nat := match t.code with
  | 1 => t.src / 4
  | 2 => 2 * t.src
  | _ => t.src
/-- Flits of data: F (R415). -/
def TStep.flits (t : TStep) : Nat := ceilDiv t.len 64

/-- The source base of a step in an instance: Q (R413). -/
def Entry.q (e : Entry) (t : TStep) (i : Nat) : Int := if t.dest then e.dbase i else e.sbase i

/-- A step from its 16 bytes, and whether its reserved bits are zero and its fields in range. -/
def parseStep (bs : List Byte) : TStep × Bool :=
  let f (o n : Nat) : Nat := leNat ((bs.drop o).take n)
  let t : TStep := { ofs := f 0 4, src := bits (f 4 4) 0 20, bytes := bits (f 8 4) 0 24, op := BitVec.ofNat 8 (f 12 1), rt := bits (f 13 1) 0 3 }
  (t, bits (f 4 4) 20 12 == 0 && bits (f 8 4) 24 8 == 0 && bits (f 12 1) 2 2 == 0 && bits (f 12 1) 7 1 == 0 && f 13 1 / 8 == 0 && f 14 2 == 0 &&
    t.bytes % 64 == 0 && decide (64 ≤ t.bytes ∧ t.bytes ≤ 262144) &&
    (match t.comb with
      | 0 => true
      | 1 => t.code == 0 || t.code == 1
      | 2 => t.code == 0 || t.code == 2
      | _ => false) && (!t.isFin || (t.comb == 0 && t.rt == 0)))

/-- The SPM bytes that a step reads or writes on its own core in an instance. -/
def Entry.spans (e : Entry) (t : TStep) (i : Nat) : List (Int × Nat) :=
  let src := (e.q t i + t.src, t.bytes)
  if t.isFin then
    [src, ((if t.dest then e.sbase i else e.dbase i) + ((t.src / 2 : Nat) : Int), t.bytes / 2), (((e.ebase + t.src / 8 : Nat) : Int), t.bytes / 8)]
  else if t.code = 2 then [src, (((e.ebase + t.src / 4 : Nat) : Int), t.bytes / 4)]
  else [src]

/-- Steps are in order, and no route step starts before the last flit of the one before has left (R426). -/
def stepOrder : Nat → Option Nat → List TStep → Bool
  | _, _, [] => true
  | prev, last, t :: r =>
    decide (prev ≤ t.ofs) && (t.isFin || (match last with
      | some l => decide (l < t.ofs)
      | none => true)) && stepOrder t.ofs (if t.isFin then last else some (t.ofs + t.flits)) r

/-- The retention that an entry's route steps need (R420). -/
def retention (ts : List TStep) : Nat := (ts.map TStep.len).sum

/-- The descriptor and timetable are ones that CDRP.ld accepts (R411, R412, R426). -/
def ldOk (desc : List Byte) (ts : List (TStep × Bool)) (others : Nat) : Bool :=
  let e : Entry := { Entry.reset with desc }
  let steps := ts.map (·.1)
  let n := e.f 4 2
  e.f 0 4 % 16 == 0 && e.f 0 4 / 2 ^ 20 == 0 && decide (1 ≤ n ∧ n ≤ 256) && decide (e.nin ≤ 4096) && e.f 0x1C 2 != 0 && e.f 0x1E 1 / 2 == 0 &&
    e.f 0x1F 1 == 0 && e.f 0x24 4 / 2 ^ 24 == 0 && e.f 0x28 24 == 0 && ts.all (·.2) && stepOrder 0 none steps &&
    (steps.all fun t => ([0, e.f 0x1C 2 - 1] : List Nat).all fun i => (e.spans t i).all fun g => decide (0 ≤ g.1 ∧ g.1 + g.2 ≤ spmTop)) &&
    (e.f 0x1E 1 == 0 || (e.f 0x20 4 % 16 == 0 && decide (e.f 0x20 4 + 16 ≤ spmSize))) && decide (retention steps + others ≤ 131072)

/-! ## Entries (R418, R422) -/

def Core.entry (k : Core) (e : Fin 16) : Entry := k.entries[e]
def State.onEntry (s : State) (c : Fin 256) (e : Fin 16) (f : Entry → Entry) : State := s.onCore c fun k => { k with entries := upd k.entries e f }

def Entry.running (e : Entry) : Bool := match e.st with
  | .active | .retained | .redoing => true
  | _ => false

/-- The current instance c (R418). -/
def Entry.current (e : Entry) : Int := if e.running then e.inst else (e.inst : Int) - 1

/-- Everything that ends an instance has come (R422). -/
def Entry.complete (e : Entry) : Bool :=
  (e.st == .active || e.st == .retained) && e.ran.length == e.steps.length && e.kept.isEmpty && decide (e.nin ≤ e.chunks) &&
    e.finsDone.length == (e.steps.filter TStep.isFin).length

/-- Looks whether an entry has completed, and completes it in this cycle. -/
def State.checkDone (s : State) (c : Fin 256) (e : Fin 16) : State :=
  if ((s.core c).entry e).complete then s.push .time s.time 3 c.val (.ev (.instanceComplete c e)) else s

/-- COLLOVR in the group of core c (R419, R442). -/
def State.collovr (s : State) (c : Fin 256) (e : Fin 16) (tpc : Nat) : State := s.groupFault c 0x0B tpc (BitVec.ofNat 64 e.val) none

/-- INSTANCE_COMPLETE (R419, R422): the barrier arrival, then ARMED with the bases advanced. -/
def execInstanceComplete (c : Fin 256) (e : Fin 16) (s : State) : Res :=
  let n := (s.core c).entry e
  if !n.complete then .next s
  else
    let s := s.onEntry c e fun n => { n with st := .armed, inst := n.inst + 1, late := none, doneAt := s.time + 1 }
    let s := if n.f 0x1E 1 % 2 = 1 then s.arriveAt c (n.f 0x20 4) 1 0 else s
    .next (match n.late with
      | some pc => s.collovr c e pc
      | none => s)

/-! ## Chunks at the receiver (R416 to R418) -/

/-- The effective LLAT from core c to core d of this package (R397). -/
def State.nearLlat (s : State) (c d : Fin 256) : Nat :=
  s.effLlat c (BitVec.ofNat 64 (2 ^ 49 + d.val * 2 ^ 36))

/-- A chunk is acknowledged with one flit on the reverse path. -/
def State.ack (s : State) (ch : Chunk) : State :=
  if ch.srcPkg = s.pkg then
    let d := fin 256 ch.srcCore
    let clk := if ch.redo then .time else s.landClock ch.core d
    match s.lostSend ch.core d with
    | (true, s) => s
    | (false, s) => s.push clk (s.now clk + s.nearLlat ch.core d) 3 d.val (.ev (.ackArrival d (fin 16 ch.srcEntry) ch.step))
  else
    let w : Word := BitVec.ofNat 64 (2 * 2 ^ 62 + ch.srcPkg * 2 ^ 50 + ch.srcCore * 2 ^ 36)
    ({ s with free := s.free + 1 }).emit ch.core w none 0 false false (Config.ackFlit s.free)

def Chunk.key (ch : Chunk) : Nat × Nat × Nat := (ch.srcPkg, ch.srcCore, ch.step)
def Chunk.comb (ch : Chunk) : Nat := bits ch.op.toNat 4 2

/-- The write of a chunk among those of this cycle: an overwriting one stands among the copy writes by its core's number, and after the
overwriting chunks that came before it; a combining one comes after them all (R363, R416). In the cycle in which an instance has completed,
the chunks of the next come after everything of it (R422). -/
def State.chunkWrite (s : State) (ch : Chunk) (off : Nat) : State :=
  let base := if ((s.core ch.core).entry ch.entry).doneAt = s.time + 1 then 2 ^ 32 else 0
  let put (s : State) (key order : Nat) : State :=
    (s.pushAs .time s.time 8 key order (.combine ch.core off (Chunk.comb ch) ch.data)).pushAs .time s.time 4 afterVerdicts order
      (.pinCheck ch.core off ch.data.length key order)
  if Chunk.comb ch ≠ 0 then put s (base + 2 ^ 24 + srcKey ch.srcPkg ch.srcCore) s.turn
  else
    let before := s.agenda.filterMap fun i => match i.act with
      | .combine d _ 0 _ => if d = ch.core ∧ base ≤ i.core then some i.core else none
      | _ => none
    let key := before.foldl Nat.max (base + ch.srcCore)
    -- after the last of them, where one has its key or a greater one
    if before.any fun n => base + ch.srcCore ≤ n then put { s with seq := s.seq + 1 } key s.seq else put s key s.turn

/-- Applies a chunk in this cycle (R416): a byte outside the core's SPM faults the group, and a pin that it meets discards it with SCHED
(R293). -/
def State.applyChunk (s : State) (ch : Chunk) (buffered : Bool) : State :=
  let n := (s.core ch.core).entry ch.entry
  let lo := n.dbase n.inst + ch.ofs
  let len := ch.data.length
  if lo < 0 ∨ spmTop < lo + len then
    let bad := if lo < 0 then ofInt 64 lo else Nat.max lo.toNat spmTop
    s.groupFault ch.core 0x05 0 (BitVec.ofNat 64 bad) none
  else
    let off := lo.toNat
    let s := s.onEntry ch.core ch.entry fun n => { n with applied := Chunk.key ch :: n.applied, chunks := n.chunks + 1 }
    let s := s.chunkWrite ch off
    if buffered then s else (s.ack ch).checkDone ch.core ch.entry

/-- Bytes waiting in a next-instance buffer. -/
def Entry.bufBytes (e : Entry) : Nat := (e.buf.map fun ch => ch.data.length).sum

/-- A chunk that counts as a duplicate or stale. -/
def State.duplicate (s : State) (ch : Chunk) : State :=
  (s.onEntry ch.core ch.entry fun n => { n with dups := Nat.min (n.dups + 1) 65535 }).ack ch

/-- How a chunk's instance stands to the current one (R418). -/
def Entry.distance (e : Entry) (ch : Chunk) : Nat := ofInt 12 ((ch.inst : Int) - e.current)

/-- A chunk for a core that no context of its function holds, or of an earlier generation, is discarded and counts as lost (R117, R401). -/
def State.discardChunk (s : State) (ch : Chunk) : State :=
  if ch.srcPkg = s.pkg then s.lostInside (fin 256 ch.srcCore) ch.core false
  else if ch.port < 46 then s.countLost (fin 46 ch.port) false else s

/-- CHUNK_APPLY (R401, R405, R416 to R418). -/
def execChunkApply (ch : Chunk) (s : State) : Res :=
  let n := (s.core ch.core).entry ch.entry
  let d := n.distance ch
  let taker := s.taker ch.core ch.func (if ch.srcPkg = s.pkg then some ch.gen else none)
  if taker = .nobody then .next (s.discardChunk ch)
  else if taker = .saved || n.st == .idle then .next s
  else if d = 0 then
    .next (if n.running && !n.applied.contains (Chunk.key ch) then s.applyChunk ch false else s.duplicate ch)
  else if d = 1 then
    .next (if n.buf.any fun b => Chunk.key b == Chunk.key ch then s.duplicate ch
      else if 16384 < n.bufBytes + ch.data.length then s.collovr ch.core ch.entry 0
      else (s.onEntry ch.core ch.entry fun n => { n with buf := n.buf ++ [ch] }).ack ch)
  else if d < 2048 then .next (s.collovr ch.core ch.entry 0)
  else .next (s.duplicate ch)

/-- A complete chunk comes to its entry: one for the running instance is taken before the cycle's triggers, any other after
them (R422: a trigger finds what this cycle completes). -/
def State.chunkHere (s : State) (ch : Chunk) : State :=
  let n := (s.core ch.core).entry ch.entry
  s.pushAs .time s.time (if n.running && n.distance ch == 0 then 3 else 6) (srcKey ch.srcPkg ch.srcCore) s.turn (.ev (.chunkApply ch))

/-! ## Sending (R415, R416, R420) -/

/-- What an acknowledgement's due time adds in a PACED group. -/
def State.ackSlack (s : State) (c : Fin 256) : Nat := if s.timed c then 0 else 4096

/-- A retained chunk leaves over a route, n cycles of a clock from now, and its acknowledgement falls due. One that is sent again goes by
the raw clock and carries no due TT (R420, R421). -/
def State.sendChunk (s : State) (c : Fin 256) (e : Fin 16) (r : Retained) (n : Nat) (clk : Clock) : State :=
  let x := (s.core c).entry e
  let w := r.route
  let flits := ceilDiv r.data.length 64
  let lat := s.effLlat c w
  let at_ := s.now clk + n
  let inst := x.inst % 4096
  let s := if rtLocal w then
      let d := rtCore w
      let f := s.ctxOf c
      let ch : Chunk := { core := d, entry := fin 16 (rtIndex w), srcPkg := s.pkg, srcCore := c.val, srcEntry := e.val, inst, ofs := r.ofs, op := r.op,
                          step := r.step, redo := r.redo, func := f.val, gen := (s.ctxs[f]).gen, port := 46, data := r.data }
      let there := if r.redo then .time else match clk with
        | .tt _ => s.landClock c d
        | k => k
      let s := s.passes clk (at_ + flits + lat) c x.by_ x.trig (placeReach c (.spm d))
      match s.lostSend c d with
      | (true, s) => s
      | (false, s) => s.pushAs there (at_ + flits + lat) 3 (srcKey s.pkg c.val) x.trig (.chunk ch)
    else
      let head := payloadOf (toBytes 4 r.ofs ++ toBytes 4 r.data.length ++ toBytes 1 r.op.toNat ++ toBytes 1 r.step)
      let fw := (w &&& 0xFFFFFFFF00000000) ||| BitVec.ofNat 64 (inst * 2 ^ 20)
      let due (i : Nat) : Option Nat := if r.redo then none else some (n + i + lat)
      let s := (List.range flits).foldl (fun s i => s.emit c fw (due (i + 1)) (i + 1) false false (payloadOf (r.data.drop (64 * i))))
        (s.emit c fw (due 0) 0 false false head)
      s.pushAs clk (at_ + flits + lat + 1) 0 c.val x.trig (.sent c x.by_ (rtPkg w))
  s.push clk (at_ + flits + 2 * lat + s.ackSlack c) 3 (2 ^ 40) (.ev (.ackTimeout c e r.step))

/-- The data of a step, encoded (R413, R414). -/
def encodeStep (t : TStep) (raw exps : List Byte) : List Byte :=
  let v (i : Nat) : Nat := leNat ((raw.drop (4 * i)).take 4)
  match t.code with
  | 0 => raw
  | 1 => (List.range (t.bytes / 4)).map fun i => BitVec.ofNat 8 (expByte (v i))
  | _ => (List.range (t.bytes / 4)).flatMap fun i => toBytes 8 (wEncode (v i) (exps.getD i 0).toNat)

/-- A step's route fails a check as it runs: the group faults and the entry goes IDLE (R509). Step mode raises no SCHED (R151): there
the entry goes IDLE alone [DEDUCED, log 168]. -/
def State.stepFault (s : State) (c : Fin 256) (e : Fin 16) (cause : Nat) (w : Word) : State :=
  let s' := s.onEntry c e fun n => { n with st := .idle }
  if cause = 0x07 ∧ s.stepping c then s' else s'.groupFault c cause 0 w none

/-- A step runs (R416): its source is read, and its chunk leaves. -/
def State.runStep (s : State) (c : Fin 256) (e : Fin 16) (i : Nat) (t : TStep) : State :=
  let k := s.core c
  let n := k.entry e
  let clk := s.engClock c false
  let raw := k.spm.readBytes (n.q t n.inst + t.src).toNat t.bytes
  let s := s.onEntry c e fun n => { n with ran := i :: n.ran }
  if t.isFin then
    let exps := k.spm.readBytes (n.ebase + t.src / 8) (t.bytes / 8)
    (s.onEntry c e fun n => { n with finBuf := (i, raw, exps) :: n.finBuf }).push clk (s.now clk + 16) 3 c.val (.ev (.finStep c e i))
  else
    let w := k.rt[fin 8 t.rt]
    match s.routeFault c w t.len with
    | some cause => s.stepFault c e cause w
    | none =>
      if rtKind w ≠ 2 then s.stepFault c e 0x07 w
      else if s.linkBad c w then s.stepFault c e 0x0E w
      else
        let data := encodeStep t raw (k.spm.readBytes (n.ebase + t.src / 4) (t.bytes / 4))
        let r : Retained := { step := i, data, ofs := t.land, op := t.op, route := w, redo := false }
        (s.onEntry c e fun n => { n with kept := n.kept ++ [r] }).sendChunk c e r 0 clk

/-- COLLECTIVE_STEP (R416). -/
def execCollectiveStep (c : Fin 256) (e : Fin 16) (i : Nat) (s : State) : Res :=
  let n := (s.core c).entry e
  match n.steps[i]? with
  | some t => if n.running && !n.ran.contains i then .next (s.runStep c e i t) else .next s
  | none => .next s

/-- FIN (R414): the results are written, and the flags raised in the strand that loaded the entry. -/
def execFinStep (c : Fin 256) (e : Fin 16) (i : Nat) (s : State) : Res :=
  let n := (s.core c).entry e
  match n.steps[i]?, n.finBuf.find? fun x => x.1 == i with
  | some t, some (_, raw, exps) =>
    let rs := (List.range (t.bytes / 8)).map fun j => wFinal (leNat ((raw.drop (8 * j)).take 8)) (exps.getD j 0).toNat
    let lo := ((if t.dest then n.sbase n.inst else n.dbase n.inst) + ((t.src / 2 : Nat) : Int)).toNat
    let s := s.onEntry c e fun n => { n with finBuf := n.finBuf.filter fun x => x.1 != i, finsDone := i :: n.finsDone }
    let s := s.flagUpdate c n.strand (HwFlags.plain (Flags.union (rs.map (·.2))))
    .next ((s.landWrite c c.val n.trig lo (rs.flatMap fun r => toBytes 4 r.1)).checkDone c e)
  | _, _ => .next s

/-! ## Acknowledgements and redo (R417, R420) -/

/-- No chunk of the entry is being redone any longer: its state and its member's slip end. -/
def State.redone (s : State) (c : Fin 256) (e : Fin 16) : State :=
  let n := (s.core c).entry e
  if n.st == .redoing && n.kept.all fun r => !r.redo then
    (s.onEntry c e fun n => { n with st := if n.sent then .retained else .active }).unslip c (.redo e.val)
  else s

/-- The due TT of a step's acknowledgement, where it has yet to come (R416). -/
def State.ackDue (s : State) (c : Fin 256) (e : Fin 16) (i : Nat) : Option Nat := s.agenda.findSome? fun x => match x.clk with
  | .tt _ => if x.act = .ev (.ackTimeout c e i) ∧ s.now x.clk < x.due then some x.due else none
  | _ => none

/-- ACK_ARRIVAL (R417): the retention is freed. One that comes to a TIMED member before its due TT is held until then (R161, R398). -/
def execAckArrival (c : Fin 256) (e : Fin 16) (i : Nat) (s : State) : Res :=
  match s.ackDue c e i with
  | some due => .next (s.push (.tt c) due 3 c.val (.ev (.ackArrival c e i)))
  | none =>
  let s := s.onEntry c e fun n => { n with kept := n.kept.filter fun r => r.step != i }
  let s := { s with agenda := s.agenda.filter fun x => x.act != Act.ev (.ackTimeout c e i) }
  .next ((s.redone c e).checkDone c e)

/-- LINK at a sender whose redo fails (R420). -/
def State.redoLink (s : State) (c : Fin 256) (e : Fin 16) (w : Word) : State :=
  (s.onEntry c e fun n => { n with st := .idle, kept := [] }).groupFault c 0x0E 0 w none

/-- ACK_TIMEOUT (R420): a missing acknowledgement starts a redo over the ALTMAP route, or raises LINK. -/
def execAckTimeout (c : Fin 256) (e : Fin 16) (i : Nat) (s : State) : Res :=
  let n := (s.core c).entry e
  match n.kept.find? fun r => r.step == i with
  | none => .next s
  | some r =>
    if r.redo then .next (s.redoLink c e r.route)
    else
      let k := match n.steps[i]? with
        | some t => t.rt
        | none => 0
      let w := (s.core c).rt[fin 8 (n.alt k)]
      if (s.routeFault c w r.data.length).isSome || rtKind w != 2 || s.linkBad c w then .next (s.redoLink c e w)
      else
        let r := { r with redo := true, route := w }
        let s := s.onEntry c e fun n => { n with st := .redoing, redos := Nat.min (n.redos + 1) 65535,
                                                 kept := n.kept.map fun x => if x.step = i then r else x }
        .next ((s.slip c (.redo e.val)).sendChunk c e r 1 .time)

/-! ## Triggers (R419, R422, R423) -/

/-- An ARMED entry starts its next instance, for a trigger of strand j with an order number; its buffered chunks are applied in this cycle. -/
def State.startInstance (s : State) (c : Fin 256) (e : Fin 16) (j : Fin 4) (order : Nat) (clk : Clock) : State :=
  let n := (s.core c).entry e
  let t0 := s.now clk
  let s := s.onEntry c e fun n => { n with st := .active, t0, ran := [], finsDone := [], applied := [], chunks := 0, buf := [], late := none,
                                           trig := order, by_ := j, finBuf := [], sent := false }
  let s := n.buf.foldl (fun s ch => s.applyChunk ch true) s
  let s := (n.steps.zipIdx).foldl (fun s ti => s.push clk (t0 + ti.1.ofs) 7 c.val (.ev (.collectiveStep c e ti.2))) s
  let last := (n.steps.map fun t => t.ofs + t.flits + 1).foldl Nat.max 0
  s.push clk (t0 + last) 2 c.val (.sentAll c e)

/-- A trigger of an entry that is not IDLE; a running one takes COLLOVR at its completion, with the trigger's bundle. -/
def State.trigger (s : State) (c : Fin 256) (e : Fin 16) (j : Fin 4) (order pc : Nat) (clk : Clock) : State :=
  let n := (s.core c).entry e
  if n.running then s.onEntry c e fun n => { n with late := some (n.late.getD pc) } else s.startInstance c e j order clk

/-- The trigger by a MEPI's verdict (R423). An IDLE entry gives SCHED, which step mode does not raise (R151). -/
def State.mepiTrigger (s : State) (c : Fin 256) (e : Fin 16) (j : Fin 4) (order pc : Nat) (clk : Clock) : State :=
  if ((s.core c).entry e).st == .idle then
    if s.stepping c then s else s.groupFault c 0x07 pc (BitVec.ofNat 64 e.val) none
  else s.trigger c e j order pc clk

/-- The last flit of the last step has left. -/
def State.sentAll (s : State) (c : Fin 256) (e : Fin 16) : State :=
  s.onEntry c e fun n => { n with sent := n.running, st := if n.st == .active && !n.kept.isEmpty then .retained else n.st }

def execColl (g : BitVec 3) (e : BitVec 4) (s : State) : Res :=
  s.guarded g fun s =>
    let c := s.cur.core
    let i := fin 16 e.toNat
    if (s.curCore.entry i).st == .idle then s.raise 0x07 0 else s.trigger c i s.cur.strand s.seq s.cur.pc (s.engClock c s.cur.nested)

/-! ## CDRP (R426) -/

def execCdrpLd (g : BitVec 3) (a e : BitVec 4) (s : State) : Res :=
  s.guarded g fun s =>
    let k := s.curCore
    let i := fin 16 e.toNat
    let off := (s.ra a).toNat
    if off % 64 ≠ 0 then s.raise 0x06 (s.ra a)
    else if off + 64 > s.spmLimit then s.raise 0x05 (s.ra a)
    else
      let desc := k.spm.readBytes off 64
      let x : Entry := { Entry.reset with desc }
      if x.f 4 2 ≠ 0 ∧ x.f 0 4 + 16 * x.f 4 2 > s.spmLimit then s.raise 0x05 (s.ra a)
      else
        let ts := (List.range (Nat.min (x.f 4 2) 257)).map fun n => parseStep (k.spm.readBytes (x.f 0 4 + 16 * n) 16)
        let others := ((List.finRange 16).map fun y =>
          if y = i ∨ (k.entry y).st = .idle then 0 else retention (k.entry y).steps).sum
        let st := (k.entry i).st
        if !ldOk desc ts others || (st != .idle && st != .armed) then s.raise 0x07 (s.ra a)
        else s.later 2 2 (.cdrpLd i desc (ts.map (·.1)))
def execCdrpDrop (g : BitVec 3) (e : BitVec 4) (s : State) : Res :=
  s.guarded g fun s =>
    let i := fin 16 e.toNat
    let st := (s.curCore.entry i).st
    if st != .idle && st != .armed then s.raise 0x07 0 else s.later 2 2 (.cdrpDrop i)

def EntrySt.code : EntrySt → Nat
  | .idle => 0 | .armed => 1 | .active => 2 | .retained => 3 | .redoing => 4

def Entry.status (e : Entry) : Word :=
  BitVec.ofNat 64 (e.redos * 2 ^ 48 + e.dups * 2 ^ 32 + e.st.code * 2 ^ 16 + e.inst % 2 ^ 16)

def execCdrpSt (g : BitVec 3) (d : BitVec 5) (e : BitVec 4) (s : State) : Res :=
  s.guarded g fun s => s.setX 2 d (s.curCore.entry (fin 16 e.toNat)).status

/-- CDRP.ld takes effect: ARMED, nothing completed, the buffer empty. -/
def State.loadEntry (s : State) (c : Fin 256) (j : Fin 4) (e : Fin 16) (desc : List Byte) (steps : List TStep) : State :=
  s.onEntry c e fun n => if n.running then n else { Entry.reset with st := .armed, desc, steps, strand := j }

/-- CDRP.drop takes effect. -/
def State.dropEntry (s : State) (c : Fin 256) (e : Fin 16) : State :=
  s.onEntry c e fun n => if n.running then n else { n with st := .idle, buf := [] }

/-! ## Chunk bytes at SPM (R413) -/

/-- Bytes meet SPM under a COMB code: overwrite, byte maximum, W64 combine. -/
def combineBytes (m : Mem) (addr comb : Nat) (bs : List Byte) : Mem :=
  match comb with
  | 0 => m.writeBytes addr bs
  | 1 => m.writeBytes addr (bs.zipIdx.map fun x => if (m.read1 (addr + x.2)).toNat < x.1.toNat then x.1 else m.read1 (addr + x.2))
  | _ => m.writeBytes addr ((List.range (bs.length / 8)).flatMap fun i =>
      toBytes 8 (wCombine (m.readNat (addr + 8 * i) 8) (leNat ((bs.drop (8 * i)).take 8))))

end Sys2Proof.Machine
end

