-- ==== Sys2Proof/Machine/Epilogue.lean ====
section
/-! DEFINITION. The epilogue (R57, R300 to R307): MEPI at issue, the snapshot of a tile, the one rounding of each element, the
bound check, the packing of the output image, and the output's entry into the press or its trap. -/
namespace Sys2Proof.Machine

/-! ## The value of an element (R57, R302) -/

/-- What the epilogue reads of an element: its exact value, the flags of reading it, and its overflow bit. -/
structure EpiElem where
  val : FVal
  fl  : Flags
  ovf : Bool
deriving DecidableEq, Repr

/-- Reads an element with its bias folded in as a term. -/
def epiValue (anc : Int) (x : AccElem) (bias : Option FVal) : EpiElem :=
  let biasNan := (bias.map FVal.isNan).getD false
  let pay := match bias with
    | some (.nan p _) => Nat.min x.payload.toNat (Fmt.narrow .f32 p)
    | _ => x.payload.toNat
  let pinf := x.pinf || bias == some (.inf false)
  let ninf := x.ninf || bias == some (.inf true)
  let t : Int := match bias with
    | some (.fin s n e) => floorAt anc s n e
    | _ => 0
  let v := x.sum.toInt + t
  let hi : Int := (2 ^ 127 : Nat) - 1
  let lo : Int := -(2 ^ 127 : Nat)
  let ovf := x.ovf || decide (v < lo) || decide (hi < v)
  if x.nan || biasNan then { val := .nan pay false, fl := Flags.none, ovf }
  else if pinf && ninf then { val := onesNan, fl := Flags.invalid, ovf }
  else if pinf || ninf then { val := .inf ninf, fl := Flags.none, ovf }
  else
    let w := clampInt v lo hi
    { val := .fin (decide (w < 0)) w.natAbs anc, fl := { Flags.none with ovf }, ovf }

/-! ## Output formats (R285, R302) -/

/-- The floating-point format of an output code that is no block target. -/
def outFmt : Nat → Option Fmt
  | 0 => some .e4m3 | 1 => some .e5m2 | 2 => some .e2m1 | 4 => some .f16 | 6 => some .f32 | 7 => some .bf16 | _ => none

/-- Bits of a plain output element. -/
def outWidth (code : Nat) : Nat := match outFmt code with
  | some f => f.width
  | none => if code = 5 then 8 else 32

/-- One plain element rounded once: its encoding, its value and the flags. An element that is zero gives +0; a nonzero one that rounds
to zero keeps its sign, as RoundTo of R57 gives it (R44, R302; log 142). -/
def outElem (code : Nat) (v : FVal) : Nat × FVal × Flags := match outFmt code with
  | some f =>
    let r := cvtToBinary f .rne false v
    let b := encodeF f r.1
    (b, decodeF f b, r.2)
  | none =>
    let w := outWidth code
    let r := roundInt .rne (-(2 ^ (w - 1) : Nat)) ((2 ^ (w - 1) : Nat) - 1) v 2
    (ofInt w r.1, .fin (decide (r.1 < 0)) r.1.natAbs 0, r.2)

/-! ## The bound check (R288, R304) -/

def bndAction (w : Word) : Nat := bits w.toNat 32 2

/-- LIMIT as a magnitude; a NaN acts as infinity. -/
def bndLimit (w : Word) : FVal := match decodeF .f32 (bits w.toNat 0 31) with
  | .nan _ _ => .inf false
  | v => v

/-- LIMIT with a sign. -/
def bndAt (w : Word) (neg : Bool) : FVal := if neg then (bndLimit w).neg else bndLimit w

/-- A rounded element fails the check. -/
def bndFails (w : Word) (e : FVal) (ovf : Bool) : Bool :=
  bndAction w != 0 && (e.isNan || ovf || cmpF 2 (if e.sign then e.neg else e) (bndLimit w) == .gt)

/-- COUNT and HIT after n failures. -/
def bndCount (w : Word) (n : Nat) : Word :=
  BitVec.ofNat 64 (Nat.min (bits w.toNat 48 16 + n) 65535 * 2 ^ 48 + 2 ^ 47 + bits w.toNat 0 47)

/-! ## Rows -/

/-- One row of an output: its packed bytes, scales last, the flags and the failures of its elements, and its blocks. -/
structure RowOut where
  bytes : List Nat
  flags : List Flags
  fails : List Bool
  q     : List QBlock

/-- A row of plain elements. -/
def plainRow (code : Nat) (bnd : Word) (es : List EpiElem) : RowOut :=
  let one (e : EpiElem) : Nat × Flags × Bool :=
    let r := outElem code e.val
    let bad := bndFails bnd r.2.1 e.ovf
    let b := if bad && decide (2 ≤ bndAction bnd) && !r.2.1.isNan then (outElem code (bndAt bnd r.2.1.sign)).1 else r.1
    (b, e.fl.or r.2.2, bad)
  let rs := es.map one
  let codes := rs.map (·.1)
  { bytes := if code = 2 then packCodes 2 codes else codes.flatMap fun c => (toBytes (outWidth code / 8) c).map BitVec.toNat,
    flags := rs.map (·.2.1), fails := rs.map (·.2.2), q := [] }

/-- A block of 32 elements of a block target, bound check included: a clamped element is quantised again under the block's
scale. -/
def blockOut (tgt : Nat) (bnd : Word) (es : List EpiElem) : QBlock × List Bool :=
  let vs := es.map (·.val)
  let q := quantChosen tgt vs
  let rs : List FVal :=
    if tgt = 3 then (decodeI4x (q.bytes.map (BitVec.ofNat 8))).1
    else q.bytes.map fun c => if q.scale = 255 then onesNan else (decodeF (targetFmt tgt) c).scaled q.scale
  let fails := (es.zip rs).map fun p => bndFails bnd p.2 p.1.ovf
  if bndAction bnd < 2 ∨ q.scale = 255 ∨ !fails.any id then (q, fails)
  else
    let lim (neg : Bool) : FVal := match bndAt bnd neg with
      | .inf s => .fin s 1 1000
      | v => v
    let ws := ((vs.zip rs).zip fails).map fun p => if p.2 then lim p.1.2.sign else p.1.1
    ({ q with bytes := if tgt = 3 then (quantI4x ws q.scale).bytes else (quantPlain (targetFmt tgt) ws q.scale).bytes }, fails)

/-- A row of a block target. -/
def blockRow (tgt : Nat) (bnd : Word) (es : List EpiElem) : RowOut :=
  let rs := (List.range (es.length / 32)).map fun b => blockOut tgt bnd ((es.drop (32 * b)).take 32)
  let qs := rs.map (·.1)
  { bytes := packBlocks tgt qs ++ (if tgt = 3 then [] else qs.map (·.scale)),
    flags := (es.zipIdx).map fun e => e.1.fl.or { Flags.none with nv := ((qs[e.2 / 32]?).map (·.nv)).getD false },
    fails := rs.flatMap (·.2), q := qs }

/-- The output quantises in blocks (R302). -/
def Stream.blocky (o : Stream) : Bool := o.scaled || o.fmt == 3

def outRow (o : Stream) (bnd : Word) (anc : Int) (bias : List (BitVec 32)) (xs : List AccElem) : RowOut :=
  let es := xs.zipIdx.map fun x => epiValue anc x.1 ((bias[x.2]?).map fun b => decodeF .f32 b.toNat)
  if o.blocky then blockRow o.fmt bnd es else plainRow o.fmt bnd es

/-! ## Images (R306) -/

/-- Bytes of the elements of a row, and of its scales after them. -/
def Stream.elemBytes (o : Stream) : Nat := rowBytes o.fmt o.k
def Stream.scaleBytes (o : Stream) : Nat := if o.scaled then o.k / 32 else 0
def Stream.rowLen (o : Stream) : Nat := o.elemBytes + o.scaleBytes
/-- Bytes of the output image. -/
def Stream.imageBytes (o : Stream) : Nat := ceilDiv (o.count * o.rowLen) 8 * 8

/-- The SPM runs of an output: elements, then scales (R302, R303). -/
def Stream.outRuns (o : Stream) : List (Nat × Nat) :=
  rowRuns o.base o.rowStride o.elemBytes o.count ++ (if o.scaled then rowRuns o.scale o.scaleStride o.scaleBytes o.count else [])

/-- An output as one array forms it: its words, and by 96m + n the flags and the failed elements. -/
structure Formed where
  words : List Word
  flags : List (Nat × Flags)
  fails : List Nat
  q     : List QBlock

/-- Forms an output from the elements of its rows. -/
def formOutput (o : Stream) (bnd : Word) (anc : Int) (bias : List (BitVec 32)) (rows : List (List AccElem)) : Formed :=
  let rs := (rows.map (outRow o bnd anc bias)).zipIdx
  { words := wordsOf ((rs.flatMap fun r => r.1.bytes).map (BitVec.ofNat 8)),
    flags := rs.flatMap fun r => r.1.flags.zipIdx.map fun f => (96 * r.2 + f.2, f.1),
    fails := rs.flatMap fun r => (r.1.fails.zipIdx.filter (·.1)).map fun f => 96 * r.2 + f.2,
    q := rs.flatMap fun r => r.1.q }

/-- The elements from number i on, n of them. -/
def accFrom (init : AccElem) : Nat → Nat → List (Nat × AccElem) → List AccElem
  | 0, _, _ => []
  | n + 1, i, [] => init :: accFrom init n (i + 1) []
  | n + 1, i, (j, e) :: r => if i = j then e :: accFrom init n (i + 1) r else init :: accFrom init n (i + 1) ((j, e) :: r)

/-- The rows of an output window. -/
def Acc.rows (a : Acc) (o : Stream) : List (List AccElem) :=
  (List.range o.count).map fun m => accFrom a.init o.k (96 * m) (a.elems.filter fun e => decide (96 * m ≤ e.1))

/-- Hardware errors meet an image. -/
def spoil (ws : List Word) (errs : List (Nat × Word)) : List Word :=
  ws.zipIdx.map fun w => (errs.filter (·.1 == w.2)).foldl (fun x e => x ^^^ e.2) w.1

/-! ## MEPI at issue (R300, R301, R303) -/

/-- The checks of a KIND 2 route (R423). -/
def State.entryRoute (s : State) (c : Fin 256) (w : Word) (nolocal : Bool) : Bool :=
  rtLocal w && rtCore w == c && !nolocal && ((s.core c).entry (fin 16 (rtIndex w))).st != .idle

def execMepi (g : BitVec 3) (t : BitVec 2) (o b : BitVec 4) (c r : BitVec 1) (e : BitVec 3) (l : BitVec 1) (s : State) : Res :=
  s.guarded g fun s => s.withQueue .matrix fun s =>
    let co := s.curCore
    let st := co.streams[fin 16 o.toNat]
    let ab := s.ra b
    let runs := st.outRuns
    let w := co.rt[fin 8 e.toNat]
    let bias := if c = 1 then [(ab.toNat, 384)] else []
    if st.bsram || (st.fmt == 5 && st.scaled) || st.k == 0 || decide (96 < st.k) then s.raise 0x07 0
    else if (st.blocky && st.k % 32 != 0) || (st.fmt == 2 && st.k % 2 != 0) then s.raise 0x07 0
    else match least ((beyond s.spmLimit runs).toList ++ (beyond s.spmLimit bias).toList) with
      | some x => s.raise 0x05 (BitVec.ofNat 64 x)
      | none =>
        if c = 1 ∧ ab.toNat % 4 ≠ 0 then s.raise 0x06 ab
        else
          let go (s : State) : State :=
            if r = 1 ∧ rtKind w = 2 ∧ !s.entryRoute s.cur.core w (l == 1) then s.raise 0x07 0
            else if runs.any fun x => co.pinned .spm x.1 x.2 then s.raise 0x07 0
            else
              let s := s.onCore s.cur.core fun k => k.hangPins t.toNat s.newId
              s.enqueue .matrix 64 1 (.mepi
                { tile := t.toNat, out := st, bias := if c = 1 then some ab.toNat else none, route := if r = 1 then some w else none,
                  nolocal := l == 1, fte := s.fte, bnd := co.bnd[fin 16 st.bound], init := AccElem.zero, anc := 0, coef := 0, biasW := [],
                  fed := [], slot := none, flags := HwFlags.none, arith := none, fails := [], counted := false })
          if r = 1 then s.withRoute w st.imageBytes go else go s

/-! ## The snapshot (R301) -/

/-- PNAMED and SNAMED (R183). -/
def Health.pnamed (h : Health) : Bool := h.word.getLsbD 2
def Health.snamed (h : Health) : Bool := h.word.getLsbD 3
/-- One array is in service by DEGRADED (R317, R324). -/
def Health.single (h : Health) : Bool := h.degraded && (h.pnamed != h.snamed)

def State.snapshot (s : State) (k : Cmd) (m : Mepi) : State :=
  let co := s.core k.core
  let tl := co.tiles[fin 4 m.tile]
  let biasW := match m.bias with
    | none => []
    | some b => (List.range 96).map fun n => BitVec.ofNat 32 (co.spm.readNat (b + 4 * n) 4)
  let fp := formOutput m.out m.bnd tl.anc biasW (tl.prim.rows m.out)
  let fs := formOutput m.out m.bnd tl.anc biasW (tl.shad.rows m.out)
  let pw := spoil fp.words (co.errP.headD [])
  let sw := spoil fs.words (co.errS.headD [])
  -- under DEGRADED with the primary named, the shadow array writes P and both signatures (R317)
  let p := if co.health.single && co.health.pnamed then sw else pw
  let slot : Press := { id := k.id, tile := m.tile, p, sd := sw.map byteXor, sigP := fold p, sigS := fold sw, disputed := false, recheck := false,
                        tt := 0, arb := none }
  let (qflags, counts) := qUpdate fp.q
  let flags := { coefFlags tl.coef (Flags.union (fp.flags.map (·.2))) with qflags := BitVec.ofNat 64 qflags, counts }
  let arith := least ((fp.flags.filter fun f => enabled m.fte tl.coef f.2).map (·.1))
  let m := { m with init := tl.prim.init, anc := tl.anc, coef := tl.coef, biasW, fed := tl.fed, slot := some slot, flags, arith, fails := fp.fails }
  (s.onCmd k.id fun k => { k with body := .mepi m }).onCore k.core fun co => { co with errP := co.errP.drop 1, errS := co.errS.drop 1 }

/-- EPILOGUE_SNAPSHOT. -/
def execEpilogueSnapshot (id : Nat) (s : State) : Res := match s.cmd? id with
  | none => .next s
  | some k => match k.body with
    | .mepi m => if k.queued || m.slot.isSome then .next s else .next (s.snapshot k m)
    | _ => .next s

/-! ## The fold (R304, R305, R310) -/

def State.onTile (s : State) (c : Fin 256) (t : Nat) (f : Tile → Tile) : State :=
  s.onCore c fun k => { k with tiles := upd k.tiles (fin 4 t) f }

/-- An output ends; a FENCE after its MEPI waits until the next cycle (R386). -/
def State.endOutput (s : State) (k : Cmd) : State :=
  (s.dropCmd k.id).pushAs .time (s.time + 1) 0 k.core.val k.seq (.passed k.core k.strand k.reach)

/-- An output is discarded: nothing is written or routed, its slot and its pins are released. A later output of the tile may stand in the
press (R308). -/
def State.discardOutput (s : State) (k : Cmd) (m : Mepi) : State :=
  let later := (((s.core k.core).press.dropWhile (·.id != k.id)).drop 1).any fun p => p.tile == m.tile
  let s := (s.endOutput k).onCore k.core fun co => { co.endPins k.id with press := co.press.filter (·.id != k.id) }
  s.onTile k.core m.tile fun t => { t with latest := if later then .inPress else .discarded }

/-- The trap of an output (R305): the issuing strand's, else an event trap with the MEPI's bundle as TPC, else a group fault. -/
def State.outputTrap (s : State) (k : Cmd) (i : TrapInfo) : State :=
  if (s.strand k.core k.strand).life == .live then s.meetTrap k.core k.strand { slot := 3, pc := k.pc, info := i, order := k.seq, ring := (0, 0) }
  else match (List.finRange 4).find? fun j => (s.strand k.core j).life == .live with
    | some j => s.meetTrap k.core j { slot := 0, pc := k.pc, info := i, order := k.seq, ring := (0, 0) }
    | none => s.groupFault k.core i.cause k.pc i.taddr none

/-- The output enters the press, or traps. -/
def State.foldOutput (s : State) (k : Cmd) (m : Mepi) (slot : Press) : State :=
  let s := s.flagUpdate k.core k.strand m.flags
  match m.arith, m.fails with
  | some x, _ => (s.discardOutput k m).outputTrap k { cause := 0x03, taddr := BitVec.ofNat 64 x, coef := some (fin 8 m.coef) }
  | none, fs =>
    match (if bndAction m.bnd = 3 then least fs else none) with
    | some x => (s.discardOutput k m).outputTrap k { cause := 0x04, taddr := BitVec.ofNat 64 x, coef := none }
    | none => (s.onCore k.core fun co => { co with press := co.press ++ [slot] }).onTile k.core m.tile fun t => { t with latest := .inPress }

/-- OUTPUT_FOLDED: the bound register is updated first, so that a write of MSTRM.bnd in the same cycle persists (R288); then the
flags, the trap or the press. -/
def execOutputFolded (id : Nat) (s : State) : Res := match s.cmd? id with
  | none => .next s
  | some k => match k.body with
    | .mepi m => match m.slot with
      | none => .next s
      | some slot =>
        if (s.core k.core).press.any (·.id == id) then .next s
        else if m.counted then .next (s.foldOutput k m slot)
        else
          let s := s.onCmd id fun k => { k with body := .mepi { m with counted := true } }
          let s := if m.fails.isEmpty then s else
            s.onCore k.core fun co => { co with bnd := upd co.bnd (fin 16 m.out.bound) fun w => bndCount w m.fails.length }
          .next (s.pushAs .time s.time 4 k.core.val k.seq (.ev (.outputFolded id)))
    | _ => .next s

end Sys2Proof.Machine
end

