-- ==== Sys2Proof/Machine/Press.lean ====
section
/-! DEFINITION. The press and the mender (R313 to R329): verdicts in queue order, commits with their SPM writes and route sends,
disputes and arbitration by exact recomputation, HEALTH and its policies, residue arbitration; and the start of every queued
command (R96). -/
namespace Sys2Proof.Machine

/-! ## Committing (R307, R400, R423) -/

/-- The SPM cells of an image at its stride positions. -/
def Stream.cells (o : Stream) (bs : List Byte) : List Host.Cell :=
  (List.range o.count).flatMap fun m =>
    let row := (bs.drop (m * o.rowLen)).take o.rowLen
    ((row.take o.elemBytes).zipIdx.map fun b => (o.base + m * o.rowStride + b.2, b.1)) ++
      ((row.drop o.elemBytes).zipIdx.map fun b => (o.scale + m * o.scaleStride + b.2, b.1))

def wordBytes (ws : List Word) : List Byte := ws.flatMap fun w => toBytes 8 w.toNat

/-- The 64-byte payloads of an image. -/
def payloads64 (bs : List Byte) : List (BitVec 512) :=
  (List.range (ceilDiv bs.length 64)).map fun i => payloadOf (bs.drop (64 * i))

/-- A route send to an SPM of this package: a signed copy that starts at the verdict (R368, R400). -/
def State.sendLocal (s : State) (k : Cmd) (w : Word) (bs : List Byte) (sig : Word) : State :=
  let d := rtCore w
  let (_, p, _) := s.copyTiming k.core (.spm k.core) (.spm d) bs.length
  let cp : Copy :=
    { src := [], dst := [{ place := .spm d, addr := rtOffset w, len := bs.length, va := rtOffset w, shadow := none }], kind := .plain,
      sig := some sig, resent := false, bar := none, route := some w, bytes := bs.length, rd := 0, lat := p, buf := bs, read := true, fetch := false,
      due := false, judged := false, dropped := false }
  let c : Cmd := { k with id := s.nextId, engine := .none, queued := false, reach := placeReach k.core (.spm d), body := .copy cp }
  ((s.addCmd c).markPassed c (.spm d) p).push (s.placeClock c (.spm d)) (s.now (s.engClock k.core k.nested) + p) 4 k.core.val (.ev (.copyPerform c.id))

/-- A route send of a committed output. -/
def State.sendImage (s : State) (k : Cmd) (w : Word) (bs : List Byte) (sig : Word) : State :=
  let c := k.core
  let clk := s.engClock c k.nested
  if rtKind w = 2 then s.mepiTrigger c (fin 16 (rtIndex w)) k.strand k.seq k.pc clk
  else if s.linkBad c w then s.groupFault c 0x0E 0 w none
  else
    let fs := payloads64 bs
    let e := s.effLlat c w
    if rtKind w = 0 then fs.zipIdx.foldl (fun s f => s.sendFlit c k.strand k.seq w (f.2 + e) f.1 k.nested) s
    else if rtLocal w then s.sendLocal k w bs sig
    else
      let now := s.now clk
      let s := fs.zipIdx.foldl (fun s f => s.emit c w (some (f.2 + e)) f.2 false true f.1) s
      (s.emit c w (some (fs.length + e)) fs.length true true (BitVec.ofNat 512 sig.toNat)).pushAs clk (now + fs.length + e + 1) 0 c.val k.seq
        (.sent c k.strand (rtPkg w))

/-- A verdict or a release falls in this cycle: no other verdict of the core does (R314). -/
def State.noteVerdict (s : State) (c : Fin 256) : State := s.onCore c fun k => { k with judgedAt := s.time + 1 }

/-- An output commits: its pins end and its slot is freed; its SPM writes perform in this cycle as those of an instruction in the
MEPI's issue cycle; its route send leaves, with SIGc in its trailer (R307, R310). MSIG shows the two signatures given (R308). -/
def State.commitOutput (s : State) (k : Cmd) (m : Mepi) (words : List Word) (sig sigP sigS : Word) (arb : Bool) : State :=
  let c := k.core
  let bs := wordBytes words
  let s := s.endOutput k
  let s := s.onCore c fun co => { co.endPins k.id with press := co.press.filter (·.id != k.id) }
  let s := if m.nolocal then s else s.pushAs .time s.time 8 c.val k.seq (.spmWrite c (m.out.cells bs))
  let s := s.pushAs .time s.time 8 c.val k.seq (.commit c m.tile sigP sigS arb)
  match m.route with
  | none => s
  | some w => s.sendImage k w bs sig

/-! ## Arbitration (R319 to R321) -/

/-- The elements of an output that are recomputed together, with their byte ranges in the image: one element, or a block with its
scale byte. -/
def Stream.units (o : Stream) : List (List Nat × List (Nat × Nat)) :=
  (List.range o.count).flatMap fun m =>
    let r := m * o.rowLen
    if o.blocky then (List.range (o.k / 32)).map fun b =>
      ((List.range 32).map fun i => 96 * m + 32 * b + i,
       (r + rowBytes o.fmt (32 * b), rowBytes o.fmt 32) :: (if o.scaled then [(r + o.elemBytes + b, 1)] else []))
    else (List.range o.k).map fun n =>
      let w := outWidth o.fmt
      ([96 * m + n], [(r + n * w / 8, ceilDiv w 8)])

/-- A unit has a byte in one of some words. -/
def unitTouches (u : List Nat × List (Nat × Nat)) (ws : List Nat) : Bool :=
  ws.any fun j => u.2.any fun r => overlap r.1 r.2 (8 * j) 8

/-- The elements of the units that touch some words. -/
def Stream.elemsOf (o : Stream) (ws : List Nat) : List Nat := (o.units.filter fun u => unitTouches u ws).flatMap (·.1)

/-- Every MMA that fed the output still holds its pins (R319). -/
def Core.recomputable (k : Core) (m : Mepi) : Bool :=
  m.fed.all fun d => decide ((k.pins.filter (·.mma == d.id)).length = 2)

/-- The exact image over some elements, recomputed from the pinned operands. -/
def Core.recompute (k : Core) (m : Mepi) (es : List Nat) : List Word :=
  let fed := m.fed.map fun d => (d, k.passes d)
  let elem (i : Nat) : AccElem := if es.contains i then fed.foldl (fun x d => (d.1.apply d.2 i x).1) m.init else m.init
  (formOutput m.out m.bnd m.anc m.biasW ((List.range m.out.count).map fun r => (List.range m.out.k).map fun n => elem (96 * r + n))).words

/-- Cycles to recompute element 96r + n: 200 and an eighth of its product terms, those of every MMA that reaches it, with all the passes
of a jet MMA (R281, R321). -/
def Mepi.elemTime (m : Mepi) (i : Nat) : Nat :=
  200 + ceilDiv (((m.fed.filter fun d => decide (i / 96 < d.a.count) && decide (i % 96 < d.b.count)).map fun d => d.a.k * d.allPasses).sum) 8

/-- What comparing the words of W in order has found so far. -/
structure Compare where
  pbad : Bool
  sbad : Bool
  /-- the words met, the last of them undecided or not -/
  met  : List Nat
  undecided : Bool

/-- One word of the comparison; pChecked and sChecked say which copies it is compared with. -/
def Compare.step (pCheck sCheck : Bool) (pw mw : Nat → Word) (sd : Nat → Byte) (r : Compare) (j : Nat) : Compare :=
  if r.undecided then r else
    let pok := !pCheck || mw j == pw j
    let sok := !sCheck || byteXor (mw j) == sd j
    { pbad := r.pbad || !pok, sbad := r.sbad || !sok, met := r.met ++ [j], undecided := pCheck && sCheck && !pok && !sok }

/-- The arbitration of an output as R320 gives it. A re-check compares with the survivor's image alone, which is P. -/
def Core.arbitrate (k : Core) (m : Mepi) (p : Press) : Arb :=
  let n := p.p.length
  let pw (j : Nat) : Word := p.p.getD j 0
  let sd (j : Nat) : Byte := p.sd.getD j 0
  let all := List.range n
  let d := all.filter fun j => byteXor (pw j) != sd j
  let w := if d.isEmpty || p.recheck then all else d
  let low := w.headD 0
  if !k.recomputable m then { words := p.p, namedP := false, namedS := false, undecided := true, elems := 0, lowWord := low, dur := 64 }
  else
    let ms := k.recompute m (m.out.elemsOf w)
    let mw (j : Nat) : Word := ms.getD j 0
    let shadowOnly := p.recheck && k.health.pnamed
    let r := w.foldl (Compare.step true (!p.recheck) pw mw sd) { pbad := false, sbad := false, met := [], undecided := false }
    let met := m.out.elemsOf r.met
    let elems := met.length
    let dur := 64 + (met.map m.elemTime).sum
    if r.undecided then { words := p.p, namedP := false, namedS := false, undecided := true, elems, lowWord := low, dur }
    else
      let words := p.p.zipIdx.map fun x => if w.contains x.2 then mw x.2 else x.1
      let sig := fold words
      -- what differs under a re-check is the survivor's; the named array is not compared
      let pbad := if shadowOnly then false else r.pbad || sig != p.sigP
      let sbad := if p.recheck then shadowOnly && (r.pbad || sig != p.sigS) else r.sbad || sig != p.sigS
      { words, namedP := pbad, namedS := sbad, undecided := false, elems, lowWord := low, dur }

/-! ## The mender's queue (R318) -/

/-- The agenda's item of a held vector result. -/
def Residue.act (r : Residue) (c : Fin 256) : Act := .eff c r.strand r.pc r.pos (.vdone r.res)

/-- The vector results of a PACED core that wait for the mender become visible n cycles later: a tile's arbitration has begun before
theirs. -/
def State.postpone (s : State) (c : Fin 256) (n : Nat) : State :=
  let held (a : Act) : Bool := !s.timed c && (s.core c).waiting.any fun w => match w with
    | .residue r => r.act c == a
    | .tile _ => false
  { s with agenda := s.agenda.map fun i => if held i.act then { i with due := i.due + n } else i }

/-- The cycles until the mender has done what it is at and the vector results that wait (R318). -/
def State.menderBusy (s : State) (c : Fin 256) : Nat :=
  (match (s.core c).mender with
    | some (_, t) => t - s.time
    | none => 0) + ((s.core c).waiting.map fun w => match w with
    | .residue r => r.dur
    | .tile _ => 0).sum

/-- The arbitration of the mender's next task begins in this cycle. -/
def State.beginMend (s : State) (c : Fin 256) : Mend → State
  | .residue r =>
    (s.onCore c fun k => { k with mender := some (.residue r, s.time + r.dur) }).push .time (s.time + r.dur) 4 c.val (.ev (.residueArbitrationEnd c))
  | .tile id => match (match s.cmd? id with
      | some { body := .mepi m, .. } => some m
      | _ => none), (s.core c).press.find? (·.id == id) with
    | some m, some p =>
      let a := (s.core c).arbitrate m p
      let put (q : Press) : Press := if q.id = id then { q with arb := some a } else q
      ((s.postpone c a.dur).onCore c fun k => { k with mender := some (.tile id, s.time + a.dur), press := k.press.map put }).push
        .time (s.time + a.dur) 4 c.val (.ev (.arbitrationEnd c))
    | _, _ => s

/-- The mender takes up a task, or the task waits its turn. -/
def State.mend (s : State) (c : Fin 256) (t : Mend) : State :=
  if (s.core c).mender.isSome then s.onCore c fun k => { k with waiting := k.waiting ++ [t] } else s.beginMend c t

/-- HEALTH cleared (R456). -/
def Health.cleared : Health := { word := 0, since := 0, degraded := false, clear := false }

/-- The mender is free again and takes up what waits; a PACED core issues again from the next cycle. An HCLR that met the
arbitration takes effect (R456). -/
def State.mended (s : State) (c : Fin 256) : State :=
  let s := s.onCore c fun k => { k with mender := none, stopTill := s.time + 1, health := if k.health.clear then Health.cleared else k.health }
  match (s.core c).waiting with
  | [] => s
  | t :: r => (s.onCore c fun k => { k with waiting := r }).beginMend c t

/-! ## The verdict (R314, R317) -/

def State.judge (s : State) (k : Cmd) (m : Mepi) (p : Press) : State :=
  let c := k.core
  let h := (s.core c).health
  let s := s.noteVerdict c
  let dispute (s : State) (recheck : Bool) : State :=
    let put (q : Press) : Press := if q.id = k.id then { q with disputed := true, recheck, tt := (s.core c).tt } else q
    ((s.onCore c fun co => { co with press := co.press.map put }).slip c .dispute).mend c (.tile k.id)
  if h.single then
    let s := s.onCore c fun co => { co with health := { h with since := h.since + 1 } }
    let sig := if h.pnamed then p.sigS else p.sigP
    if (h.since + 1) % 64 = 0 then dispute s true else s.commitOutput k m p.p sig sig p.sigS false
  else if p.sigP = p.sigS then s.commitOutput k m p.p p.sigP p.sigP p.sigS false
  else dispute s false

/-- VERDICT: held while an earlier output of the core is DISPUTED, and one cycle after a release or another verdict. -/
def execVerdict (id : Nat) (s : State) : Res := match s.cmd? id with
  | none => .next s
  | some k => match k.body with
    | .mepi m => match (s.core k.core).press.find? (·.id == id) with
      | none => .next s
      | some p =>
        let earlier := (s.core k.core).press.takeWhile (·.id != id)
        if p.disputed then .next s
        else if earlier.any (·.disputed) || (s.core k.core).judgedAt == s.time + 1 then
          .next (s.pushAs .time (s.time + 1) 4 k.core.val k.seq (.ev (.verdict id)))
        else .next (s.judge k m p)
    | _ => .next s

/-! ## HEALTH and the event entry (R323, R326) -/

/-- HEALTH after an arbitration: ARB and UNDEC counts, the bits to set, and the policy that a naming takes. -/
def Health.after (h : Health) (undec : Bool) (set : Nat) (named : Bool) : Health :=
  let w := h.word.toNat
  let arb := Nat.min (bits w 16 16 + 1) 65535
  let und := if undec then Nat.min (bits w 32 16 + 1) 65535 else bits w 32 16
  let policy := bits w 0 2
  let set := if named ∧ policy = 0 then set ||| 16 else set
  let word := BitVec.ofNat 64 (w / 2 ^ 48 * 2 ^ 48 + und * 2 ^ 32 + arb * 2 ^ 16 + (bits w 0 16 ||| set))
  { h with word, since := if named then 0 else h.since, degraded := if named then policy == 1 else h.degraded }

/-- The entry kind of a tile arbitration. -/
def Arb.kind (a : Arb) (recheck : Bool) (h : Health) : Nat :=
  if a.undecided then 4
  else if recheck then (if a.namedP || a.namedS then 3 else 7)
  else match a.namedP, a.namedS with
    | true, true => 3
    | true, false => 2
    | false, true => 1
    | false, false => if h.pnamed then 2 else 1

/-- HEALTH after a tile arbitration of a kind. -/
def Health.afterTile (h : Health) : Nat → Health
  | 4 => h.after true 16 false
  | 3 => h.after false 28 true
  | 2 => h.after false 4 true
  | 1 => h.after false 8 true
  | _ => h.after false 0 false

/-- ARBITRATION_END (R318, R322, R329): HEALTH and the event entry stand in every case; an output whose core has been stopped
meanwhile is discarded. -/
def execArbitrationEnd (c : Fin 256) (s : State) : Res :=
  match (s.core c).mender with
  | some (.tile id, _) => match (s.core c).press.find? (·.id == id) with
    | some { tile, arb := some a, recheck, tt, .. } =>
      let f := s.ctxOf c
      let kind := a.kind recheck (s.core c).health
      let s := s.onCore c fun k => { k with health := k.health.afterTile kind }
      let s := s.event f (eventBytes s.cyc tt c.val kind tile a.elems a.lowWord a.dur)
      let s := (s.noteVerdict c).unslip c .dispute
      match s.cmd? id with
      | some k => match k.body with
        | .mepi m =>
        if a.undecided then .next (((s.discardOutput k m).mended c).groupFault c 0x0C 0 (BitVec.ofNat 64 a.lowWord) none)
        else
          let sig := fold a.words
          let s := (s.commitOutput k m a.words sig sig sig true).mended c
          .next (if kind = 3 then s.groupFault c 0x0C 0 (BitVec.ofNat 64 a.lowWord) none else s)
        | _ => .next ((s.onCore c fun k => { k with press := k.press.filter (·.id != id) }).mended c)
      | none => .next ((s.onCore c fun k => { k with press := k.press.filter (·.id != id) }).mended c)
    | _ => .next s
  | _ => .next s

/-! ## Residue arbitration (R327, R328) -/

/-- A vector result fails its residue check: the core stops, and the mender recomputes the failing elements from the operands of
its issue. In a TIMED group the result keeps its due TT, which the member reaches after the release; in a PACED one, and in a handler, the whole of it becomes
visible in the release cycle. -/
def State.residue (s : State) (c : Fin 256) (j : Fin 4) (pc : Nat) (pos : Fin 4) (order : Nat) (r : VRes) (per : Nat) (errs : List (Nat × Bool)) : State :=
  let low := (least (errs.map (·.1))).getD 0
  let t : Residue := { strand := j, pc, pos, res := r, low, elems := errs.length, dur := per + 64, wrong := errs.any (·.2), tt := (s.core c).tt + 1 }
  let wait := if s.timed c && !(s.strand c j).trapped then 1 else s.menderBusy c + t.dur
  let s := s.pushAs (.strand c j) ((s.strand c j).lt + wait) 2 c.val order (t.act c)
  (s.slip c .residue).mend c (.residue t)

/-- RESIDUE_ARBITRATION_END: HEALTH and the event entry stand in every case, and the core goes on. -/
def execResidueArbitrationEnd (c : Fin 256) (s : State) : Res :=
  match (s.core c).mender with
  | some (.residue r, _) =>
    let kind := if r.wrong then 6 else 5
    let s := s.onCore c fun k => { k with health := k.health.after false (if r.wrong then 48 else 32) false }
    let s := s.event (s.ctxOf c) (eventBytes s.cyc r.tt c.val kind r.strand.val r.elems r.low r.dur)
    -- a failure of the same cycle still holds the member (R165, R328)
    let s := s.mended c
    let more := match (s.core c).mender with
      | some (.residue _, _) => true
      | _ => (s.core c).waiting.any fun w => match w with
        | .residue _ => true
        | .tile _ => false
    .next (if more then s else s.unslip c .residue)
  | _ => .next s

/-! ## The start of a command (R96, R301, R318) -/

/-- A matrix command that cannot start waits for a cycle, and every later one of the queue with it. -/
def State.delayMatrix (s : State) (c : Fin 256) (id : Nat) : State :=
  let waits (k : Cmd) : Bool := k.core == c && k.engine == .matrix && k.queued
  let ids := (s.cmds.filter waits).map (·.id)
  let later (i : Item) : Item := match i.act with
    | .ev (.commandStart n) => if ids.contains n then { i with due := i.due + 1 } else i
    | _ => i
  let s := { s with cmds := s.cmds.map fun k => if waits k then { k with start := k.start + 1 } else k, agenda := s.agenda.map later }
  (s.onCore c fun k => { k with matFree := k.matFree + 1 }).push .time (s.time + 1) 6 c.val (.ev (.commandStart id))

/-- A command's events count from its start on the clock of its accesses. -/
def State.fromStart (s : State) (k : Cmd) (n phase : Nat) (i : Instr) : State :=
  let clk := s.engClock k.core k.nested
  s.push clk (s.now clk + n) phase k.core.val (.ev i)

/-- MCELL and MZERO change what MSIG sees two cycles after their start (R97, R295). -/
def State.seeLater (s : State) (k : Cmd) (t : Nat) (zeroBy : Option Nat) : State :=
  let tl := (s.core k.core).tiles[fin 4 t]
  let clk := s.engClock k.core k.nested
  s.push clk (s.now clk + 2) 2 k.core.val (.seen k.core t tl.anc tl.seq.length tl.coef zeroBy)

def State.dropDone (s : State) (id : Nat) : State := { s with cmds := s.cmds.filter (·.id != id) }

/-- COMMAND_START. -/
def execCommandStart (id : Nat) (s : State) : Res := match s.cmd? id with
  | none => .next s
  | some k =>
    if !k.queued then .next s
    else if k.engine == .matrix && s.startBlocked k.core k.body then
      .next ((if s.arbitrating k.core then s else s.slip k.core .pressWait).delayMatrix k.core id)
    else
      let s := if k.engine == .matrix then s.unslip k.core .pressWait else s
      match k.body with
      | .mzero t init anc => .next ((s.startMzero k.core t init anc).seeLater k t (some id) |>.dropDone id)
      | .mcell t seq => .next (((s.onTile k.core t fun tl => { tl with seq }).seeLater k t none).dropDone id)
      | .mma m => .next ((s.startMma k m).fromStart k (m.occ + 16) 3 (.mmaReady id))
      | .mepi _ =>
        let s := s.onCmd id fun k => { k with queued := false }
        .next (((s.fromStart k 16 7 (.epilogueSnapshot id)).fromStart k 80 1 (.outputFolded id)).fromStart k 100 4 (.verdict id))
      | .copy cp => .next (s.startCopy k cp)
      | .cpyh _ => .next (s.startCpyh k)
      | _ => .next s

end Sys2Proof.Machine
end

