-- ==== Sys2Proof/Machine/Scalar.lean ====
section
/-! DEFINITION. The X-class instructions (R203 to R212): each reads its operands at issue and schedules its result at the
latency of R93. -/
namespace Sys2Proof.Machine

/-! ## Shared forms -/

/-- A two-source integer instruction (R203): Xd := f a b at a latency. -/
def State.rrr (s : State) (n : Nat) (d a b : BitVec 5) (l : BitVec 1) (w : BitVec 3) (f : Word → Word → Word) : State :=
  s.withB b l w fun v => s.setX n d (f (s.rx a) v)

/-- An immediate integer instruction (R205). -/
def State.rri (s : State) (d a : BitVec 5) (i : BitVec 13) (f : Word → Word → Word) : State :=
  s.setX 1 d (f (s.rx a) (word (s.immS 13 i.toNat)))

/-- Bits [127:64] of the signed product. -/
def mulHigh (a b : Word) : Word := BitVec.ofInt 64 (a.toInt * b.toInt / (2 ^ 64 : Nat))
/-- Bits [127:64] of the unsigned product. -/
def mulHighN (a b : Word) : Word := BitVec.ofNat 64 (a.toNat * b.toNat / 2 ^ 64)

/-- R204. -/
def divS (a b : Word) : Word :=
  if b = 0 then BitVec.allOnes 64 else BitVec.ofInt 64 (Int.tdiv a.toInt b.toInt)
def remS (a b : Word) : Word :=
  if b = 0 then a else BitVec.ofInt 64 (a.toInt - b.toInt * Int.tdiv a.toInt b.toInt)
def divN (a b : Word) : Word := if b = 0 then BitVec.allOnes 64 else BitVec.ofNat 64 (a.toNat / b.toNat)
def remN (a b : Word) : Word := if b = 0 then a else BitVec.ofNat 64 (a.toNat % b.toNat)

/-- Shifts, with an unsigned amount that may be 64 or more (R203). -/
def shiftL (a b : Word) : Word := if 64 ≤ b.toNat then 0 else a <<< b.toNat
def shiftR (a b : Word) : Word := if 64 ≤ b.toNat then 0 else a >>> b.toNat
def shiftA (a b : Word) : Word := a.sshiftRight (Nat.min b.toNat 63)

def minS (a b : Word) : Word := if BitVec.slt b a then b else a
def maxS (a b : Word) : Word := if BitVec.slt a b then b else a
def minU (a b : Word) : Word := if BitVec.ult b a then b else a
def maxU (a b : Word) : Word := if BitVec.ult a b then b else a

/-- The three-input truth table of R206: bit 4x + 2y + z of the table at each position. -/
def lut3 (lut : BitVec 8) (x y z : Nat) (n : Nat) : Nat :=
  let pick (i : Nat) (t : Nat) : Nat := if lut.getLsbD i then t % 2 ^ n else 0
  let ones := 2 ^ n - 1
  let nx := x ^^^ ones
  let ny := y ^^^ ones
  let nz := z ^^^ ones
  pick 0 (nx &&& ny &&& nz) ||| pick 1 (nx &&& ny &&& z) ||| pick 2 (nx &&& y &&& nz) ||| pick 3 (nx &&& y &&& z) |||
  pick 4 (x &&& ny &&& nz) ||| pick 5 (x &&& ny &&& z) ||| pick 6 (x &&& y &&& nz) ||| pick 7 (x &&& y &&& z)

/-- Leading zeros of an n-bit number. -/
def leadingZeros : Nat → Nat → Nat
  | 0, _ => 0
  | n + 1, v => if v / 2 ^ n % 2 = 1 then 0 else 1 + leadingZeros n v

/-- One bits of an n-bit number. -/
def popCount : Nat → Nat → Nat
  | 0, _ => 0
  | n + 1, v => v / 2 ^ n % 2 + popCount n v

/-- A divide instruction (R203, R204, R77, R78): SCHED while the strand's own divide unit is held, else 18 cycles of it. -/
def State.divide (s : State) (d a b : BitVec 5) (l : BitVec 1) (w : BitVec 3) (f : Word → Word → Word) : State :=
  s.withB b l w fun v =>
    let t := s.curStrand
    if t.lt < t.divBusy then s.raise 0x07 0 else
      let s := s.onStrand s.cur.core s.cur.strand fun t => { t with divBusy := t.lt + 18 }
      if d = 0 then s else s.later 18 2 (.quot d (f (t.rx a) v))

/-! ## Two-source instructions (R203, R204) -/

def execAdd (g : BitVec 3) (d a b : BitVec 5) (l : BitVec 1) (w : BitVec 3) (s : State) : Res :=
  s.guarded g fun s => s.rrr 1 d a b l w (fun x y => x + y)
def execSub (g : BitVec 3) (d a b : BitVec 5) (l : BitVec 1) (w : BitVec 3) (s : State) : Res :=
  s.guarded g fun s => s.rrr 1 d a b l w (fun x y => x - y)
def execMul (g : BitVec 3) (d a b : BitVec 5) (l : BitVec 1) (w : BitVec 3) (s : State) : Res :=
  s.guarded g fun s => s.rrr 3 d a b l w (fun x y => x * y)
def execMulh (g : BitVec 3) (d a b : BitVec 5) (l : BitVec 1) (w : BitVec 3) (s : State) : Res :=
  s.guarded g fun s => s.rrr 3 d a b l w mulHigh
def execMulhn (g : BitVec 3) (d a b : BitVec 5) (l : BitVec 1) (w : BitVec 3) (s : State) : Res :=
  s.guarded g fun s => s.rrr 3 d a b l w mulHighN
def execAnd (g : BitVec 3) (d a b : BitVec 5) (l : BitVec 1) (w : BitVec 3) (s : State) : Res :=
  s.guarded g fun s => s.rrr 1 d a b l w (fun x y => x &&& y)
def execOr (g : BitVec 3) (d a b : BitVec 5) (l : BitVec 1) (w : BitVec 3) (s : State) : Res :=
  s.guarded g fun s => s.rrr 1 d a b l w (fun x y => x ||| y)
def execXor (g : BitVec 3) (d a b : BitVec 5) (l : BitVec 1) (w : BitVec 3) (s : State) : Res :=
  s.guarded g fun s => s.rrr 1 d a b l w (fun x y => x ^^^ y)
def execShl (g : BitVec 3) (d a b : BitVec 5) (l : BitVec 1) (w : BitVec 3) (s : State) : Res :=
  s.guarded g fun s => s.rrr 1 d a b l w shiftL
def execShr (g : BitVec 3) (d a b : BitVec 5) (l : BitVec 1) (w : BitVec 3) (s : State) : Res :=
  s.guarded g fun s => s.rrr 1 d a b l w shiftR
def execSar (g : BitVec 3) (d a b : BitVec 5) (l : BitVec 1) (w : BitVec 3) (s : State) : Res :=
  s.guarded g fun s => s.rrr 1 d a b l w shiftA
def execMin (g : BitVec 3) (d a b : BitVec 5) (l : BitVec 1) (w : BitVec 3) (s : State) : Res :=
  s.guarded g fun s => s.rrr 1 d a b l w minS
def execMax (g : BitVec 3) (d a b : BitVec 5) (l : BitVec 1) (w : BitVec 3) (s : State) : Res :=
  s.guarded g fun s => s.rrr 1 d a b l w maxS
def execMinn (g : BitVec 3) (d a b : BitVec 5) (l : BitVec 1) (w : BitVec 3) (s : State) : Res :=
  s.guarded g fun s => s.rrr 1 d a b l w minU
def execMaxn (g : BitVec 3) (d a b : BitVec 5) (l : BitVec 1) (w : BitVec 3) (s : State) : Res :=
  s.guarded g fun s => s.rrr 1 d a b l w maxU
def execDiv (g : BitVec 3) (d a b : BitVec 5) (l : BitVec 1) (w : BitVec 3) (s : State) : Res :=
  s.guarded g fun s => s.divide d a b l w divS
def execDivn (g : BitVec 3) (d a b : BitVec 5) (l : BitVec 1) (w : BitVec 3) (s : State) : Res :=
  s.guarded g fun s => s.divide d a b l w divN
def execRem (g : BitVec 3) (d a b : BitVec 5) (l : BitVec 1) (w : BitVec 3) (s : State) : Res :=
  s.guarded g fun s => s.divide d a b l w remS
def execRemn (g : BitVec 3) (d a b : BitVec 5) (l : BitVec 1) (w : BitVec 3) (s : State) : Res :=
  s.guarded g fun s => s.divide d a b l w remN

/-! ## Immediate instructions (R205, R208) -/

def execAddi (g : BitVec 3) (d a : BitVec 5) (i : BitVec 13) (s : State) : Res :=
  s.guarded g fun s => s.rri d a i (fun x y => x + y)
def execAndi (g : BitVec 3) (d a : BitVec 5) (i : BitVec 13) (s : State) : Res :=
  s.guarded g fun s => s.rri d a i (fun x y => x &&& y)
def execOri (g : BitVec 3) (d a : BitVec 5) (i : BitVec 13) (s : State) : Res :=
  s.guarded g fun s => s.rri d a i (fun x y => x ||| y)
def execXori (g : BitVec 3) (d a : BitVec 5) (i : BitVec 13) (s : State) : Res :=
  s.guarded g fun s => s.rri d a i (fun x y => x ^^^ y)
def execShli (g : BitVec 3) (d a : BitVec 5) (i : BitVec 13) (s : State) : Res :=
  s.guarded g fun s => s.rri d a i shiftL
def execShri (g : BitVec 3) (d a : BitVec 5) (i : BitVec 13) (s : State) : Res :=
  s.guarded g fun s => s.rri d a i shiftR
def execSari (g : BitVec 3) (d a : BitVec 5) (i : BitVec 13) (s : State) : Res :=
  s.guarded g fun s => s.rri d a i shiftA
/-- R208: the immediate sign-extended. -/
def execMovi (g : BitVec 3) (d : BitVec 5) (i : BitVec 18) (s : State) : Res :=
  s.guarded g fun s => s.setX 1 d (word (s.immS 18 i.toNat))
/-- R208: I × 2^18 + the low 18 bits of Xd. -/
def execMovhi (g : BitVec 3) (d : BitVec 5) (i : BitVec 18) (s : State) : Res :=
  s.guarded g fun s => s.setX 1 d (BitVec.ofNat 64 (s.immN 18 i.toNat * 2 ^ 18 + (s.rx d).toNat % 2 ^ 18))

/-! ## Bit instructions and selection (R206, R207) -/

def execLop3 (g : BitVec 3) (d a b : BitVec 5) (l : BitVec 8) (s : State) : Res :=
  s.guarded g fun s => s.setX 1 d (BitVec.ofNat 64 (lut3 l (s.rx d).toNat (s.rx a).toNat (s.rx b).toNat 64))
def execFshl (g : BitVec 3) (d a b : BitVec 5) (n : BitVec 6) (s : State) : Res :=
  s.guarded g fun s => s.setX 1 d (((s.rx a ++ s.rx b) <<< n.toNat).extractLsb' 64 64)
def execFshr (g : BitVec 3) (d a b : BitVec 5) (n : BitVec 6) (s : State) : Res :=
  s.guarded g fun s => s.setX 1 d (((s.rx a ++ s.rx b) >>> n.toNat).extractLsb' 0 64)
def execClz (g : BitVec 3) (d a : BitVec 5) (s : State) : Res :=
  s.guarded g fun s => s.setX 1 d (BitVec.ofNat 64 (leadingZeros 64 (s.rx a).toNat))
def execPopc (g : BitVec 3) (d a : BitVec 5) (s : State) : Res :=
  s.guarded g fun s => s.setX 1 d (BitVec.ofNat 64 (popCount 64 (s.rx a).toNat))
def execSel (g : BitVec 3) (d a b : BitVec 5) (l : BitVec 1) (w : BitVec 3) (c : BitVec 3) (s : State) : Res :=
  s.guarded g fun s => s.rrr 1 d a b l w (fun x y => if s.curStrand.rp c then x else y)

/-! ## Predicates (R209) -/

def execCmp (g : BitVec 3) (d : BitVec 3) (a b : BitVec 5) (l : BitVec 1) (w : BitVec 3) (c : BitVec 4) (s : State) : Res :=
  s.guarded g fun s => s.withB b l w fun v => s.setP 1 d (scalarCond c.toNat (s.rx a) v)
/-- The condition stands in imm[12:10]; the value is the rest with EXT1 above it. -/
def execCmpi (g : BitVec 3) (d : BitVec 3) (a : BitVec 5) (c : BitVec 3) (i : BitVec 10) (s : State) : Res :=
  s.guarded g fun s => s.setP 1 d (scalarCond c.toNat (s.rx a) (word (s.immS 10 i.toNat)))
def execPlog (g : BitVec 3) (d a b : BitVec 3) (l : BitVec 4) (s : State) : Res :=
  s.guarded g fun s => s.setP 1 d (l.getLsbD (2 * bit (s.curStrand.rp a) + bit (s.curStrand.rp b)))

/-! ## Address registers (R210) -/

def execAadd (g : BitVec 3) (d a : BitVec 4) (b : BitVec 5) (l : BitVec 1) (w : BitVec 3) (s : State) : Res :=
  s.guarded g fun s => s.withB b l w fun v => s.setA 1 d (s.ra a + v)
def execAaddi (g : BitVec 3) (d a : BitVec 4) (i : BitVec 13) (s : State) : Res :=
  s.guarded g fun s => s.setA 1 d (s.ra a + word (s.immS 13 i.toNat))
def execAmovToA (g : BitVec 3) (d : BitVec 4) (a : BitVec 5) (s : State) : Res :=
  s.guarded g fun s => s.setA 1 d (s.rx a)
def execAmovToX (g : BitVec 3) (d : BitVec 5) (a : BitVec 4) (s : State) : Res :=
  s.guarded g fun s => s.setX 1 d (s.ra a)

/-! ## Scalar memory (R211) -/

/-- A load: the checks at issue, the read at issue + 2, the result at issue + 4. -/
def State.scalarLoad (s : State) (a : BitVec 4) (o : BitVec 10) (size : Nat) (sx toA : Bool) (d : BitVec 5) : State :=
  s.withSpm (s.exact a (s.immS 10 o.toNat)) size size fun addr => s.later 2 7 (.load addr size sx toA d)

/-- A store: the checks at issue, the write at issue + 2. -/
def State.scalarStore (s : State) (a : BitVec 4) (o : BitVec 10) (size : Nat) (v : Word) : State :=
  s.withSpmWrite (s.exact a (s.immS 10 o.toNat)) size size fun addr => s.later 2 8 (.store addr size v)

def execLd (g : BitVec 3) (d : BitVec 5) (a : BitVec 4) (w : BitVec 2) (x : BitVec 1) (o : BitVec 10) (s : State) : Res :=
  s.guarded g fun s => s.scalarLoad a o (2 ^ w.toNat) (x == 1) false d
def execSt (g : BitVec 3) (d : BitVec 5) (a : BitVec 4) (w : BitVec 2) (o : BitVec 10) (s : State) : Res :=
  s.guarded g fun s => s.scalarStore a o (2 ^ w.toNat) (s.rx d)
def execLda (g : BitVec 3) (d a : BitVec 4) (o : BitVec 10) (s : State) : Res :=
  s.guarded g fun s => s.scalarLoad a o 8 false true (d.zeroExtend 5)
def execSta (g : BitVec 3) (d a : BitVec 4) (o : BitVec 10) (s : State) : Res :=
  s.guarded g fun s => s.scalarStore a o 8 (s.ra d)

end Sys2Proof.Machine
end

