-- ==== Sys2Proof/Machine/Effects.lean ====
section
/-! DEFINITION. What an item of the agenda does when its cycle comes (R75, R76, R181, R191, R211, R218, R238 to R243, R333 to
R336): register and CSR writes, loads and stores, vector results with their flags, traps and checks, barrier events. -/
namespace Sys2Proof.Machine

/-- A masked write of a physical vector register. -/
def Core.writeV (k : Core) (w : VWrite) : Core :=
  { k with v := upd k.v (fin 32 w.reg) fun old => (old &&& ~~~w.mask) ||| (w.val &&& w.mask) }

/-- A vector result becomes visible. -/
def State.vdone (s : State) (c : Fin 256) (j : Fin 4) (r : VRes) : State :=
  let s := s.onCore c fun k => r.writes.foldl Core.writeV k
  let row (t : Strand) : Strand := match r.krow with
    | none => t
    | some (d, n, w) =>
      let m : KMask := (BitVec.ofNat 1024 (2 ^ 64 - 1)) <<< (64 * n)
      t.wk d ((t.rk d &&& ~~~m) ||| (w.zeroExtend 1024 <<< (64 * n)))
  s.onStrand c j fun t =>
    let t := r.kwrites.foldl (fun t k => t.wk k.1 k.2) (row t)
    let t := r.xwrites.foldl (fun t x => t.wx x.1 x.2) t
    match r.latch with
    | some l => { t with latch := l }
    | none => t

/-- A vector result at issue + latency − 1 (R218, R327): its flags rise; an enabled kind traps and nothing is written; a residue
failure hands it to the mender; else its writes follow in the next cycle. -/
def State.vresultDue (s : State) (it : Item) (c : Fin 256) (j : Fin 4) (pc : Nat) (pos : Fin 4) (r : VRes) : State :=
  let s := s.flagUpdate c j r.flags
  match r.trap with
  | some t => s.meetTrap c j { slot := pos, pc, info := t, order := it.seq, ring := r.ring }
  | none =>
    let go (s : State) : State := s.pushAs it.clk (it.due + 1) 2 it.core it.seq (.eff c j pc pos (.vdone r))
    match r.check with
    | none => go s
    | some per =>
      let errs := (s.core c).errV.headD []
      let s := s.onCore c fun k => { k with errV := k.errV.drop 1 }
      if errs.isEmpty then go s else s.residue c j pc pos it.seq r per errs

/-- A load's value, extended. -/
def loadValue (m : Mem) (addr size : Nat) (sx : Bool) : Word :=
  let v := m.readNat addr size
  if sx then signed size v else BitVec.ofNat 64 v

/-- ACRD's flags and trap at +189 (R376); the trap suppresses the result. -/
def State.cellFlags (s : State) (c : Fin 256) (j : Fin 4) (pc : Nat) (pos : Fin 4) (order id : Nat) (f : HwFlags) (t : Option TrapInfo) : State :=
  let s := s.flagUpdate c j f
  match t with
  | none => s
  | some t =>
    let mine (i : Item) : Bool := match i.act with
      | .eff _ _ _ _ (.xret _ n _ _) => n == id
      | _ => false
    ({ s with agenda := s.agenda.filter fun i => !mine i }).meetTrap c j { slot := pos, pc, info := t, order, ring := (0, 0) }

/-- An effect of a slot takes place. -/
def State.applyEff (s : State) (it : Item) (c : Fin 256) (j : Fin 4) (pc : Nat) (pos : Fin 4) : Eff → State
  | .x d v => s.onStrand c j fun t => t.wx d v
  | .xret d _ _ v => match v with
    | some v => s.onStrand c j fun t => t.wx d v
    | none => s
  | .acflags id r => match r with
    | some (f, t) => s.cellFlags c j pc pos it.seq id f t
    | none => s
  | .a d v => s.onStrand c j fun t => t.wa d v
  | .p d b => s.onStrand c j fun t => t.wp d b
  | .vdone r => s.vdone c j r
  | .csr num op v => s.csrWrite c j num op v
  | .flags f => s.flagUpdate c j f
  | .res r => s.vresultDue it c j pc pos r
  | .quot d v => s.onStrand c j fun t => t.wx d v
  | .load addr size sx toA d =>
    s.pushAs it.clk (it.due + 2) 2 it.core it.seq (.eff c j pc pos (.loaded toA d (loadValue (s.core c).spm addr size sx)))
  | .loaded toA d v => s.onStrand c j fun t => if toA then t.wa (d.truncate 4) v else t.wx d v
  | .vloaded w => s.onCore c fun k => k.writeV w
  | .store addr size v => s.onCore c fun k => { k with spm := k.spm.writeNat addr size v.toNat }
  | .vload addr reg mask mark =>
    let s := s.pushAs it.clk (it.due + 4) 2 it.core it.seq
      (.eff c j pc pos (.vloaded { reg, mask, val := BitVec.ofNat 32768 ((s.core c).spm.readNat addr 4096) }))
    match mark with
    | some b => s.arriveAt c b 1 0
    | none => s
  | .vstore addr v => s.onCore c fun k => { k with spm := k.spm.writeNat addr 4096 v.toNat }
  | .vloadx addrs i reg mask acc =>
    let acc := acc ||| (BitVec.ofNat 32768 ((s.core c).spm.readNat (addrs.getD i 0) 256) <<< (2048 * i))
    if i < 15 then s.pushAs it.clk (it.due + 1) 7 it.core it.seq (.eff c j pc pos (.vloadx addrs (i + 1) reg mask acc))
    else s.pushAs it.clk (it.due + 1) 2 it.core it.seq (.eff c j pc pos (.vloaded { reg, mask, val := acc }))
  | .vstorex addrs i k v =>
    let s := s.onCore c fun co => { co with spm := (rowWords k i).foldl (fun m w =>
      m.writeNat (addrs.getD i 0 + 4 * w) 4 (elem v 32 (64 * i + w))) co.spm }
    if i < 15 then s.pushAs it.clk (it.due + 1) 8 it.core it.seq (.eff c j pc pos (.vstorex addrs (i + 1) k v)) else s
  | .binit addr expect due scope => (s.onCore c fun k => k.barInit addr expect due scope).testAt c addr
  | .bexp addr w => (s.onCore c fun k => k.barExpect addr w).testAt c addr
  | .arrive addr n b => s.arriveAt c addr n b
  | .btest addr id => s.arriveRet c j id ((s.core c).bar addr).test
  | .sreg i st => s.onCore c fun k => { k.releaseStream i.toNat with streams := upd k.streams (fin 16 i.toNat) fun _ => st }
  | .bnd i v => s.onCore c fun k => { k with bnd := upd k.bnd (fin 16 i.toNat) fun _ => v }
  | .rt i v => s.onCore c fun k => { k with rt := upd k.rt (fin 8 i.toNat) fun _ => v }
  | .cdrpLd e desc steps => s.loadEntry c j e desc steps
  | .cdrpDrop e => s.dropEntry c e
  | .delta d => s.onStrand c j fun t => { t with a := Vector.ofFn fun n : Fin 16 => t.a[n] + d[n] }
  | .stage n b => s.onStrand c j fun t => (List.range (n + 1)).foldl (fun t i => t.wp (BitVec.ofNat 3 (4 + i)) (b.getLsbD i)) t
  | .swtrap n => s.meetTrap c j { slot := pos, pc, info := { cause := 0x0F, taddr := n.zeroExtend 64, coef := none }, order := it.seq, ring := (0, 0) }
  | .late t => s.meetTrap c j { slot := pos, pc, info := t, order := it.seq, ring := (0, 0) }
  | .fill key owed v => s.fillHeld c j key owed v
  | .launchRead addr order => s.onCore c fun k => { k with launches := k.launches.map fun l =>
      if l.order = order then { l with bytes := k.spm.readBytes addr 128 } else l }

/-- MSIG's view of a tile after an MZERO or an MCELL (R295, R296, R308). -/
def State.seeTile (s : State) (c : Fin 256) (t : Nat) (anc : Int) (len coef : Nat) (zeroBy : Option Nat) : State := match zeroBy with
  | some id => (s.onTile c t fun tl => { tl with seenAnc := anc, seenLen := len, seenCoef := coef, seenMma := false, commits := 0 }).onCore c
      fun k => k.endPins id
  | none => s.onTile c t fun tl => { tl with seenLen := len }

/-- MSIG's view of a committed output; a later output of the tile may already stand in the press, or have been discarded (R308). -/
def State.showCommit (s : State) (c : Fin 256) (t : Nat) (sigP sigS : Word) (arb : Bool) : State :=
  let later := (s.core c).press.any fun p => p.tile == t
  s.onTile c t fun tl => { tl with commits := tl.commits + 1, sigP, sigS, arb, latest := if later then .inPress else if tl.latest == .discarded then .discarded else .committed }

/-- A landing write that meets a pin which an MMA has set in this very cycle is discarded too (R292, R293). -/
def State.unlessPinned (s : State) (c : Fin 256) (addr n : Nat) (f : State → State) : State :=
  if (s.core c).pinned .spm addr n then s.eventTrap c 0x07 (BitVec.ofNat 64 addr) none else f s

/-- A landing write of this cycle that meets a pin is discarded, and SCHED is raised (R293). -/
def State.pinCheck (s : State) (c : Fin 256) (off n key order : Nat) : State :=
  let gone (i : Item) : Bool := i.clk == .time && i.phase == 8 && i.core == key && i.seq == order && match i.act with
    | .land d a _ | .combine d a _ _ => d == c && a == off
    | _ => false
  if (s.core c).pinned .spm off n then ({ s with agenda := s.agenda.filter fun i => !gone i }).eventTrap c 0x07 (BitVec.ofNat 64 off) none else s

/-- An item of the agenda that is no event of the table takes effect. -/
def State.applyAct (s : State) (it : Item) : State := match it.act with
  | .eff c j pc pos e => s.applyEff it c j pc pos e
  | .ev _ => s
  | .seen c t anc len coef zeroBy => s.seeTile c t anc len coef zeroBy
  | .commit c t sigP sigS arb => s.showCommit c t sigP sigS arb
  | .btestAll c addr => s.onCore c fun k => k.barTest addr
  | .sent _ _ _ | .passed _ _ _ => s
  | .spmWrite c bs => s.onCore c fun k => { k with spm := k.spm.writeCells bs }
  | .flightSave c j => s.saveFlight c j
  | .trapEvent c cause taddr tpc => s.eventTrapNow c cause taddr tpc
  | .chunk ch => s.chunkHere ch
  | .land c addr bs => s.unlessPinned c addr bs.length fun s => s.onCore c fun k => { k with spm := k.spm.writeBytes addr bs }
  | .combine c addr comb bs => s.unlessPinned c addr bs.length fun s => s.onCore c fun k => { k with spm := combineBytes k.spm addr comb bs }
  | .sentAll c e => s.sentAll c e
  | .adopt cyc => s.adoptNow cyc
  | .gap w c => { s with gaps := (w, c) :: s.gaps }
  | .ownWrite host a bs _ => s.putPlace host a bs
  | .pinCheck c off n key order => s.pinCheck c off n key order
  | .copyPins id => s.copyPins id
  | .save f va bs => match s.saveBytes f va bs with
    | .ok t => t
    | .error _ => s

end Sys2Proof.Machine
end

