-- ==== Sys2Proof/Machine/Slots.lean ====
section
/-! DEFINITION. The meaning of each of the 176 slot instructions, as a bundle runs them (R65, R86 to R89): the same
definitions that exec calls. An operation or event of the table never stands in a slot. -/
namespace Sys2Proof.Machine

/-- Runs one slot instruction of the bundle that is being issued. -/
def runSlot (i : Instr) (s : State) : Res := match i with
  | .nop => execNop s
  | .br g o => execBr g o s
  | .brx g a l => execBrx g a l s
  | .call g o => execCall g o s
  | .ret g => execRet g s
  | .loop g e r sf a n => execLoop g e r sf a n s
  | .loopi g e r sf c n => execLoopi g e r sf c n s
  | .lbrk g => execLbrk g s
  | .wait g sf n => execWait g sf n s
  | .realign g d => execRealign g d s
  | .realignP g d => execRealignP g d s
  | .realignJoin g d a => execRealignJoin g d a s
  | .csrr g d c => execCsrr g d c s
  | .csrw g d a im c => execCsrw g d a im c s
  | .csrs g d a im c => execCsrs g d a im c s
  | .csrc g d a im c => execCsrc g d a im c s
  | .fence g sf k => execFence g sf k s
  | .launch g d a q => execLaunch g d a q s
  | .exit g => execExit g s
  | .yield g => execYield g s
  | .trap g n => execTrap g n s
  | .rft g => execRft g s
  | .rftReplay g => execRftReplay g s
  | .rftFault g => execRftFault g s
  | .ckpt g d a b => execCkpt g d a b s
  | .ckptOff g d => execCkptOff g d s
  | .drift g d sf => execDrift g d sf s
  | .cycr g d sf => execCycr g d sf s
  | .strs g d => execStrs g d s
  | .add g d a b l w => execAdd g d a b l w s
  | .sub g d a b l w => execSub g d a b l w s
  | .mul g d a b l w => execMul g d a b l w s
  | .mulh g d a b l w => execMulh g d a b l w s
  | .mulhn g d a b l w => execMulhn g d a b l w s
  | .div g d a b l w => execDiv g d a b l w s
  | .divn g d a b l w => execDivn g d a b l w s
  | .rem g d a b l w => execRem g d a b l w s
  | .remn g d a b l w => execRemn g d a b l w s
  | .and g d a b l w => execAnd g d a b l w s
  | .or g d a b l w => execOr g d a b l w s
  | .xor g d a b l w => execXor g d a b l w s
  | .shl g d a b l w => execShl g d a b l w s
  | .shr g d a b l w => execShr g d a b l w s
  | .sar g d a b l w => execSar g d a b l w s
  | .min g d a b l w => execMin g d a b l w s
  | .max g d a b l w => execMax g d a b l w s
  | .minn g d a b l w => execMinn g d a b l w s
  | .maxn g d a b l w => execMaxn g d a b l w s
  | .addi g d a im => execAddi g d a im s
  | .andi g d a im => execAndi g d a im s
  | .ori g d a im => execOri g d a im s
  | .xori g d a im => execXori g d a im s
  | .shli g d a im => execShli g d a im s
  | .shri g d a im => execShri g d a im s
  | .sari g d a im => execSari g d a im s
  | .lop3 g d a b l => execLop3 g d a b l s
  | .fshl g d a b sf => execFshl g d a b sf s
  | .fshr g d a b sf => execFshr g d a b sf s
  | .clz g d a => execClz g d a s
  | .popc g d a => execPopc g d a s
  | .sel g d a b l w c => execSel g d a b l w c s
  | .movi g d im => execMovi g d im s
  | .movhi g d im => execMovhi g d im s
  | .cmp g d a b l w c => execCmp g d a b l w c s
  | .cmpi g d a c im => execCmpi g d a c im s
  | .plog g d a b l => execPlog g d a b l s
  | .aadd g d a b l w => execAadd g d a b l w s
  | .aaddi g d a im => execAaddi g d a im s
  | .amovToA g d a => execAmovToA g d a s
  | .amovToX g d a => execAmovToX g d a s
  | .ld g d a w sf o => execLd g d a w sf o s
  | .st g d a w o => execSt g d a w o s
  | .lda g d a o => execLda g d a o s
  | .sta g d a o => execSta g d a o s
  | .vadd g d a b k f j sf => execVadd g d a b k f j sf s
  | .vsub g d a b k f j sf => execVsub g d a b k f j sf s
  | .vmul g d a b k f j sf => execVmul g d a b k f j sf s
  | .vfma g d a b c f => execVfma g d a b c f s
  | .vfms g d a b c f => execVfms g d a b c f s
  | .vfnma g d a b c f => execVfnma g d a b c f s
  | .vdiv g d a b k f j => execVdiv g d a b k f j s
  | .vsqrt g d a k f j => execVsqrt g d a k f j s
  | .vrsq g d a k f j => execVrsq g d a k f j s
  | .vrcp g d a k f j => execVrcp g d a k f j s
  | .vmin g d a b k f j => execVmin g d a b k f j s
  | .vmax g d a b k f j => execVmax g d a b k f j s
  | .vabs g d a k f j sf => execVabs g d a k f j sf s
  | .vneg g d a k f j sf => execVneg g d a k f j sf s
  | .vcmp g d a b c f u y => execVcmp g d a b c f u y s
  | .vsel g d a b k f j => execVsel g d a b k f j s
  | .vexp g d a k j => execVexp g d a k j s
  | .vlog g d a k j => execVlog g d a k j s
  | .vsin g d a k j => execVsin g d a k j s
  | .vcos g d a k j => execVcos g d a k j s
  | .vtanh g d a k j => execVtanh g d a k j s
  | .verf g d a k j => execVerf g d a k j s
  | .vsigm g d a k j => execVsigm g d a k j s
  | .vqtz g d a b k => execVqtz g d a b k s
  | .vcvt g d a sf k t => execVcvt g d a sf k t s
  | .vand g d a b k f => execVand g d a b k f s
  | .vor g d a b k f => execVor g d a b k f s
  | .vxor g d a b k f => execVxor g d a b k f s
  | .vlop3 g d a b l => execVlop3 g d a b l s
  | .vshl g d a b k f => execVshl g d a b k f s
  | .vshr g d a b k f => execVshr g d a b k f s
  | .vsar g d a b k f => execVsar g d a b k f s
  | .vfshl g d a b c f => execVfshl g d a b c f s
  | .vfshr g d a b c f => execVfshr g d a b c f s
  | .vpopc g d a k f => execVpopc g d a k f s
  | .vclz g d a k f => execVclz g d a k f s
  | .vmov g d a k => execVmov g d a k s
  | .vmovL g d q r k t => execVmovL g d q r k t s
  | .vbrow g d a n k => execVbrow g d a n k s
  | .vbcol g d a n k h => execVbcol g d a n k h s
  | .vrotr g d a n k h => execVrotr g d a n k h s
  | .vrotc g d a n k => execVrotc g d a n k s
  | .vredr g d a o k f j sf => execVredr g d a o k f j sf s
  | .vredc g d a o k f j sf => execVredc g d a o k f j sf s
  | .vtrn g d a k => execVtrn g d a k s
  | .vperm g d a b k => execVperm g d a b k s
  | .viota g d k f => execViota g d k f s
  | .vins g d a b f => execVins g d a b f s
  | .vext g d a b f u => execVext g d a b f u s
  | .vbmax g d a f t => execVbmax g d a f t s
  | .vqnt g d a b sf p f t => execVqnt g d a b sf p f t s
  | .vdqnt g d a b p f sf => execVdqnt g d a b p f sf s
  | .vld g d a k m o => execVld g d a k m o s
  | .vst g d a o => execVst g d a o s
  | .vldx g d sf b k => execVldx g d sf b k s
  | .vstx g d sf b k => execVstx g d sf b k s
  | .klog g d a b l m => execKlog g d a b l m s
  | .kmovToK g d a r => execKmovToK g d a r s
  | .kmovToX g d a r => execKmovToX g d a r s
  | .vrng g d a b k => execVrng g d a b k s
  | .vcadd g d a b k => execVcadd g d a b k s
  | .vcaddX g d a b k => execVcaddX g d a b k s
  | .jseed g d a b k f sf => execJseed g d a b k f sf s
  | .jext g d a n k f c => execJext g d a n k f c s
  | .jcoefDiff g d a k f => execJcoefDiff g d a k f s
  | .jcoefTrunc g d a m k f => execJcoefTrunc g d a m k f s
  | .jcoefRescale g d a b k f => execJcoefRescale g d a b k f s
  | .mstrm g d a f => execMstrm g d a f s
  | .mstrmBnd g d a => execMstrmBnd g d a s
  | .mstrmRbnd g d a => execMstrmRbnd g d a s
  | .mzero g t im a => execMzero g t im a s
  | .mma g t a b j r => execMma g t a b j r s
  | .mcell g t a n => execMcell g t a n s
  | .mepi g t o b c r e l => execMepi g t o b c r e l s
  | .msig g d t sf => execMsig g d t sf s
  | .mroute g d a => execMroute g d a s
  | .mrouteRd g d a => execMrouteRd g d a s
  | .cpy g d a b z sf c => execCpy g d a b z sf c s
  | .cpy2 g d a b z c => execCpy2 g d a b z c s
  | .cpyb g d a b z c => execCpyb g d a b z c s
  | .cpyq g d a b z c => execCpyq g d a b z c s
  | .cpyh g d a b z h c => execCpyh g d a b z h c s
  | .binit g d a sf => execBinit g d a sf s
  | .barv g a n => execBarv g a n s
  | .bwait g d a => execBwait g d a s
  | .btest g d a => execBtest g d a s
  | .bexp g d a => execBexp g d a s
  | .amo g d a b sf z o => execAmo g d a b sf z o s
  | .acell g a b sf => execAcell g a b sf s
  | .acrd g d a sf c => execAcrd g d a sf c s
  | .send g d a => execSend g d a s
  | .sendV g d a q r => execSendV g d a q r s
  | .recv g d a sf => execRecv g d a sf s
  | .recvV g d a q r => execRecvV g d a q r s
  | .recvDrop g a => execRecvDrop g a s
  | .lstat g d a => execLstat g d a s
  | .lstatPort g d a => execLstatPort g d a s
  | .ltime g d a r => execLtime g d a r s
  | .coll g e => execColl g e s
  | .cdrpLd g a e => execCdrpLd g a e s
  | .cdrpDrop g e => execCdrpDrop g e s
  | .cdrpSt g d e => execCdrpSt g d e s
  | .bundleIssue _ _ => .next s
  | .freezeRestart _ _ => .next s
  | .strandSelect _ _ => .next s
  | .bell => .next s
  | .recordPromotion _ => .next s
  | .groupRelease _ _ => .next s
  | .preSet _ _ => .next s
  | .preemptionSave _ _ => .next s
  | .saveComplete _ _ => .next s
  | .groupRetire _ _ => .next s
  | .deadline _ _ => .next s
  | .joinComplete _ _ => .next s
  | .joinTimeout _ _ => .next s
  | .realignResume _ _ => .next s
  | .realignMismatch _ _ => .next s
  | .commandStart _ => .next s
  | .mmaReady _ => .next s
  | .epilogueSnapshot _ => .next s
  | .outputFolded _ => .next s
  | .verdict _ => .next s
  | .arbitrationEnd _ => .next s
  | .residueArbitrationEnd _ => .next s
  | .copyRead _ => .next s
  | .copyPerform _ => .next s
  | .copyResendRead _ => .next s
  | .copyResendLand _ => .next s
  | .cpyhPerform _ => .next s
  | .barrierDue _ _ => .next s
  | .walkComplete _ => .next s
  | .correctionDelivery _ => .next s
  | .amoPerform _ => .next s
  | .hostAtomicCompletion _ => .next s
  | .acellPerform _ => .next s
  | .acrdRead _ => .next s
  | .checkpointMark _ => .next s
  | .pairCompare _ => .next s
  | .flitArrival _ _ _ => .next s
  | .flitLanding _ => .next s
  | .flitMissing _ _ => .next s
  | .beacon _ _ => .next s
  | .portEnable _ => .next s
  | .trainingComplete _ _ => .next s
  | .trainingFail _ => .next s
  | .alignComplete _ => .next s
  | .linkDegrade _ => .next s
  | .retrain _ => .next s
  | .portDisable _ => .next s
  | .signalLoss _ => .next s
  | .portReset _ => .next s
  | .driftStep => .next s
  | .collectiveStep _ _ _ => .next s
  | .finStep _ _ _ => .next s
  | .chunkApply _ => .next s
  | .ackArrival _ _ _ => .next s
  | .ackTimeout _ _ _ => .next s
  | .instanceComplete _ _ => .next s
  | .stepComplete _ _ => .next s
  | .flr _ => .next s
  | .hostRequestAbandon _ => .next s
  | .drainComplete _ => .next s
  | .scrubComplete _ => .next s
  | .invalComplete _ => .next s
  | .flrPf0 => .next s
  | .deviceReset => .next s
  | .configurationRequest _ _ => .next s
  | .temperatureTrip _ => .next s
  | .firmwareFailure => .next s
  | .taggedReturn _ _ => .next s
  | .openCtx _ => .next s
  | .closeCtx _ => .next s
  | .queueStart _ _ => .next s
  | .queueStop _ _ => .next s
  | .queueReset _ _ => .next s
  | .inval _ _ _ => .next s
  | .rbreq _ => .next s
  | .stepMode _ _ _ => .next s
  | .singleStep _ _ _ => .next s
  | .assign _ => .next s
  | .withdraw _ => .next s
  | .hclr _ _ => .next s
  | .registerWrite _ _ _ => .next s
  | .hostMemoryAccess _ => .next s
  | .readHealth _ => .next s
  | .readFaultLog => .next s
  | .readStatus => .next s
  | .resetCmd => .next s
  | .stepCmd _ _ => .next s
  | .pldmPlatformMonitoring => .next s
  | .pldmFirmwareUpdate _ => .next s
  | .getVersion _ => .next s
  | .getCapabilities _ => .next s
  | .negotiateAlgorithms _ => .next s
  | .getDigests _ => .next s
  | .getCertificate _ _ _ => .next s
  | .challenge _ _ => .next s
  | .getMeasurements _ _ => .next s
  | .forcedClose _ => .next s

end Sys2Proof.Machine
end

