-- ==== Sys2Proof/Machine/Bundle.lean ====
section
/-! DEFINITION. A core's turn in a cycle (R73, R80, R82, R91, R159, R160, R176, R177, R430, R439): which strand may issue, the
trial of its next bundle, the selection of a strand, the waits that end, and the restart of a frozen group. -/
namespace Sys2Proof.Machine

/-! ## Who may issue (R160, R177) -/

/-- An instruction of the strand has a result due in a cycle past whose value has not come (R349): the strand waits for it, and its member's TT
stands (R164). -/
def State.overdue (s : State) (c : Fin 256) (j : Fin 4) : Bool := s.agenda.any fun (i : Item) => match i.act with
  | .eff c' j' _ _ (.xret _ _ _ none) | .eff c' j' _ _ (.acflags _ none) => c' == c && j' == j && decide (i.due ≤ s.now i.clk)
  | _ => false

/-- Strand j of core c waits for nothing but its next bundle, and its member may run: in a TIMED group it has no slip but its own at
issue and does not stand at the freeze point, in a PACED one the core is not stopped by an arbitration (R318) and the strand
does not yield (R201). A kernel that has faulted before the issue of this cycle issues nothing (R441). In step mode only the strand of the step in progress runs (R151). A handler runs on while its member's
TT stands (R436), but for an arbitration of its core (R318, R328). -/
def State.mayTry (s : State) (c : Fin 256) (j : Fin 4) : Bool :=
  let t := s.strand c j
  t.life == .live && t.wait == .none && t.pending.isEmpty && !s.overdue c j && match s.owner? c with
  | none => false
  | some (k, g) => !(k.fault.isSome && k.faultEarly) && match g.step with
    | .off =>
      if k.record.timed then (t.trapped && !s.arbitrating c) || (!t.trapped && (s.core c).causes.all (· == .issue) && !s.atFreeze c)
      else !s.arbitrating c && t.yieldAt != some s.time
    | .halted | .waiting _ _ => t.trapped && !s.arbitrating c
    | .stepping j' did => !s.arbitrating c &&
        (t.trapped || (j' == j && !(did.any fun d => d.1 == c) && (k.record.timed || did.isEmpty)))

/-! ## Trying a bundle -/

/-- What trying to issue a strand's next bundle gives: its earliest cycle has not come; an issue condition does not hold (the
state with what the wait starts); or the bundle has issued. -/
inductive Try where
  | early
  | blocked (s : State)
  | issued (s : State)

/-- MMA. -/
def Instr.isMma : Instr → Bool
  | .mma .. => true
  | _ => false

/-- STRS. -/
def Instr.isStrs : Instr → Bool
  | .strs .. => true
  | _ => false

/-- Runs one slot; a strand that has been stopped runs none. -/
def State.runOne (exts : Option (BitVec 5 × BitVec 5)) (s : State) (x : Fin 4 × Instr) : State :=
  if s.curStrand.life != .live then s else match runSlot x.2 (s.atSlot x.1 exts) with
  | .next t => t
  | _ => s

/-- The pins that the MMA of a bundle sets in its issue cycle (R292). -/
def State.pinsOf (exts : Option (BitVec 5 × BitVec 5)) (slots : List (Fin 4 × Instr)) (s : State) : List Pin :=
  match slots.find? fun x => Instr.isMma x.2 with
  | some x => (State.runOne exts s x).curCore.pins.filter fun p => !s.curCore.pins.contains p
  | none => []

/-- Runs the slots of a bundle in position order. -/
def State.runSlots (exts : Option (BitVec 5 × BitVec 5)) (slots : List (Fin 4 × Instr)) (s : State) : State :=
  slots.foldl (State.runOne exts) (s.onCur fun k => { k with newPins := s.pinsOf exts slots })

/-- What the wait of a bundle that cannot issue starts: the walks of its command (R347), and its hold on a barrier (R337). -/
def State.blockedBy (s : State) (c : Fin 256) (j : Fin 4) (k : Cur) : State :=
  let s := match k.bwait with
    | some a => s.onCore c fun x => x.watch a
    | none => s
  (s.onStrand c j fun t => { t with bwait := k.bwait }).queueWalks c j k.walk

/-- The end of a trial: the bundle issues, unless a slot could not or more than 127 effects would be in flight (R73, R434). -/
def State.tried (s : State) (c : Fin 256) (j : Fin 4) (ran : State) : Try :=
  if ran.cur.stall then .blocked (s.blockedBy c j ran.cur) else
  let e := ran.ended
  if 127 < e.1.flightCount c j + (e.2.map fun a => a.more.length).getD 0 then .blocked s
  else .issued { ran.finish with free := ran.finish.free + 1 }

/-- The trap of an illegal encoding is taken in the cycle in which the bundle would have issued (R91). -/
def State.wouldIssue (s : State) (c : Fin 256) (j : Fin 4) (pc : Nat) (bad : Option (Fin 4)) (r : Try) : Try := match bad, r with
  | some pos, .issued _ => .issued (s.illegal c j pc pos)
  | _, r => r

/-- Tries the next bundle of strand j of core c, with what STRS of it reads of the core's other strands (R202). -/
def State.attemptWith (s : State) (c : Fin 256) (j : Fin 4) (ready : Unit → BitVec 4) : Try :=
  let t := s.strand c j
  let k := s.core c
  let sees (s : State) (slots : List (Fin 4 × Instr)) : State :=
    if slots.any fun x => Instr.isStrs x.2 then s.onCur fun k => { k with ready := ready () } else s
  match t.replay with
  | r :: _ =>
    -- the slot named by TPC and TSLOT, alone, with its own EXT bits (R439)
    if t.lt < r.from_ then .early else
    let b := k.bundle t r.pc
    s.wouldIssue c j r.pc (b.bad.filter (· == r.pos))
      (s.tried c j ((sees (s.begin_ c j r.pc 0 true) b.slots).runSlots b.exts (b.slots.filter fun x => x.1 == r.pos)))
  | [] =>
    let pc := t.pc.toNat
    match t.bad with
    | some d =>
      -- no DLY counts at a target that is no bundle (log 144)
      if t.lt < t.earliest 0 then .early
      else .issued ((s.onStrand c j fun t => { t with bad := none }).takeTrap c j d.pend)
    | none =>
      let b := k.bundle t pc
      if t.lt < t.earliest b.dly then .early else
      let s1 := sees (s.begin_ c j pc b.pops false) b.slots
      s.wouldIssue c j pc b.bad
        -- POP of an empty queue (R71)
        (if (List.finRange 8).any fun q => b.pops.getLsbD q.val && (k.landq[q]).flits.isEmpty then
          if s.timed c && !s.stepping c then s.tried c j (((s1.atSlot 0 none).raise 0x07 0).runSlots b.exts b.slots)
          else .blocked s
        else s.tried c j (s1.runSlots b.exts b.slots))

/-- The strands of core c but j whose next bundle could issue in this cycle, by every condition but selection (R177, R202). -/
def State.readyOf (s : State) (c : Fin 256) (j : Fin 4) : BitVec 4 :=
  BitVec.ofNat 4 (((List.finRange 4).map fun i => if i != j && s.mayTry c i && (match s.attemptWith c i (fun _ => 0) with
    | .issued _ => true
    | _ => false) then 2 ^ i.val else 0).sum)

/-- Tries the next bundle of strand j of core c. -/
def State.attempt (s : State) (c : Fin 256) (j : Fin 4) : Try := s.attemptWith c j fun _ => s.readyOf c j

/-! ## Selection (R177) -/

/-- The core selects among its strands (R177): its group is PACED and not in step mode. -/
def State.selects (s : State) (c : Fin 256) : Bool := !s.timed c && !s.stepping c

/-- Strand j of core c can issue its next bundle in this cycle, by every condition but selection. -/
def State.canIssue (s : State) (c : Fin 256) (j : Fin 4) : Bool := s.mayTry c j && match s.attempt c j with
  | .issued _ => true
  | _ => false

/-- The strands after the selected one, in the order in which the core takes them. -/
def others (j : Fin 4) : List (Fin 4) := [j + 1, j + 2, j + 3]

/-- The strand that core c selects in this cycle in place of one that cannot issue. -/
def State.choice (s : State) (c : Fin 256) : Option (Fin 4) :=
  let k := s.core c
  if !s.selects c || s.arbitrating c || decide (s.time < k.selFrom) || s.canIssue c k.sel then none
  else (others k.sel).find? (s.canIssue c)

/-- A bundle of strand j of core c has issued: a slip of its issue ends, and a step counts it. -/
def State.didIssue (s : State) (c : Fin 256) (j : Fin 4) (nested : Bool) (pc : Nat) : State :=
  let s := if nested then s else s.unslip c .issue
  match (s.core c).owner with
  | none => s
  | some o => s.onGroup o.kid o.gpos fun g => match g.step with
    | .stepping j' did => if nested || j' != j then g else { g with step := .stepping j' ((c, pc) :: did) }
    | _ => g

/-- BUNDLE_ISSUE (R73). -/
def execBundleIssue (c : Fin 256) (j : Fin 4) (s : State) : Res :=
  if s.mayTry c j && (!s.selects c || ((s.core c).sel == j && decide ((s.core c).selFrom ≤ s.time))) then
    match s.attempt c j with
    | .issued t => .next (t.didIssue c j (s.strand c j).trapped (s.strand c j).pc.toNat)
    | _ => .next s
  else .next s

/-- STRAND_SELECT (R177): the strand's first bundle issues two cycles later at the earliest. -/
def execStrandSelect (c : Fin 256) (j : Fin 4) (s : State) : Res :=
  if s.choice c = some j then .next (s.onCore c fun k => { k with sel := j, selFrom := s.time + 2 }) else .next s

/-! ## What a FENCE waits for (R386) -/

/-- The home that a collective step's chunk has around core c, as a scope code (R379). -/
def State.stepReach (s : State) (c : Fin 256) (t : TStep) : Nat :=
  let w := (s.core c).rt[fin 8 t.rt]
  if rtLocal w then placeReach c (.spm (rtCore w)) else s.pkgReach (rtPkg w)

/-- A running collective instance that strand j triggered before an order number has a transfer within a scope still to send. -/
def State.owesChunk (s : State) (c : Fin 256) (j : Fin 4) (scope before : Nat) : Bool := (s.core c).entries.toList.any fun e =>
  e.running && e.by_ == j && decide (e.trig < before) && e.steps.zipIdx.any fun t =>
    !t.1.isFin && !e.ran.contains t.2 && decide (s.stepReach c t.1 ≤ scope)

/-- A FENCE sees an access of a command by the command itself: it has yet to leave its queue, or it counts on its own core's clock. For any other
a mark stands on that clock (R386). -/
def State.polls (s : State) (k : Cmd) (p : Place) : Bool := k.queued || s.placeClock k p == s.engClock k.core k.nested

/-- What of an engine command a FENCE waits for (R386). -/
def State.awaits (s : State) (k : Cmd) (scope : Nat) (rel full : Bool) : Bool := match k.body with
  | .mzero .. | .mcell .. | .mma .. => false
  | .copy cp => rel && ((!cp.read && within k.core scope cp.src && s.polls k (placeOf cp.src)) ||
      (within k.core scope cp.dst && s.polls k (placeOf cp.dst)))
  | .cpyh h => rel && ((!h.posted && within k.core scope h.src) ||
      (within k.core scope h.dst && (full || h.coh || !h.posted || h.dst.all fun r => r.place != .host)))
  | .amo a | .acell a | .acrd a _ => rel && decide (k.reach ≤ scope) && s.polls k a.target.place
  | _ => rel && decide (k.reach ≤ scope)

/-- The accesses of strand (c, j) issued before an order number that a FENCE of this scope waits for (R386): effects of its
slots on its own core's memories, its transfers on their way to other cores and packages (R390), and engine commands. In a TIMED group each
counts to its due TT on the member's own TT. A handler's FENCE waits for nothing whose TT stands with its member's (log 200). -/
def State.fenced (s : State) (c : Fin 256) (j : Fin 4) (scope : Nat) (rel acq full : Bool) (before : Nat) : Bool :=
  let stands := (s.strand c j).trapped && s.keepsTT c
  let mine (i : Item) (c' : Fin 256) (j' : Fin 4) : Bool := c' == c && j' == j && decide (i.seq < before) && !(stands && i.clk == .tt c)
  let item (i : Item) : Bool := match i.act with
    | .eff c' j' _ _ e => mine i c' j' && (match e with
      | .store .. | .vstore .. | .vstorex .. | .binit .. | .bexp .. | .arrive .. => rel && decide (1 ≤ scope)
      | .load .. | .vload .. | .vloadx .. | .btest .. => (rel || acq) && decide (1 ≤ scope)
      | .launchRead .. => rel && decide (1 ≤ scope)
      | .loaded .. | .vloaded .. => acq && decide (1 ≤ scope)
      | .xret _ _ r _ => acq && decide (r ≤ scope)
      | _ => false)
    | .sent c' j' p => rel && mine i c' j' && decide (s.pkgReach p ≤ scope)
    | .passed c' j' r => rel && mine i c' j' && decide (r ≤ scope)
    | _ => false
  s.agenda.any item || (rel && !stands && s.owesChunk c j scope before) ||
    s.cmds.any fun k => k.core == c && k.strand == j && decide (k.seq < before) && (k.nested || !stands) && s.awaits k scope rel full

/-! ## A core's turn -/

/-- The waits of strand j of core c that end in this cycle: a FENCE whose accesses have performed (R386), an RFT whose returns have
come (R439). The traps of this cycle, and those that an RFT has left pending, are taken before any bundle (R430). -/
def State.wake (s : State) (c : Fin 256) (j : Fin 4) : State :=
  let t := s.strand c j
  if t.life != .live then s
  else if !t.pending.isEmpty && !t.trapped then s.takePending c j
  else if s.overdue c j then s
  else match t.wait with
    | .fence sc r a f b =>
      if s.fenced c j sc r a f b then s else s.onStrand c j fun t => { t with wait := .none, fenceW := t.lt }
    | .rft replay => if s.returnsPending c j then s else s.resume c j replay t.lt
    | _ => s

/-- The first of some strands whose bundle issues; those that cannot issue start what their wait starts, and in a TIMED group
the member slips (R159). -/
def State.firstIssue (c : Fin 256) : List (Fin 4) → State → State × Option Instr
  | [], s => (s, none)
  | j :: r, s =>
    if !s.mayTry c j then State.firstIssue c r s else
    match s.attempt c j with
    | .early => State.firstIssue c r s
    | .issued _ => (s, some (.bundleIssue c j))
    | .blocked s' =>
      let slips := s.timed c && !s.stepping c && !(s.strand c j).trapped
      State.firstIssue c r (if slips then s'.slip c .issue else s')

/-- A TIMED member whose result is due and has not come stands at its TT until it comes, as a slip (R159, R164). -/
def State.standOverdue (s : State) (c : Fin 256) : State :=
  if !s.timed c || s.stepping c then s else
  if s.overdue c 0 then s.slip c .overdue else if (s.core c).causes.contains .overdue then s.unslip c .overdue else s

/-- The turn of core c in the issue phase: what it has found out, and the bundle or the selection that follows. -/
def State.coreTurn (s : State) (c : Fin 256) : State × Option Instr :=
  if (s.core c).owner.isNone then (s, none) else
  let s := (List.finRange 4).foldl (fun s j => s.wake c j) (s.standOverdue c)
  if s.selects c then
    let k := s.core c
    if s.arbitrating c || decide (s.time < k.selFrom) then (s, none) else
    match State.firstIssue c [k.sel] s with
    | (s, some i) => (s, some i)
    | (s, none) => match State.firstIssue c (others k.sel) s with
      | (s, some (.bundleIssue _ j)) => (s, some (.strandSelect c j))
      | (s, _) => (s, none)
  else State.firstIssue c (List.finRange 4) s

/-! ## The freeze (R160, R165, R170) -/

/-- Member c stands at the freeze point F with no slip pending. -/
def Core.stands (k : Core) (f : Nat) : Bool := decide (f ≤ k.tt) && k.causes.isEmpty

/-- A slip on another package is one of this group's, which a join has spread over packages, before TT f. -/
def Group.slipsFar (g : Group) (kid gp f : Nat) (x : FarSlip) : Bool := decide (6 ≤ g.level) && x.kid == kid && x.gpos == gp && decide (x.tt < f)

/-- A slip of another part whose TT a member here has reached freezes this part too, at the same F (R160). -/
def State.freezeFar (s : State) (k : Kernel) (gp : Nat) (g : Group) : State :=
  let now := (g.members.map fun c => (s.core c).tt).foldl Nat.max 0
  if g.step != .off || !(g.st == .released || g.st == .draining) then s else
  match (s.farSlips.filter (g.slipsFar k.kid gp (now + 1))).map fun x => k.budgetPoint g (x.tt + hlat g.level) with
  | [] => s
  | x :: r => s.onGroup k.kid gp fun g => match g.freeze with
    | none => { g with freeze := some (r.foldl Nat.min x, none) }
    | some (f, z) => { g with freeze := some (r.foldl Nat.min (Nat.min f x), z) }

/-- A freeze point comes down to the next TT of a common REALIGN (R170). -/
def State.lowerFreeze (s : State) (k : Kernel) (gp : Nat) (g : Group) : State := match g.freeze with
  | some (f, _) =>
    let n := s.realignPoint g f
    if n < f then s.onGroup k.kid gp fun g => { g with freeze := some (n, none) } else s
  | none => s

/-- Fixes Z of a frozen group once every member is ready, those on other packages among them, at the end of the latest ready cycle. -/
def State.fixZ (s : State) (k : Kernel) (gp : Nat) (g : Group) : State := match g.freeze with
  | some (f, none) =>
    if (g.members.all fun c => (s.core c).stands f) && s.farSlips.all fun x => !g.slipsFar k.kid gp f x || decide (x.ready ≤ s.cyc) then
      let z := s.cyc + hlat g.level
      let s := { s with farSlips := s.farSlips.filter fun x => !g.slipsFar k.kid gp f x }
      (s.onGroup k.kid gp fun g => { g with freeze := some (f, some z) }).push .cyc z 1 0 (.ev (.freezeRestart k.kid gp))
    else s
  | _ => s

/-- Every frozen group of the package. -/
def State.fixFreezes (s : State) : State :=
  let all (f : State → Kernel → Nat → Group → State) (s : State) : State :=
    s.kernels.foldl (fun s k => k.groups.zipIdx.foldl (fun s g => f s k g.2 g.1) s) s
  all State.fixZ (all State.lowerFreeze (all State.freezeFar s))

/-- What counts on the clocks of member c goes on by the raw clock: due effects of engine commands, and the starts of queued ones. -/
def State.engineToTime (s : State) (c : Fin 256) : State :=
  let e := (s.core c).eng
  let move (i : Item) : Item := match i.clk with
    | .tt c' | .eng c' => if c' = c then s.toTime i else i
    | _ => i
  let start (k : Cmd) : Cmd := if k.core = c ∧ k.queued then { k with start := s.time + (k.start - e) } else k
  let s := { s with agenda := s.agenda.map move, cmds := s.cmds.map start }
  s.onCore c fun k => { k with matFree := s.time + (k.matFree - e), copyFree := s.time + (k.copyFree - e), causes := [] }

/-- A strand that waits in a REALIGN goes on in cycle b (R170, R448): at a REALIGN.p with PRE = 1 it stops for the save, else Xd
receives b. From the stop on the counts of a TIMED member run in CYC (R447). -/
def State.endRealign (s : State) (c : Fin 256) (j : Fin 4) (b : Nat) : State := match (s.strand c j).wait with
  | .realign d p _ _ =>
    if p && s.pre c then
      let s := match s.timed c, (s.core c).owner with
        | true, some o => { s with agenda := s.agenda.map (s.leastToTime o.kid (some o.gpos)) }.engineToTime c
        | _, _ => s
      s.onStrand c j fun t => { t with wait := .saving d }
    else s.onStrand c j fun t => { (t.wx d (BitVec.ofNat 64 b)) with wait := .none, base := t.lt }
  | _ => s

/-- FREEZE_RESTART: at CYC Z every member goes on from TT F; where they stand at a common REALIGN, Z takes the place of the bell. -/
def execFreezeRestart (kid gp : Nat) (s : State) : Res := match s.group? kid gp with
  | none => .next s
  | some g => match g.freeze with
    | some (_, some z) =>
      if z ≤ s.cyc && g.members.all fun c => (s.core c).causes.isEmpty then
        .next (g.members.foldl (fun s c => s.endRealign c 0 s.cyc) (s.onGroup kid gp fun g => { g with freeze := none }))
      else .next s
    | _ => .next s

end Sys2Proof.Machine
end

