-- ==== Sys2Proof/Machine/Queue.lean ====
section
/-! DEFINITION. The queue unit (R129 to R142): launch records (R143), the intake and its checks (R136, R144), dependencies (R135),
placement with pinning (R137, R344, R345) and loading, promotion (R138), and the pre-emption request (R139); the work of a
bell (R131, R133, R149). -/
namespace Sys2Proof.Machine

/-! ## Records (R143) -/

/-- A 128-byte launch record. -/
def parseRecord (bs : List Byte) : Record :=
  let n (o : Nat) : Nat := leNat ((bs.drop o).take 8)
  let shape := n 0x30
  let attr := n 0x38
  let w := n 0x48
  { image := n 0, args := n 8, deps := [n 0x10, n 0x18, n 0x20, n 0x28], pair := bits shape 43 1 == 1, strands := bits shape 41 2,
    timed := bits shape 40 1 == 1, dies := BitVec.ofNat 8 (bits shape 32 8), groups := bits shape 16 16, cores := bits shape 0 16,
    preemptible := bits attr 3 1 == 1, cls := bits attr 0 3, budget := n 0x40, fte := BitVec.ofNat 16 (bits w 48 16), jord := bits w 40 8,
    vregs := bits w 32 8, prebound := bits w 0 32, pageset := n 0x50, doneVA := n 0x58, doneVal := BitVec.ofNat 64 (n 0x60),
    fault := n 0x68, save := n 0x70,
    bad := bits shape 44 20 != 0 || bits attr 4 60 != 0 || bits w 61 3 != 0 || n 0x78 != 0 }

/-- HEALTH.FENCED (R325). -/
def Health.fenced (h : Health) : Bool := h.word.getLsbD 4

/-- A core of the partition that is not fenced and lies on a die that the record allows (R136). -/
def State.allowed (s : State) (f : Fin 17) (r : Record) (c : Fin 256) : Bool :=
  (s.ctxs[f]).part.cores.getLsbD c.val && !(s.core c).health.fenced && (r.dies == 0 || r.dies.getLsbD (dieOf c))

/-- How many of some cores lie on a die. -/
def onDie (cs : List (Fin 256)) (d : Nat) : Nat := (cs.filter fun c => dieOf c == d).length

/-- Some cores suffice for the record (the last row of R136). -/
def Record.metBy (r : Record) (cs : List (Fin 256)) : Bool :=
  if r.pair then decide (2 * (r.groups * r.cores) ≤ cs.length) && decide (2 ≤ ((List.range 8).filter fun d => decide (r.cores ≤ onDie cs d)).length)
  else decide (r.groups * r.cores ≤ cs.length)

/-- The record can be met by the cores that its partition holds (R136, R325). -/
def State.canMeet (s : State) (f : Fin 17) (r : Record) : Bool := r.metBy ((List.finRange 256).filter (s.allowed f r))

/-- The reason that refuses a record at intake, in the order of R144; the PAIR checks of R352 come after the alignments of reason 25
(log 195). -/
def State.intakeReason (s : State) (f : Fin 17) (r : Record) (seq : Nat) : Option Nat :=
  if r.bad then some 18
  else if (s.ctxs[f]).part.maxClass < r.cls then some 19
  else if (r.cls ≤ 4 && !r.preemptible) || (5 ≤ r.cls && r.preemptible) then some 20
  else if r.cls ≤ 4 ∧ 190000 < r.prebound then some 20
  else if !s.canMeet f r then some 21
  else if r.cores = 0 ∨ r.groups = 0 then some 24
  else if r.timed ∧ r.strands ≠ 0 then some 24
  else if r.vregs ≠ 8 ∧ r.vregs ≠ 16 ∧ r.vregs ≠ 32 then some 24
  else if 32 < (r.strands + 1) * r.vregs then some 24
  else if 7 < r.jord then some 24
  else if r.doneVA % 8 ≠ 0 then some 25
  else if r.fault % 64 ≠ 0 then some 25
  else if r.pair ∧ (32 < r.cores ∨ r.preemptible) then some 24
  else if r.deps.any fun d => decide (seq ≤ d) then some 16
  else none

/-! ## The intake (R131, R133, R134) -/

/-- A kernel that still stands in its queue's order: waiting, ready or pre-empted, and not ended. -/
def Kernel.standing (k : Kernel) : Bool :=
  k.fault.isNone && (k.st == .waiting || k.st == .queued || k.st == .preempted)

/-- How many records of a queue its intake holds. -/
def State.held (s : State) (q : Fin 64) : Nat :=
  (s.kernels.filter fun k => k.queue == q && k.fault.isNone && (k.st == .waiting || k.st == .queued)).length

/-- A fault record's data for a reason that no core or strand causes. -/
def State.refusal (s : State) (reason : Nat) : FaultRec := { s.faultRec none none 0 0 0 with reason }

/-- A queue enters a record in its intake: the record's sequence number, or 0 where the intake has no room; a check that fails
ends it FAULTED. -/
def State.enter (s : State) (f : Fin 17) (q : Fin 64) (bs : List Byte) : State × Nat :=
  if 256 ≤ s.held q then (s, 0) else
  let r := parseRecord bs
  let seq := (s.ctxs[f]).nextSeq
  let kid := s.nextKid
  let k : Kernel :=
    { kid, ctx := f, queue := q, seq, st := .waiting, record := r, cls := r.cls, rises := s.cyc + 2 ^ 20, groups := [], victims := [], reserved := [],
      held := [], saved := [], bsram := 0, bars := [], first := none, fault := none, faultEarly := false, halted := false,
      rolls := false, closed := false }
  let reason := s.intakeReason f r seq
  let s := { s with kernels := s.kernels ++ [k], nextKid := kid + 1 }
  let s := s.onQueue q fun x => { x with intake := x.intake ++ [kid] }
  let s := s.onCtx f fun c => { c with nextSeq := seq + 1 }
  match reason with
  | some n => (s.faultKernel kid (s.refusal n), seq)
  | none => (s.push .cyc (s.cyc + 2 ^ 20) 1 0 (.ev (.recordPromotion kid)), seq)

/-- Where queue q's window begins (R130). -/
def windowBase (q : Fin 64) : Nat := q.val * 0x8000

/-- The STATUS code of a queue. -/
def QueueSt.code : QueueSt → Nat
  | .running => 0 | .stopped => 1 | .overrun => 2 | .unbound => 3

/-- Takes up to n records of a window from index i on. -/
def State.takeRecords (f : Fin 17) (q : Fin 64) : Nat → Nat → State → State
  | 0, _, s => s
  | n + 1, i, s =>
    if 256 ≤ s.held q then s else
    let b := windowBase q
    let (t, seq) := s.enter f q (s.windows.readBytes (b + 128 * (1 + i % 255)) 128)
    State.takeRecords f q n (i + 1) { t with windows := (t.windows.writeNat (b + 8) 8 (i + 1)).writeNat (b + 16) 8 seq }

/-- The context of queue q takes records: it is OPEN or ACTIVE and the queue runs. -/
def State.sampled (s : State) (q : Fin 64) : Option (Fin 17) := match (s.queues[q]).ctx with
  | none => none
  | some f => match (s.ctxs[f]).st, (s.queues[q]).st with
    | .open_, .running | .active, .running => some f
    | _, _ => none

/-- Samples the window of a queue (R131, R132). -/
def State.sample (s : State) (q : Fin 64) : State := match s.sampled q with
  | none => s
  | some f =>
    let b := windowBase q
    let prod := s.windows.readNat b 8
    let cons := s.windows.readNat (b + 8) 8
    if prod < cons ∨ cons + 255 < prod then s.onQueue q fun x => { x with st := .overrun }
    else State.takeRecords f q (Nat.min (prod - cons) 16) cons s

/-! ## Launches at their bell (R133, R149) -/

/-- A pending launch whose bell is this one. -/
def Launch.due (l : Launch) (cyc : Nat) : Bool := !l.held && decide (l.from_ < cyc)

/-- The record that a launch of core c enters with: what its read has found, and one whose read a slip or trap has held up until its bell
is read there (log 165). -/
def State.launchBytes (s : State) (c : Fin 256) (l : Launch) : List Byte :=
  if l.bytes.isEmpty then (s.core c).spm.readBytes l.addr 128 else l.bytes

/-- Launches with their core, in the order of their issue cycles, then by core. -/
def State.launchesDue (s : State) : List (Fin 256 × Launch) :=
  let all := (List.finRange 256).flatMap fun c => ((s.core c).launches.filter (·.due s.cyc)).map fun l => (c, l)
  let rec insert (x : Fin 256 × Launch) : List (Fin 256 × Launch) → List (Fin 256 × Launch)
    | [] => [x]
    | y :: r => if y.2.at_ ≤ x.2.at_ then y :: insert x r else x :: y :: r
  all.foldl (fun l x => insert x l) []

/-- Strand (c, j) runs still for a kernel. -/
def State.runsFor (s : State) (c : Fin 256) (j : Fin 4) (kid : Nat) : Bool := (s.strand c j).life == .live && match (s.core c).owner with
  | some o => o.kid == kid
  | none => false

/-- The Xd write of a launch, visible 32 cycles after its bell; discarded when the strand no longer runs. -/
def State.answerLaunch (s : State) (c : Fin 256) (l : Launch) (seq : Nat) : State :=
  if s.runsFor c l.strand l.kid then s.giveX c l.strand l.order l.d 32 (BitVec.ofNat 64 seq) else s

/-- The launches of this bell that name queue q enter after its window's records; one that found the core's entries full holds no record
and is answered 0. -/
def State.enterLaunches (s : State) (due : List (Fin 256 × Launch)) (q : Fin 64) : State :=
  (due.filter fun x => x.2.queue == q).foldl (fun s x =>
    let own := s.sampled q
    let f := s.ctxOf x.1
    if own = some f ∧ !x.2.full then
      let (t, seq) := s.enter f q (s.launchBytes x.1 x.2)
      t.answerLaunch x.1 x.2 seq
    else s.answerLaunch x.1 x.2 0) s

/-! ## Dependencies (R135) -/

/-- The outcome of a dependency of a context: none while it runs, whether it is satisfied else. One on a number older than the most
recent 65,536 counts as satisfied. -/
def State.depDone (s : State) (f : Fin 17) (d : Nat) : Option Bool :=
  if d = 0 ∨ d + 65536 < (s.ctxs[f]).nextSeq then some true
  else if s.kernels.any fun k => k.ctx == f && k.seq == d then none
  else match ((s.ctxs[f]).outcomes.find? fun o => o.1 == d) with
    | some o => some o.2
    | none => some true

/-- Waiting records become ready, or end with reason 17. -/
def State.settleDeps (s : State) : State :=
  (s.kernels.filter fun k => k.st == .waiting && k.fault.isNone).foldl (fun s k =>
    let os := k.record.deps.map (s.depDone k.ctx)
    if os.contains (some false) then s.faultKernel k.kid (s.refusal 17)
    else if os.all (· == some true) then s.onKernel k.kid fun k => { k with st := .queued } else s) s

/-! ## Choosing cores (R137) -/

/-- Sorts by a key, stably. -/
def sortBy {α : Type} (key : α → Nat) (l : List α) : List α :=
  let rec insert (x : α) : List α → List α
    | [] => [x]
    | y :: r => if key x < key y then x :: y :: r else y :: insert x r
  l.foldl (fun r x => insert x r) []

/-- Cores by ascending number. -/
def byNumber (cs : List (Fin 256)) : List (Fin 256) := sortBy (fun c : Fin 256 => c.val) cs

/-- Lists of n elements. -/
def chunksOf {α : Type} (n : Nat) : Nat → List α → List (List α)
  | 0, _ => []
  | m + 1, l => l.take n :: chunksOf n m (l.drop n)

/-- A core that a record may take at this bell: allowed, free, kept for no other record, and idle from the mender. -/
def State.coreFree (s : State) (k : Kernel) (c : Fin 256) : Bool :=
  s.allowed k.ctx k.record c && (s.core c).owner.isNone && (s.core c).mender.isNone &&
  !(s.kernels.any fun o => o.kid != k.kid && o.reserved.contains c)

/-- Every element of a list with those after it, each pair once, in the list's order. -/
def pairsOf {α : Type} : List α → List (α × α)
  | [] => []
  | a :: r => r.map (fun b => (a, b)) ++ pairsOf r

/-- The two dies of each group of a PAIR kernel: those with the most room are tried first, and on a second run none of the first's; a
choice that leaves a later group without a pair is taken back, so that dies are found wherever there are any (R353). -/
def pickPairs (n : Nat) (avoid : List (Nat × Nat)) : Nat → List (Fin 256) → Option (List (List (Fin 256)))
  | 0, _ => some []
  | m + 1, cs =>
    let bad := match avoid with
      | [] => []
      | (a, b) :: _ => [a, b]
    let dies := (List.range 8).filter fun d => decide (n ≤ onDie cs d)
    -- the groups still to be served need two dies each
    if (dies.map fun d => Nat.min (m + 1) (onDie cs d / n)).sum < 2 * (m + 1) then none else
    (pairsOf (sortBy (fun d => 256 - onDie cs d) (dies.filter fun d => !bad.contains d))).findSome? fun p =>
      let take (d : Nat) : List (Fin 256) := byNumber ((cs.filter fun c => dieOf c == d).take n)
      let lo := take (Nat.min p.1 p.2)
      let hi := take (Nat.max p.1 p.2)
      (pickPairs n (avoid.drop 1) m (cs.filter fun c => !lo.contains c && !hi.contains c)).map fun r => lo :: hi :: r

/-- The members of a kernel's groups, taken from some free cores in an order that the spec leaves open; none where they do not
suffice. -/
def Kernel.pick (k : Kernel) (key : Fin 256 → Nat) (free : List (Fin 256)) : Option (List (List (Fin 256))) :=
  let r := k.record
  let cs := sortBy key free
  if r.pair then pickPairs r.cores (match k.first with
    | some f => f.dies
    | none => []) r.groups cs
  else if cs.length < r.groups * r.cores then none else some ((chunksOf r.cores r.groups cs).map byNumber)

/-- A record can be met by some cores (R136, R325): a pre-empted kernel only by all those that it held (R448). -/
def Kernel.metBy (k : Kernel) (cs : List (Fin 256)) : Bool :=
  if k.st == .preempted then k.held.flatten.all fun c => cs.contains c else k.record.metBy cs

/-- The cores that a kernel's groups take of some free ones. -/
def Kernel.pickOf (k : Kernel) (key : Fin 256 → Nat) (free : List (Fin 256)) : Option (List (List (Fin 256))) :=
  if k.st == .preempted then (if k.metBy free then some k.held else none) else k.pick key free

def State.coreOrder (s : State) (c : Fin 256) : Nat := Config.coreKey s.free c.val

/-! ## The checks at placement (R140, R144, R444) -/

/-- B of R140: the image's .bsram size rounded up to a multiple of 64 KiB. -/
def State.bsramSize (s : State) (k : Kernel) : Nat :=
  if s.vaMapped k.ctx k.record.image 64 false then ceilDiv (s.vaNat k.ctx (k.record.image + 0x1C) 4) 65536 * 65536 else 0

/-- Tsave of R140. -/
def saveTime (b : Nat) : Nat := ceilDiv (925696 + b) 64

/-- Bytes of one member's save (R444). -/
def saveSize (b : Nat) : Nat := 983040 + b

def State.placementReason (s : State) (k : Kernel) : Option Nat :=
  let r := k.record
  let b := s.bsramSize k
  if (r.doneVA != 0 && !s.vaMapped k.ctx r.doneVA 8 false) || !s.vaMapped k.ctx r.fault 64 false then some 25
  else if r.preemptible ∧ 223392 < r.prebound + saveTime b then some 22
  else if r.preemptible && !s.vaMapped k.ctx r.save (r.groups * r.cores * saveSize b) true then some 23
  else none

/-! ## Pinning (R344, R345) -/

/-- An entry of a page set. -/
structure PageEntry where
  /-- the VA of its dword -/
  at_   : Nat
  va    : Nat
  count : Nat
  block : Bool
  bad   : Bool
deriving DecidableEq, Repr

def parsePage (at_ w : Nat) : PageEntry :=
  { at_, va := bits w 16 32 * 65536, count := bits w 48 16 + 1, block := bits w 0 1 == 1, bad := bits w 1 15 != 0 }

/-- The distinct leaves that an entry lists, as (block, first VA). -/
def PageEntry.keys (e : PageEntry) : List (Bool × Nat) :=
  (List.range e.count).map fun i => if e.block then (true, (e.va / 2 ^ 29 + i) * 2 ^ 29) else (false, e.va + 65536 * i)

/-- Joins entries' leaves, each once, and gives the entry at which a limit is exceeded. -/
def countLeaves (limit : Nat) : List PageEntry → List (Bool × Nat) → Except Nat (List (Bool × Nat))
  | [], ks => .ok ks
  | e :: r, ks =>
    let all := e.keys.foldl (fun ks k => if ks.contains k then ks else ks ++ [k]) ks
    if limit < all.length then .error e.va else countLeaves limit r all

/-- The translation of one leaf of a page set, as it stands in the tables now: a page that a block maps takes its part of the block. -/
def State.pinLeaf (s : State) (f : Fin 17) (key : Bool × Nat) : Option Xlat :=
  if key.2 / 2 ^ 48 ≠ 0 then none else
  match s.walkTables (s.ctxs[f]).root.toNat key.2 with
  | none => none
  | some (true, e) =>
    if key.1 then some (mkXlat key.2 (true, e))
    else some { mkXlat key.2 (false, e) with leaf := BitVec.ofNat 64 (e + key.2 % 2 ^ 29) }
  | some (false, e) => if key.1 then none else some (mkXlat key.2 (false, e))

/-- The leaves of a page set for the kernel, or the TCAUSE and TADDR of the first check that fails (R345). -/
def State.pageSet (s : State) (k : Kernel) (dies : List (Fin 8)) : Except (Nat × Nat) (List Xlat) :=
  let f := k.ctx
  let base := k.record.pageset
  if base = 0 then .ok [] else
  let devPage (p : Nat × Nat) : Bool := match s.vaLeaf f p.1 with
    | some (e, _) => !pteHost e
    | none => false
  let badPage (n : Nat) : Option (Nat × Nat) := (chunks base (8 * n)).find? fun p => !devPage p
  let dword (p : Nat × Nat) : Nat := base + (p.1 - base) / 8 * 8
  match badPage 1 with
  | some p => .error (0x05, dword p)
  | none =>
    let n := s.vaNat f base 8
    match badPage (n + 1) with
    | some p => .error (0x05, dword p)
    | none =>
      if 16384 < n then .error (0x09, base) else
      let es := (List.range n).map fun i => parsePage (base + 8 * (i + 1)) (s.vaNat f (base + 8 * (i + 1)) 8)
      match es.find? (·.bad) with
      | some e => .error (0x09, e.at_)
      | none =>
        let used (d : Fin 8) : Nat := ((s.pinsets.filter fun p => p.die == d && s.kernels.any fun o => o.kid == p.kid && o.ctx == f).map fun p => p.xs.length).sum
        let room := (dies.map fun d => (s.ctxs[f]).part.pins[d] - used d).foldl Nat.min 16384
        match countLeaves room es [] with
        | .error va => .error (0x09, va)
        | .ok keys => match keys.find? fun key => (s.pinLeaf f key).isNone with
          | some key => .error (0x05, key.2)
          | none => .ok (keys.filterMap (s.pinLeaf f))

/-! ## Granting (R137, R146, R158) -/

/-- The scope of some cores: CLUSTER, DIE or PACKAGE (R154). -/
def levelOf (cs : List (Fin 256)) : Nat := match cs with
  | [] => 2
  | c :: r => if r.all fun d => clusterOf d == clusterOf c then 2 else if r.all fun d => dieOf d == dieOf c then 3 else 4

/-- The dies of some cores. -/
def diesOf (cs : List (Fin 256)) : List (Fin 8) := (List.finRange 8).filter fun d => cs.any fun c => dieOf c == d.val

/-- A group on its cores, FORMING until its pins and its load are complete. -/
def Group.forming (index replica : Nat) (members : List (Fin 256)) (till : Nat) (resumes : Bool) : Group :=
  { index, replica, members, st := .forming, level := levelOf members, count := members.length, offset := 0, freeze := none, pre := none,
    step := .off, stepped := 0, realigns := [], saveEnd := till, resumes, llats := [] }

/-- Gives cores to their group's members. -/
def State.ownCores (s : State) (kid : Nat) (gs : List (List (Fin 256))) : State :=
  gs.zipIdx.foldl (fun s g => g.1.zipIdx.foldl (fun s c =>
    s.onCore c.1 fun k => { k with owner := some { kid, gpos := g.2, index := c.2 } }) s) s

/-- The pins of a kernel on the dies of its cores, or the check that fails (R345); an uncorrectable error in the page set gives MEMORY
(R349). A second run of a PAIR kernel passes the same checks on its new dies, and pins there the leaves that its first run pinned, with
their bitmaps clear (R344 to R346, R353; log 204). -/
def State.pinKernel (s : State) (k : Kernel) (dies : List (Fin 8)) : State × Except (Nat × Nat) (List PinSet) :=
  let sets (xs : List Xlat) : List PinSet := dies.map fun die => { kid := k.kid, die, xs }
  let n := s.vaNat k.ctx k.record.pageset 8
  match s.vaScan k.ctx (if k.record.pageset = 0 then [] else [(k.record.pageset, 8 * (1 + Nat.min n 16384))]) with
  | (s, some va) => (s, .error (0x0D, va))
  | (s, none) => (s, (s.pageSet k dies).map fun xs => match k.first, s.pinsets.find? fun p => p.kid == k.kid with
    | some _, some p => sets p.xs
    | _, _ => sets xs)

/-- The ranges of an image that placement reads: its header, its sections and its tables. -/
def State.imageReads (s : State) (f : Fin 17) (image : Nat) : List (Nat × Nat) :=
  let h := parseHeader (s.vaRead f image 64)
  (image, 256) :: ((h.secs.map fun x => (image + x.off, x.size)) ++ [(image + h.symOff, 32 * h.syms), (image + h.relOff, 24 * h.relocs)])

/-- Grants cores to a kernel: the groups form, the page set is pinned and the image is loaded, which takes a time that is not fixed. A
check that fails ends the kernel. An uncorrectable error in what the load reads comes before the checks of R113 (log 192). A kernel that
was pre-empted keeps its groups, the retired ones without cores. -/
def State.grant (s : State) (k : Kernel) (gs : List (List (Fin 256))) (resumed : Bool) : State :=
  let cs := gs.flatten
  let till := s.time + Config.loadDelay s.free
  let s := { s with free := s.free + 1 }
  let mk (g : List (Fin 256) × Nat) : Group :=
    if resumed then (match k.groups[g.2]? with
      | some old => if g.1.isEmpty then old else { Group.forming old.index old.replica g.1 till true with stepped := old.stepped }
      | none => Group.forming g.2 0 g.1 till true)
    else if k.record.pair then Group.forming (g.2 / 2) (g.2 % 2) g.1 till false else Group.forming g.2 0 g.1 till false
  let b := if resumed then k.bsram else s.bsramSize k
  let s := s.onKernel k.kid fun k => { k with st := .placing, groups := gs.zipIdx.map mk, victims := [], reserved := [], held := gs, bsram := b }
  let s := (s.ownCores k.kid gs).settle k.ctx
  let lost (s : State) (va : Nat) : State := s.faultKernel k.kid (s.faultRec none none 0x0D 0 (BitVec.ofNat 64 va))
  match s.pinKernel k (diesOf cs) with
  | (s, .error (cause, va)) => s.faultKernel k.kid (s.faultRec none none cause 0 (BitVec.ofNat 64 va))
  | (s, .ok ps) =>
    let s := { s with pinsets := (s.pinsets.filter fun (p : PinSet) => !(p.kid == k.kid && ps.any fun q => q.die == p.die)) ++ ps }
    match s.vaScan k.ctx (s.imageReads k.ctx k.record.image) with
    | (s, some va) => lost s va
    | (s, none) => match s.checkImage k.ctx k.record parseRecord with
      | .error e => s.faultKernel k.kid { s.refusal e.reason with section_ := e.sec, site := e.site, reloc := e.index }
      | .ok im => s.loadAll k.ctx k.record im resumed k.first.isSome cs

/-! ## Pre-emption requests (R139) -/

/-- Pre-emptible kernels of lower classes that hold cores, running or still forming: lowest class first, then the highest number. One that
is already the victim of a request is passed over (log 194). -/
def State.victimsFor (s : State) (k : Kernel) : List Kernel :=
  let may (v : Kernel) : Bool := v.ctx == k.ctx && (v.st == .running || v.st == .placing) && v.record.preemptible && decide (v.cls < k.cls) && v.fault.isNone
    && !(s.kernels.any fun o => o.victims.contains v.kid)
  sortBy (fun v => v.cls * 2 ^ 64 + (2 ^ 64 - v.seq)) (s.kernels.filter may)

/-- The cores of a kernel that a record of its context could take. -/
def State.yields (s : State) (k v : Kernel) : List (Fin 256) :=
  (v.groups.flatMap (·.members)).filter fun c => s.allowed k.ctx k.record c && !(s.kernels.any fun o => o.kid != k.kid && o.reserved.contains c) &&
    match (s.core c).owner with
    | some o => o.kid == v.kid
    | none => false

/-- Takes victims in order until the record could be placed: the victims and the cores it would take. A pre-empted kernel passes over
one that holds none of the cores it waits for. -/
def State.gatherVictims (s : State) (k : Kernel) : List Kernel → List (Fin 256) → List Nat → Option (List Nat × List (Fin 256))
  | [], _, _ => none
  | v :: r, free, ids =>
    let more := (s.yields k v).filter fun c => k.st != .preempted || k.held.flatten.contains c
    if more.isEmpty then s.gatherVictims k r free ids else
    let free := free ++ more
    match k.pickOf s.coreOrder free with
    | some gs => some (ids ++ [v.kid], gs.flatten)
    | none => s.gatherVictims k r free (ids ++ [v.kid])

/-- Issues a request, unless one stands. -/
def State.requestFor (s : State) (k : Kernel) (free : List (Fin 256)) : State :=
  if k.victims.any (fun v => s.kernels.any fun o => o.kid == v && (o.st == .running || o.st == .placing)) then s else
  match s.gatherVictims k (s.victimsFor k) free [] with
  | none => s
  | some (ids, cs) =>
    let s := s.onKernel k.kid fun k => { k with victims := ids, reserved := cs }
    (s.kernels.filter fun v => ids.contains v.kid).foldl (fun s v =>
      v.groups.zipIdx.foldl (fun s g => s.push .time (s.time + 256) 1 0 (.ev (.preSet v.kid g.2))) s) s

/-- PRE_SET: PRE is 1 in every strand of a victim; in a TIMED group from the greatest TT that a member holds (R170). A group that still
forms has PRE 1 from its release on. -/
def execPreSet (kid gp : Nat) (s : State) : Res := match s.group? kid gp with
  | none => .next s
  | some g =>
    if g.pre.isNone && s.kernels.any (fun o => o.victims.contains kid) then
      if g.st == .released then
        let p := (g.members.map fun c => (s.core c).tt).foldl Nat.max 0
        .next (s.onGroup kid gp fun g => { g with pre := some p, st := .draining })
      else if g.st == .forming then .next (s.onGroup kid gp fun g => { g with pre := some 0 })
      else .next s
    else .next s

/-! ## Placing (R137) -/

/-- What considering the record at the head of its queue comes to: it holds its queue back, it has ended, or it has been granted cores. -/
inductive Placed where
  | held | ended | granted
deriving DecidableEq, Repr

/-- A record at the head of its queue is considered. One that the cores of its partition can meet no more ends by the order of R144, a second
run of a PAIR kernel with no dies but the first's with ENGINE (R353). -/
def State.consider (s : State) (k : Kernel) : State × Placed :=
  let free := (List.finRange 256).filter (s.coreFree k)
  let allowed := (List.finRange 256).filter (s.allowed k.ctx k.record)
  match k.pickOf s.coreOrder free with
  | some gs => match s.placementReason k with
    | some n => (s.faultKernel k.kid (s.refusal n), .ended)
    | none => (s.grant k gs (k.st == .preempted), .granted)
  | none =>
    if k.first.isSome && (k.pickOf s.coreOrder allowed).isNone then (s.faultKernel k.kid (s.faultRec none none 0x0C 0 0), .ended)
    else if !k.metBy allowed then (s.faultKernel k.kid (s.refusal ((s.placementReason k).getD 21)), .ended)
    else (s.requestFor k free, .held)

/-- The record that stands first in a queue. One that has asked for cores comes before a victim of its own queue that has gone back to
PREEMPTED ahead of it (R139). -/
def State.headOf (s : State) (q : Fin 64) : Option Kernel :=
  let ks := ((s.queues[q]).intake.filterMap s.kernel?).filter (·.standing)
  (ks.find? fun k => !k.reserved.isEmpty).orElse fun _ => ks.head?

/-- Places the records at the head of a queue that compete in a class, until one holds the queue back. -/
def State.placeQueue (cls : Nat) (q : Fin 64) : Nat → State → State
  | 0, s => s
  | n + 1, s => match s.headOf q with
    | none => s
    | some k =>
      if k.cls ≠ cls ∨ k.st == .waiting ∨ (s.ctxs[k.ctx]).rolling then s else
      match s.consider k with
      | (t, .held) => t
      | (t, .ended) => State.placeQueue cls q n t
      | (t, .granted) => State.placeQueue cls q n { t with lastGrant := upd t.lastGrant (fin 8 cls) fun _ => q.val }

/-- Placement at a bell: classes from 7 down, queues round-robin from the one after the last granted. -/
def State.placeAll (s : State) : State :=
  (List.range 8).reverse.foldl (fun s cls =>
    let start := s.lastGrant[fin 8 cls]
    (List.range 64).foldl (fun s i => State.placeQueue cls (fin 64 (start + 1 + i)) 257 s) s) s

/-! ## Promotion (R138) -/

/-- The class up to which records of a context are promoted. -/
def State.topClass (s : State) (f : Fin 17) : Nat := Nat.min 5 (s.ctxs[f]).part.maxClass

/-- RECORD_PROMOTION. -/
def execRecordPromotion (kid : Nat) (s : State) : Res := match s.kernel? kid with
  | none => .next s
  | some k =>
    if (k.st == .waiting || k.st == .queued) && k.fault.isNone && decide (k.rises ≤ s.cyc) && decide (k.cls < s.topClass k.ctx) then
      .next ((s.onKernel kid fun k => { k with cls := k.cls + 1, rises := s.cyc + 2 ^ 20 }).push .cyc (s.cyc + 2 ^ 20) 1 0 (.ev (.recordPromotion kid)))
    else .next s

/-! ## The bell (R131, R156) -/

/-- This cycle is a bell. -/
def State.inBell (s : State) : Bool := s.cyc % 4096 == 0 && !s.noBell

/-- This cycle is a bell whose sampling and placement are still to come. -/
def State.isBell (s : State) : Bool := s.inBell && !s.belled

/-- The queue unit writes STATUS of every queue (R130). -/
def State.writeStatus (s : State) : State :=
  { s with windows := (List.finRange 64).foldl (fun m q => m.writeNat (windowBase q + 0x18) 4 (s.queues[q]).st.code) s.windows }

/-- BELL: the queues are sampled in ascending number, each with the launches that name it; records become ready and are placed; the
ports and the DRIFTs take the bell too (R399, R410). -/
def execBell (s : State) : Res :=
  if !s.isBell then .next s else
  let due := s.launchesDue
  let s := { s with cores := each s.cores fun k => { k with launches := k.launches.filter fun l => !l.due s.cyc } }
  let s := (List.finRange 64).foldl (fun s q => (s.sample q).enterLaunches due q) s
  let s := (s.settleDeps.placeAll).writeStatus
  let s := s.sendBeacons
  let s := { s with ports := Vector.ofFn fun p : Fin 46 => (Port.inside p s.ports[p]).bell, belled := true }
  .next s.driftBell

end Sys2Proof.Machine
end

