-- ==== Sys2Proof/Machine/Group.lean ====
section
/-! DEFINITION. The life of a group and of its kernel (R145 to R148, R151, R153, R158, R167 to R171): release, REALIGN and its join,
budget, retirement and DONE, fault records; pre-emption's save and restore (R444 to R449); the comparison of a PAIR kernel
(R353), the mark of a checkpoint (R357), and the end of a single step. -/
namespace Sys2Proof.Machine

/-! ## Release (R145, R158) -/

/-- JCR at release: k = JORD, and the least group size of at least JORD + 1. -/
def jcrAt (jord : Nat) : Word :=
  BitVec.ofNat 64 ((if jord + 1 ≤ 1 then 0 else if jord + 1 ≤ 2 then 1 else if jord + 1 ≤ 4 then 2 else 3) * 16 + jord % 8)

/-- FTE at release: kind i enables the coefficient mask where its kind bit is set; the kinds lie from invalid in [7:0] up, as
R182 orders them. -/
def fteAt (fte : BitVec 16) : Word :=
  let m := bits fte.toNat 0 8
  BitVec.ofNat 64 (((List.range 5).map fun i => if bits fte.toNat (8 + i) 1 = 1 then m * 2 ^ (8 * i) else 0).sum)

/-- The level that a context's kernels run at: device firmware runs in context 0 (R127). -/
def levelIn (f : Fin 17) : Level := if f = 0 then .firm else .user

/-- A strand at release. -/
def Strand.released (f : Fin 17) (r : Record) (hsize : Nat) : Strand :=
  { Strand.reset with life := .live, level := levelIn f,
                      csr := { Csrs.reset with tvec := BitVec.ofNat 64 (262144 - hsize), jcr := jcrAt r.jord, fte := fteAt r.fte } }

/-- A member core at release: its tiles are EMPTY (R310), its entries IDLE, TT and SLIP 0. -/
def Core.released (f : Fin 17) (r : Record) (k : Core) : Core :=
  { k with strands := Vector.ofFn (fun j : Fin 4 => if j.val ≤ r.strands then Strand.released f r k.hsize else Strand.reset),
           v := Vector.replicate 32 0, tiles := Vector.replicate 4 Tile.reset, pins := [], press := [], landq := Vector.replicate 8 LandQ.reset,
           entries := Vector.replicate 16 Entry.reset, tt := 0, slip := 0, causes := [], eng := 0, matFree := 0, copyFree := 0, matTT := 0,
           copyTT := 0, sel := 0, selFrom := 0, bars := [], arrived := [] }

/-! ## The save's layout (R444 to R446) -/

/-- A stream register as R446 keeps it: its descriptor, with the format code in byte 0x1D. -/
def Stream.bytes (x : Stream) : List Byte :=
  toBytes 4 x.base ++ toBytes 4 x.scale ++ toBytes 2 x.k ++ toBytes 1 x.rows ++ toBytes 1 (bit x.bsram + 2 * bit x.scaled + 4 * bit x.pin)
    ++ toBytes 4 x.rowStride ++ toBytes 4 x.scaleStride ++ toBytes 4 x.coefStride ++ toBytes 4 x.refBase ++ toBytes 1 x.bound ++ toBytes 1 x.fmt
    ++ toBytes 2 x.refStride

/-- A stream register from its 32 bytes in a save. -/
def Stream.ofBytes (bs : List Byte) : Stream :=
  let f (o n : Nat) : Nat := leNat ((bs.drop o).take n)
  let fl := f 0x0B 1
  { fmt := f 0x1D 1, base := f 0 4, scale := f 4 4, k := f 8 2, rows := f 0x0A 1, bsram := bits fl 0 1 == 1, scaled := bits fl 1 1 == 1,
    pin := bits fl 2 1 == 1, rowStride := f 0x0C 4, scaleStride := f 0x10 4, coefStride := f 0x14 4, refBase := f 0x18 4,
    bound := f 0x1C 1 % 16, refStride := f 0x1E 2 }

/-- A collective entry's 64 bytes: the descriptor, the current instance at 0x28 and the state at 0x2A. -/
def Entry.bytes (e : Entry) : List Byte :=
  let d := (e.desc ++ List.replicate 64 0).take 0x28
  d ++ toBytes 2 ((e.inst + 65535) % 65536) ++ toBytes 1 e.st.code ++ List.replicate 21 0

/-- The core state (R446): 8 KiB. -/
def Core.saveState (k : Core) : List Byte :=
  toBytes 8 k.tt ++ toBytes 8 k.slip ++ toBytes 1 k.sel.val ++ List.replicate 47 0
    ++ (List.finRange 8).flatMap (fun i => toBytes 8 (k.rt[i]).toNat) ++ (List.finRange 16).flatMap (fun i => toBytes 8 (k.bnd[i]).toNat)
    ++ (List.finRange 16).flatMap (fun i => (k.streams[i]).bytes) ++ (List.finRange 16).flatMap (fun i => (k.entries[i]).bytes)
    ++ List.replicate 0x1900 0

/-- A strand's save region (R445). -/
def Strand.saveBytes (t : Strand) : List Byte :=
  let w (v : Word) : List Byte := toBytes 8 v.toNat
  let c := t.csr
  (List.finRange 32).flatMap (fun i => w t.x[i]) ++ (List.finRange 16).flatMap (fun i => w t.a[i]) ++ toBytes 8 (bit true + t.p.toNat / 2 * 2)
    ++ (if t.life == .live then w t.pc else toBytes 8 0) ++ w c.fcr ++ w c.fsr ++ w c.jcr ++ w c.jfl ++ w c.fte ++ w c.qstat
    ++ (List.finRange 4).flatMap (fun i => w c.lps[i]) ++ (List.finRange 4).flatMap (fun i => w c.lit[i])
    ++ (List.finRange 64).flatMap (fun i => w c.dlt[i])
    ++ ((List.finRange 8).drop 1).flatMap (fun i => toBytes 128 (t.k[i]).toNat)
    ++ toBytes 64 t.latch.scales.toNat ++ toBytes 1 (t.latch.src.toNat + 4 * t.latch.tgt.toNat + 16 * bit t.latch.valid)

/-- A strand from its save region; TVEC is set by the loader (R128), the trap record is no part of the save. Reserved bits read zero
(R9, R180). -/
def Strand.restore (f : Fin 17) (hsize : Nat) (m : Mem) (base : Nat) : Strand :=
  let w (o : Nat) : Word := BitVec.ofNat 64 (m.readNat (base + o) 8)
  let pc := w 0x188
  let tag := m.readNat (base + 0x7C0) 1
  { Strand.reset with
    life := if pc = 0 then .idle else .live, level := levelIn f, pc,
    x := Vector.ofFn fun i : Fin 32 => w (8 * i.val), a := Vector.ofFn fun i : Fin 16 => w (0x100 + 8 * i.val),
    p := BitVec.ofNat 8 (m.readNat (base + 0x180) 1),
    k := Vector.ofFn fun i : Fin 8 => if i.val = 0 then 0 else BitVec.ofNat 1024 (m.readNat (base + 0x400 + 128 * (i.val - 1)) 128),
    csr := { Csrs.reset with
      tvec := BitVec.ofNat 64 (262144 - hsize), fcr := fcrWrite 0 (w 0x190), fsr := w 0x198 &&& csrMask 0x001, jcr := jcrWrite 0 (w 0x1A0),
      jfl := w 0x1A8 &&& csrMask 0x003, fte := w 0x1B0 &&& csrMask 0x004, qstat := w 0x1B8 &&& csrMask 0x005,
      lps := Vector.ofFn fun i : Fin 4 => w (0x1C0 + 8 * i.val) &&& csrMask 0x140, lit := Vector.ofFn fun i : Fin 4 => w (0x1E0 + 8 * i.val),
      dlt := Vector.ofFn fun i : Fin 64 => w (0x200 + 8 * i.val) },
    latch := { scales := BitVec.ofNat 512 (m.readNat (base + 0x780) 64), src := BitVec.ofNat 2 (tag % 4), tgt := BitVec.ofNat 2 (tag / 4),
               valid := bits tag 4 1 == 1 } }

/-- Where strand j's save region lies (R432, R445). -/
def saveRegion (j : Fin 4) : Nat := flightBase j + 0x800

/-- Each strand's state goes to its save region. -/
def Core.saveStrands (k : Core) (strands : Nat) : Core :=
  { k with spm := ((List.finRange 4).filter fun j => j.val ≤ strands).foldl (fun m j => m.writeBytes (saveRegion j) (k.strands[j]).saveBytes) k.spm }

/-- A collective entry restored ARMED or IDLE, its timetable read again from SPM (R424, R448). -/
def Entry.restore (m : Mem) (bs : List Byte) : Entry :=
  let e : Entry := { Entry.reset with desc := (bs.take 0x28) ++ List.replicate 24 0 }
  if leNat ((bs.drop 0x2A).take 1) = 0 then Entry.reset
  else { e with st := .armed, inst := (leNat ((bs.drop 0x28).take 2) + 1) % 65536,
                steps := (List.range (e.f 4 2)).map fun n => (parseStep (m.readBytes (e.f 0 4 + 16 * n) 16)).1 }

/-- A member core restored from the bytes of its save: SPM, vector registers, core state and B-SRAM (R448). -/
def Core.restored (f : Fin 17) (r : Record) (bs : List Byte) (k : Core) : Core :=
  let part (o n : Nat) : List Byte := (bs.drop o).take n
  let spm := Mem.writeBytes [] 0 (part 0 786432)
  let st := part 0xE0000 8192
  let n (o w : Nat) : Nat := leNat ((st.drop o).take w)
  let k := k.released f r
  { k with
    spm, bsram := Mem.writeBytes [] 0 (bs.drop 0xE2000),
    v := Vector.ofFn fun i : Fin 32 => BitVec.ofNat 32768 (leNat (part (0xC0000 + 4096 * i.val) 4096)),
    strands := Vector.ofFn fun j : Fin 4 => if j.val ≤ r.strands then Strand.restore f k.hsize spm (saveRegion j) else Strand.reset,
    tt := n 0 8, matTT := n 0 8, copyTT := n 0 8, slip := n 8 8, sel := fin 4 (n 0x10 1),
    rt := Vector.ofFn fun i : Fin 8 => BitVec.ofNat 64 (n (0x40 + 8 * i.val) 8) &&& rtMask,
    bnd := Vector.ofFn fun i : Fin 16 => BitVec.ofNat 64 (n (0x80 + 8 * i.val) 8) &&& bndMask,
    streams := Vector.ofFn fun i : Fin 16 => Stream.ofBytes ((st.drop (0x100 + 32 * i.val)).take 32),
    entries := Vector.ofFn fun i : Fin 16 => Entry.restore spm ((st.drop (0x300 + 64 * i.val)).take 64) }

/-- The VA of a member's save (R444). -/
def Kernel.saveVA (k : Kernel) (index i : Nat) : Nat := k.record.save + (index * k.record.cores + i) * saveSize k.bsram

/-- Restores the members of a group; a strand that stopped at REALIGN.p receives the release bell. -/
def State.restoreGroup (s : State) (k : Kernel) (g : Group) : State :=
  g.members.zipIdx.foldl (fun s c =>
    let bs := s.vaRead k.ctx (k.saveVA g.index c.2) (0xE2000 + k.bsram)
    let s := s.onCore c.1 (Core.restored k.ctx k.record bs)
    let s := s.onCore c.1 fun x => { x with bars := (k.bars.filter (·.1 == c.1)).map (·.2) }
    (k.saved.filter fun x => x.1 == c.1).foldl (fun s x => s.onStrand c.1 x.2.1 fun t => t.wx x.2.2 (BitVec.ofNat 64 s.cyc)) s) s

/-- Checks the saves of a group's members before they are read (R349, R350): a member whose save fails, with the lowest VA. -/
def State.saveLost (s : State) (k : Kernel) (g : Group) : State × Option (Fin 256 × Nat) :=
  g.members.zipIdx.foldl (fun acc c =>
    let (t, failed) := acc.1.vaScan k.ctx [(k.saveVA g.index c.2, 0xE2000 + k.bsram)]
    (t, acc.2.orElse fun _ => failed.map fun va => (c.1, va))) (s, none)

/-- The group goes on at its release bell: RELEASED, or DRAINING where PRE has become 1 while it formed; the LLATs count as they
are (R401). -/
def Group.release (g : Group) (llats : List (Nat × Nat × Nat)) : Group :=
  { g with st := if g.pre.isSome then .draining else .released, resumes := false, llats }

/-- GMEM of a group's member: LEVEL, COUNT and INDEX (R153, R171, R183). -/
def Group.gmem (g : Group) (index : Nat) : Word := BitVec.ofNat 64 (g.level * 2 ^ 48 + g.count * 2 ^ 24 + (index + g.offset))

/-- Writes GMEM in every member of a group. -/
def State.writeGmem (s : State) (g : Group) : State :=
  g.members.zipIdx.foldl (fun s c => s.onCore c.1 fun k => { k with gmem := g.gmem c.2 }) s

/-- GROUP_RELEASE: GMEM and the strands are set, TT counts from 0 or from the saved value; the kernel RUNS once every group is
released (R146). -/
def execGroupRelease (kid gp : Nat) (s : State) : Res := match s.kernel? kid, s.group? kid gp with
  | some k, some g =>
    if !(s.inBell && g.st == .forming && decide (g.saveEnd ≤ s.time) && k.fault.isNone) then .next s
    else
      let checked := if g.resumes then s.saveLost k g else (s, none)
      match checked with
      | (s, some (c, va)) => .next (s.groupFault c 0x0D 0 (BitVec.ofNat 64 va) none)
      | (s, none) =>
        let s := s.clearFlight g.members
        -- what was HELD in step mode enters after the group's next running cycle (R152)
        let s := if g.resumes then g.members.foldl (fun s c => s.onCore c fun x => x.unhold kid s.cyc) (s.restoreGroup k g)
          else g.members.foldl (fun s c => s.onCore c (Core.released k.ctx k.record)) s
        let s := (s.writeGmem g).onGroup kid gp fun g => g.release s.llats
        .next (s.onKernel kid fun k => if k.groups.all fun g => g.st != .forming then { k with st := .running, saved := [], bars := [] } else k)
  | _, _ => .next s

/-! ## REALIGN (R170, R171) -/

/-- Strand j of core c waits at a REALIGN issued before this bell, and no freeze holds it there; a handler's REALIGN waits in a
slip of its own member. -/
def State.realignDue (s : State) (c : Fin 256) (j : Fin 4) : Bool := match (s.strand c j).wait with
  | .realign _ _ cyc _ => decide (cyc < s.cyc) && (s.strand c j).life == .live &&
      ((s.strand c j).trapped || !(s.timed c && (s.atFreeze c || !(s.core c).causes.isEmpty)))
  | _ => false

/-- REALIGN_RESUME. -/
def execRealignResume (c : Fin 256) (j : Fin 4) (s : State) : Res :=
  if s.isBell && s.realignDue c j then .next (s.endRealign c j s.cyc) else .next s

/-- The TT that a member would stand at if no join held it. -/
def State.reachedTT (s : State) (c : Fin 256) : Nat := match (s.strand c 0).wait with
  | .join _ _ cyc tt => tt + (s.cyc - cyc)
  | _ => (s.core c).tt

/-- A REALIGN that not every member of a TIMED group has issued alike, HLAT cycles on in every member (R170); not in step mode, where
SCHED is not raised (R151). -/
def State.mismatched (s : State) (k : Kernel) (g : Group) : Bool :=
  k.record.timed && (g.st == .released || g.st == .draining) && g.step == .off && k.takes g.index &&
  let least := (g.members.map s.reachedTT).foldl Nat.min (2 ^ 64)
  g.realigns.any fun r => decide (r.2.2.2.length < g.members.length) && decide (r.1 + hlat g.level ≤ least)

/-- The core that a group's fault names: member index 0's. -/
def Group.lead (g : Group) : Option (Fin 256) := g.members.head?

/-- A fault of the whole group (R442): member index 0's core, no strand. -/
def State.wholeFault (s : State) (kid : Nat) (g : Group) (cause : Nat) : State :=
  s.faultKernel kid (s.faultRec g.lead none cause 0 0)

/-- REALIGN_MISMATCH. -/
def execRealignMismatch (kid gp : Nat) (s : State) : Res := match s.kernel? kid, s.group? kid gp with
  | some k, some g =>
    if s.mismatched k g then .next (s.wholeFault kid g 0x07) else .next s
  | _, _ => .next s

/-- Every member waits in a join of the same word: that word and the latest issue cycle. -/
def State.joined (s : State) (g : Group) : Option (Word × Nat) :=
  if !(g.st == .released || g.st == .draining) then none else
  let ws := g.members.map fun c => match (s.strand c 0).wait with
    | .join _ w cyc tt => some (w, cyc, tt)
    | _ => none
  match ws with
  | some (w, cyc, tt) :: r =>
    if r.all fun x => match x with
      | some (w', _, tt') => w' == w && tt' == tt
      | none => false
    then some (w, (ws.filterMap id).foldl (fun m x => Nat.max m x.2.1) cyc) else none
  | _ => none

/-- Moves everything of a member that counts on TT by d cycles (R171: in-flight results keep their remaining counts). -/
def State.shiftTT (s : State) (c : Fin 256) (d : Nat) : State :=
  let move (i : Item) : Item := match i.clk with
    | .tt c' => if c' = c then { i with due := i.due + d } else i
    | _ => i
  let s := { s with agenda := s.agenda.map move, gathers := s.gathers.map fun (g : Gather) => if rtCore g.route = c then { g with due := g.due + d } else g }
  s.onCore c fun k => { k with tt := k.tt + d, matTT := k.matTT + d, copyTT := k.copyTT + d, entries := each k.entries fun e => { e with t0 := e.t0 + d } }

/-- JOIN_COMPLETE: what the other parts bring is free, except that no part's TT lowers this one's. -/
def execJoinComplete (kid gp : Nat) (s : State) : Res := match s.group? kid gp with
  | none => .next s
  | some g => match s.joined g with
    | none => .next s
    | some (w, cyc) =>
      let lv := bits w.toNat 24 8
      if !(s.isBell && decide (cyc + hlat lv ≤ s.cyc)) then .next s else
      let own := (g.members.map fun c => (s.core c).tt).foldl Nat.max 0
      let tt := Nat.max own (1 + Config.joinTT s.free)
      let count := g.count + Config.joinCount s.free
      let lower := Config.joinLower s.free
      let leastItem (i : Item) : Item := match i.clk with
        | .least k p => if k = kid ∧ p = gp then { i with due := i.due + (tt - own) } else i
        | _ => i
      let s := { s with free := s.free + 1, agenda := s.agenda.map leastItem }
      let s := g.members.foldl (fun s c =>
        (s.shiftTT c (tt - own)).onStrand c 0 fun t => match t.wait with
          | .join d _ _ _ => { (t.wx d (BitVec.ofNat 64 s.cyc)) with wait := .none, base := t.lt }
          | _ => t) s
      -- a freeze under way holds the members at the TT that the join gives them
      let joint := { g with level := lv, count, offset := g.offset + lower }
      .next ((s.writeGmem joint).onGroup kid gp fun g => { g with level := lv, count, offset := joint.offset, freeze := g.freeze.map fun f => (tt, f.2) })

/-- A join of the group has stood for 2^24 cycles; not in step mode, where DEADLINE is not raised (R151). -/
def State.joinLate (s : State) (k : Kernel) (g : Group) : Bool :=
  (g.st == .released || g.st == .draining) && g.step == .off && k.takes g.index && g.members.any fun c => match (s.strand c 0).wait with
  | .join _ _ cyc _ => decide (cyc + 2 ^ 24 ≤ s.cyc)
  | _ => false

/-- JOIN_TIMEOUT: the group takes DEADLINE. -/
def execJoinTimeout (kid gp : Nat) (s : State) : Res := match s.kernel? kid, s.group? kid gp with
  | some k, some g => if s.joinLate k g then .next (s.wholeFault kid g 0x08) else .next s
  | _, _ => .next s

/-! ## Budget (R167) -/

/-- The least TT among a group's members. -/
def State.leastTT (s : State) (g : Group) : Nat := match g.members.map fun c => (s.core c).tt with
  | [] => 0
  | t :: r => r.foldl Nat.min t

/-- The group's TT has reached BUDGET, not counting the cycles of its steps, and it is not in step mode. -/
def State.overBudget (s : State) (k : Kernel) (g : Group) : Bool :=
  k.record.budget != 0 && (g.st == .released || g.st == .draining) && g.step == .off && decide (k.record.budget + g.stepped ≤ s.leastTT g) && k.takes g.index

/-- DEADLINE. -/
def execDeadline (kid gp : Nat) (s : State) : Res := match s.kernel? kid, s.group? kid gp with
  | some k, some g => if s.overBudget k g then .next (s.wholeFault kid g 0x08) else .next s
  | _, _ => .next s

/-! ## Retirement and the ends of a kernel (R147, R148) -/

/-- An effect that is an operation of its own, not only a result on its way to a register: retirement waits for it. -/
def Eff.isWork : Eff → Bool
  | .store _ _ _ | .vstore _ _ | .vstorex _ _ _ _ | .binit _ _ _ _ | .bexp _ _ | .arrive _ _ _ | .btest _ _ | .sreg _ _ | .bnd _ _ | .rt _ _
  | .cdrpLd _ _ _ | .cdrpDrop _ | .launchRead _ _ | .vload _ _ _ (some _) => true
  | _ => false

/-- Work of core c but for its collective entries: engine commands, outputs, the mender, flits on their way, and pending operations. -/
def State.working (s : State) (c : Fin 256) : Bool :=
  let k := s.core c
  s.cmds.any (fun x => x.core == c && x.owner == k.owner) || !k.press.isEmpty || k.mender.isSome || !k.waiting.isEmpty ||
  s.agenda.any fun (i : Item) => match i.act with
    | .eff c' _ _ _ e => c' == c && e.isWork
    | .sent c' _ _ | .passed c' _ _ => c' == c && decide (s.now i.clk + 1 < i.due)
    | .spmWrite c' _ | .land c' _ _ | .combine c' _ _ _ | .sentAll c' _ | .btestAll c' _ => c' == c
    | _ => false

/-- Work of core c that its group's retirement or save waits for, collective instances with it. -/
def State.coreBusy (s : State) (c : Fin 256) : Bool :=
  s.working c || (s.core c).entries.toList.any fun e => e.st != .idle && e.st != .armed

/-- Every strand of the group has exited and every command has performed, its launches at their bells; a frozen group goes on first
(R168), and one that has faulted in this cycle does not retire. -/
def State.retirable (s : State) (k : Kernel) (g : Group) : Bool :=
  (g.st == .released || g.st == .draining) && g.freeze.isNone && k.fault.isNone && g.members.all fun c =>
    ((s.core c).strands.toList.all fun t => t.life == .idle) && !s.coreBusy c && ((s.core c).launches.all fun l => l.kid != k.kid)

/-- A group's cores are freed. -/
def State.leaveGroup (s : State) (kid gp : Nat) : State := s.leave fun o => o.kid == kid && o.gpos == gp

/-- The kernel is DONE: the DONE value is written and its place is freed (R147). A DONE value that meets a poisoned sector does not perform
and gives MEMORY (R350). -/
def State.completeKernel (s : State) (k : Kernel) : State :=
  match (if k.record.doneVA = 0 then none else s.vaPartial k.ctx k.record.doneVA 8) with
  | some va => s.faultKernel k.kid (s.faultRec none none 0x0D 0 (BitVec.ofNat 64 va))
  | none =>
    let s := if k.record.doneVA = 0 then s else s.vaWrite k.ctx k.record.doneVA (toBytes 8 k.record.doneVal.toNat)
    (s.onKernel k.kid fun k => { k with st := .done }).endKernel k.kid true

/-- Every group of the kernel has retired or has been saved whole, and one has been saved. -/
def Kernel.quiet (k : Kernel) : Bool :=
  (k.groups.all fun g => g.st == .retired || (g.st == .saved && g.saveEnd == 0)) && k.groups.any fun g => g.st == .saved

/-- A kernel none of whose groups runs any more, and not all of which have retired, is PREEMPTED (R146): its cores are kept for its return,
and its pins are freed (R346). -/
def State.preemptIfQuiet (s : State) (kid : Nat) : State := match s.kernel? kid with
  | some k => if k.quiet && k.fault.isNone then
      { (s.onKernel kid fun k => { k with st := .preempted, held := k.groups.map fun g => if g.st == .saved then g.members else [] }) with
        pinsets := s.pinsets.filter fun (p : PinSet) => p.kid != kid }
    else s
  | none => s

/-- GROUP_RETIRE: with the last group the kernel is DONE; a PAIR kernel waits for its comparison (R352). -/
def execGroupRetire (kid gp : Nat) (s : State) : Res := match s.kernel? kid, s.group? kid gp with
  | some k, some g =>
    if !s.retirable k g then .next s else
    let s := ((s.onGroup kid gp fun g => { g with st := .retired, freeze := none, step := .off, realigns := [] }).leaveGroup kid gp).settle k.ctx
    match s.kernel? kid with
    | some k => .next (if k.groups.all (fun g => g.st == .retired) && !k.record.pair then s.completeKernel k else s.preemptIfQuiet kid)
    | none => .next s
  | _, _ => .next s

/-- The bytes of a fault record (R148). -/
def FaultRec.bytes (r : FaultRec) (seq : Nat) : List Byte :=
  toBytes 8 seq ++ toBytes 4 r.reason ++ toBytes 1 r.tcause ++ toBytes 1 r.section_ ++ toBytes 2 r.group ++ toBytes 4 r.site ++ toBytes 4 r.reloc
    ++ toBytes 2 r.core ++ toBytes 1 r.strand ++ toBytes 5 0 ++ toBytes 8 r.tpc ++ toBytes 8 r.taddr.toNat ++ toBytes 8 r.cyc ++ toBytes 8 r.tt

/-- What of a faulted kernel is still outstanding (R441: its record follows the drain): commands and writes, and arbitrations. -/
def State.draining (s : State) (k : Kernel) : Bool :=
  let mine (o : Option Owner) : Bool := match o with
    | some o => o.kid == k.kid
    | none => false
  s.cmds.any (fun x => mine x.owner) ||
  (s.agenda.any fun (i : Item) => match i.act with
    | .eff c _ _ _ e => e.isWrite && mine (s.core c).owner
    | .spmWrite c _ | .land c _ _ | .combine c _ _ _ => mine (s.core c).owner
    | _ => false) ||
  s.cores.toList.any fun c => mine c.owner && c.mender.isSome

/-- A faulted kernel whose drain is complete writes its record, bytes 0 to 7 after the others, and ends FAULTED; with no aligned,
mapped FAULT VA it writes none. -/
def State.closeKernel (s : State) (k : Kernel) (r : FaultRec) : State :=
  let va := k.record.fault
  let bs := r.bytes k.seq
  let s := if va % 64 ≠ 0 then s else
    let head := s.vaPieces k.ctx false va (bs.take 8)
    head.foldl (fun s p => s.push .time (s.time + 1) 8 0 (.ownWrite p.1 p.2.1 p.2.2 k.ctx)) (s.vaWrite k.ctx (va + 8) (bs.drop 8))
  (s.onKernel k.kid fun k => { k with st := .faulted, closed := true }).endKernel k.kid false

/-- Ends every faulted kernel whose drain is complete. -/
def State.closeKernels (s : State) : State :=
  s.kernels.foldl (fun s k => match k.fault with
    | some r => if !k.halted || s.draining k then s else s.closeKernel k r
    | none => s) s

/-! ## Pre-emption (R140, R311, R339, R377, R424, R447) -/

/-- Every strand of the member stands at a saving REALIGN.p or is IDLE. -/
def State.stopped (s : State) (c : Fin 256) : Bool :=
  (s.core c).strands.toList.all fun t => t.life == .idle || (t.isSaving && !t.trapped)

/-- A strand of the member stands at a saving REALIGN.p. -/
def State.saves (s : State) (c : Fin 256) : Bool := (s.core c).strands.toList.any fun t => t.life == .live && t.isSaving

/-- A transfer of a command arrives on a barrier of core c (R339). -/
def Cmd.arrivesAt (k : Cmd) (c : Fin 256) : Bool := match k.body with
  | .copy cp => cp.bar.any (·.1 == c)
  | .cpyh h => h.bar.any (·.1 == c)
  | _ => false

/-- A register result of core c is in flight: of a slot, or owed at a bell to a LAUNCH or a CKPT (R447). -/
def State.resultInFlight (s : State) (c : Fin 256) : Bool :=
  (s.agenda.any fun (i : Item) => match i.act with
    | .eff c' _ _ _ _ => c' == c
    | _ => false) ||
  ((s.core c).launches.any fun l => l.d != 0 && !l.held) || (s.ctxs[s.ctxOf c]).ckpts.any fun r => r.core == c && r.d != 0

/-- The group may be saved at this bell: its strands have stopped, no register result is in flight, nothing of it is outstanding and no
transfer is to arrive on its barriers. -/
def State.saveReady (s : State) (k : Kernel) (g : Group) : Bool :=
  g.st == .draining && g.freeze.isNone && k.fault.isNone && g.members.any s.saves && g.members.all fun c =>
    s.stopped c && !s.coreBusy c && !s.resultInFlight c && !s.cmds.any (·.arrivesAt c)

/-- The bytes of a member's save (R444). -/
def Core.saveImage (k : Core) (bsram : Nat) : List Byte :=
  k.spm.readBytes 0 786432 ++ (List.finRange 32).flatMap (fun r => toBytes 4096 (k.v[r]).toNat) ++ k.saveState ++ k.bsram.readBytes 0 bsram

/-- The members' saves: VA and bytes of each. -/
def State.saveImages (s : State) (k : Kernel) (g : Group) : List (Fin 256 × Nat × List Byte) :=
  g.members.zipIdx.map fun c => (c.1, k.saveVA g.index c.2, (s.core c.1).saveImage k.bsram)

/-- The first save that would not perform, with its member (R350, R355). -/
def State.saveFails (s : State) (f : Fin 17) : List (Fin 256 × Nat × List Byte) → Option (Fin 256 × WriteFail)
  | [] => none
  | m :: r => match s.saveBytes f m.2.1 m.2.2 with
    | .error e => some (m.1, e)
    | .ok s => s.saveFails f r

/-- Something is written after the reads of this cycle and before its other writes (R380). -/
def State.afterReads (s : State) (a : Act) : State := s.push .time s.time 7 (2 ^ 40) a

/-- PREEMPTION_SAVE: the strands' states go to their regions and every member writes its save, after the reads of the cycle; landing queues are
emptied (R405). -/
def execPreemptionSave (kid gp : Nat) (s : State) : Res := match s.kernel? kid, s.group? kid gp with
  | some k, some g =>
    if !(s.isBell && s.saveReady k g) then .next s else
    let s1 := g.members.foldl (fun s c => s.onCore c fun x => x.saveStrands k.record.strands) s
    let marks := g.members.flatMap fun c => (List.finRange 4).filterMap fun j => match (s.strand c j).life, (s.strand c j).wait with
      | .live, .saving d => some (c, j, d)
      | _, _ => none
    let bars := g.members.flatMap fun c => (s.core c).bars.map fun a => (c, a)
    let images := s1.saveImages k g
    match s1.saveFails k.ctx images with
    | some (c, e) => .next ((s1.lose e.lost).groupFault c 0x0D 0 (BitVec.ofNat 64 e.at_) none)
    | none =>
      let s := images.foldl (fun s m => s.afterReads (.save k.ctx m.2.1 m.2.2)) s1
      let s := g.members.foldl (fun s c => s.onCore c fun x =>
        { x with landq := each x.landq fun q => { q with flits := [], disc := q.disc + q.flits.length },
                 strands := each x.strands fun t => if t.life == .live then { t with life := .saved } else t }) s
      let till := s.time + saveTime k.bsram + 256
      let s := s.onGroup kid gp fun g => { g with st := .saved, saveEnd := till }
      let s := s.onKernel kid fun k => { k with saved := k.saved ++ marks, bars := k.bars ++ bars }
      .next (s.push .time till 1 0 (.ev (.saveComplete kid gp)))
  | _, _ => .next s

/-- SAVE_COMPLETE: the group's cores are released; the kernel is PREEMPTED once no group of it runs (R146). -/
def execSaveComplete (kid gp : Nat) (s : State) : Res := match s.kernel? kid, s.group? kid gp with
  | some k, some g =>
    if !(g.st == .saved && decide (g.saveEnd ≤ s.time) && k.fault.isNone) then .next s else
    let s := (s.leaveGroup kid gp).onGroup kid gp fun g => { g with pre := none, saveEnd := 0 }
    .next ((s.preemptIfQuiet kid).settle k.ctx)
  | _, _ => .next s

/-! ## PAIR (R353) -/

/-- The line digest of R353, and a page digest of a copy over the lines of a bitmap. -/
def State.lineDigest (s : State) (a : Nat) : Word := fold (wordsOf (s.dev.readBytes a 2048))
def State.pageDigest (s : State) (base : Nat) (bm : BitVec 32) : Word :=
  (List.range 32).foldl (fun d i => if bm.getLsbD i then d ^^^ rotl (s.lineDigest (base + 2048 * i)) i else d) 0

/-- The SHADOW pages of a kernel's set: home address and VA. -/
def State.shadowPages (s : State) (kid : Nat) : List (Nat × Nat) :=
  (((s.pinsets.filter (·.kid == kid)).flatMap (·.xs)).filter fun x => pteShadow x.leaf.toNat).foldl
    (fun l x => if l.any fun y => y.1 == ptePa x.leaf.toNat then l else l ++ [(ptePa x.leaf.toNat, x.va)]) []

/-- What replica r wrote: per page its bitmap and digest. -/
def State.replicaSums (s : State) (kid r : Nat) : List (Nat × Nat × BitVec 32 × Word) :=
  (s.shadowPages kid).map fun p =>
    let bm := s.shadowBits kid r p.1
    (r, p.1, bm, s.pageDigest (copyAddr r p.1) bm)

/-- Two lists of sums agree, whichever replicas they are of. -/
def sameSums (a b : List (Nat × Nat × BitVec 32 × Word)) : Bool := a.map (·.2) == b.map (·.2)

/-- Checks the written lines of both copies before the comparison reads them (R349, R350): the lowest VA of a page that fails. -/
def State.scanCopies (s : State) (kid : Nat) : State × Option Nat :=
  let lines : List (Nat × Nat) := (s.shadowPages kid).flatMap fun p => ([0, 1] : List Nat).flatMap fun r =>
    ((List.range 32).filter (s.shadowBits kid r p.1).getLsbD).map fun i => (p.2 + 2048 * i, copyAddr r p.1 + 2048 * i)
  let cs := lines.map fun l => (l, s.checkRead l.2 2048)
  let t := (cs.flatMap fun c => c.2.fetch).eraseDups.foldl State.correct s
  (t.lose (cs.flatMap fun c => c.2.lost).eraseDups, least (cs.filterMap fun c => c.2.failed.map fun x => c.1.1 + (x - c.1.2)))

/-- Commits copy 0: every written line goes to its home page; the failing VA where a write does not perform. -/
def State.commitPages (s : State) (k : Kernel) : Except WriteFail State :=
  (s.shadowPages k.kid).foldl (fun (acc : Except WriteFail State) p => match acc with
    | .error e => .error e
    | .ok s =>
      let bm := s.shadowBits k.kid 0 p.1
      (List.range 32).foldl (fun (acc : Except WriteFail State) i => match acc with
        | .error e => .error e
        | .ok s =>
          if bm.getLsbD i then
            (match s.devWrite k.ctx (p.1 + 2048 * i) (s.dev.readBytes (copyAddr 0 p.1 + 2048 * i) 2048) with
            | .error e => .error ⟨p.2 + 2048 * i, e.lost⟩
            | .ok s => .ok s)
          else .ok s) (.ok s)) (.ok s)

/-- Clears a kernel's bitmaps. -/
def State.clearShadow (s : State) (kid : Nat) : State :=
  { s with pinsets := s.pinsets.map fun p => if p.kid = kid then { p with xs := p.xs.map fun x => { x with bits0 := 0, bits1 := 0 } } else p }

/-- The commit, and the kernel is DONE. -/
def State.commitPair (s : State) (k : Kernel) : State := match s.commitPages k with
  | .error e => (s.lose e.lost).faultKernel k.kid (s.faultRec none none 0x0D 0 (BitVec.ofNat 64 e.at_))
  | .ok s => (s.clearShadow k.kid).completeKernel k

/-- A die is named suspect: its count rises, and the context's ring has an entry of kind 8 (R353, R460). -/
def State.nameSuspect (s : State) (f : Fin 17) (d : Nat) : State :=
  ({ s with suspect := upd s.suspect (fin 8 d) fun n => (n + 1) % 65536 }).eventKind f 8

/-- The dies of a kernel's replica pairs, in group order. -/
def Kernel.pairDies (k : Kernel) : List (Nat × Nat) :=
  (chunksOf 2 k.record.groups k.groups).map fun g => match g with
    | [a, b] => ((a.members.head?.map dieOf).getD 0, (b.members.head?.map dieOf).getD 0)
    | _ => (0, 0)

/-- PAIR_COMPARE (R353). A written line that cannot be read gives MEMORY (R349, R350). -/
def execPairCompare (kid : Nat) (s : State) : Res := match s.kernel? kid with
  | none => .next s
  | some k =>
    if !(k.record.pair && k.st == .running && k.fault.isNone && !k.groups.isEmpty && k.groups.all fun g => g.st == .retired) then .next s else
    match s.scanCopies kid with
    | (s, some va) => .next (s.faultKernel kid (s.faultRec none none 0x0D 0 (BitVec.ofNat 64 va)))
    | (s, none) =>
    let a := s.replicaSums kid 0
    let b := s.replicaSums kid 1
    match k.first with
    | none =>
      if sameSums a b then .next (s.commitPair k)
      else
        .next ((s.clearShadow kid).onKernel kid fun k => { k with st := .queued, first := some { sums := a ++ b, dies := k.pairDies }, groups := [] })
    | some f =>
      let of (r : Nat) : List (Nat × Nat × BitVec 32 × Word) := f.sums.filter fun x => x.1 == r
      let engine := s.faultKernel kid (s.faultRec none none 0x0C 0 0)
      if !sameSums a b then .next engine
      else
        let name (r : Nat) : State := ((f.dies.map fun d => if r = 0 then d.2 else d.1).eraseDups).foldl (fun s d => s.nameSuspect k.ctx d) s
        if sameSums a (of 0) then .next ((name 0).commitPair k)
        else if sameSums a (of 1) then .next ((name 1).commitPair k)
        else .next engine

/-! ## Checkpoint marks (R357) -/

/-- D of R357: the digest of the lines written since the mark. -/
def State.ckptDigest (s : State) (f : Fin 17) : Word :=
  let k := (s.ctxs[f]).ckpt
  if !k.armed then 0 else k.lines.foldl (fun d l => d ^^^ rotl (s.lineDigest l) (l / 2048 % 64)) 0

/-- A CKPT whose bell is this one. -/
def CkptReq.due (r : CkptReq) (cyc : Nat) : Bool := decide (r.at_ + 2 < cyc)

/-- Zeroes the index of every page of a log area after the reads of this cycle. -/
def State.clearLog (s : State) (f : Fin 17) (area : List Nat) : State :=
  area.foldl (fun s p => s.afterReads (.ownWrite false p (List.replicate 248 0) f)) s

/-- CHECKPOINT_MARK: every CKPT of this bell returns the same digest; the last issued sets the arming and the area. A line that cannot be read
for D gives MEMORY to the group of each that still runs, and no mark is set (log 202). A mark
that falls in a rollback comes at the first bell after it (log 203). -/
def execCheckpointMark (f : Fin 17) (s : State) : Res :=
  let k := s.ctxs[f]
  let due := k.ckpts.filter (·.due s.cyc)
  match (sortBy (fun r : CkptReq => r.at_ * 256 + r.core.val) due).getLast? with
  | none => .next s
  | some last =>
    if !s.isBell || k.rolling then .next s else
    let (s, bad) := if k.ckpt.armed then s.scan (k.ckpt.lines.map fun l => (l, 2048)) else (s, none)
    let running := due.filter fun r => s.runsFor r.core r.strand r.kid
    match (if running.isEmpty then none else bad) with
    | some (_, a) => .next (running.foldl (fun s r => s.groupFault r.core 0x0D 0 (BitVec.ofNat 64 a) none)
        (s.onCtx f fun c => { c with ckpts := c.ckpts.filter fun r => !r.due s.cyc }))
    | none =>
    let d := s.ckptDigest f
    let area := if last.off then [] else last.pages
    -- the log is emptied: of its old area, and of what the new one may hold
    let s := (s.clearLog f k.ckpt.area).clearLog f area
    let mark : Ckpt := { armed := !last.off, mark := s.cyc, area, used := 0, written := [], lines := [] }
    let s := s.onCtx f fun c => { c with ckpt := mark, ckpts := c.ckpts.filter fun r => !r.due s.cyc }
    .next (running.foldl (fun s r => s.giveX r.core r.strand r.order r.d 512 d) s)

/-! ## Single step (R151) -/

/-- Every step of the entry's running instance has run (R151, R424). -/
def Entry.stepsRan (e : Entry) : Bool :=
  !e.running || (e.ran.length == e.steps.length && e.finsDone.length == (e.steps.filter TStep.isFin).length)

/-- The commands of a step, and the steps of what it triggered, have completed. -/
def State.stepDone (s : State) (kid gp : Nat) (g : Group) : Bool :=
  !(s.cmds.any fun x => x.stepped && (match x.owner with
    | some o => o.kid == kid && o.gpos == gp
    | none => false)) && g.members.all fun c => !s.working c && (s.core c).entries.toList.all Entry.stepsRan

/-- STEP_COMPLETE: the step reports with STEP in every strand that issued a bundle and is not in its handler, and the group stands
again. -/
def execStepComplete (kid gp : Nat) (s : State) : Res := match s.group? kid gp with
  | none => .next s
  | some g => match g.step with
    | .waiting j did =>
      if !s.stepDone kid gp g then .next s else
      let s := s.onGroup kid gp fun g => { g with step := .halted }
      .next (did.foldl (fun s d =>
        let t := s.strand d.1 j
        if t.life == .live && !t.trapped then s.meetTrap d.1 j { slot := 0, pc := d.2, info := { cause := 0x10, taddr := 0, coef := none }, order := s.seq, ring := (0, 0) } else s) s)
    | _ => .next s

end Sys2Proof.Machine
end

