-- ==== Sys2Proof/Machine/Context.lean ====
section
/-! DEFINITION. Contexts and their registers (R115 to R124, R142, R343, R453 to R457): open, close and reset, drain and scrub,
queue commands, invalidation, rollback (R356), step mode (R151, R152), partitions, HEALTH clears, register writes, host access
to device memory and the submission windows (R388, R452, R458), and device reset (R464). -/
namespace Sys2Proof.Machine

/-! ## Commands of a function (R454, R455) -/

def State.setErr (s : State) (f : Fin 17) (n : Nat) : State := s.onCtx f fun c => { c with err := n }

/-- PF0, and the VFs that SR-IOV has enabled: VF1 to the last (R115, R451). -/
def State.functionOn (s : State) (f : Fin 17) : Bool := f == 0 || decide (f.val ≤ s.vfs)

/-- What reaches a function; a VF that is not enabled answers nothing, and nothing changes (log 166). -/
def State.reaching (s : State) (f : Fin 17) (run : State → State) : Res := .next (if s.functionOn f then run s else s)

/-- A command of a function runs unless another is in progress, which drops it with ERR 4. -/
def State.command (s : State) (f : Fin 17) (run : State → State) : Res :=
  s.reaching f fun s => if (s.ctxs[f]).busy then s.setErr f 4 else run (s.setErr f 0)

/-- OPEN (R128, R134, R455); a handler image that cannot be read (R349) is none that R128 accepts. -/
def execOpenCtx (f : Fin 17) (s : State) : Res := s.command f fun s =>
  let k := s.ctxs[f]
  if k.st != .closed then s.setErr f 1
  else if k.root.toNat % 65536 ≠ 0 ∨ k.hva = 0 then s.setErr f 2
  else match s.vaScan f (s.imageReads f k.hva.toNat) with
  | (s, some _) => s.setErr f 2
  | (s, none) => match s.handlerText f k.hva.toNat with
    | none => s.setErr f 2
    | some text => s.onCtx f fun k => { k with st := .open_, handler := text, flrDone := false, nextSeq := 1, outcomes := [] }

/-- CLOSE (R119): accepted in OPEN and ACTIVE; in QUIESCING and SCRUBBING the reset in progress goes on. -/
def execCloseCtx (f : Fin 17) (s : State) : Res := s.command f fun s => match (s.ctxs[f]).st with
  | .open_ | .active => s.quiesce f false
  | .quiescing | .scrubbing => s
  | _ => s.setErr f 1

/-- FORCED_CLOSE by PF0. -/
def execForcedClose (f : Fin 17) (s : State) : Res := match (s.ctxs[f]).st with
  | .open_ | .active => .next (s.quiesce f false)
  | _ => .next s

/-- PF0's firmware is started anew, from the image that is active (R124; that an FLR of PF0 activates no updated image is the model's, log
167). -/
def State.restartFirmware (s : State) : State := { s with fwStarts := s.fwStarts + 1 }

/-- A requester's FLR of PF0 (R119, R124, R462): one reset for all who ask while it is in progress, each told once; with no partition held
it is over at once. -/
def State.resetPf0 (s : State) (who : Nat) : State :=
  let holds := (List.finRange 17).any fun f => (s.ctxs[f]).st != .free
  let s := if (s.ctxs[(0 : Fin 17)]).st == .free then s.onCtx 0 fun c => { c with flrDone := true } else s
  if !s.pf0Reset.isEmpty then (if s.pf0Reset.contains who then s else { s with pf0Reset := s.pf0Reset ++ [who] })
  else if !holds then { s.restartFirmware with resp := s.resp ++ [.resetDone who] }
  else { s with pf0Reset := [who] }.resetAll

/-- FLR of an enabled function (R119); that of PF0 is R124's. -/
def execFlr (f : Fin 17) (s : State) : Res :=
  if f = 0 then .next (s.resetPf0 0) else
  s.reaching f fun s => match (s.ctxs[f]).st with
    | .open_ | .active => s.quiesce f true
    | .closed | .free => s.onCtx f fun c => { c with flrDone := true }
    | .quiescing | .scrubbing => s

/-- FLR_PF0. -/
def execFlrPf0 (s : State) : Res := .next (s.resetPf0 0)

/-! ## Drain and scrub (R121 to R123) -/

/-- A command that has a request to host memory. -/
def Cmd.ofHost (k : Cmd) : Bool := match k.body with
  | .hostAmo _ => true
  | .cpyh h => (h.src ++ h.dst).any fun r => r.place == .host
  | _ => false

/-- HOST_REQUEST_ABANDON: 10 ms after QUIESCING began, host requests with no completion are abandoned. -/
def execHostRequestAbandon (f : Fin 17) (s : State) : Res :=
  let k := s.ctxs[f]
  if k.st == .quiescing && decide (k.since + abandonAfter ≤ s.time) then
    .next (((s.cmds.filter fun x => x.ctx == f && x.ofHost).map (·.id)).foldl State.dropCmd s)
  else .next s

/-- A request of context f is outstanding: a command, a write of its cores, what they have sent inside the package, its arbitrations,
walks, and its own writes. -/
def State.outstanding (s : State) (f : Fin 17) : Bool :=
  let mine (c : Fin 256) : Bool := (s.ctxs[f]).part.cores.getLsbD c.val
  s.cmds.any (fun k => k.ctx == f) ||
  (s.agenda.any fun (i : Item) => match i.act with
    | .eff c _ _ _ e => mine c && e.isWrite
    | .spmWrite c _ | .land c _ _ | .combine c _ _ _ => mine c
    | .ev (.flitLanding g) => rtLocal g.route && g.func.toNat == f.val
    | .chunk g => g.srcPkg == s.pkg && g.func == f.val
    | .ownWrite _ _ _ g | .save g _ _ => g == f
    | _ => false) ||
  (List.finRange 256).any (fun c => mine c && (s.core c).mender.isSome) || s.walks.any fun (w : Walk) => mine w.core

/-- DRAIN_COMPLETE: the checkpoint mark is cleared, and the scrub begins. -/
def execDrainComplete (f : Fin 17) (s : State) : Res :=
  if (s.ctxs[f]).st == .quiescing && !s.outstanding f then
    let d := Config.scrubDelay s.free % 2280000
    let s := { s with free := s.free + 1 }
    let s := s.onCtx f fun c => { c with st := .scrubbing, since := s.time, ckpt := Ckpt.off, ckpts := [] }
    .next (s.push .time (s.time + 1 + d) 0 0 (.ev (.scrubComplete f)))
  else .next s

/-- A tile after a scrub: every bit of its accumulators is zero (R122, R507), their payloads too, which MZERO, release and resumption set. -/
def Tile.scrubbed : Tile :=
  let zero : Acc := { Acc.zero with init := { AccElem.zero with payload := 0 } }
  { Tile.reset with prim := zero, shad := zero }

/-- A core after its scrub: everything of R122 zero or at its reset value; HEALTH, and what the environment has in store for the core,
stand. -/
def Core.scrubbed (k : Core) : Core := { Core.reset with tiles := Vector.replicate 4 Tile.scrubbed, health := k.health, errP := k.errP, errS := k.errS, errV := k.errV, errL := k.errL }

/-- The reset of PF0 ends once no context is in it any more: its firmware is started anew, and its requesters are told. -/
def State.reportReset (s : State) : State :=
  let going := (List.finRange 17).any fun f => (s.ctxs[f]).st == .quiescing || (s.ctxs[f]).st == .scrubbing
  if going || s.pf0Reset.isEmpty then s else { s.restartFirmware with resp := s.resp ++ s.pf0Reset.map .resetDone, pf0Reset := [] }

/-- SCRUB_COMPLETE (R123): what the dies' caches hold of the context goes with its root. -/
def execScrubComplete (f : Fin 17) (s : State) : Res :=
  let k := s.ctxs[f]
  if k.st != .scrubbing then .next s else
  let mine (c : Fin 256) : Bool := k.part.cores.getLsbD c.val
  let keep (i : Item) : Bool := match i.act with
    | .eff c _ _ _ _ | .seen c _ _ _ _ _ | .commit c _ _ _ _ => !mine c
    | _ => true
  let scrub (c : Fin 256) : Core := if mine c then (s.core c).scrubbed else s.core c
  let s := { s with cores := Vector.ofFn scrub, agenda := s.agenda.filter keep, tcache := s.tcache.filter fun e => e.2.1 != f }
  let s := s.onCtx f fun c => { c with st := .closed, gen := c.gen + 1, root := 0, hva := 0, handler := [], flrDone := true, busy := false, inval := none }
  .next s.reportReset

/-- TAGGED_RETURN: the return of a command that carries a tag. One that does not match its context's current tag and state is discarded at
the port (R117); one that matches takes its course, and one whose tag is not its command's reaches no command. -/
def execTaggedReturn (tag : BitVec 8) (id : Nat) (s : State) : Res :=
  let n := tag.toNat % 32
  let current := decide (n < 17) && s.tagOf (fin 17 n) == tag && match (s.ctxs[fin 17 n]).st with
    | .open_ | .active => true
    | _ => false
  .next (if (s.cmd? id).any (fun k => k.tag == tag) && !current then s.dropCmd id else s)

/-! ## Queues (R142) -/

/-- A queue command: a queue outside the mask gives ERR 3, a transition that R142 does not list ERR 1. -/
def State.queueCmd (s : State) (f : Fin 17) (q : Fin 64) (may : QueueSt → Bool) (run : State → State) : Res :=
  s.command f fun s =>
    if (s.queues[q]).ctx ≠ some f then s.setErr f 3
    else if !may (s.queues[q]).st then s.setErr f 1
    else run s

/-- QUEUE_START. -/
def execQueueStart (f : Fin 17) (q : Fin 64) (s : State) : Res :=
  s.queueCmd f q (· == .stopped) fun s => s.onQueue q fun x => { x with st := .running }
/-- QUEUE_STOP. -/
def execQueueStop (f : Fin 17) (q : Fin 64) (s : State) : Res :=
  s.queueCmd f q (· == .running) fun s => s.onQueue q fun x => { x with st := .stopped }
/-- QUEUE_RESET: PRODUCE and CONSUME are zero. -/
def execQueueReset (f : Fin 17) (q : Fin 64) (s : State) : Res :=
  s.queueCmd f q (fun st => st == .stopped || st == .overrun) fun s =>
    { s with windows := s.windows.writeNat (windowBase q) 16 0 }.onQueue q fun x => { x with st := .stopped }

/-! ## Invalidation and rollback requests (R343, R356, R455) -/

/-- INVAL: BUSY until every translation cache has dropped the range. -/
def execInval (f : Fin 17) (page : BitVec 32) (count : BitVec 16) (s : State) : Res := s.command f fun s =>
  let d := Config.invalDelay s.free
  let s := { s with free := s.free + 1 }.onCtx f fun c => { c with busy := true, inval := some (page.toNat, count.toNat + 1) }
  s.push .time (s.time + 1 + d) 0 0 (.ev (.invalComplete f))

/-- A translation lies in a range of 64 KiB pages. -/
def Xlat.within (x : Xlat) (page n : Nat) : Bool :=
  let lo := x.va / 65536
  let len := if x.block then 8192 else 1
  decide (lo < page + n ∧ page < lo + len)

/-- The walk, under way for context f, is of a page of a range that has been invalidated: what its die's cache held of the page it may yet
end with (R455). -/
def State.overtake (s : State) (f : Fin 17) (page n : Nat) (w : Walk) : Walk :=
  if w.busy && s.ctxOf w.core == f && decide (page ≤ w.page ∧ w.page < page + n) && w.old.isNone then
    { w with old := (s.tcache.find? fun e => e.1.val == dieOf w.core && e.2.1 == f && e.2.2.covers (w.page * 65536)).map (·.2.2) }
  else w

/-- INVAL_COMPLETE (R343, R455): every cache has dropped the range, and so has every access but a walk that is still under way. -/
def execInvalComplete (f : Fin 17) (s : State) : Res := match (s.ctxs[f]).inval with
  | none => .next s
  | some (page, n) =>
    .next ({ s with walks := s.walks.map (s.overtake f page n), tcache := s.tcache.filter fun e => !(e.2.1 == f && e.2.2.within page n) }.onCtx f
      fun c => { c with busy := false, inval := none })

/-- RBREQ: rolls the context back as a group fault would (R356); with no armed checkpoint, or outside OPEN and ACTIVE, ERR 1. -/
def execRbreq (f : Fin 17) (s : State) : Res := s.command f fun s =>
  let k := s.ctxs[f]
  if (k.st == .open_ || k.st == .active) && k.ckpt.armed && !k.rolling then (s.rollback f none).onCtx f fun c => { c with busy := true }
  else s.setErr f 1

/-- A rollback's drain is complete: nothing of the context is outstanding and its faulting kernel has ended; records that have come in since
wait for it. -/
def State.rollReady (s : State) (f : Fin 17) : Bool :=
  (s.ctxs[f]).rolling && !s.outstanding f && !(s.kernels.any fun k => k.ctx == f && k.fault.isSome)

/-- Zeroes the index of every page of a log area. -/
def State.emptyLog (s : State) (area : List Nat) : State := area.foldl (fun s p => s.devStore p (List.replicate 248 0)) s

/-- Writes the logged pre-images back, empties the log, and reports (R356, R453, R460). The mark stands, and with it the lines written since
(R357). RBREQ's command ends; an INVAL under way keeps BUSY (R455). -/
def State.restoreLog (s : State) (f : Fin 17) : State :=
  let k := (s.ctxs[f]).ckpt
  let back (s : State) (n : Nat) : State :=
    let (ix, img) := k.slot n
    let s := (s.scan [(ix, 8), (img, 2048)]).1
    s.devStore (s.dev.readNat ix 8) (s.dev.readBytes img 2048)
  let s := ((List.range k.used).foldl back s).emptyLog k.area
  let rep := BitVec.ofNat 64 (k.mark / 65536 * 65536 + Nat.min k.used 65535)
  let s := s.onCtx f fun c => { c with ckpt := { c.ckpt with used := 0, written := [] }, rbRep := rep, rolling := false, busy := c.inval.isSome }
  s.eventKind f 10

/-- Every rollback whose drain is complete. -/
def State.finishRollbacks (s : State) : State :=
  (List.finRange 17).foldl (fun s f => if s.rollReady f then s.restoreLog f else s) s

/-! ## Step mode (R151, R152) -/

/-- The group of context f that STEPCTL's index names: that of the first kernel that runs one of this index. -/
def State.stepGroup (s : State) (f : Fin 17) (grp : Nat) : Option (Nat × Nat × Group) :=
  s.kernels.findSome? fun k =>
    if k.ctx != f || k.fault.isSome then none
    else (k.groups.zipIdx.find? fun g => g.1.index == grp && (g.1.st == .released || g.1.st == .draining)).map fun g => (k.kid, g.2, g.1)

/-- A group enters step mode: its strands stop after their current bundle, and the freeze rules are suspended (R165). -/
def State.enterStep (s : State) (kid gp : Nat) (g : Group) : State :=
  let timed := (s.kernel? kid).any fun k => k.record.timed
  let s := { s with agenda := s.agenda.map (s.leastToTime kid (some gp)) }
  let s := if timed then g.members.foldl State.engineToTime s else s
  s.onGroup kid gp fun g => { g with step := .halted, freeze := none }

/-- A group leaves step mode: in a TIMED group the engines' clock takes up the raw clock's count, and HELD launches enter at the first
bell after the next cycle (R152). -/
def State.leaveStep (s : State) (kid gp : Nat) (g : Group) : State :=
  let timed := (s.kernel? kid).any fun k => k.record.timed
  let one (s : State) (c : Fin 256) : State :=
    let trapped := (s.strand c 0).trapped || (s.strand c 0).returning.isSome
    s.onCore c fun k => { k with
      eng := if timed then s.time else k.eng, matTT := k.tt, copyTT := k.tt,
      causes := if timed && trapped then [.trap] else k.causes, launches := (k.unhold kid s.cyc).launches }
  let s := (g.members.foldl one s).onGroup kid gp fun g => { g with step := .off }
  -- a slip that is still pending freezes the group from here
  if timed then g.members.foldl (fun s c => match (s.core c).causes with
    | x :: _ => s.slip c x
    | [] => s) s else s

/-- STEP_MODE: places the group that the index names in step mode or takes it out; an index that names no running group changes
nothing. -/
def State.setStepMode (s : State) (f : Fin 17) (grp : Nat) (on : Bool) : State := match s.stepGroup f grp with
  | none => s
  | some (kid, gp, g) => match on, g.step with
    | true, .off => s.enterStep kid gp g
    | true, _ => s
    | false, .off => s
    | false, _ => s.leaveStep kid gp g

/-- SINGLE_STEP: one step of a group that stands in step mode. -/
def State.requestStep (s : State) (f : Fin 17) (grp : Nat) (j : Fin 4) : State := match s.stepGroup f grp with
  | none => s
  | some (kid, gp, g) => match g.step with
    | .halted =>
      let timed := (s.kernel? kid).any fun k => k.record.timed
      s.onGroup kid gp fun g => { g with step := .stepping (if timed then 0 else j) [] }
    | _ => s

/-- A write of STEPCTL (R453, R462). -/
def State.writeStepCtl (s : State) (f : Fin 17) (v : Word) : State :=
  let n := v.toNat
  let s := s.onCtx f fun c => { c with stepCtl := BitVec.ofNat 64 (n % 2 ^ 20) }
  let s := s.setStepMode f (bits n 0 16) (bits n 16 1 == 1)
  if bits n 16 1 = 1 ∧ bits n 17 1 = 1 then s.requestStep f (bits n 0 16) (fin 4 (bits n 18 2)) else s

def execStepMode (f : Fin 17) (grp : BitVec 16) (on : Bool) (s : State) : Res :=
  s.reaching f fun s => s.writeStepCtl f (BitVec.ofNat 64 (grp.toNat + 2 ^ 16 * bit on))
def execSingleStep (f : Fin 17) (grp : BitVec 16) (j : Fin 4) (s : State) : Res :=
  s.reaching f fun s => s.writeStepCtl f (BitVec.ofNat 64 (grp.toNat + 2 ^ 16 + 2 ^ 17 + 2 ^ 18 * j.val))

/-! ## Partitions (R118, R456, R457) -/

/-- A partition record's fields. -/
def parsePartition (w : BitVec 512) : Partition :=
  let f (o n : Nat) : Nat := bits w.toNat (8 * o) (8 * n)
  { cores := w.extractLsb' 0 256, queues := w.extractLsb' 256 64, maxClass := f 40 1 % 8, nearBase := f 42 2 * 2 ^ 20, nearSize := f 44 2 * 2 ^ 20,
    pins := Vector.ofFn fun d : Fin 8 => f (46 + 2 * d.val) 2 }

/-- Two partitions overlap in cores, queues or near memory. -/
def Partition.overlaps (a b : Partition) : Bool :=
  a.cores &&& b.cores != 0 || a.queues &&& b.queues != 0 ||
  (a.nearSize != 0 && b.nearSize != 0 && decide (a.nearBase < b.nearBase + b.nearSize ∧ b.nearBase < a.nearBase + a.nearSize))

/-- Gives context f a partition: queues that join its mask go to STOPPED, queues that leave it to UNBOUND (R142). -/
def State.setPartition (s : State) (f : Fin 17) (p : Partition) (st : CtxSt) : State :=
  let one (q : Fin 64) : Queue :=
    let x := s.queues[q]
    if p.queues.getLsbD q.val then (if x.ctx = some f then x else { x with st := .stopped, ctx := some f })
    else if x.ctx = some f then { x with st := .unbound, ctx := none } else x
  { s with queues := Vector.ofFn one }.onCtx f fun c => { c with part := p, st }

def State.setAstat (s : State) (n : Nat) : State := { s with astat := n }

/-- ASSIGN, with the checks of R456 in order. A partition is assigned to an enabled function only (R119): to another nothing changes, with
an ASTAT that the spec does not give (log 151). -/
def execAssign (n : BitVec 5) (s : State) : Res :=
  if 17 ≤ n.toNat then .next (s.setAstat 4) else
  let f := fin 17 n.toNat
  let k := s.ctxs[f]
  if k.st != .closed && k.st != .free then .next (s.setAstat 3) else
  let p := parsePartition s.records[f]
  let others := ((List.finRange 17).filter (· != f)).map fun g => (s.ctxs[g]).part
  if 1152 * 2 ^ 20 < p.nearBase + p.nearSize then .next (s.setAstat 5)
  else if others.any p.overlaps then .next (s.setAstat 1)
  else if (List.finRange 8).any fun d => decide (16384 < p.pins[d] + (others.map fun o => o.pins[d]).sum) then .next (s.setAstat 2)
  else if !s.functionOn f then .next ({ s with free := s.free + 1 }.setAstat (Config.astat s.free))
  else .next ((s.setPartition f p .closed).setAstat 0)

/-- WITHDRAW: a CLOSED context becomes FREE. -/
def execWithdraw (n : BitVec 5) (s : State) : Res :=
  if 17 ≤ n.toNat then .next (s.setAstat 4) else
  let f := fin 17 n.toNat
  match (s.ctxs[f]).st with
  | .closed | .free => .next ((s.setPartition f Partition.empty .free).setAstat 0)
  | _ => .next (s.setAstat 3)

/-- HCLR: the mask's dwords in turn; the fourth clears HEALTH of the named cores, one with an arbitration in progress after it. -/
def execHclr (i : Fin 4) (w : BitVec 64) (s : State) : Res :=
  let m := s.hclr &&& ~~~((BitVec.ofNat 256 (2 ^ 64 - 1)) <<< (64 * i.val)) ||| ((w.zeroExtend 256) <<< (64 * i.val))
  let s := { s with hclr := m }
  if i.val ≠ 3 then .next s else
  let one (c : Fin 256) : Core :=
    let k := s.core c
    if !m.getLsbD c.val then k
    else if k.mender.isSome then { k with health := { k.health with clear := true } } else { k with health := Health.cleared }
  .next { s with cores := Vector.ofFn one }

/-! ## Register writes (R453, R456) -/

/-- PTROOT and HVA may be written only while the context is CLOSED; else the write is dropped with ERR 3. -/
def State.whileClosed (s : State) (f : Fin 17) (g : Ctx → Ctx) : State :=
  if (s.ctxs[f]).st == .closed then s.onCtx f g else s.setErr f 3

/-- EVCTL's write: the field takes 4 to 20; PRODUCE is read-only. -/
def evCtlWrite (old v : Word) : Word :=
  let n := bits v.toNat 0 5
  if 4 ≤ n ∧ n ≤ 20 then BitVec.ofNat 64 (old.toNat / 32 * 32 + n) else old

/-- A dword of a wide register replaced. -/
def putDword {w : Nat} (r : BitVec w) (i : Nat) (v : Word) : BitVec w :=
  (r &&& ~~~((BitVec.ofNat w (2 ^ 64 - 1)) <<< (64 * i))) ||| ((v.zeroExtend w) <<< (64 * i))

/-- REGISTER_WRITE: a dword written to BAR0 of a function: its context page, and for PF0 the management region. A write to a register
that is read-only, to no register or to a VF that is not enabled changes nothing. -/
def execRegisterWrite (f : Fin 17) (off : Nat) (v : BitVec 64) (s : State) : Res :=
  let n := v.toNat
  if !s.functionOn f then .next s else
  match off with
  | 0x008 => match bits n 0 2 with
    | 1 => execOpenCtx f s
    | 2 => execCloseCtx f s
    | _ => .next s
  | 0x010 => .next (s.whileClosed f fun c => { c with root := v })
  | 0x018 => .next (s.whileClosed f fun c => { c with hva := v })
  | 0x020 => match bits n 8 2 with
    | 1 => execQueueStart f (fin 64 (bits n 0 6)) s
    | 2 => execQueueStop f (fin 64 (bits n 0 6)) s
    | 3 => execQueueReset f (fin 64 (bits n 0 6)) s
    | _ => .next s
  | 0x028 => execInval f (v.extractLsb' 16 32) (v.extractLsb' 0 16) s
  | 0x030 => .next (s.onCtx f fun c => { c with evBase := v &&& ~~~0x1F })
  | 0x038 => .next (s.onCtx f fun c => { c with evCtl := evCtlWrite c.evCtl v })
  | 0x048 => if n = 1 then execRbreq f s else .next s
  | 0x050 => .next (s.writeStepCtl f v)
  | _ =>
    if f ≠ 0 then .next s
    else if 0x10000 ≤ off ∧ off < 0x10000 + 64 * 17 ∧ off % 8 = 0 then
      .next { s with records := upd s.records (fin 17 ((off - 0x10000) / 64)) fun r => putDword r ((off - 0x10000) % 64 / 8) v }
    else if off = 0x10800 then
      if bits n 8 1 = 1 then execAssign (v.extractLsb' 0 5) s else execWithdraw (v.extractLsb' 0 5) s
    else if off = 0x10810 then .next { s with cohBase := v &&& 0xFFFFFFF000000001 }
    else if 0x10820 ≤ off ∧ off < 0x10840 ∧ off % 8 = 0 then execHclr (fin 4 ((off - 0x10820) / 8)) v s
    else if 0x11000 ≤ off ∧ off < 0x11000 + 128 * 17 ∧ off % 8 = 0 then
      .next (s.onCtx (fin 17 ((off - 0x11000) / 128)) fun c => { c with peers := putDword c.peers ((off - 0x11000) % 128 / 8) v })
    else .next s

/-! ## Register reads (R8, R9, R453, R454, R456) -/

def CtxSt.code : CtxSt → Nat
  | .free => 0 | .open_ => 1 | .active => 2 | .quiescing => 3 | .scrubbing => 4 | .closed => 5

/-- CTXSTAT (R454). -/
def Ctx.stat (c : Ctx) : Word :=
  BitVec.ofNat 64 (c.err * 2 ^ 12 + bit c.busy * 2 ^ 11 + bit c.flrDone * 2 ^ 10 + c.gen.toNat * 2 ^ 7 + c.st.code)

/-- A dword of a wide register. -/
def getDword {w : Nat} (r : BitVec w) (i : Nat) : Word := r.extractLsb' (64 * i) 64

/-- The bits of a partition record that are not reserved (R457). -/
def recordMask : BitVec 512 := BitVec.ofNat 512 (2 ^ 496 - 1 - (2 ^ 8 - 1) * 2 ^ 328)

/-- A dword of a function's BAR0 as the host reads it: a write-only or reserved one, or none, reads zero. -/
def State.readReg (s : State) (f : Fin 17) (off : Nat) : Word :=
  let c := s.ctxs[f]
  match off with
  | 0x000 => c.stat
  | 0x010 => c.root
  | 0x018 => c.hva
  | 0x030 => c.evBase
  | 0x038 => c.evCtl
  | 0x040 => c.rbRep
  | 0x050 => c.stepCtl
  | _ =>
    if 0x100 ≤ off ∧ off < 0x180 ∧ off % 8 = 0 then getDword c.peers ((off - 0x100) / 8)
    else if f ≠ 0 then 0
    else if 0x10000 ≤ off ∧ off < 0x10000 + 64 * 17 ∧ off % 8 = 0 then
      getDword (s.records[fin 17 ((off - 0x10000) / 64)] &&& recordMask) ((off - 0x10000) % 64 / 8)
    else if off = 0x10808 then BitVec.ofNat 64 s.astat
    else if off = 0x10810 then s.cohBase
    else if off = 0x10840 ∨ off = 0x10848 then
      BitVec.ofNat 64 ((List.range 4).map fun i => s.suspect[fin 8 ((off - 0x10840) / 2 + i)] * 2 ^ (16 * i)).sum
    else if off = 0x10880 then s.devFail
    else if 0x11000 ≤ off ∧ off < 0x11000 + 128 * 17 ∧ off % 8 = 0 then
      getDword (s.ctxs[fin 17 ((off - 0x11000) / 128)]).peers ((off - 0x11000) % 128 / 8)
    else 0

/-! ## Host access to device memory and windows (R388, R452, R458) -/

/-- A byte of BAR2 lies in the window of a queue of the enabled function's mask. -/
def State.windowByte (s : State) (f : Fin 17) (a : Nat) : Bool := s.functionOn f && decide (a < 64 * 0x8000) && (s.queues[fin 64 (a / 0x8000)]).ctx == some f

/-- HOST_MEMORY_ACCESS: an access performs on arrival. A read of a poisoned sector returns its data with the poison indication. -/
def execHostMemoryAccess (acc : HostAccess) (s : State) : Res := match acc with
  | .read pa n =>
    if devSize < pa + n then .next { s with resp := s.resp ++ [.aborted] } else
    -- a host read corrects what it can and poisons what it cannot, as any read does (R349)
    let t := (s.scan [(pa, n)]).1
    .next { t with resp := t.resp ++ [.data (t.dev.readBytes pa n) (t.poison.any (touches pa n))] }
  | .write pa bs => if devSize < pa + bs.length then .next { s with resp := s.resp ++ [.aborted] } else .next (s.devStore pa bs)
  | .readWindow f off n =>
    .next { s with resp := s.resp ++ [.data ((List.range n).map fun i => if s.windowByte f (off + i) then s.windows.read1 (off + i) else 0) false] }
  | .writeWindow f off bs =>
    .next { s with windows := s.windows.writeCells ((bs.zipIdx.filter fun b => s.windowByte f (off + b.2)).map fun b => (off + b.2, b.1)) }
  | .readRegister f off => .next { s with resp := s.resp ++ [if s.functionOn f then .register (s.readReg f off) else .aborted] }

/-! ## Device-level failures and reset (R443, R464) -/

/-- TEMPERATURE_TRIP (R24, R443): a compute die, or the B-SRAM die on it, under its number; those of the other dies come as a trip of the die
that they stand on or join (log 188). -/
def execTemperatureTrip (die : Fin 8) (s : State) : Res := .next (s.deviceFailure 1 die.val)

/-- FIRMWARE_FAILURE. -/
def execFirmwareFailure (s : State) : Res := .next (s.deviceFailure 4 0)

/-- DEVICE_RESET: the machine after bring-up, with updated firmware active (R461), its stages measured as the root of trust starts them
(R463); host memory, what the environment has in store, what the host has yet to ask and what it has been answered stay (DESIGN CHOICE,
log 12). -/
def execDeviceReset (s : State) : Res :=
  let image := s.newFirmware.getD s.firmware
  .next { State.reset with
    time := s.time, pkg := s.pkg, host := s.host, inbox := s.inbox, outbox := s.outbox, resp := s.resp, free := s.free + 1, errH := s.errH, errN := s.errN,
    firmware := image, fwStarts := s.fwStarts + 1, measured := Vector.ofFn fun i : Fin 3 => Config.stage i.val image,
    upAt := s.time + 1 + Config.bringUp s.free % 1900000000 }

/-! ## Configuration space (R115, R451, R464) -/

/-- The size of a function's BAR0 or BAR2. -/
def barSize (f : Fin 17) (two : Bool) : Nat := if two then 2 * 2 ^ 20 else if f = 0 then 128 * 2 ^ 10 else 4 * 2 ^ 10

/-- What a configuration read of an enabled function finds: R451's capabilities, TotalVFs and BARs; the rest is not given (log 24). -/
def configRead (f : Fin 17) : CfgReq → Word
  | .dvsec | .hdm | .doe | .sriov => BitVec.ofNat 64 (bit (f == 0))
  | .flr => 1
  | .totalVfs => if f = 0 then 16 else 0
  | .bar64 _ => 1
  | .barSize two => BitVec.ofNat 64 (barSize f two)
  | .other reg => Config.configValue f.val reg.toNat
  | .setVfs _ _ => 0

/-- SR-IOV enables VF1 to VFn. A CLOSED context of a VF that is enabled no longer is FREE (R119). -/
def State.setVfs (s : State) (n : Nat) : State :=
  (List.finRange 17).foldl (fun s f => if n < f.val ∧ (s.ctxs[f]).st = .closed then s.setPartition f Partition.empty .free else s) { s with vfs := n }

/-- CONFIGURATION_REQUEST: answered with Configuration Request Retry Status during bring-up, when it carries no value and does nothing; a VF
that is not enabled answers none (log 166). -/
def execConfigurationRequest (f : Fin 17) (q : CfgReq) (s : State) : Res :=
  if s.time < s.upAt then .next { s with resp := s.resp ++ [.config true 0] }
  else if !s.functionOn f then .next { s with resp := s.resp ++ [.aborted] }
  else
    let s := { s with resp := s.resp ++ [.config false (configRead f q)] }
    .next (match q with
      | .setVfs on n => if f = 0 then s.setVfs (if on then Nat.min n.toNat 16 else 0) else s
      | _ => s)

end Sys2Proof.Machine
end

