-- ==== Sys2Proof/Machine/Manage.lean ====
section
/-! DEFINITION. The side-band port and measurement (R454, R461 to R463): Glangaum commands, PLDM and SPDM. -/
namespace Sys2Proof.Machine

def State.answer (s : State) (r : Resp) : State := { s with resp := s.resp ++ [r] }

/-- READ HEALTH: HEALTH of up to 32 cores. -/
def execReadHealth (cs : List (Fin 256)) (s : State) : Res := .next (s.answer (.health ((cs.take 32).map fun c => (s.core c).health.word)))

/-- READ FAULT LOG: PF0's event ring and DEVFAIL. -/
def execReadFaultLog (s : State) : Res :=
  let k := s.ctxs[(0 : Fin 17)]
  let n := bits k.evCtl.toNat 0 5
  .next (s.answer (.log (if k.evBase = 0 then [] else s.dev.readBytes k.evBase.toNat (32 * 2 ^ n)) s.devFail))

/-- READ STATUS: CTXSTAT of each function and the link states. -/
def execReadStatus (s : State) : Res :=
  .next (s.answer (.status (s.ctxs.toList.map Ctx.stat) (s.ports.toList.map Port.status)))

/-- RESET: an FLR of PF0, or a share in the one in progress. -/
def execResetCmd (s : State) : Res := .next (s.resetPf0 1)

/-- STEP: writes STEPCTL of a function. -/
def execStepCmd (f : Fin 17) (v : BitVec 64) (s : State) : Res := s.reaching f fun s => s.writeStepCtl f v

/-- PLDM for Platform Monitoring: die temperatures and module power, which the environment sets. -/
def execPldmPlatformMonitoring (s : State) : Res := .next ({ s with free := s.free + 1 }.answer (.pldm (Config.sensor s.free)))

/-- PLDM for Firmware Update: the image becomes active at the next device reset. -/
def execPldmFirmwareUpdate (img : List (BitVec 8)) (s : State) : Res := .next ({ s with newFirmware := some img }.answer (.pldm img.length))

/-- An SPDM answer whose bytes the rule does not give: fixed from reset to reset, whatever the transport and the requester (log 22). -/
def State.spdm (s : State) (code : Nat) (args : Nat) : State :=
  s.answer (.spdm (.bytes code (Config.spdm code (args * 2 ^ 8 * 2 ^ (8 * s.firmware.length) + leNat s.firmware))))

/-- GET_VERSION: SPDM 1.3 (R463). -/
def execGetVersion (_t : Transport) (s : State) : Res := .next (s.answer (.spdm (.version 1 3)))
def execGetCapabilities (_t : Transport) (s : State) : Res := .next (s.spdm 0xE1 0)
/-- NEGOTIATE_ALGORITHMS: SHA-384 and ECDSA P-384 (R463). -/
def execNegotiateAlgorithms (_t : Transport) (s : State) : Res := .next (s.answer (.spdm (.algorithms true true)))
def execGetDigests (_t : Transport) (s : State) : Res := .next (s.spdm 0x81 0)
def execGetCertificate (_t : Transport) (off len : BitVec 16) (s : State) : Res := .next (s.spdm 0x82 (off.toNat * 65536 + len.toNat))
def execChallenge (_t : Transport) (nonce : BitVec 256) (s : State) : Res := .next (s.spdm 0x83 nonce.toNat)
/-- GET_MEASUREMENTS of an index; 1 boot firmware, 2 runtime firmware, 3 firmware configuration: the SHA-384 of what was measured before it
ran. -/
def execGetMeasurements (_t : Transport) (idx : BitVec 8) (s : State) : Res :=
  let n := idx.toNat
  .next (if 1 ≤ n ∧ n ≤ 3 then s.answer (.spdm (.measurement n (Config.sha384 s.measured[fin 3 (n - 1)]))) else s.spdm 0xE0 n)

end Sys2Proof.Machine
end

