-- ==== Sys2Proof/Machine/Dispatch.lean ====
section
/-! DEFINITION. What each instruction, operation and event of the table does: one arm per constructor, each one direct call of
its meaning. -/
namespace Sys2Proof.Machine
open Sys2Proof

def exec (i : Instr) (s : State) : Host.Outcome State Fault Refusal :=
  match i with
  | .nop => Sys2Proof.Machine.execNop s
  | .br g o => Sys2Proof.Machine.execBr g o s
  | .brx g a l => Sys2Proof.Machine.execBrx g a l s
  | .call g o => Sys2Proof.Machine.execCall g o s
  | .ret g => Sys2Proof.Machine.execRet g s
  | .loop g e r sf a n => Sys2Proof.Machine.execLoop g e r sf a n s
  | .loopi g e r sf c n => Sys2Proof.Machine.execLoopi g e r sf c n s
  | .lbrk g => Sys2Proof.Machine.execLbrk g s
  | .wait g sf n => Sys2Proof.Machine.execWait g sf n s
  | .realign g d => Sys2Proof.Machine.execRealign g d s
  | .realignP g d => Sys2Proof.Machine.execRealignP g d s
  | .realignJoin g d a => Sys2Proof.Machine.execRealignJoin g d a s
  | .csrr g d c => Sys2Proof.Machine.execCsrr g d c s
  | .csrw g d a im c => Sys2Proof.Machine.execCsrw g d a im c s
  | .csrs g d a im c => Sys2Proof.Machine.execCsrs g d a im c s
  | .csrc g d a im c => Sys2Proof.Machine.execCsrc g d a im c s
  | .fence g sf k => Sys2Proof.Machine.execFence g sf k s
  | .launch g d a q => Sys2Proof.Machine.execLaunch g d a q s
  | .exit g => Sys2Proof.Machine.execExit g s
  | .yield g => Sys2Proof.Machine.execYield g s
  | .trap g n => Sys2Proof.Machine.execTrap g n s
  | .rft g => Sys2Proof.Machine.execRft g s
  | .rftReplay g => Sys2Proof.Machine.execRftReplay g s
  | .rftFault g => Sys2Proof.Machine.execRftFault g s
  | .ckpt g d a b => Sys2Proof.Machine.execCkpt g d a b s
  | .ckptOff g d => Sys2Proof.Machine.execCkptOff g d s
  | .drift g d sf => Sys2Proof.Machine.execDrift g d sf s
  | .cycr g d sf => Sys2Proof.Machine.execCycr g d sf s
  | .strs g d => Sys2Proof.Machine.execStrs g d s
  | .add g d a b l w => Sys2Proof.Machine.execAdd g d a b l w s
  | .sub g d a b l w => Sys2Proof.Machine.execSub g d a b l w s
  | .mul g d a b l w => Sys2Proof.Machine.execMul g d a b l w s
  | .mulh g d a b l w => Sys2Proof.Machine.execMulh g d a b l w s
  | .mulhn g d a b l w => Sys2Proof.Machine.execMulhn g d a b l w s
  | .div g d a b l w => Sys2Proof.Machine.execDiv g d a b l w s
  | .divn g d a b l w => Sys2Proof.Machine.execDivn g d a b l w s
  | .rem g d a b l w => Sys2Proof.Machine.execRem g d a b l w s
  | .remn g d a b l w => Sys2Proof.Machine.execRemn g d a b l w s
  | .and g d a b l w => Sys2Proof.Machine.execAnd g d a b l w s
  | .or g d a b l w => Sys2Proof.Machine.execOr g d a b l w s
  | .xor g d a b l w => Sys2Proof.Machine.execXor g d a b l w s
  | .shl g d a b l w => Sys2Proof.Machine.execShl g d a b l w s
  | .shr g d a b l w => Sys2Proof.Machine.execShr g d a b l w s
  | .sar g d a b l w => Sys2Proof.Machine.execSar g d a b l w s
  | .min g d a b l w => Sys2Proof.Machine.execMin g d a b l w s
  | .max g d a b l w => Sys2Proof.Machine.execMax g d a b l w s
  | .minn g d a b l w => Sys2Proof.Machine.execMinn g d a b l w s
  | .maxn g d a b l w => Sys2Proof.Machine.execMaxn g d a b l w s
  | .addi g d a im => Sys2Proof.Machine.execAddi g d a im s
  | .andi g d a im => Sys2Proof.Machine.execAndi g d a im s
  | .ori g d a im => Sys2Proof.Machine.execOri g d a im s
  | .xori g d a im => Sys2Proof.Machine.execXori g d a im s
  | .shli g d a im => Sys2Proof.Machine.execShli g d a im s
  | .shri g d a im => Sys2Proof.Machine.execShri g d a im s
  | .sari g d a im => Sys2Proof.Machine.execSari g d a im s
  | .lop3 g d a b l => Sys2Proof.Machine.execLop3 g d a b l s
  | .fshl g d a b sf => Sys2Proof.Machine.execFshl g d a b sf s
  | .fshr g d a b sf => Sys2Proof.Machine.execFshr g d a b sf s
  | .clz g d a => Sys2Proof.Machine.execClz g d a s
  | .popc g d a => Sys2Proof.Machine.execPopc g d a s
  | .sel g d a b l w c => Sys2Proof.Machine.execSel g d a b l w c s
  | .movi g d im => Sys2Proof.Machine.execMovi g d im s
  | .movhi g d im => Sys2Proof.Machine.execMovhi g d im s
  | .cmp g d a b l w c => Sys2Proof.Machine.execCmp g d a b l w c s
  | .cmpi g d a c im => Sys2Proof.Machine.execCmpi g d a c im s
  | .plog g d a b l => Sys2Proof.Machine.execPlog g d a b l s
  | .aadd g d a b l w => Sys2Proof.Machine.execAadd g d a b l w s
  | .aaddi g d a im => Sys2Proof.Machine.execAaddi g d a im s
  | .amovToA g d a => Sys2Proof.Machine.execAmovToA g d a s
  | .amovToX g d a => Sys2Proof.Machine.execAmovToX g d a s
  | .ld g d a w sf o => Sys2Proof.Machine.execLd g d a w sf o s
  | .st g d a w o => Sys2Proof.Machine.execSt g d a w o s
  | .lda g d a o => Sys2Proof.Machine.execLda g d a o s
  | .sta g d a o => Sys2Proof.Machine.execSta g d a o s
  | .vadd g d a b k f j sf => Sys2Proof.Machine.execVadd g d a b k f j sf s
  | .vsub g d a b k f j sf => Sys2Proof.Machine.execVsub g d a b k f j sf s
  | .vmul g d a b k f j sf => Sys2Proof.Machine.execVmul g d a b k f j sf s
  | .vfma g d a b c f => Sys2Proof.Machine.execVfma g d a b c f s
  | .vfms g d a b c f => Sys2Proof.Machine.execVfms g d a b c f s
  | .vfnma g d a b c f => Sys2Proof.Machine.execVfnma g d a b c f s
  | .vdiv g d a b k f j => Sys2Proof.Machine.execVdiv g d a b k f j s
  | .vsqrt g d a k f j => Sys2Proof.Machine.execVsqrt g d a k f j s
  | .vrsq g d a k f j => Sys2Proof.Machine.execVrsq g d a k f j s
  | .vrcp g d a k f j => Sys2Proof.Machine.execVrcp g d a k f j s
  | .vmin g d a b k f j => Sys2Proof.Machine.execVmin g d a b k f j s
  | .vmax g d a b k f j => Sys2Proof.Machine.execVmax g d a b k f j s
  | .vabs g d a k f j sf => Sys2Proof.Machine.execVabs g d a k f j sf s
  | .vneg g d a k f j sf => Sys2Proof.Machine.execVneg g d a k f j sf s
  | .vcmp g d a b c f u y => Sys2Proof.Machine.execVcmp g d a b c f u y s
  | .vsel g d a b k f j => Sys2Proof.Machine.execVsel g d a b k f j s
  | .vexp g d a k j => Sys2Proof.Machine.execVexp g d a k j s
  | .vlog g d a k j => Sys2Proof.Machine.execVlog g d a k j s
  | .vsin g d a k j => Sys2Proof.Machine.execVsin g d a k j s
  | .vcos g d a k j => Sys2Proof.Machine.execVcos g d a k j s
  | .vtanh g d a k j => Sys2Proof.Machine.execVtanh g d a k j s
  | .verf g d a k j => Sys2Proof.Machine.execVerf g d a k j s
  | .vsigm g d a k j => Sys2Proof.Machine.execVsigm g d a k j s
  | .vqtz g d a b k => Sys2Proof.Machine.execVqtz g d a b k s
  | .vcvt g d a sf k t => Sys2Proof.Machine.execVcvt g d a sf k t s
  | .vand g d a b k f => Sys2Proof.Machine.execVand g d a b k f s
  | .vor g d a b k f => Sys2Proof.Machine.execVor g d a b k f s
  | .vxor g d a b k f => Sys2Proof.Machine.execVxor g d a b k f s
  | .vlop3 g d a b l => Sys2Proof.Machine.execVlop3 g d a b l s
  | .vshl g d a b k f => Sys2Proof.Machine.execVshl g d a b k f s
  | .vshr g d a b k f => Sys2Proof.Machine.execVshr g d a b k f s
  | .vsar g d a b k f => Sys2Proof.Machine.execVsar g d a b k f s
  | .vfshl g d a b c f => Sys2Proof.Machine.execVfshl g d a b c f s
  | .vfshr g d a b c f => Sys2Proof.Machine.execVfshr g d a b c f s
  | .vpopc g d a k f => Sys2Proof.Machine.execVpopc g d a k f s
  | .vclz g d a k f => Sys2Proof.Machine.execVclz g d a k f s
  | .vmov g d a k => Sys2Proof.Machine.execVmov g d a k s
  | .vmovL g d q r k t => Sys2Proof.Machine.execVmovL g d q r k t s
  | .vbrow g d a n k => Sys2Proof.Machine.execVbrow g d a n k s
  | .vbcol g d a n k h => Sys2Proof.Machine.execVbcol g d a n k h s
  | .vrotr g d a n k h => Sys2Proof.Machine.execVrotr g d a n k h s
  | .vrotc g d a n k => Sys2Proof.Machine.execVrotc g d a n k s
  | .vredr g d a o k f j sf => Sys2Proof.Machine.execVredr g d a o k f j sf s
  | .vredc g d a o k f j sf => Sys2Proof.Machine.execVredc g d a o k f j sf s
  | .vtrn g d a k => Sys2Proof.Machine.execVtrn g d a k s
  | .vperm g d a b k => Sys2Proof.Machine.execVperm g d a b k s
  | .viota g d k f => Sys2Proof.Machine.execViota g d k f s
  | .vins g d a b f => Sys2Proof.Machine.execVins g d a b f s
  | .vext g d a b f u => Sys2Proof.Machine.execVext g d a b f u s
  | .vbmax g d a f t => Sys2Proof.Machine.execVbmax g d a f t s
  | .vqnt g d a b sf p f t => Sys2Proof.Machine.execVqnt g d a b sf p f t s
  | .vdqnt g d a b p f sf => Sys2Proof.Machine.execVdqnt g d a b p f sf s
  | .vld g d a k m o => Sys2Proof.Machine.execVld g d a k m o s
  | .vst g d a o => Sys2Proof.Machine.execVst g d a o s
  | .vldx g d sf b k => Sys2Proof.Machine.execVldx g d sf b k s
  | .vstx g d sf b k => Sys2Proof.Machine.execVstx g d sf b k s
  | .klog g d a b l m => Sys2Proof.Machine.execKlog g d a b l m s
  | .kmovToK g d a r => Sys2Proof.Machine.execKmovToK g d a r s
  | .kmovToX g d a r => Sys2Proof.Machine.execKmovToX g d a r s
  | .vrng g d a b k => Sys2Proof.Machine.execVrng g d a b k s
  | .vcadd g d a b k => Sys2Proof.Machine.execVcadd g d a b k s
  | .vcaddX g d a b k => Sys2Proof.Machine.execVcaddX g d a b k s
  | .jseed g d a b k f sf => Sys2Proof.Machine.execJseed g d a b k f sf s
  | .jext g d a n k f c => Sys2Proof.Machine.execJext g d a n k f c s
  | .jcoefDiff g d a k f => Sys2Proof.Machine.execJcoefDiff g d a k f s
  | .jcoefTrunc g d a m k f => Sys2Proof.Machine.execJcoefTrunc g d a m k f s
  | .jcoefRescale g d a b k f => Sys2Proof.Machine.execJcoefRescale g d a b k f s
  | .mstrm g d a f => Sys2Proof.Machine.execMstrm g d a f s
  | .mstrmBnd g d a => Sys2Proof.Machine.execMstrmBnd g d a s
  | .mstrmRbnd g d a => Sys2Proof.Machine.execMstrmRbnd g d a s
  | .mzero g t im a => Sys2Proof.Machine.execMzero g t im a s
  | .mma g t a b j r => Sys2Proof.Machine.execMma g t a b j r s
  | .mcell g t a n => Sys2Proof.Machine.execMcell g t a n s
  | .mepi g t o b c r e l => Sys2Proof.Machine.execMepi g t o b c r e l s
  | .msig g d t sf => Sys2Proof.Machine.execMsig g d t sf s
  | .mroute g d a => Sys2Proof.Machine.execMroute g d a s
  | .mrouteRd g d a => Sys2Proof.Machine.execMrouteRd g d a s
  | .cpy g d a b z sf c => Sys2Proof.Machine.execCpy g d a b z sf c s
  | .cpy2 g d a b z c => Sys2Proof.Machine.execCpy2 g d a b z c s
  | .cpyb g d a b z c => Sys2Proof.Machine.execCpyb g d a b z c s
  | .cpyq g d a b z c => Sys2Proof.Machine.execCpyq g d a b z c s
  | .cpyh g d a b z h c => Sys2Proof.Machine.execCpyh g d a b z h c s
  | .binit g d a sf => Sys2Proof.Machine.execBinit g d a sf s
  | .barv g a n => Sys2Proof.Machine.execBarv g a n s
  | .bwait g d a => Sys2Proof.Machine.execBwait g d a s
  | .btest g d a => Sys2Proof.Machine.execBtest g d a s
  | .bexp g d a => Sys2Proof.Machine.execBexp g d a s
  | .amo g d a b sf z o => Sys2Proof.Machine.execAmo g d a b sf z o s
  | .acell g a b sf => Sys2Proof.Machine.execAcell g a b sf s
  | .acrd g d a sf c => Sys2Proof.Machine.execAcrd g d a sf c s
  | .send g d a => Sys2Proof.Machine.execSend g d a s
  | .sendV g d a q r => Sys2Proof.Machine.execSendV g d a q r s
  | .recv g d a sf => Sys2Proof.Machine.execRecv g d a sf s
  | .recvV g d a q r => Sys2Proof.Machine.execRecvV g d a q r s
  | .recvDrop g a => Sys2Proof.Machine.execRecvDrop g a s
  | .lstat g d a => Sys2Proof.Machine.execLstat g d a s
  | .lstatPort g d a => Sys2Proof.Machine.execLstatPort g d a s
  | .ltime g d a r => Sys2Proof.Machine.execLtime g d a r s
  | .coll g e => Sys2Proof.Machine.execColl g e s
  | .cdrpLd g a e => Sys2Proof.Machine.execCdrpLd g a e s
  | .cdrpDrop g e => Sys2Proof.Machine.execCdrpDrop g e s
  | .cdrpSt g d e => Sys2Proof.Machine.execCdrpSt g d e s
  | .bundleIssue c j => Sys2Proof.Machine.execBundleIssue c j s
  | .freezeRestart k g => Sys2Proof.Machine.execFreezeRestart k g s
  | .strandSelect c j => Sys2Proof.Machine.execStrandSelect c j s
  | .bell => Sys2Proof.Machine.execBell s
  | .recordPromotion k => Sys2Proof.Machine.execRecordPromotion k s
  | .groupRelease k g => Sys2Proof.Machine.execGroupRelease k g s
  | .preSet k g => Sys2Proof.Machine.execPreSet k g s
  | .preemptionSave k g => Sys2Proof.Machine.execPreemptionSave k g s
  | .saveComplete k g => Sys2Proof.Machine.execSaveComplete k g s
  | .groupRetire k g => Sys2Proof.Machine.execGroupRetire k g s
  | .deadline k g => Sys2Proof.Machine.execDeadline k g s
  | .joinComplete k g => Sys2Proof.Machine.execJoinComplete k g s
  | .joinTimeout k g => Sys2Proof.Machine.execJoinTimeout k g s
  | .realignResume c j => Sys2Proof.Machine.execRealignResume c j s
  | .realignMismatch k g => Sys2Proof.Machine.execRealignMismatch k g s
  | .commandStart id => Sys2Proof.Machine.execCommandStart id s
  | .mmaReady id => Sys2Proof.Machine.execMmaReady id s
  | .epilogueSnapshot id => Sys2Proof.Machine.execEpilogueSnapshot id s
  | .outputFolded id => Sys2Proof.Machine.execOutputFolded id s
  | .verdict id => Sys2Proof.Machine.execVerdict id s
  | .arbitrationEnd c => Sys2Proof.Machine.execArbitrationEnd c s
  | .residueArbitrationEnd c => Sys2Proof.Machine.execResidueArbitrationEnd c s
  | .copyRead id => Sys2Proof.Machine.execCopyRead id s
  | .copyPerform id => Sys2Proof.Machine.execCopyPerform id s
  | .copyResendRead id => Sys2Proof.Machine.execCopyResendRead id s
  | .copyResendLand id => Sys2Proof.Machine.execCopyResendLand id s
  | .cpyhPerform id => Sys2Proof.Machine.execCpyhPerform id s
  | .barrierDue c off => Sys2Proof.Machine.execBarrierDue c off s
  | .walkComplete id => Sys2Proof.Machine.execWalkComplete id s
  | .correctionDelivery id => Sys2Proof.Machine.execCorrectionDelivery id s
  | .amoPerform id => Sys2Proof.Machine.execAmoPerform id s
  | .hostAtomicCompletion id => Sys2Proof.Machine.execHostAtomicCompletion id s
  | .acellPerform id => Sys2Proof.Machine.execAcellPerform id s
  | .acrdRead id => Sys2Proof.Machine.execAcrdRead id s
  | .checkpointMark f => Sys2Proof.Machine.execCheckpointMark f s
  | .pairCompare k => Sys2Proof.Machine.execPairCompare k s
  | .flitArrival p fl fec => Sys2Proof.Machine.execFlitArrival p fl fec s
  | .flitLanding fl => Sys2Proof.Machine.execFlitLanding fl s
  | .flitMissing c route => Sys2Proof.Machine.execFlitMissing c route s
  | .beacon p b => Sys2Proof.Machine.execBeacon p b s
  | .portEnable p => Sys2Proof.Machine.execPortEnable p s
  | .trainingComplete p lanes => Sys2Proof.Machine.execTrainingComplete p lanes s
  | .trainingFail p => Sys2Proof.Machine.execTrainingFail p s
  | .alignComplete p => Sys2Proof.Machine.execAlignComplete p s
  | .linkDegrade l => Sys2Proof.Machine.execLinkDegrade l s
  | .retrain p => Sys2Proof.Machine.execRetrain p s
  | .portDisable p => Sys2Proof.Machine.execPortDisable p s
  | .signalLoss p => Sys2Proof.Machine.execSignalLoss p s
  | .portReset p => Sys2Proof.Machine.execPortReset p s
  | .driftStep => Sys2Proof.Machine.execDriftStep s
  | .collectiveStep c e im => Sys2Proof.Machine.execCollectiveStep c e im s
  | .finStep c e im => Sys2Proof.Machine.execFinStep c e im s
  | .chunkApply ch => Sys2Proof.Machine.execChunkApply ch s
  | .ackArrival c e im => Sys2Proof.Machine.execAckArrival c e im s
  | .ackTimeout c e im => Sys2Proof.Machine.execAckTimeout c e im s
  | .instanceComplete c e => Sys2Proof.Machine.execInstanceComplete c e s
  | .stepComplete k g => Sys2Proof.Machine.execStepComplete k g s
  | .flr f => Sys2Proof.Machine.execFlr f s
  | .hostRequestAbandon f => Sys2Proof.Machine.execHostRequestAbandon f s
  | .drainComplete f => Sys2Proof.Machine.execDrainComplete f s
  | .scrubComplete f => Sys2Proof.Machine.execScrubComplete f s
  | .invalComplete f => Sys2Proof.Machine.execInvalComplete f s
  | .flrPf0 => Sys2Proof.Machine.execFlrPf0 s
  | .deviceReset => Sys2Proof.Machine.execDeviceReset s
  | .configurationRequest f q => Sys2Proof.Machine.execConfigurationRequest f q s
  | .temperatureTrip die => Sys2Proof.Machine.execTemperatureTrip die s
  | .firmwareFailure => Sys2Proof.Machine.execFirmwareFailure s
  | .taggedReturn tag id => Sys2Proof.Machine.execTaggedReturn tag id s
  | .openCtx f => Sys2Proof.Machine.execOpenCtx f s
  | .closeCtx f => Sys2Proof.Machine.execCloseCtx f s
  | .queueStart f q => Sys2Proof.Machine.execQueueStart f q s
  | .queueStop f q => Sys2Proof.Machine.execQueueStop f q s
  | .queueReset f q => Sys2Proof.Machine.execQueueReset f q s
  | .inval f page count => Sys2Proof.Machine.execInval f page count s
  | .rbreq f => Sys2Proof.Machine.execRbreq f s
  | .stepMode f grp on => Sys2Proof.Machine.execStepMode f grp on s
  | .singleStep f grp j => Sys2Proof.Machine.execSingleStep f grp j s
  | .assign f => Sys2Proof.Machine.execAssign f s
  | .withdraw f => Sys2Proof.Machine.execWithdraw f s
  | .hclr im mask => Sys2Proof.Machine.execHclr im mask s
  | .registerWrite f off v => Sys2Proof.Machine.execRegisterWrite f off v s
  | .hostMemoryAccess acc => Sys2Proof.Machine.execHostMemoryAccess acc s
  | .readHealth cs => Sys2Proof.Machine.execReadHealth cs s
  | .readFaultLog => Sys2Proof.Machine.execReadFaultLog s
  | .readStatus => Sys2Proof.Machine.execReadStatus s
  | .resetCmd => Sys2Proof.Machine.execResetCmd s
  | .stepCmd f v => Sys2Proof.Machine.execStepCmd f v s
  | .pldmPlatformMonitoring => Sys2Proof.Machine.execPldmPlatformMonitoring s
  | .pldmFirmwareUpdate img => Sys2Proof.Machine.execPldmFirmwareUpdate img s
  | .getVersion t => Sys2Proof.Machine.execGetVersion t s
  | .getCapabilities t => Sys2Proof.Machine.execGetCapabilities t s
  | .negotiateAlgorithms t => Sys2Proof.Machine.execNegotiateAlgorithms t s
  | .getDigests t => Sys2Proof.Machine.execGetDigests t s
  | .getCertificate t off len => Sys2Proof.Machine.execGetCertificate t off len s
  | .challenge t nonce => Sys2Proof.Machine.execChallenge t nonce s
  | .getMeasurements t idx => Sys2Proof.Machine.execGetMeasurements t idx s
  | .forcedClose f => Sys2Proof.Machine.execForcedClose f s

end Sys2Proof.Machine
end

