-- ==== Sys2Proof/Machine/Cycle.lean ====
section
/-! DEFINITION. The order of a cycle (R75, R131, R156 to R171, R307, R362): what the machine does next, and how its clocks move when
the cycle ends. Within a cycle come the inputs from outside; what becomes visible and is judged; the work of a bell; the faults of a
TT; the issue of bundles, core by core; engine starts, reads, writes, barrier events and atomics; the ends of groups and kernels. -/
namespace Sys2Proof.Machine

/-- The next thing that the machine does. -/
inductive Work where
  /-- an input from outside -/
  | input (i : Instr)
  /-- an event whose condition holds -/
  | event (i : Instr)
  /-- an item of the agenda -/
  | item (it : Item)
  /-- the cycle ends -/
  | cycle
deriving DecidableEq, Repr

/-- What comes from outside: the host, the side band, the links, the environment. A beacon comes as a flit (R392). -/
def Instr.isInput : Instr → Bool
  | .openCtx _ | .closeCtx _ | .forcedClose _ | .flr _ | .flrPf0 | .queueStart _ _ | .queueStop _ _ | .queueReset _ _ | .inval _ _ _ | .rbreq _
  | .stepMode _ _ _ | .singleStep _ _ _ | .assign _ | .withdraw _ | .hclr _ _ | .registerWrite _ _ _ | .hostMemoryAccess _ | .temperatureTrip _
  | .firmwareFailure | .deviceReset | .configurationRequest _ _ | .readHealth _ | .readFaultLog | .readStatus | .resetCmd | .stepCmd _ _
  | .pldmPlatformMonitoring | .pldmFirmwareUpdate _ | .getVersion _ | .getCapabilities _ | .negotiateAlgorithms _ | .getDigests _
  | .getCertificate _ _ _ | .challenge _ _ | .getMeasurements _ _ | .flitArrival _ _ _ | .flitMissing _ _ | .ackArrival _ _ _ | .portEnable _
  | .trainingComplete _ _ | .trainingFail _ | .linkDegrade _ | .retrain _ | .portDisable _ | .signalLoss _ | .portReset _ | .taggedReturn _ _
  | .joinComplete _ _ => true
  | _ => false

/-- An input can come in this state: an acknowledgement from outside is for a chunk that has gone to another package (R417). -/
def State.accepts (s : State) (i : Instr) : Bool := Instr.isInput i && match i with
  | .ackArrival c e n => ((s.core c).entry e).kept.any fun r => r.step == n && !rtLocal r.route
  | _ => true

/-! ## The agenda -/

/-- A write on SPM of a member whose output is DISPUTED, due at the TT of the verdict: it performs with the output's own in the mender's
release cycle, in which the member resumes at that TT, so that their order is the undisputed one (R307, R318; log 209). -/
def State.waitsForRelease (s : State) (i : Item) : Bool :=
  let on (p : Place) : Bool := match p with
    | .spm d => (s.core d).causes.contains .dispute
    | _ => false
  decide (8 ≤ i.phase) && match i.act with
    | .eff c _ _ _ e => e.isWrite && on (.spm c)
    | .spmWrite c _ | .land c _ _ | .combine c _ _ _ => on (.spm c)
    | .ev (.copyPerform id) | .ev (.amoPerform id) => (match s.cmd? id with
      | some { body := .copy cp, .. } => on (placeOf cp.dst)
      | some { body := .amo a, .. } => on a.target.place
      | _ => false)
    | _ => false

/-- An item's turn has come. A return whose value has not arrived waits for it (R349). -/
def State.isDue (s : State) (i : Item) : Bool := decide (i.due ≤ s.now i.clk) && !s.waitsForRelease i && match i.act with
  | .eff _ _ _ _ (.xret _ _ _ none) | .eff _ _ _ _ (.acflags _ none) => false
  | _ => true

/-- Items of a cycle go by phase, then issuing core, then order number. -/
def Item.before (a b : Item) : Bool :=
  decide (a.phase < b.phase) || (a.phase == b.phase && (decide (a.core < b.core) || (a.core == b.core && decide (a.seq < b.seq))))

/-- The first due item of some phases, with the agenda that is left. -/
def State.firstDue (s : State) (phases : Nat → Bool) : List Item → Option (Item × List Item)
  | [] => none
  | i :: r => match s.firstDue phases r with
    | none => if phases i.phase && s.isDue i then some (i, r) else none
    | some (m, l) => if phases i.phase && s.isDue i && !m.before i then some (i, r) else some (m, i :: l)

/-! ## What a condition brings about -/

/-- Every group of the package with its kernel and place. -/
def State.allGroups (s : State) : List (Kernel × Nat × Group) := s.kernels.flatMap fun k => k.groups.zipIdx.map fun g => (k, g.2, g.1)

/-- The work of a bell: what waits for it, the queue unit's bell, and the release of groups that are ready then (R156, R158). -/
def State.bellWork (s : State) : Option Instr :=
  if !s.inBell then none else
  let realign : Option Instr := (List.finRange 256).findSome? fun c =>
    if (s.core c).owner.isNone then none else ((List.finRange 4).find? (s.realignDue c)).map fun j => .realignResume c j
  let save : Option Instr := s.allGroups.findSome? fun g => if s.saveReady g.1 g.2.2 then some (.preemptionSave g.1.kid g.2.1) else none
  let mark : Option Instr := ((List.finRange 17).find? fun f => !(s.ctxs[f]).rolling && (s.ctxs[f]).ckpts.any fun r => r.due s.cyc).map .checkpointMark
  let free : Option Instr := s.allGroups.findSome? fun g =>
    if g.2.2.st == .forming && decide (g.2.2.saveEnd ≤ s.time) && g.1.fault.isNone then some (.groupRelease g.1.kid g.2.1) else none
  if s.belled then free else some (((realign.orElse fun _ => mark).orElse fun _ => save).getD .bell)

/-- Group faults of this TT (R167, R170, R171). -/
def State.groupWork (s : State) : Option Instr := s.allGroups.findSome? fun g =>
  if s.overBudget g.1 g.2.2 then some (.deadline g.1.kid g.2.1)
  else if s.joinLate g.1 g.2.2 then some (.joinTimeout g.1.kid g.2.1)
  else if s.mismatched g.1 g.2.2 then some (.realignMismatch g.1.kid g.2.1)
  else none

/-- The issue phase from a list of cores on. -/
def State.issueFrom : List (Fin 256) → State → State × Option Instr
  | [], s => ({ s with iss := 256 }, none)
  | c :: r, s => match s.coreTurn c with
    | (t, some i) => ({ t with iss := c.val + 1 }, some i)
    | (t, none) => State.issueFrom r t

/-- What the end of a cycle brings about: barriers whose DUE has come, retirements, comparisons, ends of steps and drains, links. -/
def State.endWork (s : State) : Option Instr :=
  let bar : Option Instr := (List.finRange 256).findSome? fun c => (s.dueBar c).map fun a => .barrierDue c a
  let retire : Option Instr := s.allGroups.findSome? fun g => if s.retirable g.1 g.2.2 then some (.groupRetire g.1.kid g.2.1) else none
  let pair : Option Instr := s.kernels.findSome? fun k =>
    if k.record.pair && k.st == .running && k.fault.isNone && !k.groups.isEmpty && k.groups.all fun g => g.st == .retired
    then some (.pairCompare k.kid) else none
  let step : Option Instr := s.allGroups.findSome? fun g => match g.2.2.step with
    | .waiting _ _ => if g.1.fault.isNone && s.stepDone g.1.kid g.2.1 g.2.2 then some (.stepComplete g.1.kid g.2.1) else none
    | _ => none
  let drain : Option Instr := ((List.finRange 17).find? fun f => (s.ctxs[f]).st == .quiescing && !s.outstanding f).map .drainComplete
  ((((bar.orElse fun _ => retire).orElse fun _ => pair).orElse fun _ => step).orElse fun _ => drain).orElse fun _ => s.portDue

/-- The next work of this cycle, with the state that has taken it up. What changes the count of CYC comes before the inputs (R395, R410). -/
def State.nextWork (s : State) : State × Work :=
  match s.firstDue (· == 0) s.agenda with
  | some (i, rest) => ({ s with agenda := rest }, .item i)
  | none => match pick (fun x : Nat × Instr => decide (x.1 ≤ s.time)) s.inbox with
  | some (x, rest) => ({ s with inbox := rest }, .input x.2)
  | none => match s.firstDue (fun p => decide (p < 5)) s.agenda with
    | some (i, rest) => ({ s with agenda := rest }, .item i)
    | none => match s.bellWork.orElse fun _ => s.groupWork with
      | some i => (s, .event i)
      | none => match State.issueFrom ((List.finRange 256).drop s.iss) s with
        | (t, some i) => (t, .event i)
        | (t, none) => match t.firstDue (fun _ => true) t.agenda with
          | some (i, rest) => ({ t with agenda := rest }, .item i)
          | none => match t.endWork with
            | some i => (t, .event i)
            | none => (t, .cycle)

/-! ## The end of a cycle -/

/-- What a core's clocks do at the end of a cycle: whether TT, the clock of its strands and that of its engines advance, and whether
SLIP counts the cycle. -/
structure Beat where
  tt   : Bool
  lt   : Bool
  eng  : Bool
  slip : Bool
deriving DecidableEq, Repr

/-- The member on core c stands in a REALIGN or a join at the TT after its issue (R170, R171). -/
def State.inRealign (s : State) (c : Fin 256) : Bool := match (s.strand c 0).wait with
  | .realign _ _ _ t | .join _ _ _ t => decide (t < (s.core c).tt)
  | _ => false

/-- Member c has issued its bundle of a TIMED step or has none due in it: its strand does not run, waits, or comes later (R151). -/
def State.stepped (s : State) (c : Fin 256) (did : List (Fin 256 × Nat)) : Bool :=
  let t := s.strand c 0
  did.any (fun d => d.1 == c) || t.life != .live || t.trapped || t.wait != .none ||
    decide (t.lt < t.earliest (if t.bad.isSome then 0 else ((s.core c).bundle t t.pc.toNat).dly))

/-- The step in progress is over but for its commands: every member of a TIMED group has had its turn, or a PACED group has issued its
bundle. -/
def State.stepOver (s : State) (k : Kernel) (g : Group) : Bool := match g.step with
  | .stepping _ did => if k.record.timed then g.members.all fun c => s.stepped c did else !did.isEmpty
  | _ => false

/-- How the clocks of core c move (R151, R157, R161, R166, R170, R447). A slip at issue holds the counts of register results, also in the
wait of R434 for fewer than 127 of them (log 191). -/
def State.beat (s : State) (c : Fin 256) : Beat := match s.owner? c with
  | none => { tt := false, lt := true, eng := true, slip := false }
  | some (k, g) =>
    if g.step != .off then
      if k.record.timed then { tt := s.stepOver k g, lt := s.stepOver k g, eng := true, slip := false }
      else { tt := false, lt := true, eng := true, slip := false }
    else if !k.record.timed then { tt := true, lt := true, eng := true, slip := false }
    else if (s.strand c 0).isSaving then { tt := false, lt := true, eng := true, slip := false }
    else if !(s.core c).causes.isEmpty then
      { tt := false, lt := (s.core c).causes.contains .trap, eng := true, slip := !s.inRealign c }
    else if s.inRealign c then { tt := false, lt := false, eng := false, slip := false }
    else if s.atFreeze c then { tt := false, lt := false, eng := false, slip := true }
    else { tt := true, lt := true, eng := true, slip := false }

/-- A core at the end of a cycle. The slip of a trap ends after the cycle in which its strand resumes (R159, R436). -/
def Core.beat (k : Core) (b : Beat) : Core :=
  { k with
    tt := k.tt + bit b.tt, eng := k.eng + bit b.eng, slip := k.slip + bit b.slip,
    strands := each k.strands fun t => { t with lt := t.lt + bit (b.lt || t.trapped || t.returning.isSome) },
    causes := if k.strands.toList.any (fun t => t.trapped || t.returning.isSome) then k.causes else k.causes.filter (· != .trap) }

/-- The operations that a TIMED step has issued run to completion while TT stands: they go on by the raw clock (R151). -/
def State.runStepped (s : State) (g : Group) (i : Item) : Item := match i.act with
  | .eff c _ _ _ e => if e.isWork && g.members.contains c && i.clk.of c then s.toTime i else i
  | _ => i

/-- A step whose bundles have issued waits for their commands. -/
def State.endSteps (s : State) : State :=
  s.allGroups.foldl (fun s g => if s.stepOver g.1 g.2.2 then
      { s with agenda := if g.1.record.timed then s.agenda.map (s.runStepped g.2.2) else s.agenda }.onGroup g.1.kid g.2.1 fun x => match x.step with
    | .stepping j did => { x with step := .waiting j did, stepped := x.stepped + bit g.1.record.timed }
    | _ => x else s) s

/-- Strands that wait at a barrier that has become POISONED trap (R337). -/
def State.trapWaits (s : State) : State :=
  (List.finRange 256).foldl (fun s c => if (s.core c).owner.isNone then s else
    (List.finRange 4).foldl (fun s j => match (s.strand c j).bwait with
      | some a => if (s.strand c j).life == .live && ((s.core c).bar a).state == .poisoned then s.trapWait c j else s
      | none => s) s) s

/-- What a cycle settles at its end: waits at POISONED barriers, faulted kernels whose drain is complete, dependencies, rollbacks, and
the restart of frozen groups. -/
def State.settleCycle (s : State) : State := s.trapWaits.haltKernels.closeKernels.settleDeps.finishRollbacks.fixFreezes

/-- The clocks move on, and the memory errors of the next cycle strike. -/
def State.tick (s : State) : State :=
  let t := s.endSteps
  State.strikes { t with time := t.time + 1, cyc := t.cyc + 1, belled := false, noBell := false, iss := 0, ports := if t.belled then each t.ports Port.interval else t.ports, cores := Vector.ofFn fun c => (t.core c).beat (s.beat c) }

/-- Does some work: an input or event has its meaning, an item takes effect. An event whose condition does not hold changes nothing, and
so does an input that cannot come in this state (log 140). An entry of the inbox that is no input at all stops the machine. -/
def State.doWork (s : State) : Work → Res
  | .input i => if !Instr.isInput i then .fault .notEnabled else if s.accepts i then exec i s else .next s
  | .event i => exec i s
  | .item it => match it.act with
    | .ev i => (match exec i { s with turn := it.seq } with
      | .next t => .next t
      | _ => .next s)
    | _ => .next (({ s with turn := it.seq }).applyAct it)
  | .cycle => .next s.settleCycle.tick

end Sys2Proof.Machine
end

