-- ==== Sys2Proof/Machine/Fetch.lean ====
section
/-! DEFINITION. A machine that stands before one instruction (R65, R73): the package after reset has no program, and one comes to run
only by way of the host (R131, R137, R158). Here the words and the strand are put in place directly. -/
namespace Sys2Proof.Machine

/-- A record of a PACED kernel of one core and one strand (R143). -/
def fetchRecord : Record :=
  { image := 0, args := 0, deps := [], pair := false, strands := 0, timed := false, dies := 0, groups := 1, cores := 1, preemptible := false,
    cls := 0, budget := 0, fte := 0, jord := 0, vregs := 32, prebound := 0, pageset := 0, doneVA := 0, doneVal := 0, fault := 0, save := 0,
    bad := false }

/-- A running kernel with core 0 as its only member. -/
def fetchKernel (kid : Nat) : Kernel :=
  { kid, ctx := 1, queue := 0, seq := 1, st := .running, record := fetchRecord, cls := 0, rises := 0,
    groups := [{ index := 0, replica := 0, members := [0], st := .released, level := 2, count := 1, offset := 0, freeze := none, pre := none,
                 step := .off, stepped := 0, realigns := [], saveEnd := 0, resumes := false, llats := [] }],
    victims := [], reserved := [], held := [], saved := [], bars := [], bsram := 0, first := none, fault := none, faultEarly := false, halted := false, rolls := false, closed := false }

/-- The position that a bare word goes to: its class's, and 0 where the decoder refuses it. -/
def fetchPos (w : Nat) : Fin 4 := match decodeAny w with
  | some (p, _) => p
  | none => 0

/-- Core 0 with the word in the bundle at byte address 0, and strand 0 before it. -/
def Core.fetching (k : Core) (kid w : Nat) : Core :=
  { k with
    istore := (k.istore.writeNat 0 16 0).writeNat (4 * (fetchPos w).val) 4 w, text := Nat.max k.text 16, vregs := 32,
    owner := some { kid, gpos := 0, index := 0 }, gmem := 0x2000001000000, sel := 0, selFrom := 0, mender := none, stopTill := 0, causes := [],
    strands := upd k.strands 0 fun t => { t with
      life := .live, trapped := false, pc := 0, due1 := none, due2 := none, base := t.lt, fenceW := 0, wait := .none, bad := none,
      bwait := none, yieldAt := none, walks := [], replay := [], pending := [] } }

/-- The state with the word where core 0's strand 0 fetches next, and nothing else to do before it in this cycle. -/
def State.fetching (s : State) (w : Nat) : State :=
  { s with
    kernels := [fetchKernel s.nextKid], nextKid := s.nextKid + 1, inbox := [], agenda := [], belled := true, noBell := false, iss := 0,
    cores := upd s.cores 0 fun k => k.fetching s.nextKid w }

end Sys2Proof.Machine
end

