-- ==== Sys2Proof/Machine/Step.lean ====
section
/-! DEFINITION. The step: the machine's next work in the order of a cycle, and its effect. -/
namespace Sys2Proof.Machine

/-- One step of the package: one piece of the work of a cycle (log 8). -/
def step (s : State) : Host.Outcome State Fault Refusal := s.nextWork.1.doWork s.nextWork.2

/-- The state that runs an instruction word next (a slot has 32 bits; log 6). -/
def State.withFetchWord (s : State) (_nbits w : Nat) : State := s.fetching w

end Sys2Proof.Machine
end

