-- ==== Sys2Proof/Safety.lean ====
section
/-! DEFINITION. Runs and what counts as a safe one: a run that meets no fault and no refusal. -/
namespace Sys2Proof.Machine

/-- The state after n steps, when each of them answers a next state. -/
def run : Nat → State → Option State
  | 0, s => some s
  | n + 1, s => match step s with
    | .next t => run n t
    | _ => none

/-- A run of n steps that goes on. -/
def SafeFor (n : Nat) (s : State) : Prop := (run n s).isSome = true

/-- s' comes from s in some number of steps. -/
def Reaches (s s' : State) : Prop := ∃ n, run n s = some s'

/-- A property that every step keeps. -/
def Invariant (p : State → Prop) : Prop := ∀ s s', p s → step s = .next s' → p s'

end Sys2Proof.Machine
end

