-- ==== Sys2Proof/Certificates/Slice0/Obligations.lean ====
section
/-! DEFINITION. What is claimed of the model, from the spec's numbered rules: for every instruction and event where it completes and what
it leaves, what each class of state keeps, where an instruction traps or waits, that decoding and encoding agree, and an invariant
that every step keeps. The words that several statements share stand in Sys2Proof.Claims. -/

/-! ## Words of the statements -/

namespace Sys2Proof.Claims
open Sys2Proof.Machine

/-- The state s with one effect of the slot at hand put on the agenda, n cycles of its strand from now and in a phase of that
cycle; every other field is that of s, but for the next order number. -/
def due (s : State) (n phase : Nat) (e : Eff) : State :=
  { s with
    agenda := s.agenda ++ [{ clk := .strand s.cur.core s.cur.strand, due := (s.strand s.cur.core s.cur.strand).lt + n, phase,
                             core := s.cur.core.val, seq := s.seq, act := .eff s.cur.core s.cur.strand s.cur.pc s.cur.pos e }],
    seq := s.seq + 1 }

/-- The predicate Pg of the strand that issues holds (R67). -/
def on (s : State) (g : BitVec 3) : Prop := (s.strand s.cur.core s.cur.strand).rp g = true

/-- Xr and Ar of the strand that issues. -/
def x (s : State) (r : BitVec 5) : Word := (s.strand s.cur.core s.cur.strand).rx r
def a (s : State) (r : BitVec 4) : Word := (s.strand s.cur.core s.cur.strand).ra r

/-- The instruction answers a next state in which Xd := v is due n cycles on, and nothing else has changed; for X0 nothing has. -/
def GivesX (i : Instr) (s : State) (n : Nat) (d : BitVec 5) (v : Word) : Prop :=
  exec i s = .next (if d = 0 then s else due s n 2 (.x d v))

/-- The same for an address register and for a predicate; P0 takes no write. -/
def GivesA (i : Instr) (s : State) (n : Nat) (d : BitVec 4) (v : Word) : Prop := exec i s = .next (due s n 2 (.a d v))
def GivesP (i : Instr) (s : State) (n : Nat) (d : BitVec 3) (b : Bool) : Prop :=
  exec i s = .next (if d = 0 then s else due s n 2 (.p d b))

/-- The instruction raises a strand-class cause at its issue, in a bundle that no handler issued and in which no lower slot has
trapped: the trap record is written and the handler entered, and nothing is put on the agenda (R429, R431, R436). -/
def Raises (i : Instr) (s : State) (cause : Nat) (taddr : Word) : Prop :=
  s.cur.nested = false → s.cur.trap = none → ¬(cause = 7 ∧ s.stepping s.cur.core = true) →
    exec i s = .next ((s.enterTrap s.cur.core s.cur.strand { cause, taddr, coef := none } s.cur.pc (s.cur.pc + 16) s.cur.pos).onCur
      fun k => { k with trap := some { cause, taddr, coef := none } })

/-- v is the second source of an RRR instruction (R203): Xb, or word w of the head of landing queue Lb. -/
def Second (s : State) (b : BitVec 5) (l : BitVec 1) (w : BitVec 3) (v : Word) : Prop :=
  (l = 0 ∧ v = x s b) ∨
  (l = 1 ∧ ∃ f r, ((s.core s.cur.core).landq[fin 8 b.toNat]).flits = f :: r ∧ v = f.extractLsb' (64 * w.toNat) 64)

/-- The full immediate of a field of n bits, with the five lent bits above it where the bundle has a header (R70), as a natural
number and sign-extended to 64 bits. -/
def immN (s : State) (n v : Nat) : Nat := match s.cur.ext with
  | none => v
  | some e => e.toNat * 2 ^ n + v
def immS (s : State) {n : Nat} (i : BitVec n) : Word := match s.cur.ext with
  | none => i.signExtend 64
  | some e => (e ++ i).signExtend 64

/-- R204. -/
def quotS (p q : Word) : Word := if q = 0 then -1 else if p = BitVec.intMin 64 ∧ q = -1 then BitVec.intMin 64 else p.sdiv q
def restS (p q : Word) : Word := if q = 0 then p else if p = BitVec.intMin 64 ∧ q = -1 then 0 else p - q * p.sdiv q
def quotU (p q : Word) : Word := if q = 0 then -1 else p / q
def restU (p q : Word) : Word := if q = 0 then p else p - q * (p / q)

/-- The conditions of CMP and CMPI (R209). -/
def holds (c : Nat) (p q : Word) : Bool := match c with
  | 0 => decide (p = q)
  | 1 => decide (p ≠ q)
  | 2 => p.slt q
  | 3 => !p.slt q
  | 4 => p.ult q
  | 5 => !p.ult q
  | 6 => decide (p &&& q ≠ 0)
  | _ => decide (p &&& q = 0)

end Sys2Proof.Claims

/-! ## The X class -/

section
open Sys2Proof Sys2Proof.Machine Sys2Proof.Claims

/-- R203: the results of the two-source integer instructions of latency 1 and 3, in both operand forms; nothing else changes. -/
def Sys2Proof.Claims.TwoSourceResults : Prop :=
  ∀ (s : State) (g : BitVec 3) (d a b : BitVec 5) (l : BitVec 1) (w : BitVec 3) (v : Word), on s g → Second s b l w v →
    let u := x s a
    GivesX (.add g d a b l w) s 1 d (u + v) ∧
    GivesX (.sub g d a b l w) s 1 d (u - v) ∧
    GivesX (.mul g d a b l w) s 3 d (u * v) ∧
    GivesX (.mulh g d a b l w) s 3 d ((u.signExtend 128 * v.signExtend 128).extractLsb' 64 64) ∧
    GivesX (.mulhn g d a b l w) s 3 d ((u.zeroExtend 128 * v.zeroExtend 128).extractLsb' 64 64) ∧
    GivesX (.and g d a b l w) s 1 d (u &&& v) ∧
    GivesX (.or g d a b l w) s 1 d (u ||| v) ∧
    GivesX (.xor g d a b l w) s 1 d (u ^^^ v) ∧
    GivesX (.shl g d a b l w) s 1 d (if 64 ≤ v.toNat then 0 else u <<< v.toNat) ∧
    GivesX (.shr g d a b l w) s 1 d (if 64 ≤ v.toNat then 0 else u >>> v.toNat) ∧
    GivesX (.sar g d a b l w) s 1 d (if 64 ≤ v.toNat then (if u.msb then -1 else 0) else u.sshiftRight v.toNat) ∧
    GivesX (.min g d a b l w) s 1 d (BitVec.ofInt 64 (min u.toInt v.toInt)) ∧
    GivesX (.max g d a b l w) s 1 d (BitVec.ofInt 64 (max u.toInt v.toInt)) ∧
    GivesX (.minn g d a b l w) s 1 d (BitVec.ofNat 64 (min u.toNat v.toNat)) ∧
    GivesX (.maxn g d a b l w) s 1 d (BitVec.ofNat 64 (max u.toNat v.toNat))

/-- R77, R78, R93, R203, R204: with the strand's divide unit free, the divisions give the quotient or remainder, which never traps, at issue + 18
and hold the unit for 18 cycles; they raise SCHED while the strand's own division holds it. -/
def Obligations.ScalarDivision : Prop :=
  ∀ (s : State) (g : BitVec 3) (d a b : BitVec 5) (l : BitVec 1) (w : BitVec 3) (v : Word), on s g → Second s b l w v →
    let t := s.strand s.cur.core s.cur.strand
    let held := s.onStrand s.cur.core s.cur.strand fun t => { t with divBusy := t.lt + 18 }
    let gives (i : Instr) (q : Word) : Prop := exec i s = .next (if d = 0 then held else due held 18 2 (.quot d q))
    (t.divBusy ≤ t.lt →
      gives (.div g d a b l w) (quotS (x s a) v) ∧ gives (.rem g d a b l w) (restS (x s a) v) ∧
      gives (.divn g d a b l w) (quotU (x s a) v) ∧ gives (.remn g d a b l w) (restU (x s a) v)) ∧
    (t.lt < t.divBusy →
      Raises (.div g d a b l w) s 7 0 ∧ Raises (.rem g d a b l w) s 7 0 ∧ Raises (.divn g d a b l w) s 7 0 ∧
      Raises (.remn g d a b l w) s 7 0)

/-- R205 and R208: the immediate integer instructions, with the lent bits where the bundle has a header. -/
def Sys2Proof.Claims.ScalarImmediate : Prop :=
  ∀ (s : State) (g : BitVec 3) (d a : BitVec 5) (i : BitVec 13) (j : BitVec 18), on s g →
    let u := x s a
    GivesX (.addi g d a i) s 1 d (u + immS s i) ∧
    GivesX (.andi g d a i) s 1 d (u &&& immS s i) ∧
    GivesX (.ori g d a i) s 1 d (u ||| immS s i) ∧
    GivesX (.xori g d a i) s 1 d (u ^^^ immS s i) ∧
    (immN s 13 i.toNat < 64 →
      GivesX (.shli g d a i) s 1 d (u <<< immN s 13 i.toNat) ∧
      GivesX (.shri g d a i) s 1 d (u >>> immN s 13 i.toNat) ∧
      GivesX (.sari g d a i) s 1 d (u.sshiftRight (immN s 13 i.toNat))) ∧
    GivesX (.movi g d j) s 1 d (immS s j) ∧
    GivesX (.movhi g d j) s 1 d ((BitVec.ofNat 64 (immN s 18 j.toNat) <<< 18) ||| (x s d &&& 0x3FFFF#64))

/-- R206 and R207: the bit instructions and SEL. -/
def Sys2Proof.Claims.ScalarBits : Prop :=
  ∀ (s : State) (g : BitVec 3) (d a b : BitVec 5) (lut : BitVec 8) (n : BitVec 6), on s g →
    (∃ r : Word, GivesX (.lop3 g d a b lut) s 1 d r ∧
      ∀ i < 64, r.getLsbD i = lut.getLsbD (4 * bit ((x s d).getLsbD i) + 2 * bit ((x s a).getLsbD i) + bit ((x s b).getLsbD i))) ∧
    GivesX (.fshl g d a b n) s 1 d (((x s a ++ x s b) <<< n.toNat).extractLsb' 64 64) ∧
    GivesX (.fshr g d a b n) s 1 d (((x s a ++ x s b) >>> n.toNat).extractLsb' 0 64) ∧
    GivesX (.clz g d a) s 1 d (x s a).clz ∧
    GivesX (.popc g d a) s 1 d (BitVec.ofNat 64 ((List.range 64).countP fun i => (x s a).getLsbD i)) ∧
    ∀ (l : BitVec 1) (w c : BitVec 3) (v : Word), Second s b l w v →
      GivesX (.sel g d a b l w c) s 1 d (if (s.strand s.cur.core s.cur.strand).rp c then x s a else v)

/-- R205 and R208: the immediate integer instructions, with the lent bits where the bundle has a header. R206 and R207: the bit instructions and SEL.
-/
def Obligations.ScalarImmediatesAndBits : Prop := Claims.ScalarImmediate ∧ Claims.ScalarBits

/-- R209 and R210: predicates and address registers. -/
def Obligations.PredicatesAndAddresses : Prop :=
  ∀ (s : State) (g : BitVec 3), on s g →
    (∀ (d : BitVec 3) (a b : BitVec 5) (l : BitVec 1) (w : BitVec 3) (c : BitVec 4) (v : Word), Second s b l w v → c.toNat < 8 →
      GivesP (.cmp g d a b l w c) s 1 d (holds c.toNat (x s a) v)) ∧
    (∀ (d : BitVec 3) (a : BitVec 5) (c : BitVec 3) (i : BitVec 10),
      GivesP (.cmpi g d a c i) s 1 d (holds c.toNat (x s a) (immS s i))) ∧
    (∀ (d a b : BitVec 3) (lut : BitVec 4), GivesP (.plog g d a b lut) s 1 d
      (lut.getLsbD (2 * bit ((s.strand s.cur.core s.cur.strand).rp a) + bit ((s.strand s.cur.core s.cur.strand).rp b)))) ∧
    (∀ (d n : BitVec 4) (b : BitVec 5) (l : BitVec 1) (w : BitVec 3) (v : Word), Second s b l w v →
      GivesA (.aadd g d n b l w) s 1 d (Claims.a s n + v)) ∧
    (∀ (d n : BitVec 4) (i : BitVec 13), GivesA (.aaddi g d n i) s 1 d (Claims.a s n + immS s i)) ∧
    (∀ (d : BitVec 4) (b : BitVec 5), GivesA (.amovToA g d b) s 1 d (x s b)) ∧
    ∀ (d : BitVec 5) (n : BitVec 4), GivesX (.amovToX g d n) s 1 d (Claims.a s n)

/-- R71 and R203: with the head of the named landing queue empty, an RRR instruction raises SCHED in a TIMED group; in a PACED group, and in step
mode, its bundle cannot issue in this cycle and it does nothing else. That it waits in step mode in a TIMED group too is the model's choice (log 37).
-/
def Sys2Proof.Claims.EmptyHead : Prop :=
  ∀ (s : State) (g : BitVec 3) (d a b : BitVec 5) (w : BitVec 3), on s g →
    ((s.core s.cur.core).landq[fin 8 b.toNat]).flits = [] →
    let waits := s.timed s.cur.core = false ∨ s.stepping s.cur.core = true
    let is : List Instr := [.add g d a b 1 w, .sub g d a b 1 w, .mul g d a b 1 w, .mulh g d a b 1 w, .mulhn g d a b 1 w, .div g d a b 1 w,
      .divn g d a b 1 w, .rem g d a b 1 w, .remn g d a b 1 w, .and g d a b 1 w, .or g d a b 1 w, .xor g d a b 1 w, .shl g d a b 1 w,
      .shr g d a b 1 w, .sar g d a b 1 w, .min g d a b 1 w, .max g d a b 1 w, .minn g d a b 1 w, .maxn g d a b 1 w]
    (waits → ∀ i ∈ is, exec i s = .next (s.onCur fun k => { k with stall := true })) ∧
    (¬waits → ∀ i ∈ is, Raises i s 7 0)

/-- R203: the results of the two-source integer instructions of latency 1 and 3, in both operand forms; nothing else changes. R71 and R203: with the
head of the named landing queue empty, an RRR instruction raises SCHED in a TIMED group; in a PACED group, and in step mode, its bundle cannot issue
in this cycle and it does nothing else. That it waits in step mode in a TIMED group too is the model's choice (log 37). -/
def Obligations.ScalarTwoSource : Prop := Claims.TwoSourceResults ∧ Claims.EmptyHead

/-- R211: LD, ST, LDA and STA check their address in the order of the rule; a good one puts the read or the write of issue + 2 on
the agenda and changes nothing else. A store to a region that is pinned, by an MMA of its own bundle too, raises SCHED (R79, R292). -/
def Obligations.ScalarMemory : Prop :=
  ∀ (s : State) (g : BitVec 3) (d : BitVec 5) (r n : BitVec 4) (w : BitVec 2) (sx : BitVec 1) (o : BitVec 10), on s g →
    let adr : Int := ((Claims.a s n).toNat : Int) + (immS s o).toInt
    let is : List (Instr × Nat × Bool × Eff) :=
      [(.ld g d n w sx o, 2 ^ w.toNat, false, .load adr.toNat (2 ^ w.toNat) (sx == 1) false d),
       (.lda g r n o, 8, false, .load adr.toNat 8 false true (r.zeroExtend 5)),
       (.st g d n w o, 2 ^ w.toNat, true, .store adr.toNat (2 ^ w.toNat) (x s d)),
       (.sta g r n o, 8, true, .store adr.toNat 8 (Claims.a s r))]
    ∀ q ∈ is,
      let size := q.2.1
      let isStore := q.2.2.1
      let outside := adr < 0 ∨ 0xC0000 < adr + size ∨ (0xBC000 < adr + size ∧ s.cur.level = .user)
      let pinned := isStore = true ∧ s.meetsPin adr.toNat size = true
      (outside → Raises q.1 s 5 (BitVec.ofInt 64 adr)) ∧
      (¬outside → adr % size ≠ 0 → Raises q.1 s 6 (BitVec.ofInt 64 adr)) ∧
      (¬outside → adr % size = 0 → pinned → Raises q.1 s 7 0) ∧
      (¬outside → adr % size = 0 → ¬pinned → exec q.1 s = .next (due s 2 (if isStore then 8 else 7) q.2.2.2))
end
/-! ## The C class -/

namespace Sys2Proof.Claims
open Sys2Proof.Machine

/-- The state with the bundle at hand changed by f, and nothing else. -/
def cur (s : State) (f : Cur → Cur) : State := { s with cur := f s.cur }

/-- The strand that issues, changed by f, and nothing else. -/
def self (s : State) (f : Strand → Strand) : State := s.onStrand s.cur.core s.cur.strand f
def me (s : State) : Strand := s.strand s.cur.core s.cur.strand
def mine (s : State) : Core := s.core s.cur.core

/-- Software has written this CSR of the strand in this very cycle: the hardware's write of it does not stand (R181). -/
def keeps (s : State) (num : Nat) : Bool := (me s).wrote.1 == s.time + 1 && (me s).wrote.2.contains num

/-- Every level of the strand's loop state is inactive. -/
def NoLoop (s : State) : Prop := ∀ l : Fin 4, lpsAct (me s).csr.lps[l] = false

end Sys2Proof.Claims

section
open Sys2Proof Sys2Proof.Machine Sys2Proof.Claims

/-- R68, R195 and R196: a transfer changes nothing at its issue but the bundle's target, which R81 then carries out; CALL and BRX.l also
write X30 at the latency of the C class. NOP changes nothing. -/
def Sys2Proof.Claims.Transfers : Prop :=
  ∀ (s : State) (g : BitVec 3) (o : BitVec 23) (r : BitVec 5), on s g →
    let goes (t : Word) : State := cur s fun k => { k with xfer := some t }
    let off : Word := BitVec.ofInt 64 ((s.cur.pc : Int) + 16 * o.toInt)
    let link (t : State) : State := due t 1 2 (.x 30 (BitVec.ofNat 64 (s.cur.pc + 48)))
    exec .nop s = .next s ∧
    exec (.br g o) s = .next (goes off) ∧
    exec (.call g o) s = .next (link (goes off)) ∧
    exec (.brx g r 0) s = .next (goes (x s r)) ∧
    exec (.brx g r 1) s = .next (link (goes (x s r))) ∧
    exec (.ret g) s = .next (goes (x s 30))

/-- R81: at the end of a bundle that neither traps, ends nor skips, of a strand that goes on, the transfer due goes to its target in place of the next bundle, the
one after it falls due, and the bundle's own transfer waits two bundles; WAIT's delay counts from the bundle (R199), and a body that a LOOP skips costs two
cycles more (R188). The last bundle of a loop's body goes back to its START while steps remain: STEP counts one more, SINCE too up to 3, and the deltas
of the level are added at the next cycle (R190, R191); an LPS or LIT that software writes in that very cycle stays so (R181). -/
def Sys2Proof.Claims.DelayBundles : Prop :=
  ∀ (s : State), s.cur.replay = false → s.cur.back = none → s.cur.exit = false → s.cur.ends = false → s.cur.trap = none →
    (me s).life = .live →
    let t := s.finish.strand s.cur.core s.cur.strand
    t.due1 = s.cur.due2 ∧
    t.due2 = (s.cur.xfer.map fun w => ({ target := w, source := s.cur.pc, order := s.seq } : Transfer)) ∧
    (∀ d, s.cur.due1 = some d → t.pc = d.target) ∧
    (s.cur.due1 = none → s.cur.skip = none → NoLoop s → t.pc = BitVec.ofNat 64 (s.cur.pc / 16 * 16 + 16)) ∧
    (s.cur.skip = none → t.base = (me s).lt + 1 + s.cur.delay) ∧
    (∀ n, s.cur.skip = some n → s.cur.due1 = none → t.pc = BitVec.ofNat 64 (16 * n) ∧ t.base = (me s).lt + 1 + (s.cur.delay + 2)) ∧
    (∀ l : Fin 4, let w := (me s).csr.lps[l]; let i := (me s).csr.lit[l]
      s.cur.nested = false → s.cur.skip = none → s.cur.due1 = none → lpsAct w = true → (∀ m : Fin 4, l < m → lpsAct (me s).csr.lps[m] = false) →
      lpsEnd w = s.cur.pc / 16 → lpsLast w = false → (lpsPe w = false ∨ s.pre s.cur.core = false) → litStep i + 2 ≤ litTrip i + lpsStg w → litStep i + 1 < 2 ^ 32 →
        t.pc = BitVec.ofNat 64 (16 * lpsStart w) ∧
        (keeps s (0x144 + l.val) = false → litStep t.csr.lit[l] = litStep i + 1 ∧ litTrip t.csr.lit[l] = litTrip i) ∧
        (keeps s (0x140 + l.val) = false → lpsAct t.csr.lps[l] = true ∧ lpsSince t.csr.lps[l] = min (lpsSince w + 1) 3 ∧ lpsStart t.csr.lps[l] = lpsStart w) ∧
        ∃ it ∈ s.finish.agenda, it.clk = .strand s.cur.core s.cur.strand ∧ it.due = (me s).lt + 1 ∧ it.phase = 3 ∧ ∃ d : Vector Word 16,
          it.act = .eff s.cur.core s.cur.strand s.cur.pc 0 (.delta d) ∧ ∀ n : Fin 16, d[n] = (me s).csr.dlt[fin 64 (16 * l.val + n.val)]) ∧
    t.x = (me s).x ∧ t.a = (me s).a ∧ t.p = (me s).p ∧ t.k = (me s).k

/-- R68, R195 and R196: a transfer changes nothing at its issue but the bundle's target, which R81 then carries out; CALL and BRX.l also write X30 at
the latency of the C class. NOP changes nothing. R81: at the end of a bundle that neither traps, ends nor skips, of a strand that goes on, the
transfer due goes to its target in place of the next bundle, the one after it falls due, and the bundle's own transfer waits two bundles; WAIT's delay
counts from the bundle (R199), and a body that a LOOP skips costs two cycles more (R188). The last bundle of a loop's body goes back to its START
while steps remain: STEP counts one more, SINCE too up to 3, and the deltas of the level are added at the next cycle (R190, R191); an LPS or LIT that
software writes in that very cycle stays so (R181). -/
def Obligations.TransfersAndDelays : Prop := Claims.Transfers ∧ Claims.DelayBundles

/-- R187, R188, R189 and R194: LOOP and LOOPI at k active levels, the lowest ones, take level k. They raise SCHED in a handler (R436), with four levels
active, with `.p` under another level, with STG or RING above 0 where an active level has it so too, with an END beyond that of an active level,
in a delay bundle, and for a count of 2^32 or more; and ADDR where the END lies outside the image. Otherwise the level is entered at step lo:
START, END, the trip count, ACT 1, with the stage predicates of step lo, where lo is 0, or, in a `.p` loop that returns to its own START and END with PARK
set, the iteration at which it was parked; PARK clears either way. A count of lo or less skips the body. An LPS or LIT that software writes in this
very cycle stays so (R181). -/
def Sys2Proof.Claims.LoopEntry : Prop :=
  ∀ (s : State) (g : BitVec 3) (e : BitVec 1) (r sg : BitVec 2) (a : BitVec 5) (n : BitVec 13) (c : BitVec 10) (m : BitVec 8) (k : Nat),
    on s g → (∀ l : Fin 4, lpsAct (me s).csr.lps[l] = true ↔ l.val < k) → k ≤ 4 →
    let form (i : Instr) (count len : Nat) : Prop :=
      let addr := s.cur.pc / 16
      let some_ (P : Word → Prop) : Prop := ∃ l : Fin 4, l.val < k ∧ P (me s).csr.lps[l]
      let refused := s.cur.nested = true ∨ k = 4 ∨ (e = 1 ∧ 0 < k) ∨ (sg ≠ 0 ∧ some_ fun w => lpsStg w ≠ 0) ∨ (r ≠ 0 ∧ some_ fun w => lpsRing w ≠ 0) ∨
        (some_ fun w => lpsEnd w < addr + len) ∨ s.cur.due1.isSome = true ∨ s.cur.due2.isSome = true ∨ 2 ^ 32 ≤ count
      let inside := (mine s).inImage s.cur.level (16 * (addr + len)) = true
      (refused → Raises i s 7 0) ∧
      (¬refused → ¬inside → Raises i s 5 (BitVec.ofNat 64 (16 * (addr + len)))) ∧
      (¬refused → inside → ∀ l : Fin 4, l.val = k →
        let old := (me s).csr.lps[l]
        let parked := e == 1 && k == 0 && lpsPark old && lpsStart old == addr + 1 && lpsEnd old == addr + len
        let lo := if parked then litStep (me s).csr.lit[l] else 0
        (count ≤ lo → ∃ w : Word, (∀ b < 64, w.getLsbD b = (decide (b ≠ 61 ∧ b ≠ 63) && old.getLsbD b)) ∧
          exec i s = .next (cur (self s fun t => { t with csr := { t.csr with
            lps := if keeps s (0x140 + k) then t.csr.lps else upd t.csr.lps l fun _ => w } }) fun x => { x with skip := some (addr + len + 1) })) ∧
        (lo < count → addr + 1 < 16384 → addr + len < 16384 → ∃ w v : Word,
          lpsAct w = true ∧ lpsPark w = false ∧ lpsDrn w = false ∧ lpsSince w = 0 ∧ lpsStart w = addr + 1 ∧ lpsEnd w = addr + len ∧
          lpsRing w = r.toNat ∧ lpsStg w = sg.toNat ∧ lpsPe w = (e == 1) ∧ lpsLast w = false ∧ litTrip v = count ∧ litStep v = lo ∧
          let set := self s fun t => { t with csr := { t.csr with
            lps := if keeps s (0x140 + k) then t.csr.lps else upd t.csr.lps l fun _ => w,
            lit := if keeps s (0x144 + k) then t.csr.lit else upd t.csr.lit l fun _ => v } }
          ∃ b : BitVec 4, (∀ x ≤ sg.toNat, b.getLsbD x = decide (x = 0)) ∧
            exec i s = .next (if sg = 0 then set else due set 1 3 (.stage sg.toNat b))))
    form (.loop g e r sg a n) (x s a).toNat n.toNat ∧ form (.loopi g e r sg c m) c.toNat m.toNat

/-- R198: LBRK sets LAST of the innermost active level and nothing else, unless software writes that LPS in this very cycle (R181); with no
level active it raises SCHED. -/
def Sys2Proof.Claims.LoopBreak : Prop :=
  ∀ (s : State) (g : BitVec 3), on s g →
    (NoLoop s → Raises (.lbrk g) s 7 0) ∧
    ∀ l : Fin 4, lpsAct (me s).csr.lps[l] = true → (∀ m : Fin 4, l < m → lpsAct (me s).csr.lps[m] = false) →
      ∃ w : Word, lpsLast w = true ∧ (∀ i < 64, i ≠ 53 → w.getLsbD i = ((me s).csr.lps[l]).getLsbD i) ∧
        exec (.lbrk g) s = .next (self s fun t => { t with csr := { t.csr with
          lps := if keeps s (0x140 + l.val) then t.csr.lps else upd t.csr.lps l fun _ => w } })

/-- R187, R188, R189 and R194: LOOP and LOOPI at k active levels, the lowest ones, take level k. They raise SCHED in a handler (R436), with four
levels active, with `.p` under another level, with STG or RING above 0 where an active level has it so too, with an END beyond that of an active
level, in a delay bundle, and for a count of 2^32 or more; and ADDR where the END lies outside the image. Otherwise the level is entered at step lo:
START, END, the trip count, ACT 1, with the stage predicates of step lo, where lo is 0, or, in a `.p` loop that returns to its own START and END with
PARK set, the iteration at which it was parked; PARK clears either way. A count of lo or less skips the body. An LPS or LIT that software writes in
this very cycle stays so (R181). R198: LBRK sets LAST of the innermost active level and nothing else, unless software writes that LPS in this very
cycle (R181); with no level active it raises SCHED. -/
def Obligations.HardwareLoops : Prop := Claims.LoopEntry ∧ Claims.LoopBreak

/-- R199, R150, R201, R386: WAIT holds the strand's next bundle for Xs + n more cycles, or raises SCHED where Xs is 2^32 or more; EXIT ends the
strand with its bundle; YIELD keeps a strand of a PACED group from issuing in the next cycle and does nothing in a TIMED one; FENCE
makes the strand wait, with the scope and the accesses that its kind names, for what was issued before it. -/
def Obligations.WaitsAndEnds : Prop :=
  ∀ (s : State) (g : BitVec 3) (r : BitVec 5) (n : BitVec 18) (sc : BitVec 4) (k : BitVec 2), on s g →
    ((x s r).toNat < 2 ^ 32 → exec (.wait g r n) s = .next (cur s fun c => { c with delay := c.delay + ((x s r).toNat + n.toNat) })) ∧
    (2 ^ 32 ≤ (x s r).toNat → Raises (.wait g r n) s 7 0) ∧
    exec (.exit g) s = .next (cur s fun c => { c with exit := true }) ∧
    (s.timed s.cur.core = true → exec (.yield g) s = .next s) ∧
    (s.timed s.cur.core = false → exec (.yield g) s = .next (self s fun t => { t with yieldAt := some (s.time + 1) })) ∧
    exec (.fence g sc k) s = .next (self s fun t => { t with wait := .fence sc.toNat (k != 0) (k != 1) (k == 3) s.seq })

/-- R172 and R202: CYCR gives CYC, the member's own TT, the CYC of the first bell after its issue cycle or SLIP at issue + 2, at every level; STRS
gives there the strand count, the strand's own number and a code for each strand as its issue cycle has it (READY is what the bundle's issue finds of
the core's other strands); a bit that is 0 in their encodings gives an illegal encoding where it is set. -/
def Obligations.TimeAndStrands : Prop :=
  ∀ (s : State) (g : BitVec 3) (d : BitVec 5) (sel : BitVec 2) (z : Nat),
    let at_ : Nat := g.toNat * 2 ^ 23 + d.toNat * 2 ^ 18
    (on s g →
      GivesX (.cycr g d 0) s 2 d (BitVec.ofNat 64 s.cyc) ∧
      GivesX (.cycr g d 1) s 2 d (BitVec.ofNat 64 (mine s).tt) ∧
      GivesX (.cycr g d 2) s 2 d (BitVec.ofNat 64 (s.cyc - s.cyc % 4096 + 4096)) ∧
      GivesX (.cycr g d 3) s 2 d (BitVec.ofNat 64 (mine s).slip) ∧
      ∀ k gr, s.owner? s.cur.core = some (k, gr) → k.record.strands < 4 → ∃ v : Word, GivesX (.strs g d) s 2 d v ∧
        v.toNat < 2 ^ 20 ∧ bits v.toNat 18 2 = k.record.strands ∧ bits v.toNat 16 2 = s.cur.strand.val ∧
        ∀ j : Fin 4, bits v.toNat (4 * j.val) 4 = if k.record.strands < j.val then 0xF else match (s.strand s.cur.core j).life with
          | .idle => 0
          | .saved => 5
          | .live => if (s.strand s.cur.core j).trapped then 4 else if j = s.cur.strand then 2
              else if s.cur.ready.getLsbD j.val then 1 else 3) ∧
    decodeSlot 0 (0x58000000 + at_ + sel.toNat) = .ok (.cycr g d sel) ∧ decodeSlot 0 (0x5C000000 + at_) = .ok (.strs g d) ∧
    (0 < z → z < 2 ^ 16 → ∃ e, decodeSlot 0 (0x58000000 + at_ + 4 * z + sel.toNat) = .error e) ∧
    (0 < z → z < 2 ^ 18 → ∃ e, decodeSlot 0 (0x5C000000 + at_ + z) = .error e)

/-- R180 and R200: CSRR reads at issue + 2. CSRW, CSRS and CSRC at a level that reaches the CSR's return the old value and put the write
of issue + 2 on the agenda; below it they raise PRIV and nothing else happens. -/
def Sys2Proof.Claims.CsrInstructions : Prop :=
  ∀ (s : State) (g : BitVec 3) (d a : BitVec 5) (i : BitVec 1) (c : BitVec 12), on s g →
    let v : Word := if i = 1 then a.zeroExtend 64 else x s a
    let old := s.csrRead s.cur.core s.cur.strand c
    let need := c.toNat = 0x017 ∨ (0x020 ≤ c.toNat ∧ c.toNat ≤ 0x027) ∨ 0x140 ≤ c.toNat
    let ok := (c.toNat = 0x017 → s.cur.level = .firm) ∧ (need → s.cur.level ≠ .user)
    let with_ (op : CsrOp) : State := due (if d = 0 then s else due s 2 2 (.x d old)) 2 2 (.csr c op v)
    GivesX (.csrr g d c) s 2 d old ∧
    (ok → exec (.csrw g d a i c) s = .next (with_ .write) ∧ exec (.csrs g d a i c) s = .next (with_ .set) ∧
      exec (.csrc g d a i c) s = .next (with_ .clear)) ∧
    (¬ok → Raises (.csrw g d a i c) s 2 0 ∧ Raises (.csrs g d a i c) s 2 0 ∧ Raises (.csrc g d a i c) s 2 0)

/-- R181, R182, R183 and R185: a CSR write that takes effect changes the named CSR of that strand alone: written, set or cleared on the value it
has then, in its writable bits. A mode of FCR that would take a code above 4, JCR with an order above G - 1, and a policy of HEALTH that is not 0 or 1 stay as
they were (R43). It leaves every register, every other CSR and every memory as it was; the model notes, for its cycle, that
software wrote the CSR. -/
def Sys2Proof.Claims.CsrWrites : Prop :=
  ∀ (s : State) (c : Fin 256) (j : Fin 4) (op : CsrOp) (v : Word),
    let csr := (s.strand c j).csr
    let whole (old : Word) : Word := match op with
      | .write => v
      | .set => old ||| v
      | .clear => old &&& ~~~v
    let f (old m : Word) : Word := whole old &&& m
    let notes (n : Nat) (t : Strand) : Strand := { t with wrote := (s.time + 1, if t.wrote.1 = s.time + 1 then n :: t.wrote.2 else [n]) }
    let gives (n : BitVec 12) (r : Csrs) : Prop := s.csrWrite c j n op v = s.onStrand c j fun t => notes n.toNat { t with csr := r }
    (∃ w : Word, gives 0x000 { csr with fcr := w } ∧ (∀ i < 64, i = 3 ∨ 7 ≤ i → w.getLsbD i = false) ∧ ∀ lo, lo = 0 ∨ lo = 4 →
      bits w.toNat lo 3 = (if bits (whole csr.fcr).toNat lo 3 ≤ 4 then bits (whole csr.fcr).toNat lo 3 else bits csr.fcr.toNat lo 3)) ∧
    (let w := whole csr.jcr; let fits := bits w.toNat 0 3 + 1 ≤ 2 ^ bits w.toNat 4 2
     (fits → gives 0x002 { csr with jcr := w &&& 0x37 }) ∧ (¬fits → gives 0x002 csr)) ∧
    (let h := (s.core c).health
     ∃ w : Word, s.csrWrite c j 0x017 op v = (s.onCore c fun k => { k with health := { h with word := w } }).onStrand c j (notes 0x017) ∧
       bits w.toNat 0 2 = (if bits (whole h.word).toNat 0 2 ≤ 1 then bits (whole h.word).toNat 0 2 else bits h.word.toNat 0 2) ∧
       ∀ i < 64, 2 ≤ i → w.getLsbD i = h.word.getLsbD i) ∧
    (∀ l : Fin 4, gives (BitVec.ofNat 12 (0x140 + l.val)) { csr with lps := upd csr.lps l fun old => f old 0xFFE000000FFFFFFF }) ∧
    gives 0x001 { csr with fsr := f csr.fsr 0x1F } ∧
    gives 0x003 { csr with jfl := f csr.jfl 0xFFFFFFFFFF } ∧
    gives 0x004 { csr with fte := f csr.fte 0xFFFFFFFFFF } ∧
    gives 0x005 { csr with qstat := f csr.qstat 0xFFFFFFFFFFFFFFF } ∧
    gives 0x020 { csr with tvec := f csr.tvec 0x3FFF0 } ∧
    gives 0x021 { csr with tcause := f csr.tcause 0xFF } ∧
    gives 0x022 { csr with tpc := f csr.tpc (-1) } ∧
    gives 0x023 { csr with npc := f csr.npc (-1) } ∧
    gives 0x024 { csr with tslot := f csr.tslot 3 } ∧
    gives 0x025 { csr with tcoef := f csr.tcoef 0xF } ∧
    gives 0x026 { csr with taddr := f csr.taddr (-1) } ∧
    gives 0x027 { csr with ttt := f csr.ttt (-1) } ∧
    (∀ l : Fin 4, ∀ n : Fin 16, gives (BitVec.ofNat 12 (0x100 + 16 * l.val + n.val))
      { csr with dlt := upd csr.dlt (fin 64 (16 * l.val + n.val)) fun old => f old (-1) }) ∧
    ∀ l : Fin 4, gives (BitVec.ofNat 12 (0x144 + l.val)) { csr with lit := upd csr.lit l fun old => f old (-1) }

/-- R180 and R200: CSRR reads at issue + 2. CSRW, CSRS and CSRC at a level that reaches the CSR's return the old value and put the write of issue + 2
on the agenda; below it they raise PRIV and nothing else happens. R181, R182, R183 and R185: a CSR write that takes effect changes the named CSR of
that strand alone: written, set or cleared on the value it has then, in its writable bits. A mode of FCR that would take a code above 4, JCR with an
order above G - 1, and a policy of HEALTH that is not 0 or 1 stay as they were (R43). It leaves every register, every other CSR and every memory as it
was; the model notes, for its cycle, that software wrote the CSR. -/
def Obligations.ControlAndStatus : Prop := Claims.CsrInstructions ∧ Claims.CsrWrites

/-- R437, R438 and R440: TRAP is due as SWTRAP at issue + 1. RFT in every form raises PRIV at USER and SCHED in a strand that is not TRAPPED;
RFT.fault in a handler changes nothing at its slot but that the bundle ends the kernel: once the bundle's slots have acted, a kernel that
has no fault yet has the fault of the trap record: its cause, TPC, TADDR and TTT, with the core and strand. -/
def Obligations.TrapAndRftFault : Prop :=
  ∀ (s : State) (g : BitVec 3) (n : BitVec 8),
    (on s g →
      exec (.trap g n) s = .next (due s 1 4 (.swtrap n)) ∧
      (s.cur.level = .user → Raises (.rft g) s 2 0 ∧ Raises (.rftReplay g) s 2 0 ∧ Raises (.rftFault g) s 2 0) ∧
      (s.cur.level ≠ .user → s.cur.nested = false →
        Raises (.rft g) s 7 0 ∧ Raises (.rftReplay g) s 7 0 ∧ Raises (.rftFault g) s 7 0) ∧
      (s.cur.level ≠ .user → s.cur.nested = true → exec (.rftFault g) s = .next (cur s fun k => { k with ends := true }))) ∧
    ∀ o w, s.cur.ends = true → (mine s).owner = some o → s.kernel? o.kid = some w → w.fault = none → w.halted = false →
      ∃ w' r, s.finish.kernel? o.kid = some w' ∧ w'.fault = some r ∧ r.reason = 0 ∧ r.tcause = (me s).csr.tcause.toNat ∧
        r.tpc = (me s).csr.tpc.toNat ∧ r.taddr = (me s).csr.taddr ∧ r.tt = (me s).csr.ttt.toNat ∧ r.cyc = s.cyc ∧
        r.core = s.cur.core.val ∧ r.strand = s.cur.strand.val

end
/-! ## The vector pipe -/

namespace Sys2Proof.Claims
open Sys2Proof.Machine

/-- No strand of the core holds the vector pipe (R77, R78, R80). -/
def Free (s : State) : Prop :=
  (me s).pipeBusy ≤ (me s).lt ∧ ∀ j : Fin 4, j ≠ s.cur.strand → (s.strand s.cur.core j).pipeBusy ≤ (s.strand s.cur.core j).lt

/-- The pipe held for occ cycles and a vector result on the agenda at its check point, issue + lat − 1 (R75, R218). -/
def piped (s : State) (lat occ : Nat) (r : VRes) : State := due (self s fun t => { t with pipeBusy := t.lt + occ }) (lat - 1) 4 (.res r)
def Vec (i : Instr) (s : State) (lat occ : Nat) (r : VRes) : Prop := exec i s = .next (piped s lat occ r)

/-- The result raises no flag and takes no trap. -/
def Quiet (r : VRes) : Prop := r.flags = HwFlags.none ∧ r.trap = none

/-- The result writes vector registers and nothing else. -/
def OnlyV (r : VRes) : Prop := r.kwrites = [] ∧ r.krow = none ∧ r.xwrites = [] ∧ r.latch = none

/-- An image after a masked write. -/
def put (w : VWrite) (old : VImg) : VImg := (old &&& ~~~w.mask) ||| (w.val &&& w.mask)

/-- The write goes to physical register n and gives every element of the width that the mask governs its value f; the others keep
what the register holds (R215). -/
def Lanes (w : VWrite) (n width : Nat) (k : KMask) (f : Nat → Nat) : Prop :=
  w.reg = n ∧ ∀ (old : VImg) (i : Nat), i < 32768 / width →
    elem (put w old) width i = if k.getLsbD (width * i / 32) then f i % 2 ^ width else elem old width i

/-- A quiet instruction whose one result is a write of the register field d. -/
def GivesV (i : Instr) (s : State) (lat occ : Nat) (d : BitVec 5) (width : Nat) (k : KMask) (f : Nat → Nat) : Prop :=
  ∃ r w, Vec i s lat occ r ∧ Quiet r ∧ OnlyV r ∧ r.writes = [w] ∧ Lanes w (s.vphys d.toNat) width k f

/-- An instruction of the pipe whose source condition h does not let it run raises SCHED at once while its own strand holds the pipe,
and waits, changing nothing else, while another one does. -/
def Held (i : Instr) (s : State) : Prop :=
  ((me s).lt < (me s).pipeBusy → Raises i s 7 0) ∧
  ((me s).pipeBusy ≤ (me s).lt → (∃ j : Fin 4, j ≠ s.cur.strand ∧ (s.strand s.cur.core j).lt < (s.strand s.cur.core j).pipeBusy) →
    exec i s = .next (cur s fun k => { k with stall := true }))

/-- An integer taken to a width, clamped first where told. -/
def fits (sat unsigned : Bool) (w : Nat) (v : Int) : Nat :=
  let v := if sat then (if unsigned then max 0 (min v ((2 : Int) ^ w - 1)) else max (-(2 : Int) ^ (w - 1)) (min v ((2 : Int) ^ (w - 1) - 1)))
    else v
  (v % (2 : Int) ^ w).toNat

def word32 (img : VImg) (r c : Nat) : Nat := elem img 32 (64 * r + c)

/-- Coefficients in force, the register field of coefficient c, and the operand coefficients of element e. -/
def order (s : State) (jet : Bool) : Nat := if jet then s.jk else 0
def field (s : State) (jet : Bool) (n : BitVec 5) (c : Nat) : Nat := if jet then s.jg * n.toNat + c else n.toNat
def operand (s : State) (f : Fmt) (jet : Bool) (n : BitVec 5) (e : Nat) : List FVal :=
  (List.range (order s jet + 1)).map fun c => decodeF f (elem (s.rv (field s jet n c)) f.width e)

/-- An element-wise floating-point instruction, plain or on jets, of latency lat and occupancy occ times its multiplier: fn answers the
coefficients of an element, as encodings with their flags. Every register of the destination receives its coefficient, those above
the order zero (R216); the flags of governed elements rise (R218, R266); the lowest coefficient that raises an enabled kind, and the
lowest element in it, are the trap's (R275). -/
def Floats (i : Instr) (s : State) (lat occ mult : Nat) (d : BitVec 5) (f : Fmt) (jet : Bool) (k : KMask) (fn : Nat → List (Nat × Flags)) : Prop :=
  let fill : Nat := if f = .d64 then 0x31C0000000000000 else 0
  let gov (e : Nat) : Bool := k.getLsbD (f.width * e / 32)
  let raised (c e : Nat) : Prop := c ≤ order s jet ∧ e < 32768 / f.width ∧ gov e = true ∧ ∃ v, (fn e)[c]? = some v ∧ enabled s.fte c v.2 = true
  ∃ r, Vec i s (lat + occ * (mult - 1)) (occ * mult) r ∧ OnlyV r ∧
    r.writes.length = (if jet then s.jg else 1) ∧
    (∀ c w, r.writes[c]? = some w → Lanes w (s.vphys (field s jet d c)) f.width k fun e =>
      if c ≤ order s jet then ((fn e).getD c (0, Flags.none)).1 else fill) ∧
    r.flags = HwFlags.jet ((List.range (order s jet + 1)).map fun c => Flags.union ((List.range (32768 / f.width)).map fun e =>
      if gov e then ((fn e).getD c (0, Flags.none)).2 else Flags.none)) ∧
    ((∀ c e, ¬raised c e) → r.trap = none) ∧
    ∀ c e, raised c e → (∀ c' < c, ∀ e', ¬raised c' e') → (∀ e' < e, ¬raised c e') →
      r.trap = some { cause := 3, taddr := BitVec.ofNat 64 e, coef := some (fin 8 c) }

/-- R94: latency and occupancy. -/
def addT : Fmt → Nat × Nat
  | .f64 => (12, 4) | .d64 => (40, 32) | _ => (8, 4)
def mulT : Fmt → Nat × Nat
  | .f64 => (12, 4) | .d64 => (44, 32) | _ => (8, 4)
def fmaT : Fmt → Nat × Nat
  | .f64 => (12, 4) | .d64 => (76, 64) | _ => (8, 4)
def divT : Fmt → Nat × Nat
  | .f64 => (80, 64) | .d64 => (280, 256) | _ => (28, 16)

/-- The multipliers of R95. -/
def lin (k : Nat) : Nat := k + 1
def tri (k : Nat) : Nat := (k + 1) * (k + 2) / 2

/-- Coefficients as encodings. -/
def encoded (f : Fmt) (rs : List (FVal × Flags)) : List (Nat × Flags) := rs.map fun r => (encodeF f r.1, r.2)

end Sys2Proof.Claims

section
open Sys2Proof Sys2Proof.Machine Sys2Proof.Claims

/-- R221, R224, R245 to R249, R268 to R272: with the pipe free, the element-wise floating-point instructions, plain and on jets, give each
governed element the coefficients of their rule. -/
def Obligations.VectorFloat : Prop :=
  ∀ (s : State) (g : BitVec 3) (d a b c : BitVec 5) (k f : BitVec 3) (j x : BitVec 1) (fm : Fmt), on s g → Free s → fmtOf f = some fm →
    let m := s.mode fm
    let jet := j == 1
    let n := order s jet
    let A := operand s fm jet a
    let B := operand s fm jet b
    let gives (i : Instr) (t : Nat × Nat) (mult : Nat) (fn : Nat → List (FVal × Flags)) : Prop :=
      Floats i s t.1 t.2 mult d fm jet (s.kmask k) fun e => encoded fm (fn e)
    let ml := if jet then lin n else 1
    let mt := if jet then tri n else 1
    gives (.vadd g d a b k f j x) (addT fm) ml (fun e => addJ fm m false n (A e) (B e)) ∧
    gives (.vsub g d a b k f j x) (addT fm) ml (fun e => addJ fm m true n (A e) (B e)) ∧
    gives (.vmul g d a b k f j x) (mulT fm) mt (fun e => mulJ fm m n (A e) (B e)) ∧
    gives (.vabs g d a k f j x) (addT fm) ml (fun e => absJ fm n (A e)) ∧
    gives (.vneg g d a k f j x) (addT fm) ml (fun e => negJ fm n (A e)) ∧
    gives (.vdiv g d a b k f j) (divT fm) mt (fun e => divJ fm m n (A e) (B e)) ∧
    gives (.vsqrt g d a k f j) (divT fm) mt (fun e => sqrtJ fm m n (A e)) ∧
    gives (.vrsq g d a k f j) (divT fm) mt (fun e => rsqJ fm m n (A e)) ∧
    gives (.vrcp g d a k f j) (divT fm) mt (fun e => rcpJ fm m n (A e)) ∧
    (fm = .f32 →
      gives (.vexp g d a k j) (36, 16) mt (fun e => expJ m n (A e)) ∧ gives (.vlog g d a k j) (36, 16) mt (fun e => logJ m n (A e)) ∧
      gives (.vsin g d a k j) (36, 16) mt (fun e => sinJ m n (A e)) ∧ gives (.vcos g d a k j) (36, 16) mt (fun e => cosJ m n (A e)) ∧
      gives (.vtanh g d a k j) (36, 16) mt (fun e => tanhJ m n (A e)) ∧ gives (.verf g d a k j) (36, 16) mt (fun e => erfJ m n (A e)) ∧
      gives (.vsigm g d a k j) (36, 16) mt (fun e => sigmJ m n (A e))) ∧
    (fm = .d64 → jet = false → gives (.vqtz g d a b k) (40, 32) 1 (fun e => [qtzF m ((A e).getD 0 (.fin false 0 0)) ((B e).getD 0 (.fin false 0 0))])) ∧
    ∀ (v : BitVec 3), v.toNat = (match fm, jet with
        | .f32, false => 0 | .f16, _ => 1 | .bf16, _ => 2 | .f64, false => 3 | .f32, true => 5 | .f64, true => 6 | .d64, true => 7 | _, _ => 4) →
      let all (i : Instr) (np nc : Bool) : Prop := Floats i s (fmaT fm).1 (fmaT fm).2 mt d fm jet (BitVec.allOnes 1024) fun e =>
        encoded fm (fmaJ fm m np nc n (A e) (B e) (operand s fm jet c e))
      (jet = true → fm ≠ .f16 ∧ fm ≠ .bf16) →
      all (.vfma g d a b c v) false false ∧ all (.vfms g d a b c v) false true ∧ all (.vfnma g d a b c v) true false

/-- R223, R272: VMIN and VMAX. On plain operands the result is one of them, in its canonical encoding, or the NaN of R48. -/
def Obligations.VectorMinMax : Prop :=
  ∀ (s : State) (g : BitVec 3) (d a b : BitVec 5) (k f : BitVec 3) (j : BitVec 1) (fm : Fmt), on s g → Free s → fmtOf f = some fm →
    let jet := j == 1
    let raw (n : BitVec 5) (e : Nat) : List Nat := (List.range (order s jet + 1)).map fun c => elem (s.rv (field s jet n c)) fm.width e
    let gives (i : Instr) (mx : Bool) : Prop := Floats i s (addT fm).1 (addT fm).2 (if jet then lin (order s jet) else 1) d fm jet (s.kmask k)
      fun e => jselect fm mx (order s jet + 1) 0 [raw a e, raw b e]
    gives (.vmin g d a b k f j) false ∧ gives (.vmax g d a b k f j) true ∧
    ∀ (mx : Bool) (p q : Nat), jselect fm mx 1 0 [[p], [q]] =
      let u := decodeF fm p
      let v := decodeF fm q
      if u.isNan || v.isNan then [(encodeF fm (nanRule fm [u, v]).1, (nanRule fm [u, v]).2)]
      else [(canonRaw fm (if (if mx then below fm.base u v else below fm.base v u) then q else p), Flags.none)]

/-- R267: coefficient 0 of a jet result is the plain operation on the coefficients 0, whatever the order; the plain sums and products are
those of R51, R221 and R224. -/
def Sys2Proof.Claims.PlainIsCoefficientZero : Prop :=
  ∀ (fm : Fmt) (m : Rnd) (n : Nat) (a b c : List FVal), fm ≠ .e4m3 → fm ≠ .e2m1 →
    let u := a.getD 0 (.fin false 0 0)
    let v := b.getD 0 (.fin false 0 0)
    let w := c.getD 0 (.fin false 0 0)
    (addJ fm m false n a b).head? = some (sumRound fm m [u, v]) ∧
    (addJ fm m true n a b).head? = some (sumRound fm m [u, v.neg]) ∧
    (mulJ fm m n a b).head? = some (mulF fm m u v) ∧
    (fmaJ fm m false false n a b c).head? = some (fmaF fm m false false u v w) ∧
    (fmaJ fm m false true n a b c).head? = some (fmaF fm m false true u v w) ∧
    (fmaJ fm m true false n a b c).head? = some (fmaF fm m true false u v w) ∧
    (divJ fm m n a b).head? = some (vdivF fm m u v) ∧
    (sqrtJ fm m n a).head? = some (sqrtF fm m u) ∧
    (rsqJ fm m n a).head? = some (rsqF fm m u) ∧
    (rcpJ fm m n a).head? = some (rcpF fm m u) ∧
    (expJ m n a).head? = some (expF m u) ∧
    (logJ m n a).head? = some (logF m u) ∧
    (sinJ m n a).head? = some (sinF m u) ∧
    (cosJ m n a).head? = some (cosF m u) ∧
    (tanhJ m n a).head? = some (tanhF m u) ∧
    (erfJ m n a).head? = some (erfF m u) ∧
    (sigmJ m n a).head? = some (sigmF m u)

/-- R268 to R271: a coefficient depends on no higher one: the first n + 1 coefficients of a result of order k are the result of order n. -/
def Sys2Proof.Claims.JetsExtend : Prop :=
  ∀ (fm : Fmt) (m : Rnd) (n k : Nat) (a b c : List FVal) (np nc sub : Bool), n ≤ k →
    (addJ fm m sub k a b).take (n + 1) = addJ fm m sub n a b ∧
    (negJ fm k a).take (n + 1) = negJ fm n a ∧
    (mulJ fm m k a b).take (n + 1) = mulJ fm m n a b ∧
    (fmaJ fm m np nc k a b c).take (n + 1) = fmaJ fm m np nc n a b c ∧
    (divJ fm m k a b).take (n + 1) = divJ fm m n a b ∧
    (sqrtJ fm m k a).take (n + 1) = sqrtJ fm m n a ∧
    (rsqJ fm m k a).take (n + 1) = rsqJ fm m n a ∧
    (rcpJ fm m k a).take (n + 1) = rcpJ fm m n a ∧
    (expJ m k a).take (n + 1) = expJ m n a ∧
    (logJ m k a).take (n + 1) = logJ m n a ∧
    (sinJ m k a).take (n + 1) = sinJ m n a ∧
    (cosJ m k a).take (n + 1) = cosJ m n a ∧
    (tanhJ m k a).take (n + 1) = tanhJ m n a ∧
    (erfJ m k a).take (n + 1) = erfJ m n a ∧
    (sigmJ m k a).take (n + 1) = sigmJ m n a

/-- R267: coefficient 0 of a jet result is the plain operation on the coefficients 0, whatever the order; the plain sums and products are those of
R51, R221 and R224. R268 to R271: a coefficient depends on no higher one: the first n + 1 coefficients of a result of order k are the result of order
n. -/
def Obligations.PlainFormsAndJets : Prop := Claims.PlainIsCoefficientZero ∧ Claims.JetsExtend

/-- R43, R44, R45: rounding a quotient n / m in each mode, and RoundTo of n · 2^e into a binary format. A result that does not overflow has at
most p digits and an exponent of the format; it is within one unit of its last place of the exact value, within half a unit to nearest and on the side
that a directed mode names; inexact is raised exactly where it differs. -/
def Obligations.RoundingIsNearest : Prop :=
  (∀ (neg : Bool) (n m : Nat), 0 < m →
    let c (r : Rnd) : Nat := roundQuot r neg n m
    c .rtz * m ≤ n ∧ n < (c .rtz + 1) * m ∧
    (n % m = 0 → ∀ r, c r = n / m) ∧
    (neg = false → n ≤ c .rup * m ∧ c .rup * m < n + m ∧ c .rdn = c .rtz) ∧
    (neg = true → n ≤ c .rdn * m ∧ c .rdn * m < n + m ∧ c .rup = c .rtz) ∧
    2 * n ≤ (2 * c .rne + 1) * m ∧ 2 * (c .rne * m) ≤ 2 * n + m ∧
    (2 * n = (2 * c .rne + 1) * m ∨ 2 * (c .rne * m) = 2 * n + m → c .rne % 2 = 0) ∧
    2 * n < (2 * c .rna + 1) * m ∧ 2 * (c .rna * m) ≤ 2 * n + m) ∧
  ∀ (fm : Fmt) (r : Rnd) (neg : Bool) (n : Nat) (e q : Int) (c : Nat) (x : Int) (fl : Flags), fm ≠ .d64 → 0 < n →
    roundTo fm r neg n e q = (.fin neg c x, fl) → fl.ovf = false →
    let z := min e x
    let unit := 2 ^ (x - z).toNat
    let exact := n * 2 ^ (e - z).toNat
    c < 2 ^ fm.prec ∧ fm.xmin ≤ x ∧ x ≤ fm.xmax ∧
    exact < (c + 1) * unit ∧ c * unit < exact + unit ∧
    (r = .rne ∨ r = .rna → 2 * exact ≤ (2 * c + 1) * unit ∧ 2 * (c * unit) ≤ 2 * exact + unit) ∧
    (r = .rtz ∨ (r = .rdn ∧ neg = false) ∨ (r = .rup ∧ neg = true) → c * unit ≤ exact) ∧
    ((r = .rdn ∧ neg = true) ∨ (r = .rup ∧ neg = false) → exact ≤ c * unit) ∧
    (fl.nx = false ↔ c * unit = exact)

/-- R227: the integer arithmetic of the views i32, i16 and i8, wrapped, clamped or the high half. -/
def Sys2Proof.Claims.VectorInteger : Prop :=
  ∀ (s : State) (g : BitVec 3) (d a b : BitVec 5) (k f : BitVec 3) (u x : BitVec 1), on s g → Free s → fmtOf f = none →
    let w := viewWidth f
    let un := u == 1
    let val (n : BitVec 5) (e : Nat) : Int := if un then (elem (s.rv n.toNat) w e : Int) else toInt w (elem (s.rv n.toNat) w e)
    let sg (e : Nat) : Int := toInt w (elem (s.rv a.toNat) w e)
    let gives (i : Instr) (fn : Nat → Nat) : Prop := GivesV i s 4 4 d w (s.kmask k) fn
    (w = 32 ∨ w = 16 ∨ w = 8) ∧
    gives (.vadd g d a b k f u x) (fun e => fits (x == 1) un w (val a e + val b e)) ∧
    gives (.vsub g d a b k f u x) (fun e => fits (x == 1) un w (val a e - val b e)) ∧
    gives (.vmul g d a b k f u x) (fun e => fits false un w (if x = 1 then val a e * val b e / (2 : Int) ^ w else val a e * val b e)) ∧
    gives (.vmin g d a b k f u) (fun e => fits false un w (min (val a e) (val b e))) ∧
    gives (.vmax g d a b k f u) (fun e => fits false un w (max (val a e) (val b e))) ∧
    gives (.vabs g d a k f u x) (fun e => fits (x == 1) false w (sg e).natAbs) ∧
    gives (.vneg g d a k f u x) (fun e => fits (x == 1) false w (-(sg e)))

/-- R228, R229, R230: the bit instructions. -/
def Sys2Proof.Claims.VectorBits : Prop :=
  ∀ (s : State) (g : BitVec 3) (d a b c : BitVec 5) (k f : BitVec 3) (l : BitVec 8), on s g → Free s → fmtOf f = none →
    let w := viewWidth f
    let A (e : Nat) : Nat := elem (s.rv a.toNat) w e
    let B (e : Nat) : Nat := elem (s.rv b.toNat) w e
    let C (e : Nat) : Nat := elem (s.rv c.toNat) w e
    let gives (i : Instr) (fn : Nat → Nat) : Prop := GivesV i s 4 4 d w (s.kmask k) fn
    let all (i : Instr) (fn : Nat → Nat) : Prop := GivesV i s 4 4 d w (BitVec.allOnes 1024) fn
    gives (.vand g d a b k f) (fun e => A e &&& B e) ∧ gives (.vor g d a b k f) (fun e => A e ||| B e) ∧
    gives (.vxor g d a b k f) (fun e => A e ^^^ B e) ∧
    gives (.vshl g d a b k f) (fun e => if w ≤ B e then 0 else A e <<< B e) ∧
    gives (.vshr g d a b k f) (fun e => if w ≤ B e then 0 else A e >>> B e) ∧
    gives (.vsar g d a b k f) (fun e => fits false false w (if w ≤ B e then (if A e < 2 ^ (w - 1) then 0 else -1) else toInt w (A e) / (2 : Int) ^ B e)) ∧
    gives (.vpopc g d a k f) (fun e => (List.range w).countP fun i => (A e).testBit i) ∧
    (∃ z : Nat → Nat, gives (.vclz g d a k f) z ∧ ∀ e, z e ≤ w ∧ A e < 2 ^ (w - z e) ∧ (z e < w → 2 ^ (w - z e - 1) ≤ A e)) ∧
    all (.vfshl g d a b c f) (fun e => ((A e * 2 ^ w + B e) <<< (C e % w)) >>> w) ∧
    all (.vfshr g d a b c f) (fun e => (A e * 2 ^ w + B e) >>> (C e % w)) ∧
    ∃ r v, Vec (.vlop3 g d a b l) s 4 4 r ∧ Quiet r ∧ OnlyV r ∧ r.writes = [v] ∧ v.reg = s.vphys d.toNat ∧
      ∀ (old : VImg), ∀ i < 32768, (put v old).getLsbD i = l.getLsbD
        (4 * bit ((s.rv d.toNat).getLsbD i) + 2 * bit ((s.rv a.toNat).getLsbD i) + bit ((s.rv b.toNat).getLsbD i))

/-- R227: the integer arithmetic of the views i32, i16 and i8, wrapped, clamped or the high half. R228, R229, R230: the bit instructions. -/
def Obligations.VectorIntegersAndBits : Prop := Claims.VectorInteger ∧ Claims.VectorBits

/-- R231, R232, R234, R235, R236, R260, R261: the movements of words, VIOTA and the counters. -/
def Sys2Proof.Claims.VectorMovement : Prop :=
  ∀ (s : State) (g : BitVec 3) (d a b : BitVec 5) (k f : BitVec 3) (n : BitVec 4) (m : BitVec 5) (h : BitVec 1), on s g → Free s →
    let A := s.rv a.toNat
    let B := s.rv b.toNat
    let words (i : Instr) (lat occ : Nat) (fn : Nat → Nat → Nat) : Prop := GivesV i s lat occ d 32 (s.kmask k) fun e => fn (e / 64) (e % 64)
    let group (img : VImg) (r c : Nat) : Nat := word32 img r (c / 4 * 4) + 2 ^ 32 * word32 img r (c / 4 * 4 + 1) +
      2 ^ 64 * word32 img r (c / 4 * 4 + 2) + 2 ^ 96 * word32 img r (c / 4 * 4 + 3)
    words (.vmov g d a k) 4 4 (fun r c => word32 A r c) ∧
    words (.vbrow g d a n k) 12 4 (fun _ c => word32 A n.toNat c) ∧
    words (.vbcol g d a m k h) 6 4 (fun r _ => word32 A r (32 * h.toNat + m.toNat)) ∧
    words (.vrotr g d a m k h) 6 4 (fun r c => word32 A r ((c + 64 - (32 * h.toNat + m.toNat)) % 64)) ∧
    words (.vrotc g d a n k) 12 4 (fun r c => word32 A ((r + 16 - n.toNat) % 16) c) ∧
    words (.vtrn g d a k) 16 8 (fun r c => word32 A (c % 16) (16 * (c / 16) + r)) ∧
    words (.vperm g d a b k) 10 4 (fun r c => word32 A (word32 B r c % 1024 / 64) (word32 B r c % 64)) ∧
    GivesV (.viota g d k f) s 4 4 d (viewWidth f) (s.kmask k) (fun e => e) ∧
    words (.vcadd g d a b k) 6 4 (fun r c => (group A r c + group B r c) / 2 ^ (32 * (c % 4))) ∧
    words (.vcaddX g d a b k) 6 4 (fun r c => (group A r c + (x s b).toNat) / 2 ^ (32 * (c % 4))) ∧
    words (.vrng g d a b k) 48 40 (fun r c => (philox 10 (word32 A r (c / 4 * 4)) (word32 A r (c / 4 * 4 + 1)) (word32 A r (c / 4 * 4 + 2))
      (word32 A r (c / 4 * 4 + 3)) (word32 B r (c / 4 * 4)) (word32 B r (c / 4 * 4 + 1))).getD (c % 4) 0)

/-- R225, R226, R237, R242, R243: compares, selection, single elements and masks. -/
def Sys2Proof.Claims.VectorElements : Prop :=
  ∀ (s : State) (g : BitVec 3) (d a b : BitVec 5) (k f p q : BitVec 3) (u y j : BitVec 1) (lo hi : BitVec 2) (row : BitVec 4), on s g → Free s →
    let w := viewWidth f
    let A := s.rv a.toNat
    let B := s.rv b.toNat
    let idx := (x s b).toNat % (32768 / w)
    -- VCMP on integers: bit i of Kd from the elements that word i holds
    (fmtOf f = none → ∃ r m, Vec (.vcmp g p a b k f u y) s 4 4 r ∧ Quiet r ∧ r.writes = [] ∧ r.xwrites = [] ∧ r.kwrites = [(p, m)] ∧
      ∀ i < 1024, let one (e : Nat) : Bool := intCond (u == 1) w k.toNat (elem A w e) (elem B w e)
        m.getLsbD i = if y = 1 then (List.range (32 / w)).any (fun t => one (32 / w * i + t)) else (List.range (32 / w)).all fun t => one (32 / w * i + t)) ∧
    (∀ fm, fmtOf f = some fm → ∃ r m, Vec (.vcmp g p a b k f u y) s (addT fm).1 (addT fm).2 r ∧ r.writes = [] ∧ r.xwrites = [] ∧ r.kwrites = [(p, m)] ∧
      r.flags = HwFlags.plain (Flags.union ((List.range (32768 / w)).map fun e =>
        (floatCond fm.base k.toNat (decodeF fm (elem A w e)) (decodeF fm (elem B w e))).2)) ∧
      ∀ i < 1024, let one (e : Nat) : Bool := (floatCond fm.base k.toNat (decodeF fm (elem A w e)) (decodeF fm (elem B w e))).1
        m.getLsbD i = if w = 64 then one (i / 2) else if y = 1 then (List.range (32 / w)).any (fun t => one (32 / w * i + t))
          else (List.range (32 / w)).all fun t => one (32 / w * i + t)) ∧
    -- VSEL copies bits and writes every element
    (fmtOf f = none ∨ j = 0 → ∃ r v, Vec (.vsel g d a b k f j) s (match fmtOf f with
        | some fm => (addT fm).1
        | none => 4) (match fmtOf f with
        | some fm => (addT fm).2
        | none => 4) r ∧ Quiet r ∧ OnlyV r ∧ r.writes = [v] ∧
      Lanes v (s.vphys d.toNat) w (BitVec.allOnes 1024) fun e => if (s.kmask k).getLsbD (w * e / 32) then elem A w e else elem B w e) ∧
    (∀ fm, fmtOf f = some fm → j = 1 → Floats (.vsel g d a b k f j) s (addT fm).1 (addT fm).2 (lin s.jk) d fm true (BitVec.allOnes 1024) fun e =>
      (List.range (s.jk + 1)).map fun c => (if (s.kmask k).getLsbD (w * e / 32) then elem (s.rv (field s true a c)) w e
        else elem (s.rv (field s true b c)) w e, Flags.none)) ∧
    -- VINS and VEXT
    (∃ r v, Vec (.vins g d a b f) s 6 2 r ∧ Quiet r ∧ OnlyV r ∧ r.writes = [v] ∧ v.reg = s.vphys d.toNat ∧
      ∀ (old : VImg), ∀ e < 32768 / w, elem (put v old) w e = if e = idx then (x s a).toNat % 2 ^ w else elem old w e) ∧
    (∃ r, Vec (.vext g d a b f u) s 6 2 r ∧ Quiet r ∧ r.writes = [] ∧ r.kwrites = [] ∧ r.krow = none ∧ r.latch = none ∧
      r.xwrites = [(d, if fmtOf f = none ∧ u = 0 then BitVec.ofInt 64 (toInt w (elem A w idx)) else BitVec.ofNat 64 (elem A w idx))]) ∧
    -- KLOG and KMOV
    (∃ r m, Vec (.klog g p q k lo hi) s 2 1 r ∧ Quiet r ∧ r.writes = [] ∧ r.xwrites = [] ∧ r.krow = none ∧ r.kwrites = [(p, m)] ∧
      ∀ i < 1024, m.getLsbD i = (lo ++ hi).getLsbD (2 * bit ((s.kmask q).getLsbD i) + bit ((s.kmask k).getLsbD i))) ∧
    (∃ r, Vec (.kmovToK g p a row) s 2 1 r ∧ Quiet r ∧ r.writes = [] ∧ r.xwrites = [] ∧ r.kwrites = [] ∧ r.krow = some (p, row.toNat, x s a)) ∧
    ∃ r, Vec (.kmovToX g d p row) s 2 1 r ∧ Quiet r ∧ r.writes = [] ∧ r.kwrites = [] ∧ r.krow = none ∧
      r.xwrites = [(d, (s.kmask p).extractLsb' (64 * row.toNat) 64)]

/-- R231, R232, R234, R235, R236, R260, R261: the movements of words, VIOTA and the counters. R225, R226, R237, R242, R243: compares, selection,
single elements and masks. -/
def Obligations.VectorMovementAndElements : Prop := Claims.VectorMovement ∧ Claims.VectorElements

/-- R231: the landing form of VMOV writes the sixteen words of one quarter row from the head of the queue, under the mask, and does not
advance it; with an empty head it raises SCHED in a TIMED group and waits in a PACED one. -/
def Obligations.VectorFromLanding : Prop :=
  ∀ (s : State) (g : BitVec 3) (d : BitVec 5) (q : BitVec 3) (r : BitVec 4) (k : BitVec 3) (t : BitVec 2), on s g →
    (∀ h rest, ((mine s).landq[fin 8 q.toNat]).flits = h :: rest → Free s →
      ∃ v w, Vec (.vmovL g d q r k t) s 4 4 v ∧ Quiet v ∧ OnlyV v ∧ v.writes = [w] ∧ w.reg = s.vphys d.toNat ∧
        ∀ (old : VImg), ∀ e < 1024, elem (put w old) 32 e =
          if 64 * r.toNat + 16 * t.toNat ≤ e ∧ e < 64 * r.toNat + 16 * t.toNat + 16 ∧ (s.kmask k).getLsbD e
          then (h.extractLsb' (32 * (e - (64 * r.toNat + 16 * t.toNat))) 32).toNat else elem old 32 e) ∧
    (((mine s).landq[fin 8 q.toNat]).flits = [] →
      (s.timed s.cur.core = true → Raises (.vmovL g d q r k t) s 7 0) ∧
      (s.timed s.cur.core = false → exec (.vmovL g d q r k t) s = .next (cur s fun k => { k with stall := true })))

/-- R233: reductions on integer views: each row, or each element column over the 16 rows, gives one value to all its governed elements. -/
def Obligations.VectorReduce : Prop :=
  ∀ (s : State) (g : BitVec 3) (d a o : BitVec 5) (k f : BitVec 3) (u x : BitVec 1), on s g → Free s →
    let w := viewWidth f
    let E := 2048 / w
    let un := u == 1
    let A (e : Nat) : Nat := elem (s.rv a.toNat) w e
    let val (e : Nat) : Int := if un then (A e : Int) else toInt w (A e)
    let row (e : Nat) : List Nat := (List.range E).map fun c => E * (e / E) + c
    let col (e : Nat) : List Nat := (List.range 16).map fun r => E * r + e % E
    let gives (i : Instr) (lanes : Nat → List Nat) (fn : List Nat → Nat) : Prop := GivesV i s 4 4 d w (s.kmask k) fun e => fn (lanes e)
    let both (fn : List Nat → Nat) : Prop := gives (.vredr g d a o k f u x) row fn ∧ gives (.vredc g d a o k f u x) col fn
    (fmtOf f = none →
      (o = 0 → both fun l => fits (x == 1) un w ((l.map val).sum)) ∧
      (o = 1 → ∃ fn, both fn ∧ ∀ l, l ≠ [] → ∃ e ∈ l, fn l = A e ∧ ∀ e' ∈ l, val e ≤ val e') ∧
      (o = 2 → ∃ fn, both fn ∧ ∀ l, l ≠ [] → ∃ e ∈ l, fn l = A e ∧ ∀ e' ∈ l, val e' ≤ val e) ∧
      (o = 3 → ∃ fn, both fn ∧ ∀ l, ∀ i < w, (fn l).testBit i = l.all fun e => (A e).testBit i) ∧
      (o = 4 → ∃ fn, both fn ∧ ∀ l, ∀ i < w, (fn l).testBit i = l.any fun e => (A e).testBit i) ∧
      (o = 5 → ∃ fn, both fn ∧ ∀ l, ∀ i < w, (fn l).testBit i = decide (l.countP (fun e => (A e).testBit i) % 2 = 1))) ∧
    ∀ fm, fmtOf f = some fm → o.toNat ≤ 2 →
      let jet := u == 1
      let one (l : List Nat) : List (Nat × Flags) :=
        if o = 0 then (List.range (order s jet + 1)).map fun c =>
          let v := sumRound fm (s.mode fm) (l.map fun e => decodeF fm (elem (s.rv (field s jet a c)) w e))
          (encodeF fm v.1, v.2)
        else jselect fm (o == 2) (order s jet + 1) 0 (l.map fun e => (List.range (order s jet + 1)).map fun c => elem (s.rv (field s jet a c)) w e)
      let m := if jet then lin (order s jet) else 1
      Floats (.vredr g d a o k f u x) s 10 4 m d fm jet (s.kmask k) (fun e => one (row e)) ∧
      Floats (.vredc g d a o k f u x) s 16 4 m d fm jet (s.kmask k) (fun e => one (col e))

/-- R78 and R80: while its own strand's last vector instruction holds the pipe, a vector instruction raises SCHED; while another strand's
does, its bundle cannot issue and it changes nothing else. -/
def Obligations.VectorPipeHeld : Prop :=
  ∀ (s : State) (g : BitVec 3) (d a b c : BitVec 5) (k f p : BitVec 3) (n : BitVec 4) (o : BitVec 10) (j x : BitVec 1) (l : BitVec 8) (q t : BitVec 2),
    on s g →
    let is : List Instr := [.vadd g d a b k f j x, .vsub g d a b k f j x, .vmul g d a b k f j x, .vfma g d a b c f, .vfms g d a b c f, .vfnma g d a b c f,
      .vdiv g d a b k f j, .vsqrt g d a k f j, .vrsq g d a k f j, .vrcp g d a k f j, .vmin g d a b k f j, .vmax g d a b k f j,
      .vabs g d a k f j x, .vneg g d a k f j x, .vcmp g p a b k f j x, .vsel g d a b k f j, .vexp g d a k j, .vlog g d a k j, .vsin g d a k j,
      .vcos g d a k j, .vtanh g d a k j, .verf g d a k j, .vsigm g d a k j, .vqtz g d a b k, .vcvt g d a b k c, .vand g d a b k f,
      .vor g d a b k f, .vxor g d a b k f, .vlop3 g d a b l, .vshl g d a b k f, .vshr g d a b k f, .vsar g d a b k f, .vfshl g d a b c f,
      .vfshr g d a b c f, .vpopc g d a k f, .vclz g d a k f, .vmov g d a k, .vbrow g d a n k, .vbcol g d a b k j, .vrotr g d a b k j,
      .vrotc g d a n k, .vredr g d a b k f j x, .vredc g d a b k f j x, .vtrn g d a k, .vperm g d a b k, .viota g d k f, .vins g d a b f,
      .vext g d a b f j, .vbmax g d a f q, .vqnt g d a b j q f t, .vdqnt g d a b q f t, .vld g d n k j o, .vst g d n o, .vldx g d a n k,
      .vstx g d a n k, .klog g p k f q t, .kmovToK g p a n, .kmovToX g d p n, .vrng g d a b k, .vcadd g d a b k, .vcaddX g d a b k,
      .jseed g d a b k f j, .jext g d a p k f j, .jcoefDiff g d a k f, .jcoefTrunc g d a p k f, .jcoefRescale g d a b k f]
    ∀ i ∈ is, Held i s
end
/-! ## Conversions, blocks, vector memory and jets -/

section
open Sys2Proof Sys2Proof.Machine Sys2Proof.Claims

/-- R251, R252, R218: VCVT between legal codes converts n elements, n of the wider format. A narrowing one writes the elements p · n to
p · n + n − 1 of the destination and keeps the others; a widening one reads the source elements from p · n on. Every converted element's
flags rise, and the lowest destination index that raises an enabled kind is the trap's. -/
def Sys2Proof.Claims.VectorConvert : Prop :=
  ∀ (s : State) (g : BitVec 3) (d a src : BitVec 5) (p : BitVec 3) (dst : BitVec 5), on s g → Free s → src.toNat ≤ 14 → dst.toNat ≤ 14 →
    let ws := cvtWidth src.toNat
    let wd := cvtWidth dst.toNat
    let n := 32768 / max ws wd
    let lo := if wd < ws then p.toNat * n else 0
    let cv (i : Nat) : Nat × Flags := cvtElem (s.mode .f32) (s.mode .d64) dst.toNat src.toNat (elem (s.rv a.toNat) ws (if ws < wd then p.toNat * n + i else i))
    let dec := src = 4 ∨ src = 14 ∨ dst = 4 ∨ dst = 14
    (lo + n) * wd ≤ 32768 →
      ∃ r w, ((dec → Vec (.vcvt g d a src p dst) s 48 32 r) ∧ (¬dec → Vec (.vcvt g d a src p dst) s 8 4 r)) ∧ OnlyV r ∧ r.writes = [w] ∧
        w.reg = s.vphys d.toNat ∧
        (∀ (old : VImg), ∀ e < 32768 / wd, elem (put w old) wd e = if lo ≤ e ∧ e < lo + n then (cv (e - lo)).1 % 2 ^ wd else elem old wd e) ∧
        r.flags = HwFlags.plain (Flags.union ((List.range n).map fun i => (cv i).2)) ∧
        ((∀ i < n, enabled s.fte 0 (cv i).2 = false) → r.trap = none) ∧
        ∀ i < n, enabled s.fte 0 (cv i).2 = true → (∀ t < i, enabled s.fte 0 (cv t).2 = false) →
          r.trap = some { cause := 3, taddr := BitVec.ofNat 64 (lo + i), coef := some 0 }

/-- R253, R254, R255, R33: the special cases of a conversion: NaN into an integer and into E2M1, infinities into an integer and into E4M3,
and integer to integer. -/
def Sys2Proof.Claims.ConversionCases : Prop :=
  ∀ (frm drm : Rnd) (src dst b : Nat) (fs : Fmt), cvtFmt src = some fs →
    ((decodeF fs b).isNan = true → 5 ≤ dst → dst ≤ 10 → cvtElem frm drm dst src b = (0, Flags.invalid)) ∧
    ((decodeF fs b).isNan = true → fs ≠ .d64 → cvtElem frm drm 13 src b = (0, Flags.invalid)) ∧
    (∀ neg, decodeF fs b = .inf neg → 5 ≤ dst → dst ≤ 10 → cvtElem frm drm dst src b =
      (ofInt (cvtWidth dst) (if neg then (cvtRange dst).1 else (cvtRange dst).2), Flags.invalid)) ∧
    (∀ neg, decodeF fs b = .inf neg → fs ≠ .d64 → cvtElem frm drm 11 src b = (if neg then 0xFE else 0x7E, { Flags.none with ovf := true, nx := true })) ∧
    (∀ si di, 5 ≤ si → si ≤ 10 → 5 ≤ di → di ≤ 10 → ∃ v : Nat, cvtElem frm drm di si b = (v, Flags.none) ∧
      v = ofInt (cvtWidth di) (max (cvtRange di).1 (min (cvtRange di).2 (cvtInt si b))))

/-- R251, R252, R218: VCVT between legal codes converts n elements, n of the wider format. A narrowing one writes the elements p · n to p · n + n − 1
of the destination and keeps the others; a widening one reads the source elements from p · n on. Every converted element's flags rise, and the lowest
destination index that raises an enabled kind is the trap's. R253, R254, R255, R33: the special cases of a conversion: NaN into an integer and into
E2M1, infinities into an integer and into E4M3, and integer to integer. -/
def Obligations.VectorConversions : Prop := Claims.VectorConvert ∧ Claims.ConversionCases

/-- R257, R258, R259: the block instructions. VBMAX writes the chosen scales and the latch, which the latch form of VQNT needs: it raises
SCHED where the latch was never written, is about to be, or was written for another format or target. VQNT writes the packed bytes into
its slot and keeps every other byte, never traps; VDQNT writes every element. -/
def Obligations.VectorBlocks : Prop :=
  ∀ (s : State) (g : BitVec 3) (d a b : BitVec 5) (f : BitVec 3) (sp : BitVec 1) (p t : BitVec 2), on s g → Free s → f.toNat ≤ 2 →
    let fm := blockFmt f
    let S := slotBytes fm
    let N := 32768 / fm.width
    let block (i : Nat) : List FVal := (List.range 32).map fun e => decodeF fm (elem (s.rv a.toNat) fm.width (32 * i + e))
    let lt := (me s).latch
    let unfit := sp = 0 ∧ (lt.valid = false ∨ s.latchInFlight = true ∨ lt.src ≠ f.truncate 2 ∨ lt.tgt ≠ t)
    (∃ r w, Vec (.vbmax g d a f t) s 6 4 r ∧ Quiet r ∧ r.kwrites = [] ∧ r.krow = none ∧ r.xwrites = [] ∧ r.writes = [w] ∧ w.reg = s.vphys d.toNat ∧
      (∀ old, ∀ i < 4096, elem (put w old) 8 i = if i < N / 32 then chosenScale t.toNat (block i) else 0) ∧
      ∃ l, r.latch = some l ∧ l.valid = true ∧ l.src = f.truncate 2 ∧ l.tgt = t ∧
        ∀ i < N / 32, (l.scales.extractLsb' (8 * i) 8).toNat = chosenScale t.toNat (block i)) ∧
    (unfit → Raises (.vqnt g d a b sp p f t) s 7 0) ∧
    (¬unfit → p.toNat * S + S ≤ 4096 →
      let scale (i : Nat) : Nat := if sp = 1 then elem (s.rv b.toNat) 8 i else (lt.scales.extractLsb' (8 * i) 8).toNat
      let bs := (List.range (N / 32)).map fun i => quantBlock t.toNat (sp == 1) (scale i) (block i)
      let bytes := packBlocks t.toNat bs
      ∃ r w, Vec (.vqnt g d a b sp p f t) s 10 4 r ∧ OnlyV r ∧ r.trap = none ∧ r.writes = [w] ∧ w.reg = s.vphys d.toNat ∧ bytes.length ≤ S ∧
        (∀ old, ∀ i < 4096, elem (put w old) 8 i =
          if p.toNat * S ≤ i ∧ i < p.toNat * S + bytes.length then bytes.getD (i - p.toNat * S) 0 % 256 else elem old 8 i) ∧
        r.flags.qflags = BitVec.ofNat 64 (qUpdate bs).1 ∧ r.flags.counts = (qUpdate bs).2 ∧
        (r.flags.fsr = 0 ∨ r.flags.fsr = 16) ∧ (r.flags.fsr = 16 ↔ ∃ q ∈ bs, q.nv = true)) ∧
    (p.toNat * S + S ≤ 4096 →
      let byte (i : Nat) : Byte := BitVec.ofNat 8 (elem (s.rv a.toNat) 8 (p.toNat * S + i))
      let val (e : Nat) : FVal :=
        if t = 3 then (decodeI4x ((List.range 19).map fun i => byte (19 * (e / 32) + i))).1.getD (e % 32) (.fin false 0 0)
        else if elem (s.rv b.toNat) 8 (e / 32) = 255 then .nan e4m3Payload false
        else (decodeF (targetFmt t.toNat) (if t = 2 then (byte (e / 2)).toNat / 16 ^ (e % 2) % 16 else (byte e).toNat)).scaled (elem (s.rv b.toNat) 8 (e / 32))
      ∃ r w, Vec (.vdqnt g d a b p f t) s 10 4 r ∧ OnlyV r ∧ r.writes = [w] ∧
        Lanes w (s.vphys d.toNat) fm.width (BitVec.allOnes 1024) (fun e => encodeF fm (roundVal fm .rne (val e)).1) ∧
        r.flags.fsr = BitVec.ofNat 64 (Flags.union ((List.range N).map fun e => (roundVal fm .rne (val e)).2)).code ∧
        ((∀ e < N, enabled s.fte 0 (roundVal fm .rne (val e)).2 = false) → r.trap = none))

/-- R238, R239, R240, R79: vector loads and stores check at issue, in the rule's order, and put their reads and writes of issue + 6 on the
agenda. A store to a region that is pinned, by an MMA of its own bundle too, raises SCHED (R292); a last-read mark is checked after the load's own address. -/
def Obligations.VectorMemory : Prop :=
  ∀ (s : State) (g : BitVec 3) (d r : BitVec 5) (n : BitVec 4) (k : BitVec 3) (m : BitVec 1) (o : BitVec 10), on s g → Free s →
    let held := self s fun t => { t with pipeBusy := t.lt + 4 }
    let heldX := self s fun t => { t with pipeBusy := t.lt + 16 }
    let fault (adr : Int) (size al : Nat) : Option Nat :=
      if adr < 0 ∨ 0xC0000 < adr + size ∨ (0xBC000 < adr + size ∧ s.cur.level = .user) then some 5 else if adr % al ≠ 0 then some 6 else none
    let adr : Int := ((Claims.a s n).toNat : Int) + 64 * o.toInt
    let mark := (Claims.a s 15).toNat
    let markBad := m = 1 ∧ (mark % 16 ≠ 0 ∨ 0xC0000 < mark + 16 ∨ (0xBC000 < mark + 16 ∧ s.cur.level = .user))
    let row (i : Nat) : Int := ((Claims.a s n).toNat : Int) + i * (x s r).toInt
    let rows := (List.range 16).map fun i => (row i).toNat
    (∀ c, fault adr 4096 64 = some c → Raises (.vld g d n k m o) s c (BitVec.ofInt 64 adr) ∧ Raises (.vst g d n o) s c (BitVec.ofInt 64 adr)) ∧
    (fault adr 4096 64 = none → markBad → Raises (.vld g d n k m o) s 5 (Claims.a s 15)) ∧
    (fault adr 4096 64 = none → ¬markBad → exec (.vld g d n k m o) s =
      .next (due held 6 7 (.vload adr.toNat (s.vphys d.toNat) (maskBits (s.kmask k) 32) (if m = 0 then none else some mark)))) ∧
    (fault adr 4096 64 = none → s.meetsPin adr.toNat 4096 = true → Raises (.vst g d n o) s 7 0) ∧
    (fault adr 4096 64 = none → s.meetsPin adr.toNat 4096 = false →
      exec (.vst g d n o) s = .next (due held 6 8 (.vstore adr.toNat (s.rv d.toNat)))) ∧
    (∀ i < 16, ∀ c, fault (row i) 256 4 = some c → (∀ j < i, fault (row j) 256 4 = none) →
      Raises (.vldx g d r n k) s c (BitVec.ofInt 64 (row i)) ∧ Raises (.vstx g d r n k) s c (BitVec.ofInt 64 (row i))) ∧
    ((∀ i < 16, fault (row i) 256 4 = none) →
      let pin := ∃ i < 16, ∃ c < 64, (s.kmask k).getLsbD (64 * i + c) = true ∧ s.meetsPin ((row i).toNat + 4 * c) 4 = true
      exec (.vldx g d r n k) s = .next (due heldX 6 7 (.vloadx rows 0 (s.vphys d.toNat) (maskBits (s.kmask k) 32) 0)) ∧
      (pin → Raises (.vstx g d r n k) s 7 0) ∧
      (¬pin → exec (.vstx g d r n k) s = .next (due heldX 6 8 (.vstorex rows 0 (s.kmask k) (s.rv d.toNat)))))

/-- R276, R277, R278: the jet instructions. -/
def Obligations.JetInstructions : Prop :=
  ∀ (s : State) (g : BitVec 3) (d a b : BitVec 5) (n k f : BitVec 3) (dir : BitVec 1) (fm : Fmt), on s g → Free s → fmtOf f = some fm →
    fm = .f32 ∨ fm = .f64 ∨ fm = .d64 →
    let w := fm.width
    let G := s.jg
    let K := s.jk
    let m := s.mode fm
    let one : Nat := if fm = .f64 then 0x3FF0000000000000 else if fm = .d64 then 0x31C0000000000001 else 0x3F800000
    let none_ : Nat := if fm = .d64 then 0x31C0000000000000 else 0
    let copies (i : Instr) (fn : Nat → Nat → Nat) : Prop :=
      ∃ r, Vec i s (4 + 4 * (G - 1)) (4 * G) r ∧ Quiet r ∧ OnlyV r ∧ r.writes.length = G ∧
        ∀ c v, r.writes[c]? = some v → Lanes v (s.vphys (G * d.toNat + c)) w (s.kmask k) (fn c)
    let V (r : Nat) (e : Nat) : Nat := elem (s.rv r) w e
    let J (c e : Nat) : Nat := V (G * a.toNat + c) e
    copies (.jseed g d a b k f dir) (fun c e => if c = 0 then V a.toNat e else if c = 1 ∧ 1 ≤ K then (if dir = 1 then V b.toNat e else one) else none_) ∧
    copies (.jcoefTrunc g d a n k f) (fun c e => if c ≤ n.toNat ∧ c ≤ K then J c e else none_) ∧
    (∃ r v, Vec (.jext g d a n k f 0) s 4 4 r ∧ Quiet r ∧ OnlyV r ∧ r.writes = [v] ∧
      Lanes v (s.vphys d.toNat) w (s.kmask k) fun e => if K < n.toNat then none_ else J n.toNat e) ∧
    Floats (.jext g d a n k f 1) s (mulT fm).1 (mulT fm).2 1 d fm false (s.kmask k) (fun e =>
      if K < n.toNat then [(none_, Flags.none)]
      else encoded fm [coef fm m [⟨([1, 1, 2, 6, 24, 120, 720, 5040] : List Int).getD n.toNat 0, [decodeF fm (J n.toNat e)]⟩] none]) ∧
    Floats (.jcoefDiff g d a k f) s (mulT fm).1 (mulT fm).2 (lin K) d fm true (s.kmask k) (fun e => encoded fm ((List.range (K + 1)).map fun c =>
      coef fm m [⟨(c + 1 : Nat), [if c < K then decodeF fm (J (c + 1) e) else .fin false 0 0]⟩] none)) ∧
    Floats (.jcoefRescale g d a b k f) s (mulT fm).1 (mulT fm).2 (lin K) d fm true (s.kmask k) (fun e => (List.range (K + 1)).map fun c =>
      if c = 0 then (J 0 e, Flags.none)
      else
        let v := coef fm m [⟨1, decodeF fm (J c e) :: List.replicate c (decodeF fm (V b.toNat e))⟩] none
        (encodeF fm v.1, v.2))

end
/-! ## Effects when they fall due -/

namespace Sys2Proof.Claims
open Sys2Proof.Machine

/-- Every core but c, and what no core holds, is in t as in s. -/
def OnlyCore (s t : State) (c : Fin 256) : Prop := ∃ k : Core, t = { s with cores := s.cores.set c k c.isLt }

/-- Byte i of a number. -/
def byteOf (v i : Nat) : Byte := BitVec.ofNat 8 (v / 256 ^ i)

end Sys2Proof.Claims

section
open Sys2Proof Sys2Proof.Machine Sys2Proof.Claims

/-- R75, R76, R173: a due write of an X, A or P register gives it its value and changes nothing else; one to X0 or P0 changes nothing. -/
def Sys2Proof.Claims.RegisterWritesLand : Prop :=
  ∀ (s : State) (it : Item) (c : Fin 256) (j : Fin 4) (pc : Nat) (pos : Fin 4) (v : Word) (b : Bool),
    (∀ d : BitVec 5, ∀ e ∈ [Eff.x d v, Eff.quot d v, Eff.loaded false d v, Eff.xret d 0 0 (some v)],
      let t := s.applyEff it c j pc pos e
      (d = 0 → ∀ r, (t.strand c j).rx r = (s.strand c j).rx r) ∧
      (∀ r, (t.strand c j).rx r = if r = d ∧ d ≠ 0 then v else (s.strand c j).rx r) ∧
      t = s.onStrand c j fun u => { u with x := (t.strand c j).x }) ∧
    (∀ d : BitVec 4, ∀ e ∈ [Eff.a d v, Eff.loaded true (d.zeroExtend 5) v],
      let t := s.applyEff it c j pc pos e
      (∀ r, (t.strand c j).ra r = if r = d then v else (s.strand c j).ra r) ∧ t = s.onStrand c j fun u => { u with a := (t.strand c j).a }) ∧
    (∀ d : BitVec 3, let t := s.applyEff it c j pc pos (.p d b);
      (∀ r, (t.strand c j).rp r = if r = d ∧ d ≠ 0 then b else (s.strand c j).rp r) ∧
      t = s.onStrand c j fun u => { u with p := (t.strand c j).p })

/-- R211, R238, R240, R241: a store gives its bytes their values and changes no other byte of any memory; a VSTX row only the words its mask
allows. A load reads at its cycle, sign-extending where it is told, and its register is due two, or four, cycles later; a last-read mark arrives at its barrier
with the read (R239); VLDX reads a row a cycle, and its register is due one cycle after the last. -/
def Sys2Proof.Claims.LoadsAndStoresPerform : Prop :=
  ∀ (s : State) (it : Item) (c : Fin 256) (j : Fin 4) (pc : Nat) (pos : Fin 4) (adr size : Nat) (v : Word) (img : VImg),
    let spm (t : State) (a : Nat) : Byte := (t.core c).spm.read1 a
    let later (n ph : Nat) (e : Eff) : State := { s with agenda := s.agenda ++
      [{ it with due := it.due + n, phase := ph, act := .eff c j pc pos e }] }
    (let t := s.applyEff it c j pc pos (.store adr size v);
      (∀ a, spm t a = if adr ≤ a ∧ a < adr + size then byteOf v.toNat (a - adr) else spm s a) ∧
      ∃ m, t = s.onCore c fun k => { k with spm := m }) ∧
    (let t := s.applyEff it c j pc pos (.vstore adr img);
      (∀ a, spm t a = if adr ≤ a ∧ a < adr + 4096 then byteOf img.toNat (a - adr) else spm s a) ∧
      ∃ m, t = s.onCore c fun k => { k with spm := m }) ∧
    (∀ (rows : List Nat) (i : Nat) (k : KMask), i < 16 →
      let t := s.applyEff it c j pc pos (.vstorex rows i k img);
      let r := rows.getD i 0;
      (∀ a, spm t a = if r ≤ a ∧ a < r + 256 ∧ k.getLsbD (64 * i + (a - r) / 4) = true then byteOf img.toNat (256 * i + (a - r)) else spm s a) ∧
      ∃ m, t = (if i < 15 then later 1 8 (.vstorex rows (i + 1) k img) else s).onCore c fun k => { k with spm := m }) ∧
    (∀ (toA : Bool) (d : BitVec 5), size ≤ 8 →
      ∃ w : Word, s.applyEff it c j pc pos (.load adr size false toA d) = later 2 2 (.loaded toA d w) ∧
        ∀ i < 8, byteOf w.toNat i = if i < size then spm s (adr + i) else 0) ∧
    (∀ (toA : Bool) (d : BitVec 5), 0 < size → size ≤ 8 →
      ∃ w : Word, s.applyEff it c j pc pos (.load adr size true toA d) = later 2 2 (.loaded toA d w) ∧
        ∀ i < 8, byteOf w.toNat i = if i < size then spm s (adr + i) else if (spm s (adr + size - 1)).msb then 0xFF else 0) ∧
    ∀ (reg : Nat) (mask : VImg),
      (∃ w, w.reg = reg ∧ w.mask = mask ∧ (∀ i < 4096, elem w.val 8 i = (spm s (adr + i)).toNat) ∧
        s.applyEff it c j pc pos (.vload adr reg mask none) = later 4 2 (.vloaded w) ∧
        ∀ b, (∀ u ∈ (s.core c).arrived, u.1 ≠ b) → ∃ t, s.applyEff it c j pc pos (.vload adr reg mask (some b)) = t ∧
          (t.core c).arrived = (s.core c).arrived ++ [(b, 1, 0)] ∧ t.agenda = (later 4 2 (.vloaded w)).agenda ++
            [{ clk := .time, due := s.time, phase := 12, core := c.val, seq := s.seq, act := .btestAll c b }] ∧
          (t.core c).spm = (s.core c).spm ∧ (t.core c).v = (s.core c).v ∧ (t.core c).strands = (s.core c).strands ∧ ∀ m, m ≠ c → t.core m = s.core m) ∧
      ∀ (rows : List Nat) (i : Nat) (acc : VImg), i < 16 → ∃ g : VImg,
        (∀ n < 4096, elem g 8 n = if n / 256 = i then elem acc 8 n ||| (spm s (rows.getD i 0 + n % 256)).toNat else elem acc 8 n) ∧
        s.applyEff it c j pc pos (.vloadx rows i reg mask acc) =
          if i < 15 then later 1 7 (.vloadx rows (i + 1) reg mask g) else later 1 2 (.vloaded { reg, mask, val := g })

/-- R75, R76, R173: a due write of an X, A or P register gives it its value and changes nothing else; one to X0 or P0 changes nothing. R211, R238,
R240, R241: a store gives its bytes their values and changes no other byte of any memory; a VSTX row only the words its mask allows. A load reads at
its cycle, sign-extending where it is told, and its register is due two, or four, cycles later; a last-read mark arrives at its barrier with the read
(R239); VLDX reads a row a cycle, and its register is due one cycle after the last. -/
def Obligations.EffectsLand : Prop := Claims.RegisterWritesLand ∧ Claims.LoadsAndStoresPerform

/-- R218, R219, R75: at its check point a vector result raises its flags in FSR, JFL and QSTAT; with no trap and no failed residue check its
registers are written one cycle later, each write under its mask, and nothing else changes. With a trap nothing is written: a live strand outside a
handler takes it with the traps of the cycle, in the core's turn of the issue phase or, where that is over, at once; one in a handler takes it as a double
trap (R428, R430). -/
def Obligations.VectorResultLands : Prop :=
  ∀ (s : State) (it : Item) (c : Fin 256) (j : Fin 4) (pc : Nat) (pos : Fin 4) (r : VRes),
    let flagged := s.flagUpdate c j r.flags
    let csr := (flagged.strand c j).csr
    let old := (s.strand c j).csr
    csr.fsr = old.fsr ||| r.flags.fsr ∧ csr.jfl = old.jfl ||| r.flags.jfl ∧
    flagged = s.onStrand c j (fun t => { t with csr := { old with fsr := csr.fsr, jfl := csr.jfl, qstat := csr.qstat } }) ∧
    (r.trap = none → r.check = none ∨ ((s.core c).errV.headD [] = [] ∧ (s.core c).errV = []) →
      s.applyEff it c j pc pos (.res r) = { flagged with agenda := flagged.agenda ++ [{ it with due := it.due + 1, phase := 2, act := .eff c j pc pos (.vdone r) }] }) ∧
    (∀ i, r.trap = some i →
      let p : Pend := { slot := pos, pc, info := i, order := it.seq, ring := r.ring }
      let u := s.applyEff it c j pc pos (.res r)
      let waits := flagged.onStrand c j fun t => { t with pending := t.pending ++ [p] }
      ((s.strand c j).life ≠ .live → u = flagged) ∧
      ((s.strand c j).life = .live → (s.strand c j).trapped = true → u = flagged.takeTrap c j p) ∧
      ((s.strand c j).life = .live → (s.strand c j).trapped = false →
        (s.iss ≤ c.val → u = waits) ∧ (c.val < s.iss → u = waits.takePending c j))) ∧
    (OnlyV r → ∀ w, r.writes = [w] →
      let t := s.applyEff it c j pc pos (.vdone r)
      (t.core c).v[fin 32 w.reg] = put w (s.core c).v[fin 32 w.reg] ∧
      (∀ n : Fin 32, n ≠ fin 32 w.reg → (t.core c).v[n] = (s.core c).v[n]) ∧
      t = s.onCore c fun k => { k with v := (t.core c).v })

/-- R330 to R338: the barrier instructions check MISALIGN, ADDR, then SCHED on a barrier that is not OPEN (BINIT, BTEST: on none); from then on the
barrier's DUE is watched (R332). They put the operation of issue + 2 on the agenda; BINIT of a count word that is 0 or has bits above 16 raises SCHED
with TADDR 0 (R427); BWAIT lets its bundle issue when the phase differs from bit 0 of Xd. That DUE is watched from the first operation that names the
barrier, and TADDR 0 of a refused BINIT, are the model's choices (logs 83 and 82). -/
def Sys2Proof.Claims.BarrierInstructions : Prop :=
  ∀ (s : State) (g : BitVec 3) (d : BitVec 5) (n sc : BitVec 4) (cnt : BitVec 8), on s g →
    let off := (Claims.a s n).toNat
    let st := ((mine s).bar off).state
    let outside := 0xC0000 < off + 16 ∨ (0xBC000 < off + 16 ∧ s.cur.level = .user)
    let ok := off % 16 = 0 ∧ ¬outside
    let is : List Instr := [.barv g n cnt, .bexp g d n, .bwait g d n]
    let watched := s.onCore s.cur.core fun k => k.watch off
    (off % 16 ≠ 0 → ∀ i ∈ Instr.binit g d n sc :: .btest g d n :: is, Raises i s 6 (Claims.a s n)) ∧
    (off % 16 = 0 → outside → ∀ i ∈ Instr.binit g d n sc :: .btest g d n :: is, Raises i s 5 (Claims.a s n)) ∧
    (ok → st ≠ .isOpen → ∀ i ∈ is, Raises i s 7 (Claims.a s n)) ∧
    (ok → st = .isOpen → exec (.barv g n cnt) s = .next (due watched 2 11 (.arrive off cnt.toNat 0)) ∧
      exec (.bexp g d n) s = .next (due watched 2 10 (.bexp off (x s d))) ∧
      exec (.bwait g d n) s = .next (cur watched fun k =>
        if ((mine s).bar off).b12 % 2 = (x s d).toNat % 2 then { k with stall := true, bwait := some off } else k)) ∧
    (ok → ((x s d).toNat % 65536 = 0 ∨ (x s d).toNat / 65536 % 65536 ≠ 0) → Raises (.binit g d n sc) s 7 0) ∧
    (ok → (x s d).toNat % 65536 ≠ 0 → (x s d).toNat / 65536 % 65536 = 0 →
      exec (.binit g d n sc) s = .next (due watched 2 9 (.binit off ((x s d).extractLsb' 0 16) ((x s d).extractLsb' 32 32) sc))) ∧
    (ok →
      let clk := s.engClock s.cur.core s.cur.nested
      let slot (e : Eff) : Act := .eff s.cur.core s.cur.strand s.cur.pc s.cur.pos e
      let read : Item := { clk, due := s.now clk + 2, phase := 7, core := s.cur.core.val, seq := s.seq, act := slot (.btest off s.nextId) }
      let back : Item := { clk := .strand s.cur.core s.cur.strand, due := (me s).lt + 4, phase := 2, core := s.cur.core.val, seq := s.seq + 1,
                           act := slot (.xret d s.nextId 1 none) }
      exec (.btest g d n) s = .next
        { watched with
          nextId := s.nextId + 1
          agenda := s.agenda ++ (if d = 0 then [read] else [read, back])
          seq := s.seq + (if d = 0 then 1 else 2) })

/-- R331 to R336: BINIT sets the fields; the completion test of an OPEN barrier takes the cycle's arrivals off PEND and their bytes off PBYTES,
completes the phase when both are 0 (PEND := EXPECT, PHASE flipped, DUE := 0), and poisons the barrier when more arrive than are
expected. No other byte of any memory changes. BARRIER_DUE poisons a watched OPEN barrier whose DUE the TT has reached, on a core that a
group holds and whose TT does not stand in a freeze or slip. -/
def Sys2Proof.Claims.BarrierTest : Prop :=
  ∀ (k : Core) (a n by_ : Nat), k.arrived = [(a, n, by_)] → by_ < 2 ^ 32 →
    let b := k.bar a
    let t := k.barTest a
    let u := t.bar a
    (b.state ≠ .isOpen → t = { k with arrived := [] }) ∧
    (b.state = .isOpen → b.pend < n → u.state = .poisoned ∧ u.pend = b.pend ∧ u.pbytes = b.pbytes) ∧
    (b.state = .isOpen → n ≤ b.pend → b.pend = n → b.pbytes = by_ →
      u.pend = b.expect ∧ u.expect = b.expect ∧ u.pbytes = 0 ∧ u.due = 0 ∧ u.phase = 1 - b.phase ∧ u.state = .isOpen) ∧
    (b.state = .isOpen → n ≤ b.pend → ¬(b.pend = n ∧ b.pbytes = by_) →
      u.pend = b.pend - n ∧ u.expect = b.expect ∧ u.pbytes = (b.pbytes + 2 ^ 32 - by_) % 2 ^ 32 ∧ u.due = b.due ∧ u.phase = b.phase ∧ u.state = .isOpen) ∧
    t.arrived = [] ∧ (∀ p, p < a ∨ a + 16 ≤ p → t.spm.read1 p = k.spm.read1 p) ∧ t = { k with arrived := [], spm := t.spm } ∧
    (∀ (e : BitVec 16) (dv : BitVec 32) (sc : BitVec 4), sc.toNat ≤ 8 → e ≠ 0 →
      let v := (k.barInit a e dv sc).bar a
      v.pend = e.toNat ∧ v.expect = e.toNat ∧ v.pbytes = 0 ∧ v.due = dv.toNat ∧ v.phase = 0 ∧ v.state = .isOpen) ∧
    ∀ (s : State) (c : Fin 256), s.core c = k →
      (a ∈ k.bars → k.owner.isSome = true → s.frozen c = false → b.state = .isOpen → b.due ≠ 0 → b.due = k.tt % 2 ^ 32 →
        ∃ s', exec (.barrierDue c a) s = .next s' ∧ ((s'.core c).bar a).state = .poisoned ∧
          (∀ p, p < a ∨ a + 16 ≤ p → (s'.core c).spm.read1 p = k.spm.read1 p) ∧ ∃ m, s' = s.onCore c fun k => { k with spm := m }) ∧
      (b.state ≠ .isOpen → exec (.barrierDue c a) s = .next s)

/-- R330 to R338: the barrier instructions check MISALIGN, ADDR, then SCHED on a barrier that is not OPEN (BINIT, BTEST: on none); from then on the
barrier's DUE is watched (R332). They put the operation of issue + 2 on the agenda; BINIT of a count word that is 0 or has bits above 16 raises SCHED
with TADDR 0 (R427); BWAIT lets its bundle issue when the phase differs from bit 0 of Xd. That DUE is watched from the first operation that names the
barrier, and TADDR 0 of a refused BINIT, are the model's choices (logs 83 and 82). R331 to R336: BINIT sets the fields; the completion test of an OPEN
barrier takes the cycle's arrivals off PEND and their bytes off PBYTES, completes the phase when both are 0 (PEND := EXPECT, PHASE flipped, DUE := 0),
and poisons the barrier when more arrive than are expected. No other byte of any memory changes. BARRIER_DUE poisons a watched OPEN barrier whose DUE
the TT has reached, on a core that a group holds and whose TT does not stand in a freeze or slip. -/
def Obligations.Barriers : Prop := Claims.BarrierInstructions ∧ Claims.BarrierTest

end
/-! ## Realigning, launching, checkpoints, drift and the return from a trap -/

section
open Sys2Proof Sys2Proof.Machine Sys2Proof.Claims

/-- R170 and R171: a REALIGN makes its strand wait, with the cycle and the TT of its issue. The freeze point of a TIMED group comes down to the TT after a
common REALIGN, which is one that every member waits in, but for those that have yet to come to its TT or to issue there (that reading of the rule is
the model's: log 206). REALIGN.join waits so in a TIMED group of level 4 that cannot be pre-empted,
with a joint level of 6 or 7 and an index below the count, and raises SCHED otherwise. -/
def Obligations.RealignWaits : Prop :=
  ∀ (s : State) (g : BitVec 3) (d a : BitVec 5), on s g →
    let tt := (mine s).tt
    let w := x s a
    let waits (r : State) (v : Wait) : State := self r fun t => { t with wait := v }
    let keepsGroup (r : State) : Prop := ∀ k gr, s.owner? s.cur.core = some (k, gr) →
      ∃ k' gr', r.owner? s.cur.core = some (k', gr') ∧ gr'.freeze = gr.freeze ∧ gr'.members = gr.members
    let joins := ∃ k gr, s.owner? s.cur.core = some (k, gr) ∧ k.record.timed = true ∧ gr.level = 4 ∧ k.record.preemptible = false ∧
      (bits w.toNat 24 8 = 6 ∨ bits w.toNat 24 8 = 7) ∧ bits w.toNat 0 12 < bits w.toNat 12 12
    (s.timed s.cur.core = false →
      exec (.realign g d) s = .next (waits s (.realign d false s.cyc tt)) ∧ exec (.realignP g d) s = .next (waits s (.realign d true s.cyc tt))) ∧
    (s.timed s.cur.core = true →
      (∃ ks, exec (.realign g d) s = .next (waits { s with kernels := ks } (.realign d false s.cyc tt)) ∧ keepsGroup { s with kernels := ks }) ∧
      ∃ ks, exec (.realignP g d) s = .next (waits { s with kernels := ks } (.realign d true s.cyc tt)) ∧ keepsGroup { s with kernels := ks }) ∧
    (joins → ∃ ks, exec (.realignJoin g d a) s = .next (waits { s with kernels := ks } (.join d w s.cyc tt)) ∧ keepsGroup { s with kernels := ks }) ∧
    (¬joins → Raises (.realignJoin g d a) s 7 0) ∧
    ∀ (k : Kernel) (gp : Nat) (gr : Group) (f : Nat) (z : Option Nat), gr.freeze = some (f, z) →
      let common (r : Nat × Nat × Word) : Prop := (∃ m ∈ gr.members, (s.strand m 0).realignAt = some r) ∧ ∀ m ∈ gr.members,
        (s.strand m 0).realignAt = some r ∨ (s.core m).tt < r.1 ∨ ((s.core m).tt = r.1 ∧ (s.core m).causes ≠ [])
      (∀ r, common r → (∀ r', common r' → r.1 ≤ r'.1) → r.1 + 1 < f →
        s.lowerFreeze k gp gr = s.onGroup k.kid gp fun h => { h with freeze := some (r.1 + 1, none) }) ∧
      ((∀ r, common r → f ≤ r.1 + 1) → s.lowerFreeze k gp gr = s)

/-- R149, R410, R357: LAUNCH checks its record's address, then puts an entry among the core's eight, HELD in step mode (R152), its record to be
read at issue + 2; with the eight full it leaves no record to read, and the bell answers 0. DRIFT belongs to FIRM: its step joins the next bell with CYC > issue + 2, which Xd gives.
CKPT and CKPT.off put a request on the context for the bell, every page of a CKPT being translated and LOGGED, and raise SCHED in a PAIR
kernel and for a count of 0 or above 65,536. -/
def Obligations.LaunchDriftCheckpoint : Prop :=
  ∀ (s : State) (g : BitVec 3) (d a b : BitVec 5) (n : BitVec 4) (q : BitVec 6) (m : BitVec 1), on s g →
    let c := s.cur.core
    let off := (Claims.a s n).toNat
    let bad := off % 64 ≠ 0 ∨ 0xC0000 < off + 128 ∨ (0xBC000 < off + 128 ∧ s.cur.level = .user)
    let bell := (s.cyc + 2) / 4096 * 4096 + 4096
    let clk := s.engClock c s.cur.nested
    let item (clk : Clock) (t phase : Nat) (e : Eff) : Item := { clk, due := t, phase, core := c.val, seq := s.seq, act := .eff c s.cur.strand s.cur.pc 0 e }
    let asks (off : Bool) (ps : List Nat) (i : Instr) : Prop := ∃ kid, exec i s = .next { s with
      seq := s.seq + 1,
      ctxs := upd s.ctxs (s.ctxOf c) fun k => { k with ckpts := k.ckpts ++
        [{ core := c, strand := s.cur.strand, kid, d, off, pages := ps, order := s.seq, at_ := s.cyc }] } }
    let pages := (chunks (x s a).toNat (65536 * (x s b).toNat)).map (·.1)
    (bad → Raises (.launch g d n q) s 5 (Claims.a s n)) ∧
    let held := ((mine s).launches.filter fun l => !l.full).length
    (¬bad → held < 8 → ∃ l : Launch, l.strand = s.cur.strand ∧ l.d = d ∧ l.queue.val = q.toNat ∧ l.bytes = [] ∧ l.full = false ∧
      l.held = s.stepping c ∧ l.order = s.seq ∧ l.at_ = s.cyc ∧ l.from_ = s.cyc + 2 ∧ l.addr = off ∧ exec (.launch g d n q) s = .next ({ s with
        seq := s.seq + 1, agenda := s.agenda ++ [item clk (s.now clk + 2) 7 (.launchRead off s.seq)] }.onCore c
        fun k => { k with launches := k.launches ++ [l] })) ∧
    (¬bad → 8 ≤ held → ∃ l : Launch, l.strand = s.cur.strand ∧ l.d = d ∧ l.bytes = [] ∧ l.full = true ∧ l.held = s.stepping c ∧
      l.order = s.seq ∧ l.at_ = s.cyc ∧ l.from_ = s.cyc + 2 ∧ exec (.launch g d n q) s = .next ({ s with seq := s.seq + 1 }.onCore c
        fun k => { k with launches := k.launches ++ [l] })) ∧
    (s.cur.level ≠ .firm → Raises (.drift g d m) s 2 0) ∧
    (s.cur.level = .firm →
      let step : Int := if m = 1 then -1 else 1
      let t : State := if bell = s.nextBell then { s with drift := s.drift + step } else { s with drift2 := s.drift2 + step }
      exec (.drift g d m) s = .next (if d = 0 then t else due t 2 2 (.x d (BitVec.ofNat 64 bell)))) ∧
    (s.isPair c = true → Raises (.ckpt g d a b) s 7 0 ∧ Raises (.ckptOff g d) s 7 0) ∧
    ((x s b).toNat = 0 ∨ 65536 < (x s b).toNat → Raises (.ckpt g d a b) s 7 0) ∧
    (s.isPair c = false → asks true [] (.ckptOff g d)) ∧
    (s.isPair c = false → 0 < (x s b).toNat → (x s b).toNat ≤ 65536 →
      (∀ p ∈ pages, (∃ r, s.resolve false p 1 = .run r false) ∧ (s.loggedPage p).isSome = true) →
        asks false (pages.filterMap s.loggedPage) (.ckpt g d a b))

/-- R438 and R439: RFT in a handler, with a flight-save area that it accepts, takes the strand back at the end of its bundle, once the bundle's other slots have
acted. An area that it does not accept is a double trap: the kernel ends with SCHED, which is not raised in step mode (R151). At that end the level is
restored, the header's, but for FIRM outside context 0, which gives the level at trap entry (R127; log 183), and the strand is TRAPPED no more. With a return
still to come it then waits. Otherwise the due transfers and the wait that the trap saved are back, the strand goes on at NPC, at its earliest cycle, and every
captured X, A and P result is due at its remaining count from the next cycle; what the handler still holds of a unit it goes on holding; registers, CSRs and
memories stay. RFT.replay also has the trapping slot replayed, before the slots that were still to be replayed, an order that is the model's (log 48). -/
def Obligations.ReturnFromTrap : Prop :=
  ∀ (s : State) (g : BitVec 3) (replay : Bool),
    let c := s.cur.core
    let j := s.cur.strand
    let i : Instr := if replay then .rftReplay g else .rft g
    let area := s.flightEntries c j
    let good := flightOk area.1 area.2 (me s).hold = true
    let head (off n : Nat) : Nat := (mine s).spm.readNat (0xBC000 + 0x1000 * j.val + off) n
    let code := head 2 1
    let gives (d : Nat) (toA : Bool) (v : Word) (e : Eff) : Prop := e = .loaded toA (BitVec.ofNat 5 d) v ∨
      (if toA then e = .a (BitVec.ofNat 4 d) v else e = .x (BitVec.ofNat 5 d) v ∨ ∃ id r, e = .xret (BitVec.ofNat 5 d) id r (some v))
    let target (v : Nat) : Option Word := if v = 0 then none else some (BitVec.ofNat 64 (16 * (v - 1)))
    (on s g → s.cur.level ≠ .user → s.cur.nested = true →
      (good → exec i s = .next (cur s fun k => { k with back := some replay })) ∧
      (¬good → s.stepping c = true → exec i s = .next s) ∧
      (¬good → s.stepping c = false → ∀ o, (mine s).owner = some o → (∃ w, s.kernel? o.kid = some w ∧ w.fault = none ∧ w.halted = false) →
        ∃ t, exec i s = .next t ∧ ∀ w, t.kernel? o.kid = some w → ∃ r, w.fault = some r ∧ r.reason = 0 ∧ r.tcause = 7 ∧ r.tpc = s.cur.pc)) ∧
    (s.cur.back = some replay → s.cur.ends = false → (me s).life = .live →
      let t := s.finish
      let u := t.strand c j
      u.level = (if code = 0 then .user else if code = 2 then (if s.ctxOf c = 0 then .firm else (me s).hold.level) else .super) ∧ u.trapped = false ∧
      u.x = (me s).x ∧ u.a = (me s).a ∧ u.p = (me s).p ∧ u.k = (me s).k ∧ u.csr = (me s).csr ∧
      (me s).divBusy ≤ u.divBusy ∧ (me s).pipeBusy ≤ u.pipeBusy ∧
      (∀ it ∈ s.agenda, it ∈ t.agenda) ∧ (∀ m, (t.core m).spm = (s.core m).spm ∧ (t.core m).v = (s.core m).v ∧ (t.core m).bsram = (s.core m).bsram) ∧
      t.dev = s.dev ∧ t.near = s.near ∧ t.host = s.host ∧ t.cmds = s.cmds ∧ t.kernels = s.kernels ∧
      (s.returnsPending c j = true → u.wait = .rft replay ∧ t.agenda = s.agenda) ∧
      (s.returnsPending c j = false →
        u.pc = (me s).csr.npc ∧ u.wait = (me s).hold.wait ∧ u.latch = (me s).hold.latch ∧
        (¬(s.timed c = true ∧ s.stepping c = true) → u.base = (me s).lt + 2 + head 8 8) ∧
        u.due1.map (·.target) = target (head 4 2) ∧ u.due2.map (·.target) = target (head 6 2) ∧
        u.replay.map (fun r => (r.pc, r.pos)) = (if replay then [((me s).csr.tpc.toNat, fin 4 (me s).csr.tslot.toNat)] else []) ++
          (me s).hold.replay.map (fun r => (r.pc, r.pos)) ∧
        ∀ e ∈ area.2, (e.kind = 1 ∧ e.reg % 32 ≠ 0) ∨ e.kind = 2 ∨ e.kind = 3 →
          ∃ it ∈ t.agenda, it.clk = .strand c j ∧ it.due = (me s).lt + 1 + e.count ∧ it.phase = 2 ∧ ∃ act, it.act = .eff c j 0 0 act ∧
            (e.kind = 1 → gives e.reg false (BitVec.ofNat 64 e.value) act) ∧ (e.kind = 2 → gives e.reg true (BitVec.ofNat 64 e.value) act) ∧
            (e.kind = 3 → act = .p (BitVec.ofNat 3 e.reg) (e.value % 2 == 1))))

end
/-! ## The matrix engine at issue -/

namespace Sys2Proof.Claims
open Sys2Proof.Machine

/-- Engine clock, and the cycle on it at which a command entering a queue now starts: when the engine is free (R96). -/
def starts (s : State) (e : Engine) : Nat :=
  max (s.now (s.engineClock s.cur.core)) (if e = .matrix then (mine s).matFree else (mine s).copyFree)

/-- At s0 the instruction enters one command of the given body into the engine's queue, over the state s, with the core changed by f and
its engine booked for occ cycles; the command's start is on the agenda, and nothing else changes. -/
def EntersOver (i : Instr) (s0 s : State) (e : Engine) (occ : Nat) (body : Body) (f : Core → Core) : Prop :=
  let c := s.cur.core
  let books (m : Core) : Core :=
    if e = .matrix then { m with matFree := starts s e + occ, matTT := max m.tt m.matTT + occ }
    else { m with copyFree := starts s e + occ, copyTT := max m.tt m.copyTT + occ }
  ∃ (k : Cmd) (clk : Clock) (n : Nat),
    k.id = s.nextId ∧ k.core = c ∧ k.strand = s.cur.strand ∧ k.pc = s.cur.pc ∧ k.engine = e ∧ k.queued = true ∧ k.start = starts s e ∧
    k.occ = occ ∧ k.seq = s.seq ∧ k.body = body ∧
    (s.timed c = false → clk = .time ∧ n = starts s e) ∧
    (s.keepsTT c = true → s.cur.nested = false → clk = .tt c ∧ n = max (mine s).tt (if e = .matrix then (mine s).matTT else (mine s).copyTT)) ∧
    let it : Item := { clk, due := n, phase := 6, core := c.val, seq := s.seq, act := .ev (.commandStart s.nextId) };
    let t : State := { s with cmds := s.cmds ++ [k], nextId := s.nextId + 1, seq := s.seq + 1, agenda := s.agenda ++ [it] };
    exec i s0 = .next (t.onCore c fun m => books (f m))

/-- The same with nothing changed beforehand. -/
def Enters (i : Instr) (s : State) (e : Engine) (occ : Nat) (body : Body) (f : Core → Core) : Prop := EntersOver i s s e occ body f

/-- A stream descriptor, read by offset and size, that MSTRM refuses for a format code (R284, R287). -/
def BadDescriptor (f : Nat → Nat → Nat) (fmt : BitVec 4) : Prop :=
  let B := f 0x0B 1 % 2 = 1
  let S := f 0x0B 1 / 2 % 2 = 1
  let top := if B then 2 ^ 23 else 2 ^ 20
  let outOnly := 6 ≤ fmt.toNat
  8 ≤ f 0x0B 1 ∨ 16 ≤ f 0x1C 1 ∨ f 0x1D 1 ≠ 0 ∨ top ≤ f 0 4 ∨ (S ∧ top ≤ f 4 4) ∨ (¬S ∧ f 4 4 ≠ 0) ∨
  f 8 2 = 0 ∨ 8192 < f 8 2 ∨ (outOnly ∧ 96 < f 8 2) ∨ (S ∧ (3 ≤ fmt.toNat ∨ f 8 2 % 32 ≠ 0)) ∨
  (fmt = 3 ∧ f 8 2 % 32 ≠ 0) ∨ (fmt = 2 ∧ f 8 2 % 2 ≠ 0) ∨
  (B ∧ (f 0 4 % 6144 ≠ 0 ∨ f 4 4 % 6144 ≠ 0 ∨ f 0x14 4 % 6144 ≠ 0 ∨ f 0x18 4 % 6144 ≠ 0 ∨ f 0x0C 4 ≠ 0 ∨ f 0x10 4 ≠ 0 ∨ f 0x1E 2 ≠ 0 ∨ outOnly)) ∨
  (¬B ∧ (f 0 4 % 16 ≠ 0 ∨ f 0x0C 4 % 16 ≠ 0 ∨ f 0x18 4 % 16 ≠ 0 ∨ f 0x1E 2 % 16 ≠ 0)) ∨
  (if B then 95 else 63) < f 0x0A 1

/-- The end of SPM for the level of the bundle (R21). -/
def spmEnd (s : State) : Nat := if s.cur.level = .user then 0xBC000 else 0xC0000

/-- The lowest byte of some runs at or above a limit. -/
def Outside (limit : Nat) (rs : List (Nat × Nat)) (x : Nat) : Prop :=
  (∃ r ∈ rs, limit < r.1 + r.2 ∧ x = max r.1 limit) ∧ ∀ r ∈ rs, limit < r.1 + r.2 → x ≤ max r.1 limit

/-- A code of the cell sequence (R291). -/
def cellCode : Nat → CellStep
  | 0 => .mac | 1 => .ada | 2 => .mxp | _ => .mnp

end Sys2Proof.Claims

section
open Sys2Proof Sys2Proof.Machine Sys2Proof.Claims

/-- R284, R287, R288, R294, R308, R309: MSTRM checks address and descriptor and gives the stream register the descriptor's fields at issue + 2;
the bound and route registers are written and read at issue + 2; MSIG reads the signatures or the status word at issue + 4. -/
def Obligations.StreamInstructions : Prop :=
  ∀ (s : State) (g : BitVec 3) (d a : BitVec 4) (xd xa : BitVec 5) (fmt : BitVec 4) (r q : BitVec 3) (t sel : BitVec 2), on s g →
    let adr := (Claims.a s a).toNat
    let f (o n : Nat) : Nat := (mine s).spm.readNat (adr + o) n
    let bad := BadDescriptor f fmt
    let i : Instr := .mstrm g d a fmt
    let tl := (mine s).tiles[fin 4 t.toNat]
    (adr % 32 ≠ 0 → Raises i s 6 (Claims.a s a)) ∧
    (adr % 32 = 0 → spmEnd s < adr + 32 → Raises i s 5 (Claims.a s a)) ∧
    (adr % 32 = 0 → adr + 32 ≤ spmEnd s → bad → Raises i s 7 0) ∧
    (adr % 32 = 0 → adr + 32 ≤ spmEnd s → ¬bad → ∃ v : Stream, exec i s = .next (due s 2 2 (.sreg d v)) ∧
      v.fmt = fmt.toNat ∧ v.base = f 0 4 ∧ v.scale = f 4 4 ∧ v.k = f 8 2 ∧ v.rows = f 0x0A 1 ∧ (v.bsram = true ↔ f 0x0B 1 % 2 = 1) ∧ (v.scaled = true ↔ f 0x0B 1 / 2 % 2 = 1) ∧
      (v.pin = true ↔ f 0x0B 1 / 4 % 2 = 1) ∧ v.rowStride = f 0x0C 4 ∧ v.scaleStride = f 0x10 4 ∧ v.coefStride = f 0x14 4 ∧
      v.refBase = f 0x18 4 ∧ v.bound = f 0x1C 1 ∧ v.refStride = f 0x1E 2) ∧
    (∃ w : Word, exec (.mstrmBnd g d xa) s = .next (due s 2 2 (.bnd d w)) ∧
      ∀ n < 64, w.getLsbD n = if 34 ≤ n ∧ n < 47 then false else (x s xa).getLsbD n) ∧
    GivesX (.mstrmRbnd g xd a) s 2 xd (mine s).bnd[fin 16 a.toNat] ∧
    (∃ w : Word, exec (.mroute g r xa) s = .next (due s 2 2 (.rt r w)) ∧
      ∀ n < 64, w.getLsbD n = if n = 60 ∨ n = 61 ∨ 20 ≤ n ∧ n < 32 then false else (x s xa).getLsbD n) ∧
    GivesX (.mrouteRd g xd q) s 2 xd (mine s).rt[fin 8 q.toNat] ∧
    GivesX (.msig g xd t 0) s 4 xd tl.sigP ∧ GivesX (.msig g xd t 1) s 4 xd tl.sigS ∧
    (∃ w : Word, GivesX (.msig g xd t 2) s 4 xd w ∧ bits w.toNat 32 32 = tl.commits % 2 ^ 32 ∧ bits w.toNat 22 10 = 0 ∧
      bits w.toNat 20 2 = tl.seenCoef % 4 ∧ bits w.toNat 11 9 = (tl.seenAnc % 512).toNat ∧ bits w.toNat 7 4 = (tl.seenLen - 1) % 16 ∧
      bits w.toNat 6 1 = bit tl.arb ∧ bits w.toNat 3 3 = 0 ∧ bits w.toNat 2 1 = bit tl.seenMma ∧
      bits w.toNat 0 2 = (match tl.latest with | .none => 0 | .inPress => 1 | .committed => 2 | .discarded => 3)) ∧
    ∀ (it : Item) (c : Fin 256) (j : Fin 4) (pc : Nat) (pos : Fin 4) (v : Stream) (w : Word),
      s.applyEff it c j pc pos (.bnd d w) = s.onCore c (fun k => { k with bnd := upd k.bnd (fin 16 d.toNat) fun _ => w }) ∧
      s.applyEff it c j pc pos (.rt r w) = s.onCore c (fun k => { k with rt := upd k.rt (fin 8 r.toNat) fun _ => w }) ∧
      let u := (s.applyEff it c j pc pos (.sreg d v)).core c
      u.streams = upd (s.core c).streams (fin 16 d.toNat) (fun _ => v) ∧ u.spm = (s.core c).spm ∧ u.tiles = (s.core c).tiles

/-- R73, R96, R290, R295, R296, R297, R300, R303: MZERO, MCELL, MMA and MEPI at issue. With four entries in the matrix queue the bundle waits; a check
that fails raises its cause, in the rule's order, and enters no queue; otherwise the command enters with its occupancy, an MMA's pins begin, and it
counts against its tiles. That an output stream with K = 0 or above 96 raises SCHED is the model's choice (log 80). -/
def Obligations.MatrixQueue : Prop :=
  ∀ (s : State) (g : BitVec 3) (t init : BitVec 2) (anc : BitVec 9) (xa : BitVec 5) (n a b : BitVec 4) (J R : BitVec 1) (o ab : BitVec 4)
    (bi ro nl : BitVec 1) (re : BitVec 3), on s g →
    let c := s.cur.core
    let sa := (mine s).streams[fin 16 a.toNat]
    let sb := (mine s).streams[fin 16 b.toNat]
    let so := (mine s).streams[fin 16 o.toNat]
    let mma : Instr := .mma g t a b J R
    let mepi : Instr := .mepi g t o ab bi ro re nl
    let full := 4 ≤ s.queueUsed c .matrix
    let kstep : Nat := if sa.fmt = 4 then 64 else if sa.fmt = 5 then 128 else if 2 ≤ sa.fmt ∧ 2 ≤ sb.fmt then 256 else 128
    let pair := (sa.fmt < 4 ∧ sb.fmt < 4) ∨ (sa.fmt = 4 ∧ sb.fmt = 4) ∨ (sa.fmt = 5 ∧ sb.fmt = 5)
    let order := if J = 1 then s.jk else 0
    let bJet := J = 1 ∧ sb.coefStride ≠ 0
    let passes := if J = 0 then 1 else if bJet then (order + 1) * (order + 2) / 2 else order + 1
    let tiles := (List.range (order + 1)).map fun i => t.toNat + i
    let images (on : Prop) [Decidable on] : List Nat := if on then List.range (order + 1) else [0]
    let ra := mmaRuns sa (R == 1) (images (J = 1))
    let rb := mmaRuns sb (R == 1) (images bJet)
    let badStreams := sa.bsram = true ∨ sb.bsram = false ∨ sa.k ≠ sb.k ∨ ¬pair
    let badForm := (R = 1 ∧ (sa.fmt = 4 ∨ sa.fmt = 5 ∨ J = 1)) ∨
      (J = 1 ∧ (3 < order ∨ 3 < t.toNat + order ∨ (∃ q ∈ s.queuedSeq c t.toNat, q ≠ .mac) ∨ sa.coefStride = 0)) ∨
      ∃ i ∈ tiles, 2 ^ 26 ≤ ((mine s).tiles[fin 4 i]).count
    let lowest (p q : List (Nat × Nat)) (lp lq x : Nat) : Prop :=
      (Outside lp p x ∧ ∀ y, Outside lq q y → x ≤ y) ∨ (Outside lq q x ∧ ∀ y, Outside lp p y → x ≤ y)
    let bias := if bi = 1 then [((Claims.a s ab).toNat, 384)] else []
    let badOut := so.bsram = true ∨ (so.fmt = 5 ∧ so.scaled = true) ∨ so.k = 0 ∨ 96 < so.k ∨
      ((so.scaled = true ∨ so.fmt = 3) ∧ so.k % 32 ≠ 0) ∨ (so.fmt = 2 ∧ so.k % 2 ≠ 0)
    let w := (mine s).rt[fin 8 re.toNat]
    let inside := (∀ x, ¬Outside (spmEnd s) so.outRuns x) ∧ ∀ x, ¬Outside (spmEnd s) bias x
    let entryOk := rtKind w = 2 → rtLocal w = true ∧ rtCore w = c ∧ nl = 0 ∧ ((mine s).entry (fin 16 (rtIndex w))).st ≠ .idle
    (full → ∀ i ∈ [.mzero g t init anc, .mcell g t xa n, mma, mepi], exec i s = .next (cur s fun k => { k with stall := true })) ∧
    (¬full →
      Enters (.mzero g t init anc) s .matrix 1 (.mzero t.toNat init anc.toInt)
        (fun k => Core.hangPins { k with tiles := upd k.tiles (fin 4 t.toNat) fun tl => { tl with count := 0 } } t.toNat s.nextId) ∧
      (∃ q : List CellStep, q.length = n.toNat + 1 ∧ (∀ i ≤ n.toNat, q[i]? = some (cellCode (bits (x s xa).toNat (2 * i) 2))) ∧
        Enters (.mcell g t xa n) s .matrix 1 (.mcell t.toNat q) id) ∧
      (badStreams ∨ badForm → Raises mma s 7 0) ∧
      (¬badStreams → ¬badForm → ∀ x, lowest ra rb (spmEnd s) 0x600000 x → Raises mma s 5 (BitVec.ofNat 64 x)) ∧
      (¬badStreams → ¬badForm → (∀ x, ¬Outside (spmEnd s) ra x) → (∀ x, ¬Outside 0x600000 rb x) →
        let occ := 64 * ((sa.k + kstep - 1) / kstep) * (if R = 1 then 4 else 1) * passes
        Enters mma s .matrix occ (.mma { tile := t.toNat, a := sa, b := sb, jet := J == 1, ref := R == 1, k := order, occ, descs := [], dead := [], qmal := none })
          fun k => { k with
            pins := k.pins ++ mmaPins s.nextId tiles (a.toNat, sa) (b.toNat, sb) ra rb,
            tiles := tiles.foldl (fun ts i => upd ts (fin 4 i) fun tl => { tl with count := tl.count + 1 }) k.tiles }) ∧
      (badOut → Raises mepi s 7 0) ∧
      (¬badOut → ∀ x, lowest so.outRuns bias (spmEnd s) (spmEnd s) x → Raises mepi s 5 (BitVec.ofNat 64 x)) ∧
      (¬badOut → inside → bi = 1 → (Claims.a s ab).toNat % 4 ≠ 0 → Raises mepi s 6 (Claims.a s ab)) ∧
      (¬badOut → inside → (bi = 1 → (Claims.a s ab).toNat % 4 = 0) → ro = 1 → ∀ cause, s.routeFault c w so.imageBytes = some cause →
        Raises mepi s cause w) ∧
      (¬badOut → inside → (bi = 1 → (Claims.a s ab).toNat % 4 = 0) → (ro = 1 → s.routeFault c w so.imageBytes = none ∧ entryOk) →
        ((∃ r ∈ so.outRuns, (mine s).pinned .spm r.1 r.2 = true) → Raises mepi s 7 0) ∧
        ((∀ r ∈ so.outRuns, (mine s).pinned .spm r.1 r.2 = false) →
        Enters mepi s .matrix 64 (.mepi {
          tile := t.toNat, out := so, bias := if bi = 1 then some (Claims.a s ab).toNat else none,
          route := if ro = 1 then some w else none, nolocal := nl == 1, fte := s.fte, bnd := (mine s).bnd[fin 16 so.bound], init := AccElem.zero,
          anc := 0, coef := 0, biasW := [], fed := [], slot := none, flags := HwFlags.none, arith := none, fails := [], counted := false })
          fun k => k.hangPins t.toNat s.nextId)))

end
/-! ## The matrix engine, the press and the mender -/

namespace Sys2Proof.Claims
open Sys2Proof.Machine

/-- An accumulator's listed elements stand in order, each once, inside the tile. -/
def AccOrdered (a : Acc) : Prop := (a.elems.map (·.1)).Pairwise (· < ·) ∧ ∀ e ∈ a.elems, e.1 < 6144

/-- An event of command i n cycles of a clock from now. -/
def dueEv (s : State) (clk : Clock) (n phase core : Nat) (i : Instr) (t : State) : Prop :=
  ∃ it ∈ t.agenda, it.clk = clk ∧ it.due = s.now clk + n ∧ it.phase = phase ∧ it.core = core ∧ it.act = .ev i

/-- An item of the present cycle. -/
def nowAct (s : State) (phase : Nat) (a : Act) (t : State) : Prop :=
  ∃ it ∈ t.agenda, it.clk = .time ∧ it.due = s.time ∧ it.phase = phase ∧ it.act = a

/-- No other tile of the core, and none of its SPM, differs. -/
def OtherTiles (s t : State) (c : Fin 256) (n : Nat) : Prop :=
  (∀ m : Fin 4, m ≠ fin 4 n → (t.core c).tiles[m] = (s.core c).tiles[m]) ∧ (t.core c).spm = (s.core c).spm

end Sys2Proof.Claims

section
open Sys2Proof Sys2Proof.Machine Sys2Proof.Claims

/-- R52, R55, R96, R290, R295, R296, R298, R301: a queued matrix command that can start takes effect: MZERO gives every element of its tile the
initial value, in both arrays; MCELL the cell sequence; MMA its contributions occ + 16 cycles on, in both arrays; MEPI reads its snapshot
at + 16, folds at + 80 and comes to its verdict at + 100. One that cannot start waits a cycle. A term is the floor of the exact product. -/
def Obligations.MatrixCommands : Prop :=
  (∀ (s : State) (id : Nat) (k : Cmd), s.cmd? id = some k →
    let c := k.core
    let clk := s.engClock c k.nested
    let blocked := s.startBlocked c k.body = true
    let i : Instr := .commandStart id
    (k.queued = false → exec i s = .next s) ∧
    (k.queued = true → k.engine = .matrix → blocked → ∃ t, exec i s = .next t ∧ (∀ w, t.cmd? id = some w → w = { k with start := k.start + 1 }) ∧
      (t.core c).tiles = (s.core c).tiles) ∧
    (k.queued = true → k.engine = .matrix → ¬blocked →
      (∀ n init anc, k.body = .mzero n init anc → ∃ t, exec i s = .next t ∧ t.cmd? id = none ∧ OtherTiles s t c n ∧
        let tl := (t.core c).tiles[fin 4 n]
        tl.anc = anc ∧ tl.seq = [.mac] ∧ tl.coef = 0 ∧ ∀ m < 6144, tl.prim.at_ m = tl.shad.at_ m ∧ tl.prim.at_ m = { AccElem.zero with
          sum := BitVec.ofInt 168 (if init = 1 then -(2 : Int) ^ 127 else if init = 2 then (2 : Int) ^ 127 - 1 else 0) }) ∧
      (∀ n q, k.body = .mcell n q → ∃ t, exec i s = .next t ∧ t.cmd? id = none ∧ OtherTiles s t c n ∧
        (t.core c).tiles[fin 4 n] = { (s.core c).tiles[fin 4 n] with seq := q }) ∧
      (∀ m, k.body = .mma m → ∃ t, exec i s = .next t ∧ dueEv s clk (m.occ + 16) 3 c.val (.mmaReady id) t ∧ (t.core c).spm = (s.core c).spm ∧
        ∃ w, t.cmd? id = some w ∧ w.queued = false ∧ ∃ ds, w.body = .mma { m with descs := ds } ∧ ds.map (·.1) = (List.range (m.k + 1)).map (m.tile + ·) ∧
          ∀ d ∈ ds, d.2.anc = ((s.core c).tiles[fin 4 d.1]).anc ∧ d.2.a = m.a ∧ d.2.b = m.b) ∧
      ∀ m, k.body = .mepi m → ∃ t, exec i s = .next t ∧ dueEv s clk 16 7 c.val (.epilogueSnapshot id) t ∧ dueEv s clk 80 1 c.val (.outputFolded id) t ∧
        dueEv s clk 100 4 c.val (.verdict id) t ∧ (t.core c).tiles = (s.core c).tiles ∧ t.cmd? id = some { k with queued := false }) ∧
    ∀ m n d, k.body = .mma m → m.descs = [(n, d)] → m.dead = [] → let tl := (s.core c).tiles[fin 4 n];
      AccOrdered tl.prim → AccOrdered tl.shad → ∃ t, exec (.mmaReady id) s = .next t ∧ t.cmd? id = none ∧ OtherTiles s t c n ∧
        let ps := (s.core c).passes d
        let u := (t.core c).tiles[fin 4 n]
        u.anc = tl.anc ∧ u.seq = tl.seq ∧ u.seenMma = true ∧
        ∀ e < 6144, u.prim.at_ e = (d.apply ps e (tl.prim.at_ e)).1 ∧ u.shad.at_ e = (d.apply ps e (tl.shad.at_ e)).1) ∧
  ∀ (anc : Int) (x : AccElem) (nv sa sb : Bool) (na nb : Nat) (ea eb v : Int),
    let p : Int := if sa = sb then (na * nb : Nat) else -((na * nb : Nat) : Int)
    let up : Int := (2 : Int) ^ (ea + eb - anc).toNat
    let dn : Int := (2 : Int) ^ (anc - (ea + eb)).toNat
    v * dn ≤ p * up → p * up < (v + 1) * dn → -(2 : Int) ^ 127 ≤ v → v < (2 : Int) ^ 127 →
      AccElem.step anc .mac (x, nv) (.fin sa na ea, .fin sb nb eb) = ({ x with sum := x.sum + BitVec.ofInt 168 v }, nv)

/-- R301, R304, R305, R306, R310, R314, R316: the snapshot forms both arrays' outputs; the fold counts failures and puts the output into the
press, or discards it and traps: the trap stands with those that fall on the strand in the cycle (R430), which the strand takes in its turn of the issue
phase; at the verdict equal signatures commit, and unequal ones make a dispute, which the mender takes up; an
earlier dispute or verdict holds the verdict a cycle. -/
def Sys2Proof.Claims.OutputsAndVerdicts : Prop :=
  ∀ (s : State) (id : Nat) (k : Cmd) (m : Mepi), s.cmd? id = some k → k.body = .mepi m →
    let c := k.core
    let j := k.strand
    let tl := (s.core c).tiles[fin 4 m.tile]
    let h := (s.core c).health
    (k.queued = false → m.slot = none → (s.core c).errP = [] → (s.core c).errS = [] → h.degraded = false →
      ∃ t w m' p, exec (.epilogueSnapshot id) s = .next t ∧ t.cmd? id = some w ∧ w.body = .mepi m' ∧ m'.slot = some p ∧ p.id = id ∧ p.tile = m.tile ∧
        (let bias : List (BitVec 32) := match m.bias with
          | none => []
          | some b => (List.range 96).map fun n => BitVec.ofNat 32 ((s.core c).spm.readNat (b + 4 * n) 4);
        let one (a : Acc) : Formed := formOutput m.out m.bnd tl.anc bias (a.rows m.out);
        p.p = (one tl.prim).words ∧ p.sd = (one tl.shad).words.map byteXor ∧ p.sigP = fold (one tl.prim).words ∧
        p.sigS = fold (one tl.shad).words ∧ m'.fails = (one tl.prim).fails) ∧
        (t.core c).tiles = (s.core c).tiles ∧ (t.core c).spm = (s.core c).spm) ∧
    (∀ p, m.slot = some p → (s.core c).press.any (·.id == id) = false →
      (m.counted = false → ∃ t, exec (.outputFolded id) s = .next t ∧ nowAct s 4 (.ev (.outputFolded id)) t ∧
        let old := ((s.core c).bnd[fin 16 m.out.bound]).toNat
        let new := ((t.core c).bnd[fin 16 m.out.bound]).toNat
        (m.fails = [] → new = old) ∧
        (m.fails ≠ [] → bits new 48 16 = min (bits old 48 16 + m.fails.length) 65535 ∧ bits new 47 1 = 1 ∧ bits new 0 47 = bits old 0 47) ∧
        ∀ w, t.cmd? id = some w → w.body = .mepi { m with counted := true }) ∧
      (m.counted = true → m.arith = none → (bits m.bnd.toNat 32 2 ≠ 3 ∨ m.fails = []) → ∃ t, exec (.outputFolded id) s = .next t ∧
        (t.core c).press = (s.core c).press ++ [p] ∧ ((t.core c).tiles[fin 4 m.tile]).latest = .inPress ∧ t.cmd? id = some k ∧
        (t.strand c j).csr.fsr = (s.strand c j).csr.fsr ||| m.flags.fsr) ∧
      (m.counted = true → (s.strand c j).life = .live → (s.strand c j).trapped = false → s.iss ≤ c.val → ∀ cause x, (m.arith = some x ∧ cause = 3) ∨ (m.arith = none ∧ bits m.bnd.toNat 32 2 = 3 ∧ cause = 4 ∧ x ∈ m.fails ∧ ∀ y ∈ m.fails, x ≤ y) →
          ∃ t, exec (.outputFolded id) s = .next t ∧ t.cmd? id = none ∧ (t.core c).press = (s.core c).press ∧
            ((t.core c).tiles[fin 4 m.tile]).latest = .discarded ∧ ∃ coef, (t.strand c j).pending = (s.strand c j).pending ++
              [{ slot := 3, pc := k.pc, info := { cause, taddr := BitVec.ofNat 64 x, coef }, order := k.seq, ring := (0, 0) }])) ∧
    (∀ p, (s.core c).press.find? (·.id == id) = some p → p.disputed = false →
      let earlier := ((s.core c).press.takeWhile (·.id != id)).any (·.disputed) = true ∨ (s.core c).judgedAt = s.time + 1
      let local_ := m.route = none ∨ ∃ w, m.route = some w ∧ rtKind w ≠ 2 ∧ s.linkBad c w = false
      (earlier → exec (.verdict id) s = .next { s with
        agenda := s.agenda ++ [{ clk := .time, due := s.time + 1, phase := 4, core := c.val, seq := k.seq, act := .ev (.verdict id) }] }) ∧
      (¬earlier → h.degraded = false → p.sigP = p.sigS → local_ → ∃ t, exec (.verdict id) s = .next t ∧
        (t.core c).press = (s.core c).press.filter (·.id != id) ∧ nowAct s 8 (.commit c m.tile p.sigP p.sigP false) t ∧
        (m.nolocal = false → nowAct s 8 (.spmWrite c (m.out.cells (wordBytes p.p))) t) ∧ (m.route = none → t.cmd? id = none) ∧
        (t.core c).spm = (s.core c).spm) ∧
      (¬earlier → h.degraded = false → p.sigP ≠ p.sigS → (s.core c).mender = none → ∃ t a, exec (.verdict id) s = .next t ∧
        (∀ q ∈ (t.core c).press, q.id = id → q.disputed = true ∧ q.arb = some a) ∧ (t.core c).mender = some (.tile id, s.time + a.dur) ∧
        dueEv s .time a.dur 4 c.val (.arbitrationEnd c) t ∧ t.cmd? id = some k ∧ (t.core c).spm = (s.core c).spm)) ∧
    ∀ p e, (s.core c).mender = some (.tile id, e) → (s.core c).press.find? (·.id == id) = some p → (s.core c).waiting = [] → h.clear = false →
      ∀ a, p.arb = some a → a.undecided = false → p.recheck = false → a.kind false h ≠ 3 → m.route = none →
        ∃ t, exec (.arbitrationEnd c) s = .next t ∧ (t.core c).press = (s.core c).press.filter (·.id != id) ∧ (t.core c).mender = none ∧
          nowAct s 8 (.commit c m.tile (fold a.words) (fold a.words) true) t ∧ t.cmd? id = none ∧
          bits (t.core c).health.word.toNat 16 16 = min (bits h.word.toNat 16 16 + 1) 65535 ∧
          bits (t.core c).health.word.toNat 32 16 = bits h.word.toNat 32 16

/-- R327, R328: the end of a residue arbitration: HEALTH counts it and the core goes on. -/
def Sys2Proof.Claims.ResidueArbitration : Prop :=
  ∀ (s : State) (c : Fin 256) (r : Residue) (e : Nat), (s.core c).mender = some (.residue r, e) → (s.core c).waiting = [] →
    (s.core c).health.clear = false → ∃ t, exec (.residueArbitrationEnd c) s = .next t ∧ (t.core c).mender = none ∧
      bits (t.core c).health.word.toNat 16 16 = min (bits (s.core c).health.word.toNat 16 16 + 1) 65535 ∧
      bits (t.core c).health.word.toNat 5 1 = 1 ∧ (.residue ∉ (t.core c).causes) ∧
      ∀ d : Fin 256, (t.core d).spm = (s.core d).spm ∧ (t.core d).v = (s.core d).v ∧ (t.core d).strands = (s.core d).strands

/-- R301, R304, R305, R306, R310, R314, R316: the snapshot forms both arrays' outputs; the fold counts failures and puts the output into the press, or
discards it and traps: the trap stands with those that fall on the strand in the cycle (R430), which the strand takes in its turn of the issue phase;
at the verdict equal signatures commit, and unequal ones make a dispute, which the mender takes up; an earlier dispute or verdict holds the verdict a
cycle. R327, R328: the end of a residue arbitration: HEALTH counts it and the core goes on. -/
def Obligations.OutputsVerdictsResidues : Prop := Claims.OutputsAndVerdicts ∧ Claims.ResidueArbitration

end
/-! ## Copies, host transfers and walks -/

namespace Sys2Proof.Claims
open Sys2Proof.Machine

/-- The byte in place p at an address, as runs name it. -/
def byteAt (s : State) (p : Place) (n : Nat) : Byte := match p with
  | .spm c => (s.core c).spm.read1 n
  | .bsram c => (s.core c).bsram.read1 n
  | .near => s.near.read1 n
  | .dev => s.dev.read1 n
  | .host => s.host.read1 n

/-- A copy as it enters its queue. -/
def fresh (src dst : List Run) (kind : CopyKind) (sig : Option Word) (bar : Option (Fin 256 × Nat)) (n rd lat : Nat) : Copy :=
  { src, dst, kind, sig, resent := false, bar, route := none, bytes := n, rd, lat, buf := [], read := false, fetch := false, due := false, judged := false,
    dropped := false }

/-- The barrier operand of a copy whose arrival is at core c: none, or an offset that R362 accepts. -/
def BarOk (s : State) (z : BitVec 1) (r : BitVec 4) (c : Fin 256) (bar : Option (Fin 256 × Nat)) : Prop :=
  (z = 0 ∧ bar = none) ∨ (z = 1 ∧ (a s r).toNat % 16 = 0 ∧ (a s r).toNat + 16 ≤ spmEnd s ∧ bar = some (c, (a s r).toNat))

end Sys2Proof.Claims

section
open Sys2Proof Sys2Proof.Machine Sys2Proof.Claims

/-- R359, R361, R362, R365, R366, R367, R73: the copy instructions. With eight entries in the copy queue the bundle waits. A form that the rule
refuses raises SCHED. With every byte of both ends in reach, a good barrier operand and no pin met, the copy enters the queue with the path's
occupancy and offsets, and the barrier it names has its DUE watched (R332); CPYH with the host engine's, where exactly one end is a HOST page. That
the named barrier's DUE is watched from here on, that the bound of 2^26 counts CPYQ's elements, and that the rows of one end of a CPY2 lie in one
memory are the model's choices (logs 83, 88 and 86). -/
def Obligations.CopyInstructions : Prop :=
  ∀ (s : State) (g : BitVec 3) (d r : BitVec 4) (b : BitVec 5) (z h : BitVec 1) (q : BitVec 4), on s g →
    let c := s.cur.core
    let X := (x s b).toNat
    let Y := (x s (b + 1)).toNat
    let n := X % 2 ^ 32
    let rows := X / 2 ^ 32 % 2 ^ 16 + 1
    let A : Int := (Claims.a s r).toNat
    let D : Int := (Claims.a s d).toNat
    let toSpm := bits (Claims.a s d).toNat 48 16 = 0xFFFE
    let strided (base : Int) (st : Nat) : List (Int × Nat) := (List.range rows).map fun (i : Nat) => (base + toInt 32 st * (i : Int), n)
    let qs := X / 2 ^ 32 % 4
    let qt := X / 2 ^ 34 % 4
    let full := 8 ≤ s.queueUsed c .copy
    let small (k : Nat) := 0 < k ∧ k ≤ 2 ^ 26
    let plain : List (Instr × CopyForm × Prop × List (Int × Nat) × List (Int × Nat) × Nat × Option Word) :=
      [(.cpy g d r b z 0 q, .plain, X < 2 ^ 32 ∧ small n, [(A, n)], [(D, n)], n, none),
       (.cpy g d r b z 1 q, .plain, X < 2 ^ 32 ∧ small n ∧ n % 8 = 0 ∧ toSpm, [(A, n)], [(D, n)], n, some (x s (b + 1))),
       (.cpy2 g d r b z q, .plain, X < 2 ^ 48 ∧ small (n * rows), strided A (Y % 2 ^ 32), strided D (Y / 2 ^ 32), n * rows, none),
       (.cpyq g d r b z q, .quant qs qt, X < 2 ^ 36 ∧ small n ∧ qs ≠ 3 ∧ n % 32 = 0, [(A, n * (if qs = 0 then 4 else 2))],
          [(D, if qt ≤ 1 then 33 * n / 32 else if qt = 2 then 17 * n / 32 else 19 * n / 32)], n * (if qs = 0 then 4 else 2), none)]
    let cpyb : Instr := .cpyb g d r b z q
    let cpyh : Instr := .cpyh g d r b z h q
    (full → (∀ y ∈ plain, exec y.1 s = .next (cur s fun k => { k with stall := true })) ∧
      exec cpyb s = .next (cur s fun k => { k with stall := true }) ∧ exec cpyh s = .next (cur s fun k => { k with stall := true })) ∧
    (¬full → ∀ y ∈ plain,
      let form := y.2.1
      let src := y.2.2.2.1
      let dst := y.2.2.2.2.1
      let good := y.2.2.1 ∧ form.endsOk c src dst = true
      (¬good → Raises y.1 s 7 0) ∧
      (good → ∀ rs rd bar, s.resolveAll false src = rs.map (.run · false) → s.resolveAll true dst = rd.map (.run · false) →
        BarOk s z q (barrierCore c (placeOf rd)) bar → s.pinnedByte c rd = none →
          let t := s.copyTiming c (placeOf rs) (placeOf rd) y.2.2.2.2.2.1
          EntersOver y.1 s (s.watchFor bar) .copy t.2.2 (.copy (fresh rs rd (match form with | .quant p w => .quant p w | _ => .plain) y.2.2.2.2.2.2 bar
            y.2.2.2.2.2.1 t.1 t.2.1)) id)) ∧
    (¬full →
      let good := X < 2 ^ 32 ∧ small n ∧ (CopyForm.bsram).endsOk c [(A, n)] [(D, n)] = true
      let rd : List Run := [{ place := .bsram c, addr := (Claims.a s d).toNat, len := n, va := (Claims.a s d).toNat, shadow := none }]
      (¬good → Raises cpyb s 7 0) ∧
      (good → ∀ rs bar, s.resolveAll false [(A, n)] = rs.map (.run · false) → (Claims.a s d).toNat + n ≤ 0x600000 → BarOk s z q c bar →
        s.pinnedByte c rd = none →
          let t := s.copyTiming c (placeOf rs) (.bsram c) n
          EntersOver cpyb s (s.watchFor bar) .copy t.2.2 (.copy (fresh rs rd .plain none bar n t.1 t.2.1)) id)) ∧
    (¬full → ¬(X < 2 ^ 32 ∧ small n) → Raises cpyh s 7 0) ∧
    (¬full → X < 2 ^ 32 → small n → s.timed c = false → s.replica? c = none → ∀ rs rd bar,
      s.resolveAll false [(A, n)] = (rs.map fun u => .run u (u.place == .host)) → s.resolveAll true [(D, n)] = (rd.map fun u => .run u (u.place == .host)) →
      ∀ hs ls, ((hs = rs ∧ ls = rd) ∨ (hs = rd ∧ ls = rs)) → (∀ u ∈ hs, u.place = .host) → hs ≠ [] →
        (∀ u ∈ ls, u.place = .spm c ∨ u.place = .near ∨ u.place = .dev) →
        (h = 1 → ∀ u ∈ hs, s.cohBase.toNat % 2 = 1 ∧ s.cohBase.toNat / 2 ^ 36 = u.addr / 2 ^ 36 ∧ s.cohBase.toNat / 2 ^ 36 = (u.addr + u.len - 1) / 2 ^ 36) →
        BarOk s z q (barrierCore c (placeOf rd)) bar → s.pinnedByte c rd = none →
          EntersOver cpyh s (s.watchFor bar) .copy ((n + 63) / 64) (.cpyh { src := rs, dst := rd, coh := h == 1, bar, bytes := n, posted := false, buf := [] }) id)

/-- R347, R349, R361, R363, R364, R367, R369, R370, R96: a copy's start puts its read and its performing on the agenda; the read takes every
source byte as it stands; at the performing a good transfer is written in that cycle, a signed one that does not match is sent again
once, and its bytes are read again, RD of its path on; the write gives every destination byte its value, where no pin is met (R293). CPYH reads and posts,
then writes.
A delivered correction lets a waiting copy go on. A walk that ends is no longer waited for; with no wrong bit in device memory its end
changes no byte. -/
def Obligations.CopyEvents : Prop :=
  ∀ (s : State) (id : Nat) (k : Cmd), s.cmd? id = some k →
    let c := k.core
    let base := s.now (s.engClock c k.nested)
    let at_ (t : State) (clk : Clock) (n phase : Nat) (i : Instr) : Prop :=
      ∃ it ∈ t.agenda, it.clk = clk ∧ it.due = n ∧ it.phase = phase ∧ it.core = c.val ∧ it.act = .ev i
    let kept (t : State) : Prop := t.cores = s.cores ∧ t.dev = s.dev ∧ t.near = s.near ∧ t.host = s.host ∧ t.kernels = s.kernels
    let oneRun (r : Run) : Prop := r.shadow = none ∧ (r.place = .dev → s.poison = [] ∧ s.hbm = [] ∧ (s.ctxs[k.ctx]).ckpt.armed = false) ∧
      (r.place = .near → s.nearPoison = [] ∧ s.nearErr = [])
    let reads (r : Run) (bs : List Byte) : Prop := bs.length = r.len ∧ ∀ i < r.len, bs[i]? = some (byteAt s r.place (r.addr + i))
    let writes (t : State) (r : Run) (bs : List Byte) : Prop := ∀ p n, byteAt t p n =
      if p = r.place ∧ r.addr ≤ n ∧ n < r.addr + r.len then bs.getD (n - r.addr) 0 else byteAt s p n
    (k.queued = true → k.engine = .copy →
      (∀ cp, k.body = .copy cp → ∃ t, exec (.commandStart id) s = .next t ∧ kept t ∧ t.cmd? id = some { k with queued := false } ∧
        at_ t (s.placeClock k (placeOf cp.src)) (base + cp.rd) 7 (.copyRead id) ∧ at_ t (s.placeClock k (placeOf cp.dst)) (base + cp.lat) 4 (.copyPerform id)) ∧
      ∀ h, k.body = .cpyh h → ∃ t n, exec (.commandStart id) s = .next t ∧ kept t ∧ t.cmd? id = some { k with queued := false } ∧ s.time < n ∧
        at_ t .time n 7 (.cpyhPerform id)) ∧
    (∀ cp r, k.body = .copy cp → cp.read = false → cp.due = false → cp.src = [r] → oneRun r → ∃ t bs, reads r bs ∧ kept t ∧ t.agenda = s.agenda ∧
      t.cmd? id = some { k with body := .copy { cp with buf := bs, read := true, fetch := false } } ∧
      (k.queued = false → exec (.copyRead id) s = .next t) ∧ (cp.resent = true → exec (.copyResendRead id) s = .next t)) ∧
    (∀ cp, k.body = .copy cp → cp.read = true → cp.fetch = false → cp.judged = false → k.queued = false →
      let calm := (s.core c).errL = [] ∧ cp.kind = .plain
      let good := cp.sig = none ∨ cp.sig = some (fold (wordsOf cp.buf))
      (calm → good → ∃ t, exec (.copyPerform id) s = .next t ∧ (cp.resent = true → exec (.copyResendLand id) s = .next t) ∧
        at_ t .time s.time 8 (.copyPerform id) ∧ nowAct s 4 (.copyPins id) t ∧ t.cmd? id = some { k with body := .copy { cp with judged := true, dropped := false } } ∧
        ∀ p n, byteAt t p n = byteAt s p n) ∧
      (calm → ¬good → cp.resent = false → cp.src ≠ [] → ∃ t, exec (.copyPerform id) s = .next t ∧ at_ t .time (s.time + (path c (placeOf cp.src) (placeOf cp.dst)).2.2) 7 (.copyResendRead id) ∧
        at_ t .time (s.time + cp.lat) 4 (.copyResendLand id) ∧ (∀ p n, byteAt t p n = byteAt s p n) ∧
        t.cmd? id = some { k with body := .copy { cp with resent := true, read := false, buf := [], due := false } })) ∧
    (∀ cp r, k.body = .copy cp → k.queued = false → cp.judged = true → cp.dropped = false → cp.kind = .plain → cp.dst = [r] → oneRun r →
      cp.buf.length = r.len → s.landsOnPin c [r] cp.src.isEmpty = none → ∃ t, exec (.copyPerform id) s = .next t ∧ t.cmd? id = none ∧ writes t r cp.buf ∧
        (cp.bar = none → ∀ m, (t.core m).arrived = (s.core m).arrived) ∧
        ∀ m off, cp.bar = some (m, off) → (∀ u ∈ (s.core m).arrived, u.1 ≠ off) →
          (t.core m).arrived = (s.core m).arrived ++ [(off, 1, cp.bytes)] ∧ nowAct s 12 (.btestAll m off) t) ∧
    (∀ h, k.body = .cpyh h → k.queued = false →
      (∀ r, h.src = [r] → h.posted = false → oneRun r → ∃ t bs n, exec (.cpyhPerform id) s = .next t ∧ reads r bs ∧ s.time < n ∧ at_ t .time n 8 (.cpyhPerform id) ∧
        kept t ∧ t.cmd? id = some { k with body := .cpyh { h with posted := true, buf := bs } }) ∧
      ∀ r, h.dst = [r] → h.posted = true → oneRun r → h.buf.length = r.len → s.landsOnPin c [r] true = none → ∃ t, exec (.cpyhPerform id) s = .next t ∧ t.cmd? id = none ∧ writes t r h.buf) ∧
    (∀ cp, k.body = .copy cp → cp.fetch = true → cp.due = false → ∃ t, exec (.correctionDelivery id) s = .next t ∧
      t.cmd? id = some { k with body := .copy { cp with fetch := false } } ∧ t.hbm.length ≤ s.hbm.length ∧ ∀ p n, p ≠ .dev ∨ s.hbm = [] → byteAt t p n = byteAt s p n) ∧
    ∀ (n : Nat) (w : Walk), s.walks.find? (·.id == n) = some w → ∃ t, exec (.walkComplete n) s = .next t ∧ (∀ y ∈ t.walks, y.id ≠ n) ∧
      (s.hbm = [] → s.poison = [] → (∃ o, (t.strand w.core w.strand).walks = (s.strand w.core w.strand).walks.map fun y =>
        if y.1 = w.page then (y.1, some o) else y) ∧ ∀ p n, byteAt t p n = byteAt s p n)

end
/-! ## Atomics and anchored cells -/

namespace Sys2Proof.Claims
open Sys2Proof.Machine

/-- The operations of R372. -/
def amoRule {w : Nat} (op : Nat) (v x c : BitVec w) : BitVec w := match op with
  | 0 => v + x
  | 1 => x
  | 2 => if v = c then x else v
  | 3 => if x.slt v then x else v
  | 4 => if v.slt x then x else v
  | 5 => v &&& x
  | 6 => v ||| x
  | _ => v ^^^ x

/-- n bytes of a place as a number, little-endian. -/
def wordAt (s : State) (p : Place) (adr n : Nat) : Nat := ((List.range n).map fun i => (byteAt s p (adr + i)).toNat * 256 ^ i).sum

/-- An unqueued command of the slot with its event n cycles of the engine clock on, in a phase, then the items rest. Where the event counts on another
clock, that of the least TT for near memory (R162), the TT after its due TT is marked, at which a FENCE no longer waits for it (R386). -/
def Sends (i : Instr) (s : State) (p : Place) (body : Body) (n phase : Nat) (ev : Instr) (rest : List Item) : Prop :=
  let c := s.cur.core
  let own := s.engClock c s.cur.nested
  ∃ (k : Cmd) (clk : Clock), k.id = s.nextId ∧ k.core = c ∧ k.strand = s.cur.strand ∧ k.queued = false ∧ k.body = body ∧
    (s.timed c = false → clk = .time) ∧ (p = .spm c → clk = own) ∧
    (∀ o, (mine s).owner = some o → s.keepsTT c = true → s.cur.nested = false → p = .near → clk = .least o.kid o.gpos) ∧
    let marks : List Item := if clk = own then [] else
      [{ clk := own, due := s.now own + n + 1, phase := 0, core := c.val, seq := s.seq, act := .passed c s.cur.strand (placeReach c p) }]
    let first : Item := { clk, due := s.now own + n, phase, core := c.val, seq := s.seq, act := .ev ev }
    exec i s = .next { s with
      cmds := s.cmds ++ [k], nextId := s.nextId + 1, agenda := s.agenda ++ marks ++ first :: rest, seq := s.seq + 1 + rest.length }

/-- A strand's own item n cycles on, with an order number after the slot's next m. -/
def mineAt (s : State) (n phase m : Nat) (e : Eff) : Item :=
  { clk := .strand s.cur.core s.cur.strand, due := (me s).lt + n, phase, core := s.cur.core.val, seq := s.seq + m,
    act := .eff s.cur.core s.cur.strand s.cur.pc s.cur.pos e }

end Sys2Proof.Claims

section
open Sys2Proof Sys2Proof.Machine Sys2Proof.Claims

/-- R371, R372, R374, R375, R376: AMO, ACELL and ACRD on a target whose bytes resolve: a target that the rule does not allow raises ADDR, a
misaligned one MISALIGN; the access performs 6 or 180 cycles on and its register is written 8 or 190 on, ACRD's flags at 189. An AMO on a
HOST page in a PACED group goes out as an AtomicOp, and the strand waits for it, or raises HOSTATOM; one in a TIMED group, or a write of a PAIR kernel,
raises PAGE (R347, R352), as ACELL and ACRD do there. -/
def Obligations.AtomicInstructions : Prop :=
  ∀ (s : State) (g : BitVec 3) (d : BitVec 5) (r : BitVec 4) (b : BitVec 5) (sc : BitVec 4) (z cl : BitVec 1) (o : BitVec 3) (run : Run) (host wr : Bool),
    on s g →
    let c := s.cur.core
    let va := Claims.a s r
    let size := if z = 1 then 8 else 4
    let hit (w : Bool) (n : Nat) : Prop := s.resolve w va.toNat (min n (65536 - va.toNat % 65536)) = .run run host
    let amo : Instr := .amo g d r b sc z o
    let acell : Instr := .acell g r b sc
    let acrd : Instr := .acrd g d r sc cl
    let own := run.place = .spm c ∨ run.place = .near
    let barred (w : Bool) : Prop := run.place = .host ∧ (s.timed c = true ∨ (w = true ∧ (s.replica? c).isSome = true))
    let at_ : Atomic := { target := { run with len := size }, size, op := o.toNat, x := x s b, cmp := x s d, d, fte := 0 }
    let cell : Atomic := { target := { run with len := 16 }, size := 16, op := 0, x := 0, cmp := 0, d := 0, fte := 0 }
    let ret (n m reach : Nat) : List Item := if d = 0 then [] else [mineAt s n 2 m (.xret d s.nextId reach none)]
    (hit true size →
      (¬own → run.place ≠ .host → Raises amo s 5 va) ∧
      (own → va.toNat % size ≠ 0 → Raises amo s 6 va) ∧
      (run.place = .spm c → va.toNat % size = 0 → (mine s).pinned .spm run.addr size = true → Raises amo s 7 0) ∧
      (run.place = .spm c → va.toNat % size = 0 → (mine s).pinned .spm run.addr size = false →
        Sends amo s (.spm c) (.amo at_) 6 13 (.amoPerform s.nextId) (ret 8 1 1)) ∧
      (run.place = .near → va.toNat % size = 0 → Sends amo s .near (.amo at_) 180 13 (.amoPerform s.nextId) (ret 190 1 4)) ∧
      (run.place = .host → (s.timed c = true ∨ (s.replica? c).isSome = true) → Raises amo s 9 va) ∧
      (run.place = .host → s.timed c = false → s.replica? c = none → va.toNat % size = 0 →
        let can := if z = 1 then (s.ctxs[s.ctxOf c]).atomic8 else (s.ctxs[s.ctxOf c]).atomic4
        (2 < o.toNat ∨ can = false → Raises amo s 0x0A va) ∧
        (o.toNat ≤ 2 → can = true → ∃ t n k, exec amo s = .next t ∧ t.cmd? s.nextId = (s.cmd? s.nextId).or (some k) ∧ k.body = .hostAmo at_ ∧
          (me t).wait = .hostAmo s.nextId ∧ s.time < n ∧ (∃ it ∈ t.agenda, it.clk = .time ∧ it.due = n ∧ it.act = .ev (.hostAtomicCompletion s.nextId)) ∧
          (d ≠ 0 → ∃ it ∈ t.agenda, it.clk = .strand c s.cur.strand ∧ it.due = (me s).lt + 1 ∧
            it.act = .eff c s.cur.strand s.cur.pc s.cur.pos (.xret d s.nextId 5 none)) ∧ ∀ p n, byteAt t p n = byteAt s p n))) ∧
    (2 ^ 32 ≤ (x s b).toNat → Raises acell s 7 0) ∧
    ((x s b).toNat < 2 ^ 32 → hit true 16 → (barred true → Raises acell s 9 va) ∧ (run.place ≠ .near → ¬barred true → Raises acell s 5 va) ∧ (run.place = .near → va.toNat % 16 ≠ 0 → Raises acell s 6 va) ∧
      (run.place = .near → va.toNat % 16 = 0 → Sends acell s .near (.acell { cell with x := x s b }) 180 13 (.acellPerform s.nextId) [])) ∧
    (wr = (cl == 1) → hit wr 16 → (barred wr → Raises acrd s 9 va) ∧ (run.place ≠ .near → ¬barred wr → Raises acrd s 5 va) ∧ (run.place = .near → va.toNat % 16 ≠ 0 → Raises acrd s 6 va) ∧
      (run.place = .near → va.toNat % 16 = 0 → Sends acrd s .near (.acrd { cell with d, fte := s.fte } wr) 180 (if wr then 13 else 7) (.acrdRead s.nextId)
        (mineAt s 189 4 1 (.acflags s.nextId none) :: ret 190 2 4)))

/-- R63, R64, R372, R374, R375, R376: an atomic's read, modification and write are one, in the target's bytes and no other; the old value,
sign-extended, is what returns. ACELL adds the floor of the finite value in units of the cell; ACRD rounds the cell once, and clears it where told.
That a cell of anchor 255 takes bit 25 alone, that a nonzero value which rounds to zero keeps its sign, and that a host AtomicOp performs at its
completion are the model's choices (logs 94, 142 and 96). -/
def Obligations.AtomicsPerform : Prop :=
  (∀ (s : State) (id : Nat) (k : Cmd) (a : Atomic), s.cmd? id = some k → (s.strand k.core k.strand).hold.rets = [] →
    let p := a.target.place
    let n := a.target.addr
    let keeps (t : State) (size : Nat) : Prop := ∀ q m, ¬(q = p ∧ n ≤ m ∧ m < n + size) → byteAt t q m = byteAt s q m
    let returns (t : State) (v : Word) : Prop := ∀ it ∈ s.agenda, ∀ c j pc pos d r, it.act = .eff c j pc pos (.xret d id r none) →
      { it with act := .eff c j pc pos (.xret d id r (some v)) } ∈ t.agenda
    let amoDone (t : State) : Prop := t.cmd? id = none ∧ keeps t a.size ∧
      (a.size = 8 → let old := BitVec.ofNat 64 (wordAt s p n 8);
        wordAt t p n 8 = (amoRule a.op old a.x a.cmp).toNat ∧ returns t old) ∧
      (a.size = 4 → let old := BitVec.ofNat 32 (wordAt s p n 4);
        wordAt t p n 4 = (amoRule a.op old (a.x.truncate 32) (a.cmp.truncate 32)).toNat ∧ returns t (old.signExtend 64))
    let cell := wordAt s p n 16
    (k.body = .amo a → (∃ c, p = .spm c) ∨ p = .near → s.nearPoison = [] → s.nearErr = [] → a.size = 4 ∨ a.size = 8 → ∃ t, exec (.amoPerform id) s = .next t ∧ amoDone t) ∧
    (k.body = .hostAmo a → p = .host → a.size = 4 ∨ a.size = 8 → (s.strand k.core k.strand).wait = .hostAmo id →
      ∃ t, exec (.hostAtomicCompletion id) s = .next t ∧ amoDone t ∧ (t.strand k.core k.strand).wait = .none) ∧
    (k.body = .acell a → p = .near → s.nearPoison = [] → s.nearErr = [] → ∃ t, exec (.acellPerform id) s = .next t ∧ t.cmd? id = none ∧ keeps t 16 ∧
      wordAt t p n 16 = cellAdd cell a.x.toNat) ∧
    ∀ clr, k.body = .acrd a clr → p = .near → s.nearPoison = [] → s.nearErr = [] → ∃ t, exec (.acrdRead id) s = .next t ∧ t.cmd? id = none ∧ keeps t 16 ∧
      wordAt t p n 16 = (if clr then cell / 2 ^ 88 % 256 * 2 ^ 88 + 0x3FFFFF * 2 ^ 96 else cell) ∧
      returns t (BitVec.ofNat 64 (encodeF .f32 (cellRead cell).1))) ∧
  (∀ cell q, cell < 2 ^ 128 → cell / 2 ^ 122 = 0 →
    let V := toInt 88 cell
    let A := cell / 2 ^ 88 % 256
    let S := cell / 2 ^ 96
    let E := if q % 2 ^ 31 = 0 then 0 else max 1 (q / 2 ^ 23 % 256)
    let gives (v : Nat) (sp : Nat) : Prop := cellAdd cell q = v + A * 2 ^ 88 + sp * 2 ^ 96
    (A = 255 → gives (cell % 2 ^ 88) (S ||| 2 ^ 25)) ∧
    (A < 255 → ∀ neg m e, decodeF .f32 q = .fin neg m e → A < E → gives (cell % 2 ^ 88) (S ||| 2 ^ 25)) ∧
    (A < 255 → ∀ neg m e, decodeF .f32 q = .fin neg m e → E ≤ A → ∀ fl : Int,
      let u : Int := (A : Int) - 167
      let x : Int := (if neg then -(m : Int) else m) * (2 : Int) ^ (e - u).toNat
      fl * (2 : Int) ^ (u - e).toNat ≤ x → x < (fl + 1) * (2 : Int) ^ (u - e).toNat → gives ((V + fl) % (2 : Int) ^ 88).toNat S) ∧
    (A < 255 → ∀ neg, decodeF .f32 q = .inf neg → gives (cell % 2 ^ 88) (S ||| (if neg then 2 ^ 24 else 2 ^ 23))) ∧
    (A < 255 → ∀ pl sn, decodeF .f32 q = .nan pl sn → gives (cell % 2 ^ 88) ((S / 2 ^ 22 * 2 ^ 22 + min (S % 2 ^ 22) pl) ||| 2 ^ 22))) ∧
  ∀ cell, cell < 2 ^ 128 →
    let f (i : Nat) : Prop := cell / 2 ^ (96 + i) % 2 = 1
    let V := toInt 88 cell
    (f 22 → cellRead cell = (.nan (cell / 2 ^ 96 % 2 ^ 22) false, Flags.invalid)) ∧
    (¬f 22 → f 23 → f 24 → cellRead cell = (Fmt.gen .f32, Flags.invalid)) ∧
    (¬f 22 → f 23 → ¬f 24 → cellRead cell = (.inf false, Flags.none)) ∧ (¬f 22 → ¬f 23 → f 24 → cellRead cell = (.inf true, Flags.none)) ∧
    (¬f 22 → ¬f 23 → ¬f 24 → f 25 → cellRead cell = (Fmt.gen .f32, { Flags.none with ovf := true })) ∧
    (¬f 22 → ¬f 23 → ¬f 24 → ¬f 25 → cellRead cell = roundVal .f32 .rne (.fin (decide (V < 0)) V.natAbs ((cell / 2 ^ 88 % 256 : Nat) - 167 : Int)))

end
/-! ## The link and the collective at issue -/

namespace Sys2Proof.Claims
open Sys2Proof.Machine

/-- A collective descriptor, read by offset and size, with the steps of its timetable and the bytes that other entries retain, that R411 to R413, R420 and
R426 accept: reserved fields zero and fields in range, operations that go with their COMB and RT, offsets in order with a route step after the last flit
of the one before, every base in SPM below its reserved top for every instance, and room to retain every chunk sent. -/
def GoodDescriptor (f : Nat → Nat → Nat) (st : Nat → Nat → Nat → Nat) (others : Nat) : Prop :=
  let n := f 4 2
  let op (k : Nat) : Nat := st k 12 1
  let code (k : Nat) : Nat := op k % 4
  let comb (k : Nat) : Nat := op k / 16 % 4
  let len (k : Nat) : Nat := if code k = 0 then st k 8 4 else if code k = 1 then st k 8 4 / 4 else if code k = 2 then 2 * st k 8 4 else 0
  let base (d : Bool) (i : Nat) : Int := if d then (f 0x0C 4 : Int) + i * toInt 32 (f 0x18 4) else (f 8 4 : Int) + i * toInt 32 (f 0x14 4)
  let inside (a : Int) (m : Nat) : Prop := 0 ≤ a ∧ a + m ≤ 0xBC000
  (f 0 4 % 16 = 0 ∧ f 0 4 < 2 ^ 20 ∧ 1 ≤ n ∧ n ≤ 256 ∧ f 6 2 ≤ 4096 ∧ f 0x1C 2 ≠ 0 ∧ f 0x1E 1 < 2 ∧ f 0x1F 1 = 0 ∧ f 0x24 4 < 2 ^ 24 ∧ f 0x28 24 = 0) ∧
  (f 0x1E 1 = 1 → f 0x20 4 % 16 = 0 ∧ f 0x20 4 + 16 ≤ 0xC0000) ∧
  (∀ k < n, st k 4 4 < 2 ^ 20 ∧ st k 8 4 % 64 = 0 ∧ 64 ≤ st k 8 4 ∧ st k 8 4 ≤ 262144 ∧ op k / 4 % 4 = 0 ∧ op k < 128 ∧ st k 13 1 < 8 ∧ st k 14 2 = 0 ∧
    (comb k = 0 ∨ (comb k = 1 ∧ (code k = 0 ∨ code k = 1)) ∨ (comb k = 2 ∧ (code k = 0 ∨ code k = 2))) ∧ (code k = 3 → comb k = 0 ∧ st k 13 1 = 0)) ∧
  (∀ k < n, k + 1 < n → st k 0 4 ≤ st (k + 1) 0 4) ∧
  (∀ k < n, ∀ j < k, code j ≠ 3 → code k ≠ 3 → st j 0 4 + (len j + 63) / 64 < st k 0 4) ∧
  (∀ k < n, ∀ i < f 0x1C 2, let d := op k / 64 % 2 == 1; let src := st k 4 4; let m := st k 8 4
    inside (base d i + src) m ∧ (code k = 3 → inside (base (!d) i + (src / 2 : Nat)) (m / 2) ∧ inside (f 0x10 4 + src / 8 : Nat) (m / 8)) ∧
      (code k = 2 → inside (f 0x10 4 + src / 4 : Nat) (m / 4))) ∧
  ((List.range n).map len).sum + others ≤ 131072

end Sys2Proof.Claims

section
open Sys2Proof Sys2Proof.Machine Sys2Proof.Claims

/-- R392, R397, R401, R402, R407, R408, R409, R509: SEND and SEND.V send 64 bytes on the route of RTd, or raise what the route fails, as LINK in
the group; inside the package, with nothing lost and every edge of the path up, the flit lands its LLAT later, from a TIMED group its LLAT raised to LFLOOR after
the TT of issue, on the TT of the receiving member (R162, R163); to another package it leaves at once where its port is up, with that due TT. RECV takes the head
of a landing queue, which its bundle pops, and waits or raises SCHED at an empty one (that it waits in step mode in a TIMED group too is the model's choice, log
37); LSTAT and LTIME read. -/
def Obligations.LinkInstructions : Prop :=
  ∀ (s : State) (g rt q : BitVec 3) (d a : BitVec 5) (row : BitVec 4) (qu : BitVec 2) (r : BitVec 1), on s g →
    let c := s.cur.core
    let w := (mine s).rt[fin 8 rt.toNat]
    let wide (hi lo : Word) : BitVec 512 := (0#384 ++ hi ++ lo)
    let slice (v : VImg) : BitVec 512 := v.extractLsb' (512 * (4 * row.toNat + qu.toNat)) 512
    let sends : List (Instr × BitVec 512) := [(.send g rt a, wide (x s (a + 1)) (x s a)), (.sendV g rt a qu row, slice (s.rv a.toNat))]
    let near := bits w.toNat 49 1 = 1
    let to_ : Fin 256 := fin 256 (bits w.toNat 41 3 * 32 + bits w.toNat 36 5)
    let L := (mine s).landq[fin 8 q.toNat]
    let recvs : List Instr := [.recv g d q qu, .recvV g d q qu row, .recvDrop g q]
    let popped : State := cur s fun k => { k with pops := k.pops ||| (1 <<< q.toNat) }
    let waits := s.timed c = false ∨ s.stepping c = true
    (∀ y ∈ sends,
      (∀ k, s.routeFault c w 64 = some k → Raises y.1 s k w) ∧
      (s.routeFault c w 64 = none → rtKind w = 2 → Raises y.1 s 7 0) ∧
      (s.routeFault c w 64 = none → rtKind w ≠ 2 → s.linkBad c w = true → ∀ o, (mine s).owner = some o →
        (∃ k, s.kernel? o.kid = some k ∧ k.fault = none ∧ k.halted = false) → ∃ t, exec y.1 s = .next t ∧
          ∀ k, t.kernel? o.kid = some k → ∃ f, k.fault = some f ∧ f.tcause = 0x0E ∧ f.taddr = w) ∧
      (s.routeFault c w 64 = none → rtKind w ≠ 2 → s.linkBad c w = false →
        (near → (mine s).errL = [] → (∀ p ∈ dieEdges (dieOf c) (dieOf to_), (s.ports[p]).st.carries = true) → ∃ (f : Flit) (clk : Clock),
          f.route = w ∧ f.payload = y.2 ∧ f.srcCore.toNat = c.val ∧ f.trailer = false ∧ f.func.toNat = (s.ctxOf c).val ∧ f.gen = (s.ctxs[s.ctxOf c]).gen ∧
          (let L := if to_ = c then 8 else if clusterOf to_ = clusterOf c then 24 else if dieOf to_ = dieOf c then 40
            else 140 + 20 * (hops (dieOf c) (dieOf to_) - 1)
           let n := match s.owner? c with
             | some (k, gr) => if k.record.timed then max L (lfloor gr.level) else L
             | none => L
           let byTT := s.keepsTT c
           let own := s.engClock c s.cur.nested
           (byTT = false → clk = .time) ∧ (byTT = true → (to_ = c → clk = .tt c) ∧ (s.fellow c to_ = true → clk = .tt to_)) ∧
           exec y.1 s = .next { s with seq := s.seq + 1, agenda := s.agenda ++
             [{ clk := own, due := s.now own + n + 1, phase := 0, core := c.val, seq := s.seq, act := .passed c s.cur.strand (placeReach c (.spm to_)) },
              { clk, due := (if byTT then (mine s).tt else s.time) + n, phase := 3, core := 256 * s.pkg + c.val, seq := s.seq,
                act := .ev (.flitLanding f) }] })) ∧
        (¬near → ∃ t f, exec y.1 s = .next t ∧
          (let p := s.ports[portTo (bits w.toNat 50 10)];
           t.outbox = if p.st = .timed ∨ p.st = .degraded then s.outbox ++ [f] else s.outbox) ∧ f.route = w ∧ f.payload = y.2 ∧ f.srcCore.toNat = c.val ∧
          f.crc = flitCrc f ∧ (s.timed c = false → f.due = 0) ∧ (s.timed c = true → f.due = BitVec.ofNat 32 ((mine s).tt + s.effLlat c w)) ∧ t.cores = s.cores ∧ t.dev = s.dev ∧ t.near = s.near ∧ t.host = s.host))) ∧
    (∀ h f, L.flits = h :: f →
      (let lo := h.extractLsb' (128 * qu.toNat) 64
       let hi := h.extractLsb' (128 * qu.toNat + 64) 64
       let t : State := if d = 0 then popped else due popped 2 2 (.x d lo)
       exec (.recv g d q qu) s = .next (if d + 1 = 0 then t else due t 2 2 (.x (d + 1) hi))) ∧
      (∃ u, exec (.recvV g d q qu row) s = .next (due popped 2 2 (.vloaded u)) ∧ u.reg = s.vphys d.toNat ∧
        ∀ old, ∀ i < 64, elem (put u old) 512 i = if i = 4 * row.toNat + qu.toNat then h.toNat else elem old 512 i) ∧
      exec (.recvDrop g q) s = .next popped) ∧
    (L.flits = [] → (waits → ∀ i ∈ recvs, exec i s = .next (cur s fun k => { k with stall := true })) ∧ (¬waits → ∀ i ∈ recvs, Raises i s 7 0)) ∧
    (L.flits.length ≤ 96 → ∃ v : Word, GivesX (.lstat g d q) s 2 d v ∧ bits v.toNat 0 16 = L.flits.length ∧ bits v.toNat 16 16 = bit L.ovf ∧
      bits v.toNat 32 32 = min L.disc 65535) ∧
    (∀ p : Fin 46, (if p.val < 10 then (x s a).toNat = p.val else (x s a).toNat = 6 + p.val) → (s.ports[p]).width ≤ 8 →
      ∃ v : Word, GivesX (.lstatPort g d a) s 2 d v ∧ bits v.toNat 8 8 = (s.ports[p]).width ∧ bits v.toNat 16 16 = min (s.ports[p]).corr 65535 ∧
        bits v.toNat 32 16 = min (s.ports[p]).lost 65535 ∧
        (-32768 ≤ (s.ports[p]).ofs → (s.ports[p]).ofs ≤ 32767 → toInt 16 (bits v.toNat 48 16) = (s.ports[p]).ofs) ∧
        bits v.toNat 0 8 = (match (s.ports[p]).st with
          | .down => 0 | .training => 1 | .aligning => 2 | .timed => 3 | .degraded => 4 | .failed => 5)) ∧
    (10 ≤ (x s a).toNat ∧ (x s a).toNat < 16 ∨ 52 ≤ (x s a).toNat → GivesX (.lstatPort g d a) s 2 d (-1)) ∧
    let rq := (mine s).rt[fin 8 q.toNat]
    GivesX (.ltime g d q r) s 2 d (if (s.routeFault c rq 64).isSome = true ∨ s.linkBad c rq = true then -1
      else BitVec.ofNat 64 (if r = 1 then s.llat c rq else s.effLlat c rq))

/-- R411, R412, R413, R419, R420, R422, R426: COLL starts the next instance of an ARMED entry, marks a running one, and raises SCHED on an IDLE one. CDRP.ld
checks its descriptor's place and that of its timetable, then the descriptor and every step of up to 256, and loads an entry that is IDLE or ARMED at issue + 2; any other
descriptor, one of more than 256 steps too, raises SCHED; CDRP.drop drops such an entry then; CDRP.st
reads the status word. -/
def Obligations.CollectiveInstructions : Prop :=
  ∀ (s : State) (g : BitVec 3) (e r : BitVec 4) (d : BitVec 5), on s g →
    let c := s.cur.core
    let i := fin 16 e.toNat
    let n := (mine s).entry i
    let clk := s.engClock c s.cur.nested
    let off := (Claims.a s r).toNat
    let desc := (mine s).spm.readBytes off 64
    let stp (k o m : Nat) : Nat := (mine s).spm.readNat ((mine s).spm.readNat off 4 + 16 * k + o) m
    let fld (o k : Nat) : Nat := (mine s).spm.readNat (off + o) k
    let table := (List.range (fld 4 2)).map fun m => parseStep ((mine s).spm.readBytes (fld 0 4 + 16 * m) 16)
    let others := ((List.finRange 16).map fun y => if y = i ∨ ((mine s).entry y).st = .idle then 0 else retention ((mine s).entry y).steps).sum
    let rests := n.st = .idle ∨ n.st = .armed
    let good := GoodDescriptor fld stp others
    (n.st = .idle → Raises (.coll g e) s 7 0) ∧
    (n.st = .armed → n.buf = [] → ∃ t, exec (.coll g e) s = .next t ∧
      (let m := (t.core c).entry i;
       m.st = .active ∧ m.t0 = s.now clk ∧ m.ran = [] ∧ m.finsDone = [] ∧ m.chunks = 0 ∧ m.kept = n.kept ∧ m.inst = n.inst ∧ m.desc = n.desc ∧ m.steps = n.steps ∧
       m.by_ = s.cur.strand ∧ m.trig = s.seq ∧ m.applied = [] ∧ m.sent = false) ∧
      (∀ k st, n.steps[k]? = some st → ∃ it ∈ t.agenda, it.clk = clk ∧ it.due = s.now clk + st.ofs ∧ it.phase = 7 ∧ it.act = .ev (.collectiveStep c i k)) ∧
      (∀ y : Fin 16, y ≠ i → (t.core c).entry y = (mine s).entry y) ∧ (t.core c).spm = (mine s).spm) ∧
    (n.st = .active ∨ n.st = .retained ∨ n.st = .redoing → exec (.coll g e) s = .next (s.onEntry c i fun m => { m with late := some (m.late.getD s.cur.pc) })) ∧
    (off % 64 ≠ 0 → Raises (.cdrpLd g r e) s 6 (Claims.a s r)) ∧
    (off % 64 = 0 → spmEnd s < off + 64 → Raises (.cdrpLd g r e) s 5 (Claims.a s r)) ∧
    (off % 64 = 0 → off + 64 ≤ spmEnd s → fld 4 2 ≠ 0 → spmEnd s < fld 0 4 + 16 * fld 4 2 → Raises (.cdrpLd g r e) s 5 (Claims.a s r)) ∧
    (off % 64 = 0 → off + 64 ≤ spmEnd s → (fld 4 2 = 0 ∨ fld 0 4 + 16 * fld 4 2 ≤ spmEnd s) →
      (rests → good → exec (.cdrpLd g r e) s = .next (due s 2 2 (.cdrpLd i desc (table.map (·.1))))) ∧
      (¬(rests ∧ good) → Raises (.cdrpLd g r e) s 7 (Claims.a s r))) ∧
    (rests → exec (.cdrpDrop g e) s = .next (due s 2 2 (.cdrpDrop i))) ∧
    (¬rests → Raises (.cdrpDrop g e) s 7 0) ∧
    (n.redos ≤ 65535 → n.dups ≤ 65535 → ∃ v : Word, GivesX (.cdrpSt g d e) s 2 d v ∧ bits v.toNat 0 16 = n.inst % 65536 ∧
      bits v.toNat 16 16 = (match n.st with | .idle => 0 | .armed => 1 | .active => 2 | .retained => 3 | .redoing => 4) ∧
      bits v.toNat 32 16 = n.dups ∧ bits v.toNat 48 16 = n.redos) ∧
    ∀ (it : Item) (j : Fin 4) (pc : Nat) (pos : Fin 4) (ts : List TStep), n.running = false →
      (let t := s.applyEff it c j pc pos (.cdrpLd i desc ts);
       let m := (t.core c).entry i;
       m.st = .armed ∧ m.desc = desc ∧ m.steps = ts ∧ m.inst = 0 ∧ m.kept = [] ∧ m.buf = [] ∧ m.strand = j ∧ m.late = none) ∧
      let t := s.applyEff it c j pc pos (.cdrpDrop i)
      ((t.core c).entry i).st = .idle ∧ ((t.core c).entry i).buf = []

end
/-! ## The link and the collective: events -/

namespace Sys2Proof.Claims
open Sys2Proof.Machine

/-- Nothing of a core's memories, registers and strands differs, in any core. -/
def CoresKeep (s t : State) : Prop := ∀ c : Fin 256, (t.core c).spm = (s.core c).spm ∧ (t.core c).bsram = (s.core c).bsram ∧ (t.core c).v = (s.core c).v ∧
  (t.core c).strands = (s.core c).strands

/-- The kernel that holds core c has faulted with a cause, if it had not before. -/
def GroupFaults (s t : State) (c : Fin 256) (cause : Nat) : Prop := ∀ o, (s.core c).owner = some o → (∃ k, s.kernel? o.kid = some k ∧ k.fault = none ∧ k.halted = false) →
  ∀ k, t.kernel? o.kid = some k → ∃ f, k.fault = some f ∧ f.reason = 0 ∧ f.tcause = cause

/-- The group on core d takes what comes for function n of a generation; it has been saved and takes nothing more (R401, R405). -/
def Taken (s : State) (d : Fin 256) (n : Nat) (gen : Option (BitVec 3)) : Prop := ∃ k g, s.owner? d = some (k, g) ∧ k.ctx.val = n ∧
  (∀ x, gen = some x → (s.ctxs[k.ctx]).gen = x) ∧ g.st ≠ .saved ∧ ∀ j : Fin 4, ((s.core d).strands[j]).life ≠ .saved
def Saved (s : State) (d : Fin 256) (n : Nat) (gen : Option (BitVec 3)) : Prop := ∃ k g, s.owner? d = some (k, g) ∧ k.ctx.val = n ∧
  (∀ x, gen = some x → (s.ctxs[k.ctx]).gen = x) ∧ (g.st = .saved ∨ ∃ j : Fin 4, ((s.core d).strands[j]).life = .saved)

/-- Nothing on the agenda is on the way over link p, and no gathering has come in at it. -/
def HoldsNothing (s : State) (p : Fin 46) : Prop := (∀ it ∈ s.agenda, s.isOn p it = false) ∧ (∀ g ∈ s.gathers, g.port ≠ p.val) ∧ (s.ports[p]).lost ≤ 65535

/-- Only port p differs, as f says. -/
def PortGoes (i : Instr) (s : State) (p : Fin 46) (f : Port → Port) : Prop := exec i s = .next { s with ports := upd s.ports p f }

end Sys2Proof.Claims

section
open Sys2Proof Sys2Proof.Machine Sys2Proof.Claims

/-- R392, R394, R395, R398, R399, R402, R403, R404, R405, R408, R410: what comes in at a port. A flit that fails its CRC, or finds its port not
up or its context absent, is lost and counted, and one for a saved group is discarded; a good one that closes no gap lands at once in a PACED
group, and on its due TT in a TIMED one. A landing flit goes to the tail of its queue, or is discarded as an overflow, or is written into SPM;
one that its core does not take is lost, and on the package leaves a gap, which the next one shows as LINK. A missing flit faults the group with
LINK, but for one of a collective, whose acknowledgement is missing instead (R417). A landing write takes its place among the writes of the cycle, and meets the
pins that the verdicts of the cycle have left (R292, R293). That the first flit of a route closes no gap is the model's choice (log 110), and so is that a flit with
due TT 0 lands at once in a TIMED group (log 104). A beacon gives the port its offset. DRIFT_STEP moves CYC by the step. -/
def Obligations.LinkEvents : Prop :=
  ∀ (s : State) (p : Fin 46) (f : Flit) (fec : Fec) (b : Beacon) (c : Fin 256) (w : Word),
    let d : Fin 256 := fin 256 (bits f.route.toNat 41 3 * 32 + bits f.route.toNat 36 5)
    let isKind (k : Nat) : Prop := f.route.toNat / 2 ^ 62 = k
    let up := (s.ports[p]).st = .timed ∨ (s.ports[p]).st = .degraded
    let func := bits f.route.toNat 44 5
    let near := bits f.route.toNat 49 1 = 1
    let sound := fec ≠ .failed ∧ flitCrc f = f.crc
    let good := sound ∧ f.isBeacon = false ∧ up ∧ Taken s d func none
    let first := ∀ r ∈ s.seqRx, ¬(r.route = f.route ∧ r.srcPkg = f.srcPkg.toNat ∧ r.srcCore = f.srcCore.toNat)
    let q := fin 8 (bits f.route.toNat 32 4)
    let off := bits f.route.toNat 0 20
    let to_ := if near then f.func.toNat else func
    let gen := if near then some f.gen else none
    let absent := ¬Taken s d to_ gen ∧ ¬Saved s d to_ gen ∧ s.performsIn f d = false
    let lands := Taken s d to_ gen ∧ s.gaps = [] ∧ f.trailer = false
    let here : Flit := { f with port := p.val }
    let loses (error : Nat) : Prop := ∃ t, exec (.flitArrival p f fec) s = .next t ∧ t = { s with ports := t.ports } ∧
      (∀ m : Fin 46, m ≠ p → t.ports[m] = s.ports[m]) ∧ (t.ports[p]).lost = min ((s.ports[p]).lost + 1) 65535 ∧ (t.ports[p]).st = (s.ports[p]).st ∧
      (t.ports[p]).errs = (s.ports[p]).errs + error ∧
      (t.ports[p]).corr = if fec = .corrected then min ((s.ports[p]).corr + 1) 65535 else (s.ports[p]).corr
    (¬sound → loses 1) ∧
    (sound → f.isBeacon = false → (¬up ∨ (¬Taken s d func none ∧ ¬Saved s d func none)) → loses 0) ∧
    (sound → f.isBeacon = true → (s.ports[p]).st = .down ∨ (s.ports[p]).st = .training ∨ (s.ports[p]).st = .failed → loses 0) ∧
    (sound → f.isBeacon = true → fec = .clean → up ∨ (s.ports[p]).st = .aligning → exec (.flitArrival p f fec) s = exec (.beacon p (beaconOf f)) s) ∧
    (sound → f.isBeacon = false → up → Saved s d func none → ∃ t, exec (.flitArrival p f fec) s = .next t ∧
      t = { s with ports := t.ports, seqRx := t.seqRx } ∧ (t.ports[p]).lost = (s.ports[p]).lost) ∧
    (good → first → ¬isKind 2 → f.image = false → (s.timed d = false ∨ f.due = 0) → ∃ t, exec (.flitArrival p f fec) s = .next t ∧
      nowAct s 3 (.ev (.flitLanding here)) t ∧ CoresKeep s t ∧ t.kernels = s.kernels ∧ t.dev = s.dev) ∧
    (good → first → ¬isKind 2 → f.image = false → s.timed d = true → f.due ≠ 0 → (f.due.toNat + 2 ^ 32 - (s.core d).tt % 2 ^ 32) % 2 ^ 32 < 2 ^ 31 →
      ∃ t, exec (.flitArrival p f fec) s = .next t ∧ CoresKeep s t ∧ ∃ it ∈ t.agenda, it.clk = .tt d ∧ it.phase = 3 ∧ it.act = .ev (.flitLanding here) ∧
        it.due % 2 ^ 32 = f.due.toNat ∧ (s.core d).tt ≤ it.due ∧ it.due < (s.core d).tt + 2 ^ 31) ∧
    (lands → isKind 0 → ∃ t, exec (.flitLanding f) s = .next t ∧
      (((s.core d).landq[q]).flits.length < 96 → (∀ m, (t.core m).spm = (s.core m).spm) ∧ t.agenda = s.agenda ∧
        (t.core d).landq = upd (s.core d).landq q fun l => { l with flits := l.flits ++ [f.payload] }) ∧
      (96 ≤ ((s.core d).landq[q]).flits.length → ((t.core d).landq[q]).flits = ((s.core d).landq[q]).flits ∧ ((t.core d).landq[q]).ovf = true ∧
        ((t.core d).landq[q]).disc = ((s.core d).landq[q]).disc + 1)) ∧
    (lands → isKind 1 → ∃ t bs, exec (.flitLanding f) s = .next t ∧
      (∃ it ∈ t.agenda, it.clk = .time ∧ it.due = s.time ∧ it.phase = 8 ∧ it.core = f.srcCore.toNat ∧ it.seq = s.turn ∧ it.act = .land d off bs) ∧
      (∃ it ∈ t.agenda, it.clk = .time ∧ it.due = s.time ∧ it.phase = 4 ∧ it.act = .pinCheck d off 64 f.srcCore.toNat s.turn) ∧
      ((s.core d).pinned .spm off 64 = false → s.pinCheck d off 64 f.srcCore.toNat s.turn = s) ∧ CoresKeep s t ∧ bs.length = 64 ∧ ∀ i < 64, bs[i]? = some (byteOf f.payload.toNat i)) ∧
    (absent → ∃ t, exec (.flitLanding f) s = .next t ∧ CoresKeep s t ∧ t.agenda = s.agenda ∧ t.kernels = s.kernels ∧
      (near → (f.route, f.srcCore.toNat) ∈ t.gaps)) ∧
    (Saved s d to_ gen → s.performsIn f d = false → exec (.flitLanding f) s = .next s) ∧
    (Taken s d to_ gen → near → (f.route, f.srcCore.toNat) ∈ s.gaps → f.trailer = false → isKind 1 → ∃ t, exec (.flitLanding f) s = .next t ∧
      GroupFaults s t d 0x0E) ∧
    (w.toNat / 2 ^ 62 ≠ 2 → s.timed c = true → ∃ t, exec (.flitMissing c w) s = .next t ∧ GroupFaults s t c 0x0E) ∧
    (w.toNat / 2 ^ 62 = 2 → exec (.flitMissing c w) s = .next s) ∧
    ((s.ports[p]).st = .timed ∨ (s.ports[p]).st = .degraded →
      PortGoes (.beacon p b) s p fun r => { r with ofs := (b.cyc.toNat : Int) + r.ow - s.cyc, fresh := true }) ∧
    ((s.ports[p]).st = .aligning → s.calib = false → s.adopted = false → 10 ≤ p.val → (b.calib = true ∨ b.srcPkg.toNat < s.pkg) →
      ∃ t, exec (.beacon p b) s = .next t ∧ t.adopted = true ∧ (t.ports[p]).ofs = 0 ∧
        ∃ it ∈ t.agenda, it.clk = .time ∧ it.due = s.time + 1 ∧ it.act = .adopt (b.cyc.toNat + (s.ports[p]).ow + 1)) ∧
    ((s.ports[p]).st = .down ∨ (s.ports[p]).st = .training ∨ (s.ports[p]).st = .failed → exec (.beacon p b) s = .next s) ∧
    (s.driftNow ≠ 0 → exec .driftStep s = .next { s with cyc := ((s.cyc : Int) + s.driftNow).toNat,
                                                         driftOfs := s.driftOfs + BitVec.ofInt 64 s.driftNow, driftNow := 0, noBell := decide (s.driftNow < 0) })

/-- R396, R399, R404, R408: the states of a link, each event from each state that the rule gives it; from any other it is not enabled. A port that
goes DOWN loses the flits that it holds for a due TT, which are then missing; an edge that goes DOWN those of the package that are on their way over it (that
these are the ones that have yet to land is the model's reading, log 199). -/
def Obligations.PortStates : Prop :=
  ∀ (s : State) (p : Fin 46) (n : Fin 9),
    let st := (s.ports[p]).st
    let goes (i : Instr) (to_ : PortSt) : Prop := PortGoes i s p fun q => { q with st := to_ }
    let none_ (i : Instr) : Prop := exec i s = .next s
    let fails (i : Instr) (to_ : PortSt) : Prop := ∃ t, exec i s = .next t ∧ (t.ports[p]).st = to_ ∧ bits t.devFail.toNat 0 8 = 2
    let drops (i : Instr) : Prop := (st = .timed → p.val < 10 → fails i .down) ∧
      (st ≠ .timed ∨ 10 ≤ p.val →
        (HoldsNothing s p → PortGoes i s p fun q => { q with st := .down, good := 0 }) ∧
        ∃ t, exec i s = .next t ∧ (t.ports[p]).st = .down ∧ (t.ports[p]).good = 0 ∧ (∀ m : Fin 46, m ≠ p → t.ports[m] = s.ports[m]) ∧ t.cores = s.cores ∧
          (∀ it ∈ t.agenda, ∀ f, it.act = .ev (.flitLanding f) → f.port ≠ p.val) ∧ (∀ it ∈ t.agenda, ∀ ch, it.act = .chunk ch → ch.port ≠ p.val) ∧
          ∀ it ∈ s.agenda, ∀ f, it.act = .ev (.flitLanding f) →
            let to_ : Fin 256 := fin 256 (bits f.route.toNat 41 3 * 32 + bits f.route.toNat 36 5)
            let missed : Item := { it with act := .ev (.flitMissing to_ f.route) }
            (f.port = p.val → f.trailer = false → missed ∈ t.agenda) ∧
            (f.port = 46 → bits f.route.toNat 49 1 = 1 → p ∈ dieEdges (dieOf (fin 256 f.srcCore.toNat)) (dieOf to_) →
              { it with act := .gap f.route f.srcCore.toNat } ∈ t.agenda ∧ (it.clk ≠ .time → f.trailer = false → missed ∈ t.agenda)))
    (st = .down → goes (.portEnable p) .training) ∧ (st ≠ .down → none_ (.portEnable p)) ∧
    (st = .training → n = 8 → ∃ t, exec (.trainingComplete p n) s = .next t ∧ (t.ports[p]).st = .aligning ∧ (t.ports[p]).width = 8 ∧ (t.ports[p]).good = 0 ∧
      (t.ports[p]).ow = ((t.ports[p]).trip + 1) / 2 ∧ t.cores = s.cores ∧ ∀ m : Fin 46, m ≠ p → t.ports[m] = s.ports[m]) ∧
    (st = .training → 4 ≤ n.val → n ≠ 8 → 10 ≤ p.val → PortGoes (.trainingComplete p n) s p fun q => { q with st := .degraded, width := n.val }) ∧
    (st ≠ .training ∨ n.val < 4 ∨ (n ≠ 8 ∧ p.val < 10) → none_ (.trainingComplete p n)) ∧
    (st = .training → ∃ t, exec (.trainingFail p) s = .next t ∧ (t.ports[p]).st = .failed ∧ (∀ m : Fin 46, m ≠ p → t.ports[m] = s.ports[m]) ∧
      t.cores = s.cores) ∧
    (st ≠ .training → none_ (.trainingFail p)) ∧
    (st = .aligning → 16 ≤ (s.ports[p]).good → ∃ t, exec (.alignComplete p) s = .next t ∧
      t.ports = upd s.ports p (fun q => { q with st := .timed, lost := 0, corr := 0, errs := 0 }) ∧ (10 ≤ p.val → t.calib = true) ∧
      (p.val < 10 → t.calib = s.calib) ∧ (t.llats.map (·.1)).contains p.val = true ∧ t.cores = s.cores ∧ t.kernels = s.kernels) ∧
    (st ≠ .aligning ∨ (s.ports[p]).good < 16 → none_ (.alignComplete p)) ∧
    (st = .timed → 10 ≤ p.val → PortGoes (.linkDegrade ⟨p, n⟩) s p fun q => { q with width := n.val, st := .degraded, good := 0 }) ∧
    (st = .timed → p.val < 10 → fails (.linkDegrade ⟨p, n⟩) .degraded) ∧ (st ≠ .timed → none_ (.linkDegrade ⟨p, n⟩)) ∧
    (st = .degraded → goes (.retrain p) .training) ∧ (st ≠ .degraded → none_ (.retrain p)) ∧
    drops (.portDisable p) ∧ drops (.signalLoss p) ∧
    (st = .failed → goes (.portReset p) .down) ∧ (st ≠ .failed → none_ (.portReset p))

/-- R413 to R420, R422: the collective's events. A step reads its source and sends its chunk, which its entry retains, to a core of the package
that takes it; FIN rounds what it has read; a chunk for the running instance that has not come before is put where it belongs; one that has
come before, or is older, is a duplicate; an acknowledgement frees its chunk, in a TIMED member on its due TT; a missing one has the chunk sent again over the alternate route
once; an instance that is complete leaves its entry ARMED for the next. -/
def Obligations.CollectiveEvents : Prop :=
  ∀ (s : State) (c : Fin 256) (e : Fin 16) (i : Nat),
    let n := (s.core c).entry e
    let clk := s.engClock c false
    let others (t : State) : Prop := (∀ y : Fin 16, y ≠ e → (t.core c).entry y = (s.core c).entry y) ∧ ∀ m, (t.core m).spm = (s.core m).spm
    (∀ st, n.steps[i]? = some st → n.running = true → i ∉ n.ran →
      let raw := (s.core c).spm.readBytes (n.q st n.inst + st.src).toNat st.bytes
      let w := (s.core c).rt[fin 8 st.rt]
      (st.isFin = true → ∃ t, exec (.collectiveStep c e i) s = .next t ∧ dueEv s clk 16 3 c.val (.finStep c e i) t ∧ others t ∧
        ((t.core c).entry e).ran = i :: n.ran ∧
        ((t.core c).entry e).finBuf = (i, raw, (s.core c).spm.readBytes (n.ebase + st.src / 8) (st.bytes / 8)) :: n.finBuf) ∧
      (st.isFin = false → s.routeFault c w st.len = none → rtKind w = 2 → rtLocal w = true → s.linkBad c w = false → (s.core c).errL = [] →
        (∀ q ∈ dieEdges (dieOf c) (dieOf (rtCore w)), (s.ports[q]).st.carries = true) → ∃ t r, exec (.collectiveStep c e i) s = .next t ∧
        others t ∧ ((t.core c).entry e).ran = i :: n.ran ∧ ((t.core c).entry e).kept = n.kept ++ [r] ∧ r.step = i ∧ r.route = w ∧ r.redo = false ∧
        (st.code = 0 → r.data = raw) ∧
        (∃ it ∈ t.agenda, ∃ ch : Chunk, it.act = .chunk ch ∧ ch.core = rtCore w ∧ ch.entry.val = rtIndex w ∧ ch.data = r.data ∧ ch.step = i ∧
          ch.func = (s.ctxOf c).val ∧ ch.gen = (s.ctxs[s.ctxOf c]).gen ∧
          it.due = s.now clk + (r.data.length + 63) / 64 + s.effLlat c w) ∧
        dueEv s clk ((r.data.length + 63) / 64 + 2 * s.effLlat c w + (if s.timed c then 0 else 4096)) 3 (2 ^ 40) (.ackTimeout c e i) t)) ∧
    (n.running = false ∨ i ∈ n.ran ∨ n.steps.length ≤ i → exec (.collectiveStep c e i) s = .next s) ∧
    (∀ st raw exps, n.steps[i]? = some st → n.finBuf.find? (fun y => y.1 == i) = some (i, raw, exps) →
      let lo := ((if st.dest then n.sbase n.inst else n.dbase n.inst) + ((st.src / 2 : Nat) : Int)).toNat
      let rs := (List.range (st.bytes / 8)).map fun j => wFinal (leNat ((raw.drop (8 * j)).take 8)) (exps.getD j 0).toNat
      ∃ t, exec (.finStep c e i) s = .next t ∧
        (∃ it ∈ t.agenda, it.clk = .time ∧ it.due = s.time ∧ it.phase = 8 ∧ it.core = c.val ∧ it.seq = n.trig ∧
          it.act = .land c lo (rs.flatMap fun r => toBytes 4 r.1)) ∧ ((t.core c).entry e).finsDone = i :: n.finsDone ∧ others t ∧
        (t.strand c n.strand).csr.fsr = (s.strand c n.strand).csr.fsr ||| BitVec.ofNat 64 (Flags.union (rs.map (·.2))).code) ∧
    (∀ ch : Chunk, ch.core = c → ch.entry = e →
      let lo := n.dbase n.inst + ch.ofs
      let key := (ch.srcPkg, ch.srcCore, ch.step)
      let cur_ : Int := if n.running = true then n.inst else (n.inst : Int) - 1
      let dist := (((ch.inst : Int) - cur_) % 4096).toNat
      let gen := if ch.srcPkg = s.pkg then some ch.gen else none
      let taken := Taken s c ch.func gen
      let fits := 0 ≤ lo ∧ lo + ch.data.length ≤ 0xBC000
      (¬taken → ¬Saved s c ch.func gen → ∃ t, exec (.chunkApply ch) s = .next t ∧ t = { s with ports := t.ports }) ∧
      (Saved s c ch.func gen → exec (.chunkApply ch) s = .next s) ∧
      (taken → n.st = .idle → exec (.chunkApply ch) s = .next s) ∧
      (taken → n.running = true → dist = 0 → key ∉ n.applied → fits → ∃ t, exec (.chunkApply ch) s = .next t ∧ others t ∧
        nowAct s 8 (.combine c lo.toNat (bits ch.op.toNat 4 2) ch.data) t ∧ ((t.core c).entry e).chunks = n.chunks + 1 ∧ ((t.core c).entry e).applied = key :: n.applied) ∧
      (taken → n.st ≠ .idle → (dist = 0 ∧ (n.running = false ∨ key ∈ n.applied)) ∨ 2048 ≤ dist → ∃ t, exec (.chunkApply ch) s = .next t ∧ others t ∧
        (t.core c).entry e = { n with dups := min (n.dups + 1) 65535 }) ∧
      (taken → n.st ≠ .idle → dist = 1 → (∀ b ∈ n.buf, (b.srcPkg, b.srcCore, b.step) ≠ key) → (n.buf.map fun b => b.data.length).sum + ch.data.length ≤ 16384 →
        ∃ t, exec (.chunkApply ch) s = .next t ∧ others t ∧ ((t.core c).entry e).buf = n.buf ++ [ch]) ∧
      (taken → n.st ≠ .idle → 2 ≤ dist → dist < 2048 → ∃ t, exec (.chunkApply ch) s = .next t ∧ GroupFaults s t c 0x0B)) ∧
    ((∀ y ∈ s.agenda, y.act = .ev (.ackTimeout c e i) → ∀ m, y.clk ≠ .tt m) → ∃ t, exec (.ackArrival c e i) s = .next t ∧ others t ∧ ((t.core c).entry e).kept = n.kept.filter (fun r => r.step != i)) ∧
    (∀ y ∈ s.agenda, ∀ m, y.act = .ev (.ackTimeout c e i) → y.clk = .tt m → (s.core m).tt < y.due → ∃ t z, exec (.ackArrival c e i) s = .next t ∧
      t = { s with agenda := s.agenda ++ [z], seq := s.seq + 1 } ∧ z.clk = .tt c ∧ z.act = .ev (.ackArrival c e i)) ∧
    (∀ r, n.kept.find? (fun r => r.step == i) = some r →
      (r.redo = true → ∃ t, exec (.ackTimeout c e i) s = .next t ∧ GroupFaults s t c 0x0E) ∧
      ∀ st, r.redo = false → n.steps[i]? = some st →
        let w := (s.core c).rt[fin 8 (n.alt st.rt)]
        s.routeFault c w r.data.length = none → rtKind w = 2 → s.linkBad c w = false → ∃ t, exec (.ackTimeout c e i) s = .next t ∧ others t ∧
          ((t.core c).entry e).st = .redoing ∧ ((t.core c).entry e).redos = min (n.redos + 1) 65535 ∧
          ∀ y ∈ ((t.core c).entry e).kept, y.step = i → y.redo = true ∧ y.route = w) ∧
    (n.kept.find? (fun r => r.step == i) = none → exec (.ackTimeout c e i) s = .next s) ∧
    (n.complete = true → n.late = none → ∃ t, exec (.instanceComplete c e) s = .next t ∧ others t ∧ ((t.core c).entry e) = { n with st := .armed, inst := n.inst + 1, late := none, doneAt := s.time + 1 }) ∧
    (n.complete = true → n.late.isSome = true → ∃ t, exec (.instanceComplete c e) s = .next t ∧ GroupFaults s t c 0x0B) ∧
    (n.complete = false → exec (.instanceComplete c e) s = .next s)

end
/-! ## Bundles, strands, groups and kernels -/

namespace Sys2Proof.Claims
open Sys2Proof.Machine

/-- Group gp of kernel kid is g. -/
def HasGroup (s : State) (kid gp : Nat) (k : Kernel) (g : Group) : Prop :=
  s.kernel? kid = some k ∧ k.groups[gp]? = some g ∧ s.group? kid gp = some g

/-- The event faults kernel kid with a group fault of a cause, whose record names the group's first member and no strand (R442). -/
def WholeFault (i : Instr) (s : State) (kid : Nat) (g : Group) (cause : Nat) : Prop :=
  ∃ t, exec i s = .next t ∧ ∃ w r, t.kernel? kid = some w ∧ w.fault = some r ∧ r.reason = 0 ∧ r.tcause = cause ∧ r.taddr = 0 ∧
    r.core = (match g.members with
      | [] => 0xFFFF
      | c :: _ => c.val) ∧ r.strand = 0xFF ∧ r.cyc = s.cyc

/-- What the slots of the bundle at a strand's pc start from: what STRS of it reads of the core's other strands (R202), and the pins that its
MMA sets in this cycle (R292). -/
def bundleStart (s : State) (c : Fin 256) (j : Fin 4) (b : Bundle) : State :=
  let u := s.begin_ c j (s.strand c j).pc.toNat b.pops false
  let u := if b.slots.any fun y => Instr.isStrs y.2 then u.onCur fun k => { k with ready := s.readyOf c j } else u
  u.onCur fun k => { k with newPins := u.pinsOf b.exts b.slots }

/-- The slots of a bundle run one after another by exec, each from the state that the one before it left; a strand that has been stopped
runs no more. -/
def runsBy (b : Bundle) (s : State) : State :=
  b.slots.foldl (fun u y => if u.curStrand.life != .live then u else match exec y.2 (u.atSlot y.1 b.exts) with
    | .next v => v
    | _ => u) s

end Sys2Proof.Claims

section
open Sys2Proof Sys2Proof.Machine Sys2Proof.Claims

/-- R65, R66, R86, R91: the instructions of a bundle with no illegal slot are those that its words decode to, position by position, but for
NOPs and for a header in position 0; each runs as exec runs it. And when the machine's next work is an instruction, its step is exec of
that instruction. -/
def Obligations.StepRunsDecoded : Prop :=
  (∀ (k : Core) (t : Strand) (pc : Nat) (p : Fin 4) (i : Instr), (k.bundle t pc).bad = none →
    ((p, i) ∈ (k.bundle t pc).slots ↔ decodeSlot p (k.istore.readNat (pc + 4 * p.val) 4) = .ok i ∧ i ≠ .nop ∧
      ¬(p = 0 ∧ (decodeHeader (k.istore.readNat pc 4)).isSome = true))) ∧
  (∀ (p : Fin 4) (w : Nat) (i : Instr) (s : State), decodeSlot p w = .ok i → runSlot i s = exec i s) ∧
  ∀ (s u : State) (i : Instr),
    (s.nextWork = (u, .event i) ∨ (s.nextWork = (u, .input i) ∧ u.accepts i = true) → step s = exec i u) ∧
    (s.nextWork = (u, .input i) → Instr.isInput i = true → u.accepts i = false → step s = .next u) ∧
    (s.nextWork = (u, .input i) → Instr.isInput i = false → step s = .fault .notEnabled) ∧
    ∀ it t, s.nextWork = (u, .item it) → it.act = .ev i → exec i { u with turn := it.seq } = .next t → step s = .next t

/-- R73, R82, R91, R160, R176, R177: a strand that may try, and that its core has selected where the core selects, issues its bundle at its earliest
cycle: its slots run in order and the bundle ends; a bundle with an illegal slot traps then and runs none, and where a transfer has gone out of the
image no bundle issues and ADDR names it (R82). A core whose selected strand cannot issue selects the next one in order that can, to issue two cycles
later. At the restart of a frozen group every member that waits at the common REALIGN goes on with Z. That no DLY counts at a target out of the image,
and that a transfer to one counts among the 127 effects, are the model's choices (logs 144 and 190). -/
def Obligations.BundlesAndStrands : Prop :=
  ∀ (s : State) (c : Fin 256) (j : Fin 4),
    let t := s.strand c j
    let k := s.core c
    let picked := s.selects c = false ∨ (k.sel = j ∧ k.selFrom ≤ s.time)
    let pc := t.pc.toNat
    let b := k.bundle t pc
    let ran := runsBy b (bundleStart s c j b)
    let inFlight := ran.ended.1.flightCount c j + (match ran.ended.2 with
      | some a => a.more.length
      | none => 0)
    (s.mayTry c j = true → picked → t.replay = [] → t.bad = none → t.earliest b.dly ≤ t.lt →
      (∀ q : Fin 8, b.pops.getLsbD q.val = true → (k.landq[q]).flits ≠ []) → ran.cur.stall = false → inFlight ≤ 127 →
      (b.bad = none → exec (.bundleIssue c j) s = .next ({ ran.finish with free := ran.finish.free + 1 }.didIssue c j t.trapped pc)) ∧
      ∀ p, b.bad = some p → exec (.bundleIssue c j) s = .next ((s.takeTrapAt c j
        { slot := p, pc, info := { cause := 1, taddr := 0, coef := none }, order := s.seq, ring := t.ring } pc).didIssue c j t.trapped pc)) ∧
    (∀ d : Transfer, s.mayTry c j = true → picked → t.replay = [] → t.bad = some d → max t.base t.fenceW ≤ t.lt → ∃ u, exec (.bundleIssue c j) s = .next u ∧
      (t.trapped = false → t.wrote.1 ≠ s.time + 1 → (u.strand c j).trapped = true ∧ (u.strand c j).csr.tcause = 5 ∧ (u.strand c j).csr.taddr = d.target ∧
        (u.strand c j).csr.tpc = BitVec.ofNat 64 d.source ∧ (u.strand c j).level = .super)) ∧
    (s.mayTry c j = false ∨ ¬picked → exec (.bundleIssue c j) s = .next s) ∧
    (∀ n : Fin 4, n ≠ 0 → s.selects c = true → s.arbitrating c = false → k.selFrom ≤ s.time → s.canIssue c (k.sel + n) = true →
      (∀ m : Fin 4, m < n → s.canIssue c (k.sel + m) = false) →
      exec (.strandSelect c (k.sel + n)) s = .next { s with cores := upd s.cores c fun k => { k with sel := k.sel + n, selFrom := s.time + 2 } }) ∧
    (s.canIssue c k.sel = true → exec (.strandSelect c j) s = .next s) ∧
    ∀ kid gp w g f z, HasGroup s kid gp w g → g.freeze = some (f, some z) → (∀ m ∈ g.members, (s.core m).causes = []) →
      (s.cyc < z → exec (.freezeRestart kid gp) s = .next s) ∧
      (z ≤ s.cyc → ∃ u, exec (.freezeRestart kid gp) s = .next u ∧ u.group? kid gp = some { g with freeze := none } ∧
        (∀ m n, m ∉ g.members ∨ n ≠ 0 → u.strand m n = s.strand m n) ∧ (∀ m, (u.core m).tt = (s.core m).tt ∧ (u.core m).spm = (s.core m).spm) ∧
        ∀ m ∈ g.members, ∀ d p y x, (s.strand m 0).wait = .realign d p y x → p = false ∨ s.pre m = false →
          u.strand m 0 = { (s.strand m 0).wx d (BitVec.ofNat 64 s.cyc) with wait := .none, base := (s.strand m 0).lt })

/-- R151, R167, R170, R171: a strand that waits at a REALIGN issued before the bell goes on there with the bell's CYC in Xd, or at a REALIGN.p with
PRE = 1 stops for its save. A REALIGN that some members have not issued HLAT cycles on faults the group with SCHED; a budget reached, not counting the
cycles of its steps, and a join that has stood for 2^24 cycles fault it with DEADLINE; none of these comes in step mode. A join that every member
waits in ends at a bell at which the joint level's HLAT has passed: every member's Xd is that bell's CYC, and all members' TT moves by the same count.
That BUDGET is held against TT less the stepped cycles, that the waits of a PACED group count, that DEADLINE comes when every member stands at BUDGET,
and how a handler's REALIGN ends are the model's choices (logs 169, 177, 207 and 61). -/
def Obligations.RealignEnds : Prop :=
  ∀ (s : State) (c : Fin 256) (j : Fin 4) (kid gp : Nat) (k : Kernel) (g : Group),
    let t := s.strand c j
    (s.isBell = false → exec (.realignResume c j) s = .next s) ∧
    (∀ d p y x, s.isBell = true → t.wait = .realign d p y x → y < s.cyc → t.life = .live →
      (t.trapped = true ∨ s.timed c = false ∨ (s.atFreeze c = false ∧ (s.core c).causes = [])) →
      (p = false ∨ s.pre c = false → exec (.realignResume c j) s =
        .next (s.onStrand c j fun t => { t.wx d (BitVec.ofNat 64 s.cyc) with wait := .none, base := t.lt })) ∧
      (p = true → s.pre c = true → ∃ u, exec (.realignResume c j) s = .next u ∧ u.strand c j = { t with wait := .saving d } ∧
        (s.timed c = false → u = s.onStrand c j fun t => { t with wait := .saving d }))) ∧
    (HasGroup s kid gp k g → k.fault = none → k.halted = false → (g.st = .released ∨ g.st = .draining) →
      (∀ r ∈ g.realigns, k.record.timed = true → g.step = .off → r.2.2.2.length < g.members.length → r.1 + hlat g.level ≤ 2 ^ 64 →
        (∀ m ∈ g.members, r.1 + hlat g.level ≤ s.reachedTT m) → WholeFault (.realignMismatch kid gp) s kid g 0x07) ∧
      (k.record.budget ≠ 0 → g.step = .off → g.members ≠ [] → (∀ m ∈ g.members, k.record.budget + g.stepped ≤ (s.core m).tt) →
        WholeFault (.deadline kid gp) s kid g 0x08) ∧
      (k.record.budget = 0 ∨ g.step ≠ .off ∨ (∃ m ∈ g.members, (s.core m).tt < k.record.budget + g.stepped) → exec (.deadline kid gp) s = .next s) ∧
      (∀ m ∈ g.members, ∀ d w y x, (s.strand m 0).wait = .join d w y x → g.step = .off → y + 2 ^ 24 ≤ s.cyc → WholeFault (.joinTimeout kid gp) s kid g 0x08) ∧
      (g.step ≠ .off → exec (.realignMismatch kid gp) s = .next s ∧ exec (.joinTimeout kid gp) s = .next s) ∧
      ∀ w x, s.isBell = true → g.members ≠ [] → g.members.Nodup →
        (∀ m ∈ g.members, ∃ d y, (s.strand m 0).wait = .join d w y x ∧ y + hlat (bits w.toNat 24 8) ≤ s.cyc) →
        ∃ u n, exec (.joinComplete kid gp) s = .next u ∧ (∃ h, u.group? kid gp = some h ∧ h.members = g.members ∧ h.level = bits w.toNat 24 8) ∧
          (∀ m, (u.core m).spm = (s.core m).spm ∧ (u.core m).v = (s.core m).v) ∧
          ∀ m ∈ g.members, (u.core m).tt = (s.core m).tt + n ∧ (u.strand m 0).wait = .none ∧
            ∀ d y, (s.strand m 0).wait = .join d w y x → d ≠ 0 → (u.strand m 0).rx d = BitVec.ofNat 64 s.cyc)

/-- R131, R132, R138, R145, R146, R153, R156, R158: BELL (bell), RECORD_PROMOTION (recordPromotion) and GROUP_RELEASE (groupRelease) complete under
these conditions on the state alone. At a bell the queue unit takes up to 16 records of a queue that runs, oldest first, and counts them in CONSUME,
and writes every queue's STATUS. A record that has waited 2^20 cycles below the promotion limit rises one class, once for each such wait. A group
whose load is complete is released at a bell, into DRAINING where PRE has come while it formed: every strand of the record is live at PC 0 with zero
registers, the members' TT counts from 0, GMEM gives each its level, count and index, and their memories stand as the loader left them. FIRM in
context 0 and USER elsewhere, streams, BND and RT kept over a release, and the release into DRAINING are the model's choices (logs 127, 126 and 120).
-/
def Obligations.BellAndRelease : Prop :=
  ∀ (s : State) (kid gp : Nat) (k : Kernel) (g : Group),
    (s.isBell = false → exec .bell s = .next s) ∧
    (s.isBell = true → ∃ t, exec .bell s = .next t ∧ t.belled = true ∧ t.time = s.time ∧ t.cyc = s.cyc ∧
      (∀ q : Fin 64, t.windows.readNat (0x8000 * q.val + 0x18) 4 = (match (t.queues[q]).st with
        | .running => 0
        | .stopped => 1
        | .overrun => 2
        | .unbound => 3)) ∧
      (s.kernels = [] → ∀ (q : Fin 64) (f : Fin 17), (s.queues[q]).ctx = some f → (s.queues[q]).st = .running →
        ((s.ctxs[f]).st = .open_ ∨ (s.ctxs[f]).st = .active) →
          let w := 0x8000 * q.val
          let prod := s.windows.readNat w 8
          let cons := s.windows.readNat (w + 8) 8
          (cons ≤ prod → prod ≤ cons + 255 → t.windows.readNat (w + 8) 8 = cons + min (prod - cons) 16) ∧
          (prod < cons ∨ cons + 255 < prod → t.windows.readNat (w + 8) 8 = cons))) ∧
    (s.kernel? kid = some k → (k.st = .waiting ∨ k.st = .queued) → k.fault = none →
      let rises := k.rises ≤ s.cyc ∧ k.cls < min 5 (s.ctxs[k.ctx]).part.maxClass
      (rises → ∃ t, exec (.recordPromotion kid) s = .next t ∧ t.kernel? kid = some { k with cls := k.cls + 1, rises := s.cyc + 2 ^ 20 } ∧ t.cores = s.cores ∧
        ∃ it ∈ t.agenda, it.clk = .cyc ∧ it.due = s.cyc + 2 ^ 20 ∧ it.act = .ev (.recordPromotion kid)) ∧
      (¬rises → exec (.recordPromotion kid) s = .next s)) ∧
    (HasGroup s kid gp k g → k.fault = none → s.inBell = true → g.st = .forming → g.saveEnd ≤ s.time → g.resumes = true →
      s.poison = [] → s.hbm = [] → ∃ t, exec (.groupRelease kid gp) s = .next t ∧
        t.group? kid gp = some { g with st := (if g.pre = none then .released else .draining), resumes := false, llats := s.llats } ∧
        t.dev = s.dev ∧ (∀ c, c ∉ g.members → t.core c = s.core c)) ∧
    (HasGroup s kid gp k g → k.fault = none → s.inBell = true → g.st = .forming → g.resumes = false →
      (s.time < g.saveEnd → exec (.groupRelease kid gp) s = .next s) ∧
      (g.saveEnd ≤ s.time → ∃ t, exec (.groupRelease kid gp) s = .next t ∧ t.group? kid gp = some { g with st := (if g.pre = none then .released else .draining), llats := s.llats } ∧
        ((∀ n h, k.groups[n]? = some h → n ≠ gp → h.st ≠ .forming) → ∃ w, t.kernel? kid = some w ∧ w.st = .running) ∧
        (∀ c, c ∉ g.members → t.core c = s.core c) ∧
        ∀ c ∈ g.members,
          let o := s.core c
          let n := t.core c
          n.spm = o.spm ∧ n.bsram = o.bsram ∧ n.istore = o.istore ∧ n.streams = o.streams ∧ n.bnd = o.bnd ∧ n.rt = o.rt ∧
          n.tt = 0 ∧ n.slip = 0 ∧ n.v = Vector.replicate 32 0 ∧ n.sel = 0 ∧ (∀ q : Fin 8, (n.landq[q]).flits = []) ∧
          (g.members.Nodup → ∀ i, g.members[i]? = some c → n.gmem = BitVec.ofNat 64 (g.level * 2 ^ 48 + g.count * 2 ^ 24 + (i + g.offset))) ∧
          (∀ e : Fin 16, (n.entry e).st = .idle) ∧
          ∀ j : Fin 4, ((n.strands[j]).life = if j.val ≤ k.record.strands then .live else .idle) ∧ (n.strands[j]).pc = 0 ∧
            (∀ r, (n.strands[j]).rx r = 0) ∧ (∀ r, (n.strands[j]).ra r = 0) ∧ (∀ r, (n.strands[j]).rp r = (r == 0)) ∧
            (j.val ≤ k.record.strands → (n.strands[j]).level = (if k.ctx = 0 then .firm else .user) ∧
              (n.strands[j]).csr.tvec = BitVec.ofNat 64 (262144 - o.hsize) ∧ jcrK (n.strands[j]).csr.jcr = k.record.jord % 8 ∧
              (k.record.jord < 8 → k.record.jord < jcrG (n.strands[j]).csr.jcr))))

/-- R139, R140, R170, R444, R445, R446: PRE rises in every member of a victim's groups, from the greatest TT that a member has, and from its release
in a group that still forms. At the bell after its strands have stopped a group is saved: each strand's registers and PC go to its region in SPM, and
the member's SPM, vector registers, TT and B-SRAM to its place in the kernel's save, as the layout has them; its landing queues are emptied. When the
save is complete the group's cores are free, and the kernel is PREEMPTED once no group of it runs. PRE in a group that still forms, and the save's
bytes at its bell with its completion Tsave + 256 later, after the reads of the cycle, are the model's choices (logs 120, 125 and 205). -/
def Obligations.Preemption : Prop :=
  ∀ (s : State) (kid gp : Nat) (k : Kernel) (g : Group), HasGroup s kid gp k g →
    (g.st = .released → g.pre = none → (∃ o ∈ s.kernels, kid ∈ o.victims) → ∃ t p, exec (.preSet kid gp) s = .next t ∧ t.cores = s.cores ∧
      t.agenda = s.agenda ∧ t.group? kid gp = some { g with pre := some p, st := .draining } ∧ (∀ c ∈ g.members, (s.core c).tt ≤ p) ∧
      (p = 0 ∨ ∃ c ∈ g.members, p = (s.core c).tt)) ∧
    (g.st = .forming → g.pre = none → (∃ o ∈ s.kernels, kid ∈ o.victims) → ∃ t, exec (.preSet kid gp) s = .next t ∧ t.cores = s.cores ∧
      t.group? kid gp = some { g with pre := some 0 }) ∧
    ((∀ o ∈ s.kernels, kid ∉ o.victims) → exec (.preSet kid gp) s = .next s) ∧
    (s.isBell = false ∨ s.saveReady k g = false → exec (.preemptionSave kid gp) s = .next s) ∧
    (∀ c pa, s.isBell = true → s.saveReady k g = true → g.members = [c] → g.index = 0 → s.poison = [] → s.hbm = [] → (s.ctxs[k.ctx]).ckpt.armed = false →
      let size := 983040 + k.bsram
      (∀ m : Mem, (∀ n, n < pa ∨ pa + size ≤ n → m.read1 n = s.dev.read1 n) → ∀ o < size, ∃ e,
        { s with dev := m }.vaLeaf k.ctx (k.record.save + o) = some (e, pa + o)) →
      ∃ t, exec (.preemptionSave kid gp) s = .next t ∧ t.dev = s.dev ∧
        (∃ h, t.group? kid gp = some h ∧ h.st = .saved ∧ h.saveEnd = s.time + (925696 + k.bsram + 63) / 64 + 256 ∧ h.members = g.members) ∧
        (∃ it ∈ t.agenda, it.clk = .time ∧ it.due = s.time + (925696 + k.bsram + 63) / 64 + 256 ∧ it.act = .ev (.saveComplete kid gp)) ∧
        (∀ q : Fin 8, ((t.core c).landq[q]).flits = []) ∧ (∀ d, d ≠ c → t.core d = s.core d) ∧
        (∀ j : Fin 4, j.val ≤ k.record.strands → let r := 0xBC800 + 0x1000 * j.val
          (∀ x : Fin 32, (t.core c).spm.readNat (r + 8 * x.val) 8 = ((s.strand c j).x[x]).toNat) ∧
          (∀ x : Fin 16, (t.core c).spm.readNat (r + 0x100 + 8 * x.val) 8 = ((s.strand c j).a[x]).toNat) ∧
          (t.core c).spm.readNat (r + 0x188) 8 = (if (s.strand c j).life = .live then (s.strand c j).pc.toNat else 0)) ∧
        (∀ n < 0xBC000, (t.core c).spm.read1 n = (s.core c).spm.read1 n) ∧
        ∃ it ∈ t.agenda, it.clk = .time ∧ it.due = s.time ∧ it.phase = 7 ∧ it.core = 2 ^ 40 ∧ (∃ bs, it.act = .save k.ctx k.record.save bs) ∧
          let d := (t.applyAct it).dev
          (∀ n < 786432, d.read1 (pa + n) = (t.core c).spm.read1 n) ∧
          (∀ r : Fin 32, ∀ n < 4096, d.read1 (pa + 0xC0000 + 4096 * r.val + n) = byteOf ((s.core c).v[r]).toNat n) ∧
          d.readNat (pa + 0xE0000) 8 = (s.core c).tt % 2 ^ 64 ∧
          (∀ n < k.bsram, d.read1 (pa + 0xE2000 + n) = (s.core c).bsram.read1 n) ∧
          ∀ n, n < pa ∨ pa + size ≤ n → d.read1 n = s.dev.read1 n) ∧
    (g.st = .saved → k.fault = none →
      (s.time < g.saveEnd → exec (.saveComplete kid gp) s = .next s) ∧
      (g.saveEnd ≤ s.time → ∃ t, exec (.saveComplete kid gp) s = .next t ∧
        (∀ c, ((t.core c).spm = (s.core c).spm) ∧ ∀ o, (s.core c).owner = some o →
          (o.kid = kid ∧ o.gpos = gp → (t.core c).owner = none) ∧ (¬(o.kid = kid ∧ o.gpos = gp) → (t.core c).owner = some o)) ∧
        ((∀ n h, k.groups[n]? = some h → n ≠ gp → h.st = .retired ∨ (h.st = .saved ∧ h.saveEnd = 0)) →
          (∃ w, t.kernel? kid = some w ∧ w.st = .preempted) ∧ ∀ p ∈ t.pinsets, p.kid ≠ kid)))

/-- R147, R151, R353, R357: a group all of whose work is done retires and leaves its cores; with its last group a kernel is DONE and its outcome is
kept. The replicas of a PAIR kernel are compared when its groups have retired: where they differ on the first run it stands in its queue again for a
second, its pins kept and their bitmaps clear; where they agree the lines that copy 0 wrote go to their home, and the kernel is DONE. A CKPT's bell
clears the log, arms or disarms, and returns the digest to its strand, into the flight-save area where that has trapped. A step that is over reports
with STEP in each strand that issued, and the group stands again. The digest for the flight-save area of a strand that has trapped, the mark that
waits for the end of a rollback, the zeros written after the reads of the cycle, and STEP in every strand that issued with TPC its stepped bundle are
the model's choices (logs 132, 203, 205 and 55). -/
def Obligations.GroupEnds : Prop :=
  ∀ (s : State) (kid gp : Nat) (k : Kernel) (g : Group), HasGroup s kid gp k g →
    let doneNow (t : State) : Prop := (∀ w ∈ t.kernels, w.kid ≠ kid) ∧ ((s.ctxs[k.ctx]).nextSeq ≤ k.seq + 65536 →
        ((t.ctxs[k.ctx]).outcomes).head? = some (k.seq, true)) ∧
      kid ∉ (t.queues[k.queue]).intake ∧ ∀ c o, (t.core c).owner = some o → o.kid ≠ kid
    (s.retirable k g = false → exec (.groupRetire kid gp) s = .next s) ∧
    (s.retirable k g = true → ∃ t, exec (.groupRetire kid gp) s = .next t ∧ (∀ c, (t.core c).spm = (s.core c).spm) ∧
      (∀ c o, (t.core c).owner = some o → ¬(o.kid = kid ∧ o.gpos = gp)) ∧
      let others := ∀ n h, k.groups[n]? = some h → n ≠ gp → h.st = .retired
      (others → k.record.pair = false → (k.record.doneVA = 0 ∨ s.poison = []) → doneNow t) ∧
      (¬others ∨ k.record.pair = true → t.dev = s.dev ∧ t.host = s.host ∧
        ∃ h, t.group? kid gp = some h ∧ h.st = .retired ∧ h.members = g.members)) ∧
    (k.record.pair = true → k.st = .running → k.fault = none → (∀ h ∈ k.groups, h.st = .retired) → k.first = none → s.poison = [] → s.hbm = [] →
      let agree := (s.replicaSums kid 0).map (·.2) = (s.replicaSums kid 1).map (·.2)
      (¬agree → ∃ t, exec (.pairCompare kid) s = .next t ∧ t.dev = s.dev ∧ t.suspect = s.suspect ∧
        (∀ p ∈ t.pinsets, p.kid = kid → ∀ y ∈ p.xs, y.bits0 = 0 ∧ y.bits1 = 0) ∧
        (t.pinsets.map fun p => (p.kid, p.die, p.xs.map (·.leaf))) = (s.pinsets.map fun p => (p.kid, p.die, p.xs.map (·.leaf))) ∧
        ∃ w f, t.kernel? kid = some w ∧ w.st = .queued ∧ w.groups = [] ∧ w.first = some f) ∧
      (agree → (s.ctxs[k.ctx]).ckpt.armed = false → k.record.doneVA = 0 → ∃ t, exec (.pairCompare kid) s = .next t ∧ doneNow t ∧
        t.suspect = s.suspect ∧ ∀ p va, s.shadowPages kid = [(p, va)] → ∀ n, t.dev.read1 n =
          if p ≤ n ∧ n < p + 65536 ∧ (s.shadowBits kid 0 p).getLsbD ((n - p) / 2048) = true then s.dev.read1 (n + 65536) else s.dev.read1 n)) ∧
    (∀ (f : Fin 17) (r : CkptReq), (s.ctxs[f]).ckpts = [r] → s.isBell = true → r.at_ + 2 < s.cyc →
      ((s.ctxs[f]).rolling = true → exec (.checkpointMark f) s = .next s) ∧
      ((s.ctxs[f]).rolling = false → ((s.ctxs[f]).ckpt.armed = false ∨ (s.poison = [] ∧ s.hbm = [])) → ∃ t, exec (.checkpointMark f) s = .next t ∧
        (t.ctxs[f]).ckpts = [] ∧ t.cores = s.cores ∧
        (t.ctxs[f]).ckpt = { armed := !r.off, mark := s.cyc, area := if r.off then [] else r.pages, used := 0, written := [], lines := [] } ∧
        (∀ p, p ∈ (s.ctxs[f]).ckpt.area ∨ (r.off = false ∧ p ∈ r.pages) → ∃ it ∈ t.agenda, it.clk = .time ∧ it.due = s.time ∧ it.phase = 7 ∧
          it.core = 2 ^ 40 ∧ ∀ n < 248, (t.applyAct it).dev.read1 (p + n) = 0) ∧
        ((s.strand r.core r.strand).life = .live → ((s.core r.core).owner.map (·.kid)) = some r.kid → r.d ≠ 0 →
          let h := (s.strand r.core r.strand).hold
          (h.owed = [] → ∃ it ∈ t.agenda, it.clk = .time ∧ it.due = s.time + 512 ∧ it.phase = 2 ∧
            ∃ pc pos, it.act = .eff r.core r.strand pc pos (.x r.d (s.ckptDigest f))) ∧
          ∀ e, h.owed = [(r.order, e)] → h.image = none → ∃ it ∈ t.agenda, it.clk = .time ∧ it.due = s.time ∧ it.phase = 8 ∧
            ((t.applyAct it).core r.core).spm.readNat (0xBC000 + 0x1000 * r.strand.val + 16 + 16 * e) 8 = (s.ckptDigest f).toNat))) ∧
    ∀ j did, g.step = .waiting j did → s.stepDone kid gp g = true → (did.map (·.1)).Nodup → ∃ t, exec (.stepComplete kid gp) s = .next t ∧
      (∃ h, t.group? kid gp = some h ∧ h.step = .halted) ∧
      ∀ d ∈ did, (s.strand d.1 j).life = .live → (s.strand d.1 j).trapped = false →
        (s.iss ≤ d.1.val → (t.strand d.1 j).trapped = false ∧ ∃ p, (t.strand d.1 j).pending = (s.strand d.1 j).pending ++ [p] ∧ p.pc = d.2 ∧
          p.info = { cause := 0x10, taddr := 0, coef := none }) ∧
        (d.1.val < s.iss → (s.strand d.1 j).pending = [] → (s.strand d.1 j).returning = none → (s.strand d.1 j).badDue = none →
          (s.strand d.1 j).wrote.1 ≠ s.time + 1 → (t.strand d.1 j).trapped = true ∧ (t.strand d.1 j).level = .super ∧
          (t.strand d.1 j).csr.tcause = 0x10 ∧ (t.strand d.1 j).csr.tpc = BitVec.ofNat 64 d.2 ∧
          (t.strand d.1 j).csr.npc = BitVec.ofNat 64 (s.strand d.1 j).pc.toNat)
end
/-! ## Contexts, functions and the host -/

namespace Sys2Proof.Claims
open Sys2Proof.Machine

/-- What QUIESCING leaves of a context: no kernel, its queues STOPPED, no launch pending on its cores, and the abandoning of host requests
10 ms on (R120, R121). -/
def Quiesces (s t : State) (f : Fin 17) : Prop :=
  (t.ctxs[f]).st = .quiescing ∧ (t.ctxs[f]).since = s.time ∧ (∀ k ∈ t.kernels, k.ctx ≠ f) ∧
  (∀ q : Fin 64, (s.queues[q]).ctx = some f → (t.queues[q]).st = .stopped) ∧
  (∀ c : Fin 256, (s.ctxs[f]).part.cores.getLsbD c.val = true → (t.core c).launches = []) ∧
  (∃ it ∈ t.agenda, it.clk = .time ∧ it.due = s.time + 19000000 ∧ it.act = .ev (.hostRequestAbandon f)) ∧
  t.dev = s.dev ∧ t.near = s.near ∧ t.host = s.host

/-- The instruction changes context f alone, as g tells. -/
def CtxGoes (i : Instr) (s : State) (f : Fin 17) (g : Ctx → Ctx) : Prop := exec i s = .next { s with ctxs := upd s.ctxs f g }

/-- A command of function f: dropped with ERR 4 while another is in progress; one of a VF that is not enabled changes nothing. -/
def Guarded4 (i : Instr) (s : State) (f : Fin 17) : Prop :=
  (s.functionOn f = true → (s.ctxs[f]).busy = true → CtxGoes i s f fun c => { c with err := 4 }) ∧ (s.functionOn f = false → exec i s = .next s)

end Sys2Proof.Claims

section
open Sys2Proof Sys2Proof.Machine Sys2Proof.Claims

/-- R117, R119 to R124, R128, R134, R455, R462: OPEN of a CLOSED context whose PTROOT is aligned and whose handler image checks; CLOSE, FORCED_CLOSE
and FLR quiesce an OPEN or ACTIVE one; an FLR of PF0 quiesces every context with a partition, one reset for all who ask. Once nothing of it is
outstanding a QUIESCING context is scrubbed within 1.2 ms; its cores are then at reset, their HEALTH kept, and it is CLOSED with the next
generation. Host requests are abandoned 10 ms on, and a return with an old tag is discarded. The cached translations dropped by the scrub,
FLRDONE at the end of every reset, the restart of PF0's firmware, and a VF that SR-IOV has not enabled, which answers nothing, are the model's
choices (logs 138, 134, 167 and 166). -/
def Obligations.ContextLife : Prop :=
  ∀ (s : State) (f : Fin 17) (tag : BitVec 8) (id : Nat),
    let k := s.ctxs[f]
    let live := k.st = .open_ ∨ k.st = .active
    let done (c : Vector Ctx 17) : Vector Ctx 17 := if (s.ctxs[(0 : Fin 17)]).st = .free then upd c 0 fun k => { k with flrDone := true } else c
    let flrs (i : Instr) (who : Nat) : Prop :=
      ((∀ x : Fin 17, (s.ctxs[x]).st = .free) → s.pf0Reset = [] →
        exec i s = .next { s with ctxs := done s.ctxs, fwStarts := s.fwStarts + 1, resp := s.resp ++ [.resetDone who] }) ∧
      (s.pf0Reset ≠ [] → exec i s = .next { s with ctxs := done s.ctxs, pf0Reset := if who ∈ s.pf0Reset then s.pf0Reset else s.pf0Reset ++ [who] }) ∧
      ((∃ x : Fin 17, (s.ctxs[x]).st ≠ .free) → s.pf0Reset = [] → ∃ t, exec i s = .next t ∧ t.pf0Reset = [who] ∧
        ((s.ctxs[(0 : Fin 17)]).st = .free → (t.ctxs[(0 : Fin 17)]).flrDone = true) ∧ ∀ x : Fin 17,
          ((s.ctxs[x]).st = .closed ∨ (s.ctxs[x]).st = .open_ ∨ (s.ctxs[x]).st = .active → Quiesces s t x))
    Guarded4 (.openCtx f) s f ∧ Guarded4 (.closeCtx f) s f ∧
    (s.functionOn f = true → k.busy = false →
      (k.st ≠ .closed → CtxGoes (.openCtx f) s f fun c => { c with err := 1 }) ∧
      (k.st = .closed → (k.root.toNat % 65536 ≠ 0 ∨ k.hva = 0) → CtxGoes (.openCtx f) s f fun c => { c with err := 2 }) ∧
      (k.st = .closed → k.root.toNat % 65536 = 0 → k.hva ≠ 0 → s.poison = [] → s.hbm = [] →
        (∀ text, s.handlerText f k.hva.toNat = some text → CtxGoes (.openCtx f) s f fun c =>
          { c with err := 0, st := .open_, handler := text, flrDone := false, nextSeq := 1, outcomes := [] }) ∧
        (s.handlerText f k.hva.toNat = none → CtxGoes (.openCtx f) s f fun c => { c with err := 2 })) ∧
      (live → ∃ t, exec (.closeCtx f) s = .next t ∧ Quiesces s t f ∧ (t.ctxs[f]).err = 0) ∧
      (k.st = .quiescing ∨ k.st = .scrubbing → CtxGoes (.closeCtx f) s f fun c => { c with err := 0 }) ∧
      (k.st = .closed ∨ k.st = .free → CtxGoes (.closeCtx f) s f fun c => { c with err := 1 })) ∧
    (live → ∃ t, exec (.forcedClose f) s = .next t ∧ Quiesces s t f) ∧ (¬live → exec (.forcedClose f) s = .next s) ∧
    (f ≠ 0 → (s.functionOn f = false → exec (.flr f) s = .next s) ∧ (s.functionOn f = true →
      (live → ∃ t, exec (.flr f) s = .next t ∧ Quiesces s t f) ∧
      (k.st = .closed ∨ k.st = .free → CtxGoes (.flr f) s f fun c => { c with flrDone := true }) ∧
      (k.st = .quiescing ∨ k.st = .scrubbing → exec (.flr f) s = .next s))) ∧
    flrs .flrPf0 0 ∧ flrs (.flr 0) 0 ∧ flrs .resetCmd 1 ∧
    (k.st = .quiescing → s.outstanding f = false → ∃ t n, exec (.drainComplete f) s = .next t ∧ n < 2280000 ∧
      (∃ it ∈ t.agenda, it.clk = .time ∧ it.due = s.time + 1 + n ∧ it.act = .ev (.scrubComplete f)) ∧
      t.ctxs = upd s.ctxs f (fun c => { c with st := .scrubbing, since := s.time, ckpt := Ckpt.off, ckpts := [] }) ∧ t.cores = s.cores) ∧
    (k.st ≠ .quiescing ∨ s.outstanding f = true → exec (.drainComplete f) s = .next s) ∧
    (k.st = .quiescing → k.since + 19000000 ≤ s.time → ∃ t, exec (.hostRequestAbandon f) s = .next t ∧
      t.cmds = s.cmds.filter (fun x => !(s.cmds.any fun y => y.id == x.id && y.ctx == f && y.ofHost)) ∧ t.cores = s.cores ∧ t.host = s.host) ∧
    (k.st ≠ .scrubbing → exec (.scrubComplete f) s = .next s) ∧
    (k.st = .scrubbing → ∃ t, exec (.scrubComplete f) s = .next t ∧
      (∀ c : Fin 256, t.core c = if k.part.cores.getLsbD c.val then { Core.reset with
        tiles := (let zero : Acc := { Acc.zero with init := { AccElem.zero with payload := 0 } }
          Vector.replicate 4 { Tile.reset with prim := zero, shad := zero }), health := (s.core c).health, errP := (s.core c).errP, errS := (s.core c).errS, errV := (s.core c).errV, errL := (s.core c).errL } else s.core c) ∧
      t.ctxs = upd s.ctxs f (fun c =>
        { c with st := .closed, gen := c.gen + 1, root := 0, hva := 0, handler := [], flrDone := true, busy := false, inval := none }) ∧
      ((∀ x : Fin 17, x ≠ f → (s.ctxs[x]).st ≠ .quiescing ∧ (s.ctxs[x]).st ≠ .scrubbing) →
        t.resp = s.resp ++ s.pf0Reset.map .resetDone ∧ t.pf0Reset = [] ∧ t.fwStarts = s.fwStarts + (if s.pf0Reset = [] then 0 else 1)) ∧
      (∀ e ∈ t.tcache, e.2.1 ≠ f) ∧
      t.dev = s.dev ∧ t.near = s.near ∧ t.host = s.host) ∧
    (tag = (s.ctxs[f]).gen ++ BitVec.ofNat 5 f.val → live → exec (.taggedReturn tag id) s = .next s) ∧
    (17 ≤ tag.toNat % 32 ∨ (tag.toNat % 32 = f.val ∧ (tag ≠ (s.ctxs[f]).gen ++ BitVec.ofNat 5 f.val ∨ ¬live)) →
      ((∃ y, s.cmd? id = some y ∧ y.tag = tag) →
        ∃ t, exec (.taggedReturn tag id) s = .next t ∧ t.cmds = s.cmds.filter (·.id != id) ∧ t.cores = s.cores ∧ t.dev = s.dev) ∧
      ((∀ y, s.cmd? id = some y → y.tag ≠ tag) → exec (.taggedReturn tag id) s = .next s))

/-- R142, R151, R152, R343, R356, R453, R455: the commands of a function. A queue command outside the mask gives ERR 3, one that the queue's state
does not take ERR 1. INVAL is BUSY until every translation of its range is dropped. STEP of the side-band port (stepCmd) writes STEPCTL as the
register write does. RBREQ rolls back a context with an armed checkpoint: its kernels are gone and its queues STOPPED. STEPCTL puts the group that its
index names in step mode, takes it out, or runs one step. ERR 1 and BUSY of RBREQ, the group that the index names, the freeze on entering and leaving
step mode and the enabled function are the model's choices (logs 133, 57, 58 and 166). -/
def Obligations.FunctionCommands : Prop :=
  ∀ (s : State) (f : Fin 17) (q : Fin 64) (page : BitVec 32) (count : BitVec 16),
    let k := s.ctxs[f]
    let x := s.queues[q]
    let err (i : Instr) (n : Nat) : Prop := CtxGoes i s f fun c => { c with err := n }
    let ok : State := { s with ctxs := upd s.ctxs f fun c => { c with err := 0 } }
    let sets (st : QueueSt) : Vector Queue 64 := upd s.queues q fun y => { y with st := st }
    let live := k.st = .open_ ∨ k.st = .active
    Guarded4 (.queueStart f q) s f ∧ Guarded4 (.queueStop f q) s f ∧ Guarded4 (.queueReset f q) s f ∧ Guarded4 (.inval f page count) s f ∧
    Guarded4 (.rbreq f) s f ∧
    (s.functionOn f = true → k.busy = false →
      (x.ctx ≠ some f → err (.queueStart f q) 3 ∧ err (.queueStop f q) 3 ∧ err (.queueReset f q) 3) ∧
      (x.ctx = some f →
        (x.st = .stopped → exec (.queueStart f q) s = .next { ok with queues := sets .running }) ∧ (x.st ≠ .stopped → err (.queueStart f q) 1) ∧
        (x.st = .running → exec (.queueStop f q) s = .next { ok with queues := sets .stopped }) ∧ (x.st ≠ .running → err (.queueStop f q) 1) ∧
        (x.st = .stopped ∨ x.st = .overrun → ∃ m : Mem, exec (.queueReset f q) s = .next { ok with queues := sets .stopped, windows := m } ∧
          ∀ n, m.read1 n = if 0x8000 * q.val ≤ n ∧ n < 0x8000 * q.val + 16 then 0 else s.windows.read1 n) ∧
        (x.st ≠ .stopped → x.st ≠ .overrun → err (.queueReset f q) 1)) ∧
      (∃ t, exec (.inval f page count) s = .next t ∧
        t.ctxs = upd s.ctxs f (fun c => { c with err := 0, busy := true, inval := some (page.toNat, count.toNat + 1) }) ∧ t.tcache = s.tcache ∧
        ∃ it ∈ t.agenda, it.clk = .time ∧ s.time < it.due ∧ it.act = .ev (.invalComplete f)) ∧
      (live → k.ckpt.armed = true → k.rolling = false → ∃ t, exec (.rbreq f) s = .next t ∧ (t.ctxs[f]).busy = true ∧ (t.ctxs[f]).rolling = true ∧
        (∀ w ∈ t.kernels, w.ctx ≠ f) ∧ (∀ y : Fin 64, (s.queues[y]).ctx = some f → (t.queues[y]).st = .stopped) ∧ t.dev = s.dev) ∧
      (¬live ∨ k.ckpt.armed = false ∨ k.rolling = true → err (.rbreq f) 1)) ∧
    (k.inval = none → exec (.invalComplete f) s = .next s) ∧
    (∀ lo n, k.inval = some (lo, n) → ∃ t, exec (.invalComplete f) s = .next t ∧ t.ctxs = upd s.ctxs f (fun c => { c with busy := false, inval := none }) ∧
      t.cores = s.cores ∧ t.walks.map (·.id) = s.walks.map (·.id) ∧ ∀ e, e ∈ t.tcache ↔ e ∈ s.tcache ∧ ¬(e.2.1 = f ∧ e.2.2.va / 65536 < lo + n ∧
        lo < e.2.2.va / 65536 + (if e.2.2.block then 8192 else 1))) ∧
    (∀ v : Word, s.functionOn f = true → ∃ t, exec (.stepCmd f v) s = .next t ∧ (t.ctxs[f]).stepCtl = BitVec.ofNat 64 (v.toNat % 2 ^ 20) ∧
      (∀ c : Fin 256, (t.core c).strands = (s.core c).strands ∧ (t.core c).spm = (s.core c).spm ∧ (t.core c).tt = (s.core c).tt) ∧
      t.dev = s.dev ∧ t.near = s.near ∧ t.host = s.host ∧ t.queues = s.queues ∧ exec (.registerWrite f 0x050 v) s = .next t) ∧
    (∀ v : Word, s.functionOn f = false → exec (.stepCmd f v) s = .next s) ∧
    (∀ v : Word, exec (.stepCmd f v) s = exec (.registerWrite f 0x050 v) s) ∧
    ∀ (grp : BitVec 16) (on : Bool) (j : Fin 4), s.functionOn f = true →
      let reg (b : Nat) : State := { s with ctxs := upd s.ctxs f fun c => { c with stepCtl := BitVec.ofNat 64 (grp.toNat + 65536 * b) } }
      (s.stepGroup f grp.toNat = none → exec (.stepMode f grp on) s = .next (reg (bit on)) ∧ exec (.singleStep f grp j) s = .next (reg (3 + 4 * j.val))) ∧
      ∀ kid gp w g, s.stepGroup f grp.toNat = some (kid, gp, g) → HasGroup s kid gp w g →
        let goes (i : Instr) (h : Group) : Prop := ∃ t, exec i s = .next t ∧ t.group? kid gp = some h ∧ ∀ c : Fin 256,
          (t.core c).strands = (s.core c).strands ∧ (t.core c).spm = (s.core c).spm ∧ (t.core c).tt = (s.core c).tt
        (on = true → g.step = .off → goes (.stepMode f grp on) { g with step := .halted, freeze := none }) ∧
        (on = true → g.step ≠ .off → exec (.stepMode f grp on) s = .next (reg 1)) ∧
        (on = false → g.step = .off → exec (.stepMode f grp on) s = .next (reg 0)) ∧
        (on = false → g.step ≠ .off → ∃ fz, goes (.stepMode f grp on) { g with step := .off, freeze := fz }) ∧
        (g.step = .off → goes (.singleStep f grp j) { g with step := .stepping (if w.record.timed then 0 else j) [], freeze := none }) ∧
        (g.step = .halted → goes (.singleStep f grp j) { g with step := .stepping (if w.record.timed then 0 else j) [] })

/-- R8, R118, R142, R325, R388, R452, R453, R454, R456, R457, R458: ASSIGN checks a partition record in order, with ASTAT saying which check failed,
and gives a CLOSED or FREE context its cores, queues, class, near memory and pins; WITHDRAW takes them. The fourth dword of HCLR clears HEALTH. A
register write reaches the context page, and PF0's management registers. Host accesses to device memory and to the submission windows perform on
arrival; a register read gives what stands there, and zero of a write-only one. ASTAT of a function that is not enabled, EVBASE's low bits, HCLR's
fourth dword, offsets that name no register and the enabled function are the model's choices (logs 151, 137, 136, 178 and 166). -/
def Obligations.PartitionsAndHost : Prop :=
  ∀ (s : State) (n : BitVec 5) (f : Fin 17) (v : BitVec 64) (off : Nat),
    let stat (m : Nat) : State := { s with astat := m }
    let p := parsePartition s.records[f]
    let k := s.ctxs[f]
    let sits := k.st = .closed ∨ k.st = .free
    let others (g : Fin 17) : Prop := g ≠ f
    let large : Prop := 1152 * 2 ^ 20 < p.nearBase + p.nearSize
    let laps : Prop := ∃ g : Fin 17, others g ∧ p.overlaps (s.ctxs[g]).part = true
    let pins : Prop := ∃ d : Fin 8, 16384 < p.pins[d] + (((List.finRange 17).filter (· != f)).map fun g => ((s.ctxs[g]).part).pins[d]).sum
    let page (i : Instr) (o : Nat) : Prop := off = o → exec (.registerWrite f off v) s = exec i s
    let dword (w : BitVec 512) (i : Nat) : Word := w.extractLsb' (64 * i) 64
    (17 ≤ n.toNat → exec (.assign n) s = .next (stat 4) ∧ exec (.withdraw n) s = .next (stat 4)) ∧
    (n.toNat = f.val →
      (¬sits → exec (.assign n) s = .next (stat 3) ∧ exec (.withdraw n) s = .next (stat 3)) ∧
      (sits → large → exec (.assign n) s = .next (stat 5)) ∧
      (sits → ¬large → laps → exec (.assign n) s = .next (stat 1)) ∧
      (sits → ¬large → ¬laps → pins → exec (.assign n) s = .next (stat 2)) ∧
      (sits → ¬large → ¬laps → ¬pins → s.functionOn f = false → ∃ a, exec (.assign n) s = .next { s with astat := a, free := s.free + 1 }) ∧
      (sits → ¬large → ¬laps → ¬pins → s.functionOn f = true → ∃ t, exec (.assign n) s = .next t ∧ t.astat = 0 ∧ t.cores = s.cores ∧
        t.ctxs = upd s.ctxs f (fun c => { c with part := p, st := .closed }) ∧
        ∀ q : Fin 64, (p.queues.getLsbD q.val = true → (t.queues[q]).ctx = some f ∧ ((s.queues[q]).ctx ≠ some f → (t.queues[q]).st = .stopped)) ∧
          (p.queues.getLsbD q.val = false → (s.queues[q]).ctx = some f → (t.queues[q]).ctx = none ∧ (t.queues[q]).st = .unbound) ∧
          (p.queues.getLsbD q.val = false → (s.queues[q]).ctx ≠ some f → t.queues[q] = s.queues[q])) ∧
      (sits → ∃ t, exec (.withdraw n) s = .next t ∧ t.astat = 0 ∧ t.cores = s.cores ∧
        t.ctxs = upd s.ctxs f (fun c => { c with part := Partition.empty, st := .free }) ∧
        ∀ q : Fin 64, (s.queues[q]).ctx = some f → (t.queues[q]).ctx = none ∧ (t.queues[q]).st = .unbound)) ∧
    (∀ i : Fin 4, ∃ m : BitVec 256, (∀ b < 256, m.getLsbD b = if 64 * i.val ≤ b ∧ b < 64 * i.val + 64 then v.getLsbD (b - 64 * i.val) else s.hclr.getLsbD b) ∧
      (i ≠ 3 → exec (.hclr i v) s = .next { s with hclr := m }) ∧
      (i = 3 → ∃ t, exec (.hclr i v) s = .next t ∧ t.hclr = m ∧ ∀ c : Fin 256, t.core c = if m.getLsbD c.val = false then s.core c
        else if (s.core c).mender.isSome then { (s.core c) with health := { (s.core c).health with clear := true } }
        else { (s.core c) with health := { word := 0, since := 0, degraded := false, clear := false } })) ∧
    (bits v.toNat 0 2 = 1 → page (.openCtx f) 0x008) ∧ (bits v.toNat 0 2 = 2 → page (.closeCtx f) 0x008) ∧
    (bits v.toNat 8 2 = 1 → page (.queueStart f (fin 64 (bits v.toNat 0 6))) 0x020) ∧
    (bits v.toNat 8 2 = 2 → page (.queueStop f (fin 64 (bits v.toNat 0 6))) 0x020) ∧
    (bits v.toNat 8 2 = 3 → page (.queueReset f (fin 64 (bits v.toNat 0 6))) 0x020) ∧
    page (.inval f (v.extractLsb' 16 32) (v.extractLsb' 0 16)) 0x028 ∧ (v = 1 → page (.rbreq f) 0x048) ∧
    (v.toNat < 2 ^ 17 → page (.stepMode f (v.extractLsb' 0 16) (bits v.toNat 16 1 == 1)) 0x050) ∧
    (s.functionOn f = false → exec (.registerWrite f off v) s = .next s) ∧
    (∀ o, (o = 0x010 ∨ o = 0x018) → off = o → s.functionOn f = true → k.st ≠ .closed → CtxGoes (.registerWrite f off v) s f fun c => { c with err := 3 }) ∧
    (k.st = .closed → s.functionOn f = true → (off = 0x010 → CtxGoes (.registerWrite f off v) s f fun c => { c with root := v }) ∧
      (off = 0x018 → CtxGoes (.registerWrite f off v) s f fun c => { c with hva := v })) ∧
    (off = 0x030 → s.functionOn f = true → ∃ w : Word, w.toNat = v.toNat / 32 * 32 ∧ CtxGoes (.registerWrite f off v) s f fun c => { c with evBase := w }) ∧
    (off = 0x038 → s.functionOn f = true → ∃ w : Word, bits w.toNat 32 32 = bits k.evCtl.toNat 32 32 ∧
      bits w.toNat 0 5 = (if 4 ≤ bits v.toNat 0 5 ∧ bits v.toNat 0 5 ≤ 20 then bits v.toNat 0 5 else bits k.evCtl.toNat 0 5) ∧
      CtxGoes (.registerWrite f off v) s f fun c => { c with evCtl := w }) ∧
    (f ≠ 0 → 0x058 ≤ off → exec (.registerWrite f off v) s = .next s) ∧
    (f = 0 → (∀ (g : Fin 17) (i : Fin 8), off = 0x10000 + 64 * g.val + 8 * i.val → ∃ r, exec (.registerWrite f off v) s = .next { s with
        records := upd s.records g fun _ => r } ∧ ∀ y : Fin 8, dword r y.val = if y = i then v else dword s.records[g] y.val) ∧
      (off = 0x10800 → bits v.toNat 8 1 = 1 → exec (.registerWrite f off v) s = exec (.assign (v.extractLsb' 0 5)) s) ∧
      (off = 0x10800 → bits v.toNat 8 1 = 0 → exec (.registerWrite f off v) s = exec (.withdraw (v.extractLsb' 0 5)) s) ∧
      (off = 0x10810 → ∃ w : Word, bits w.toNat 36 28 = bits v.toNat 36 28 ∧ bits w.toNat 0 1 = bits v.toNat 0 1 ∧ bits w.toNat 1 35 = 0 ∧
        exec (.registerWrite f off v) s = .next { s with cohBase := w }) ∧
      ∀ i : Fin 4, off = 0x10820 + 8 * i.val → exec (.registerWrite f off v) s = exec (.hclr i v) s) ∧
    (∀ m, s.hbm = [] → s.poison = [] → off + m ≤ 12 * 2 ^ 36 → exec (.hostMemoryAccess (.read off m)) s =
      .next { s with resp := s.resp ++ [.data (s.dev.readBytes off m) false] }) ∧
    (∀ m, 12 * 2 ^ 36 < off + m → exec (.hostMemoryAccess (.read off m)) s = .next { s with resp := s.resp ++ [.aborted] }) ∧
    (∀ bs : List Byte, off + bs.length ≤ 12 * 2 ^ 36 → ∃ t, exec (.hostMemoryAccess (.write off bs)) s = .next t ∧ t.cores = s.cores ∧ t.host = s.host ∧
      ∀ a, t.dev.read1 a = if off ≤ a ∧ a < off + bs.length then bs.getD (a - off) 0 else s.dev.read1 a) ∧
    (let reads (o : Nat) (w : Word) : Prop := exec (.hostMemoryAccess (.readRegister f o)) s = .next { s with resp := s.resp ++ [.register w] }
     (s.functionOn f = false → exec (.hostMemoryAccess (.readRegister f off)) s = .next { s with resp := s.resp ++ [.aborted] }) ∧
     (s.functionOn f = true →
       reads 0x000 k.stat ∧ reads 0x010 k.root ∧ reads 0x018 k.hva ∧ reads 0x030 k.evBase ∧ reads 0x038 k.evCtl ∧ reads 0x040 k.rbRep ∧
       reads 0x050 k.stepCtl ∧ (∀ o, (o = 0x008 ∨ o = 0x020 ∨ o = 0x028 ∨ o = 0x048) → reads o 0) ∧
       (∀ i : Fin 16, reads (0x100 + 8 * i.val) (k.peers.extractLsb' (64 * i.val) 64)) ∧
       (f = 0 → reads 0x10808 (BitVec.ofNat 64 s.astat) ∧ reads 0x10810 s.cohBase ∧ reads 0x10880 s.devFail ∧ reads 0x10800 0 ∧
         ∀ i : Fin 4, reads (0x10820 + 8 * i.val) 0))) ∧
    (let mine (a : Nat) : Prop := s.functionOn f = true ∧ a < 0x200000 ∧ (s.queues[fin 64 (a / 0x8000)]).ctx = some f
     (∀ m, ∃ bs, exec (.hostMemoryAccess (.readWindow f off m)) s = .next { s with resp := s.resp ++ [.data bs false] } ∧ bs.length = m ∧
       ∀ i < m, (mine (off + i) → bs[i]? = some (s.windows.read1 (off + i))) ∧ (¬mine (off + i) → bs[i]? = some 0)) ∧
     ∀ bs : List Byte, ∃ t, exec (.hostMemoryAccess (.writeWindow f off bs)) s = .next t ∧ t.queues = s.queues ∧ t.dev = s.dev ∧
       ∀ a, (mine a ∧ off ≤ a ∧ a < off + bs.length → t.windows.read1 a = bs.getD (a - off) 0) ∧
         (¬(mine a ∧ off ≤ a ∧ a < off + bs.length) → t.windows.read1 a = s.windows.read1 a))

/-- R325, R443, R451, R456, R461, R462, R463, R464: the side band and measurement answer without touching the machine; a temperature trip and a firmware
failure reset as an FLR of PF0 does and name it in DEVFAIL; device reset gives the machine after bring-up with the updated firmware; a configuration request is put
off until then, and after it finds R451's capabilities, BARs and VFs. That the
host's memory and what it has asked and been answered stay, and that SPDM answers are free values fixed by the request and the firmware, the values
at reset, the VFs that SR-IOV enables, a retry answer without a value or a write, and the dies that a trip names are the model's choices (log entries 12,
22, 1, 3, 166, 179 and 188). -/
def Obligations.Management : Prop :=
  ∀ (s : State) (f : Fin 17) (die : Fin 8) (reg : BitVec 12) (q : CfgReq) (cs : List (Fin 256)) (img : List Byte) (o l : BitVec 16) (nonce : BitVec 256) (idx : BitVec 8),
    let tells (i : Instr) (r : Resp) : Prop := exec i s = .next { s with resp := s.resp ++ [r] }
    (∃ t, exec .deviceReset s = .next t ∧ t.cyc = 0 ∧ t.driftOfs = 0 ∧ t.cores = State.reset.cores ∧ t.ctxs = State.reset.ctxs ∧ t.queues = State.reset.queues ∧
      t.ports = State.reset.ports ∧ t.kernels = [] ∧ t.cmds = [] ∧ t.agenda = [] ∧ t.dev = [] ∧ t.near = [] ∧ t.windows = [] ∧ t.poison = [] ∧ t.pinsets = [] ∧
      t.suspect = State.reset.suspect ∧ t.devFail = 0 ∧ t.records = State.reset.records ∧
      t.firmware = (match s.newFirmware with
        | some n => n
        | none => s.firmware) ∧ t.newFirmware = none ∧ t.host = s.host ∧ t.resp = s.resp ∧ s.time < t.upAt ∧ t.upAt ≤ s.time + 1900000000) ∧
    (s.time < s.upAt → tells (.configurationRequest f q) (.config true 0)) ∧
    (s.upAt ≤ s.time → s.functionOn f = false → tells (.configurationRequest f q) .aborted) ∧
    (s.upAt ≤ s.time → s.functionOn f = true →
      let answers (q : CfgReq) (n : Nat) : Prop := tells (.configurationRequest f q) (.config false (BitVec.ofNat 64 n))
      (∀ y ∈ [CfgReq.dvsec, .hdm, .doe, .sriov], answers y (if f = 0 then 1 else 0)) ∧ answers .flr 1 ∧ answers .totalVfs (if f = 0 then 16 else 0) ∧
      (∀ two, answers (.bar64 two) 1) ∧ answers (.barSize true) (2 * 2 ^ 20) ∧ answers (.barSize false) (if f = 0 then 128 * 2 ^ 10 else 4 * 2 ^ 10) ∧
      (∃ w, tells (.configurationRequest f (.other reg)) (.config false w)) ∧
      ∀ (y : Bool) (n : BitVec 16), ∃ t, exec (.configurationRequest f (.setVfs y n)) s = .next t ∧
        t.vfs = (if f = 0 then (if y then min n.toNat 16 else 0) else s.vfs) ∧ t.cores = s.cores ∧ ∀ x : Fin 17,
          (t.ctxs[x]).st = (if f = 0 ∧ t.vfs < x.val ∧ (s.ctxs[x]).st = .closed then .free else (s.ctxs[x]).st)) ∧
    (∀ i kind unit, (i = .temperatureTrip die ∧ kind = 1 ∧ unit = die.val) ∨ (i = .firmwareFailure ∧ kind = 4 ∧ unit = 0) →
      ∃ t, exec i s = .next t ∧ bits t.devFail.toNat 0 8 = kind ∧ bits t.devFail.toNat 8 8 = unit ∧ ∀ x : Fin 17,
        ((s.ctxs[x]).st = .closed ∨ (s.ctxs[x]).st = .open_ ∨ (s.ctxs[x]).st = .active → Quiesces s t x)) ∧
    tells (.readHealth cs) (.health ((cs.take 32).map fun c => (s.core c).health.word)) ∧
    ((s.ctxs[(0 : Fin 17)]).evBase ≠ 0 → tells .readFaultLog
      (.log (s.dev.readBytes (s.ctxs[(0 : Fin 17)]).evBase.toNat (32 * 2 ^ bits (s.ctxs[(0 : Fin 17)]).evCtl.toNat 0 5)) s.devFail)) ∧
    (∃ ws ls, tells .readStatus (.status ws ls) ∧ ls = s.ports.toList.map Port.status ∧ ws.length = 17 ∧ ∀ x : Fin 17, ∃ w : Word, ws[x.val]? = some w ∧
      let c := s.ctxs[x]
      (c.err < 16 → bits w.toNat 12 4 = c.err ∧ bits w.toNat 11 1 = bit c.busy ∧ bits w.toNat 10 1 = bit c.flrDone ∧ bits w.toNat 7 3 = c.gen.toNat ∧
        bits w.toNat 0 7 = (match c.st with
          | .free => 0
          | .open_ => 1
          | .active => 2
          | .quiescing => 3
          | .scrubbing => 4
          | .closed => 5))) ∧
    (∃ n, exec .pldmPlatformMonitoring s = .next { s with free := s.free + 1, resp := s.resp ++ [.pldm n] }) ∧
    (∃ n, exec (.pldmFirmwareUpdate img) s = .next { s with newFirmware := some img, resp := s.resp ++ [.pldm n] }) ∧
    ∀ t : Transport, tells (.getVersion t) (.spdm (.version 1 3)) ∧ (∃ n, tells (.getCapabilities t) (.spdm (.bytes 0xE1 n))) ∧
      tells (.negotiateAlgorithms t) (.spdm (.algorithms true true)) ∧ (∃ n, tells (.getDigests t) (.spdm (.bytes 0x81 n))) ∧
      (∃ n, tells (.getCertificate t o l) (.spdm (.bytes 0x82 n))) ∧ (∃ n, tells (.challenge t nonce) (.spdm (.bytes 0x83 n))) ∧
      (1 ≤ idx.toNat ∧ idx.toNat ≤ 3 → ∃ n, tells (.getMeasurements t idx) (.spdm (.measurement idx.toNat n))) ∧
      (idx.toNat = 0 ∨ 3 < idx.toNat → ∃ n, tells (.getMeasurements t idx) (.spdm (.bytes 0xE0 n))) ∧
      ∀ u : Transport, exec (.getMeasurements t idx) s = exec (.getMeasurements u idx) s
end
/-! ## Encoding, predicates, traps, reset and the invariant -/

namespace Sys2Proof.Claims
open Sys2Proof.Machine

/-- The invariant: every memory is in its canonical form, accumulators list their elements in order inside the tile, a landing queue holds
at most 96 flits, and a port has at most 8 lanes. -/
structure Inv (s : State) : Prop where
  dev : s.dev.wf = true
  near : s.near.wf = true
  windows : s.windows.wf = true
  host : s.host.wf = true
  spm : ∀ c, (s.core c).spm.wf = true
  bsram : ∀ c, (s.core c).bsram.wf = true
  istore : ∀ c, (s.core c).istore.wf = true
  tiles : ∀ c, ∀ n : Fin 4, AccOrdered ((s.core c).tiles[n]).prim ∧ AccOrdered ((s.core c).tiles[n]).shad
  landing : ∀ c, ∀ q : Fin 8, ((s.core c).landq[q]).flits.length ≤ 96
  lanes : ∀ p : Fin 46, (s.ports[p]).width ≤ 8

end Sys2Proof.Claims

section
open Sys2Proof Sys2Proof.Machine Sys2Proof.Claims

/-- R66, R68, R69, R86 to R90: what some words decode to, one or more of each class, and that a reserved opcode, the header's opcode outside
position 0 and a nonzero reserved field are refused. -/
def Obligations.WordsDecode : Prop :=
  (∀ p, decodeSlot p 0 = .ok .nop) ∧
  decodeSlot 0 0x04FFFFFC = .ok (.br 1 0x7FFFFC) ∧ decodeSlot 0 0x38000043 = .ok (.fence 0 4 3) ∧ decodeSlot 0 0x48000021 = .ok (.trap 0 0x21) ∧
  decodeSlot 1 0x040C2200 = .ok (.add 0 3 1 2 0 0) ∧ decodeSlot 1 0x8417FFFF = .ok (.movi 0 5 0x3FFFF) ∧
  decodeSlot 1 0xA41C5808 = .ok (.ld 0 7 2 3 0 8) ∧ decodeSlot 1 0x8C088602 = .ok (.cmp 0 2 4 6 0 0 2) ∧
  decodeSlot 2 0x04044300 = .ok (.vadd 0 1 2 3 0 0 0 0) ∧ decodeSlot 2 0x10102218 = .ok (.vfma 0 4 1 2 3 0) ∧
  decodeSlot 2 0xD0084000 = .ok (.vld 0 2 1 0 0 0) ∧ decodeSlot 3 0x0C044300 = .ok (.mma 0 1 2 3 0 0) ∧
  decodeSlot 3 0x20044400 = .ok (.cpy 0 1 2 4 0 0 0) ∧ decodeSlot 3 0x54044000 = .ok (.send 0 1 2) ∧
  decodeSlot 3 0x48044318 = .ok (.amo 0 1 2 3 1 1 0) ∧
  decodeHeader 0xFC0C1443 = some { dly := 3, pop := 5, ext1 := 2, ext3 := 3 } ∧
  decodeSlot 1 0xFC000000 = .error .reservedOpcode ∧ decodeSlot 0 0x60000000 = .error .reservedOpcode ∧
  decodeSlot 0 0x38000100 = .error .reservedField ∧ decodeSlot 2 0x00000001 = .error .reservedField

/-- R66, R83 to R90: every slot instruction with field values that it accepts is what its word decodes to, in the position of its class, and a
word that decodes is the word of the instruction it decodes to: no bit of an encoding is dropped, and none is ignored. -/
def Obligations.DecodeAndEncodeAgree : Prop :=
  (∀ (i : Instr) (p : Fin 4), i.position = some p → i.WellFormed → decodeSlot p (encode i) = .ok i ∧ encode i < 2 ^ 32) ∧
  ∀ (p : Fin 4) (w : Nat) (i : Instr), w < 2 ^ 32 → decodeSlot p w = .ok i → encode i = w ∧ i.WellFormed ∧ (i = .nop ∨ i.position = some p)

/-- R67: bits [25:23] of a slot's word name its guard; an instruction whose guard reads false has no effect; P0 reads true, and P1 to P7 as
they were written. -/
def Obligations.GuardedOff : Prop :=
  (∀ (s : State) (i : Instr) (p : Fin 4), i.position = some p → s.curStrand.rp (fld (encode i) 23 3) = false → exec i s = .next s) ∧
  ∀ t : Strand, t.rp 0 = true ∧ ∀ g : BitVec 3, g ≠ 0 → t.rp g = t.p.getLsbD g.toNat

/-- R159, R183, R184, R428, R430, R431, R432, R433, R436: taking a trap in a strand that is not TRAPPED writes the trap record, raises the level to
SUPER, and puts the strand at TVEC.ENTRY, its first handler bundle no earlier than four cycles on; its flight is taken off the agenda and, at the end
of the cycle, counted in the header of its flight-save area; registers, other CSRs, other strands and the memory outside that area stay; a TIMED
member slips. One that falls in the same cycle is one more entry of that area, of kind 7; in a strand that was TRAPPED before the kernel ends with the
second cause, and TPC the handler's bundle. That a trap of the same cycle is pending and one of a later cycle a double trap, and that TPC of a double
trap names the handler's bundle, are the model's choices (logs 52 and 171). -/
def Obligations.TrapEntry : Prop :=
  ∀ (s : State) (c : Fin 256) (j : Fin 4) (p : Pend),
    let o := s.strand c j
    let t := s.takeTrap c j p
    let n := t.strand c j
    let i := p.info
    let area := 0xBC000 + 0x1000 * j.val
    ¬(i.cause = 7 ∧ s.stepping c = true) →
    (o.life = .live → o.trapped = false → o.badDue = none → o.wrote.1 ≠ s.time + 1 →
      n.trapped = true ∧ n.life = .live ∧ n.level = .super ∧ n.wait = .none ∧ n.due1 = none ∧ n.due2 = none ∧
      n.csr = { o.csr with
        tcause := BitVec.ofNat 64 i.cause, tpc := BitVec.ofNat 64 p.pc, npc := BitVec.ofNat 64 o.pc.toNat, tslot := BitVec.ofNat 64 p.slot.val,
        taddr := i.taddr, ttt := BitVec.ofNat 64 (s.core c).tt,
        tcoef := match i.coef with
          | none => 0
          | some k => BitVec.ofNat 64 (8 + k.val) } ∧
      n.pc = BitVec.ofNat 64 (16 * bits o.csr.tvec.toNat 4 14) ∧ n.base = o.lt + 4 ∧ n.lt = o.lt ∧
      n.x = o.x ∧ n.a = o.a ∧ n.p = o.p ∧ n.k = o.k ∧
      (∀ it ∈ t.agenda, ∀ pc pos e, it.clk = .strand c j → it.act ≠ .eff c j pc pos e) ∧
      nowAct s 8 (.flightSave c j) t ∧ (t.core c).spm = (s.core c).spm ∧
      (s.flightCount c j ≤ 127 → let u := t.saveFlight c j
        (o.bad = none → (u.core c).spm.readNat area 2 = s.flightCount c j) ∧ (u.core c).spm.readNat (area + 2) 1 = (match o.level with
          | .user => 0
          | .super => 1
          | .firm => 2) ∧
        ∀ a, a < area ∨ area + 2048 ≤ a → (u.core c).spm.read1 a = (s.core c).spm.read1 a) ∧
      (∀ m k, m ≠ c ∨ k ≠ j → t.strand m k = s.strand m k) ∧ (t.core c).v = (s.core c).v ∧ (t.core c).bsram = (s.core c).bsram ∧
      (∀ m, m ≠ c → t.core m = s.core m) ∧ t.dev = s.dev ∧ t.near = s.near ∧ t.host = s.host ∧
      (s.timed c = true → s.stepping c = false → SlipCause.trap ∈ (t.core c).causes)) ∧
    (o.life = .live → o.trapped = true → o.trapAt = s.time → ∀ h es, o.hold.image = some (h, es) → ∃ e : List Byte,
      n.hold.image = some (h, es ++ [e]) ∧ e.length = 16 ∧ e[8]? = some 7 ∧ e[9]? = some (BitVec.ofNat 8 p.slot.val) ∧
      e[10]? = some (BitVec.ofNat 8 i.cause) ∧ n.csr = o.csr ∧ n.pc = o.pc) ∧
    (o.life = .live → o.trapped = true → o.trapAt ≠ s.time → ∀ w k, (s.core c).owner = some w → s.kernel? w.kid = some k → k.fault = none →
      k.halted = false → ∃ u r, t.kernel? w.kid = some u ∧ u.fault = some r ∧ r.reason = 0 ∧ r.tcause = i.cause ∧
        r.tpc = (if 262144 - (s.core c).hsize ≤ p.pc ∧ p.pc < 262144 then p.pc else o.pc.toNat) ∧ r.taddr = i.taddr ∧
        r.core = c.val ∧ r.strand = j.val) ∧
    (o.life = .live → o.trapped = false → s.iss ≤ c.val → s.meetTrap c j p = s.onStrand c j fun y => { y with pending := y.pending ++ [p] }) ∧
    (o.pending = [p] → o.returning = none → s.takePending c j = (s.onStrand c j fun y => { y with pending := [] }).takeTrap c j p)

/-- R156, R183, R399, R464: after device reset CYC is 0, DRIFTOFS is 0, no kernel and no command is there, every context is FREE, every edge is TIMED and
every package port in TRAINING, HEALTH, pins and poison lists are clear. -/
def Obligations.ResetGives : Prop :=
  let s := State.reset
  s.cyc = 0 ∧ s.driftOfs = 0 ∧ s.kernels = [] ∧ s.cmds = [] ∧ s.agenda = [] ∧ s.poison = [] ∧ s.nearPoison = [] ∧ s.pinsets = [] ∧ s.devFail = 0 ∧
  (∀ f : Fin 17, (s.ctxs[f]).st = .free) ∧ (∀ q : Fin 64, (s.queues[q]).st = .unbound) ∧
  (∀ p : Fin 46, (s.ports[p]).st = if p.val < 10 then .timed else .training) ∧
  ∀ c : Fin 256, (s.core c).health.word = 0 ∧ (s.core c).owner = none ∧ (s.core c).pins = [] ∧
    ∀ j : Fin 4, (s.strand c j).life = .idle ∧ (s.strand c j).csr.fsr = 0 ∧ (s.strand c j).csr.jfl = 0

/-- The invariant holds after reset. -/
def Obligations.ResetMeetsInvariant : Prop := Inv State.reset

/-- Every step that goes on keeps the invariant, from every state that meets it: no instruction, event or input leaves a memory out of its
canonical form, an accumulator out of order, more than 96 flits in a landing queue or more than 8 lanes at a port (R402, R408). -/
def Obligations.StepKeepsInvariant : Prop := ∀ s t : State, Inv s → step s = .next t → Inv t
end
end

