-- ==== Sys2Proof/Laws/Memory.lean ====
section
/-! SUPPORT. Memory: a read after a write, and that every operation keeps the canonical form. -/
namespace Sys2Proof.Machine

/-! ## The canonical form, said of all pairs -/

theorem Mem.wf_cons {c : Host.Cell} {m : Mem} :
    Mem.wf (c :: m) = true ↔ c.2 ≠ 0 ∧ (∀ d ∈ m, c.1 < d.1) ∧ m.wf = true := by
  induction m generalizing c with
  | nil => simp [Mem.wf]
  | cons d r ih =>
    simp only [Mem.wf, Bool.and_eq_true, bne_iff_ne, ne_eq, decide_eq_true_eq, List.mem_cons, forall_eq_or_imp]
    constructor
    · rintro ⟨⟨h0, h1⟩, h2⟩
      exact ⟨h0, ⟨h1, fun e he => Nat.lt_trans h1 ((ih.mp h2).2.1 e he)⟩, h2⟩
    · rintro ⟨h0, ⟨h1, _⟩, h2⟩
      exact ⟨⟨h0, h1⟩, h2⟩

@[simp] theorem Mem.wf_nil : Mem.wf [] = true := rfl

theorem Mem.wf_append {m n : Mem} (hm : m.wf = true) (hn : n.wf = true) (h : ∀ c ∈ m, ∀ d ∈ n, c.1 < d.1) : Mem.wf (m ++ n) = true := by
  induction m with
  | nil => exact hn
  | cons c r ih =>
    obtain ⟨h0, h1, h2⟩ := Mem.wf_cons.mp hm
    refine Mem.wf_cons.mpr ⟨h0, fun d hd => ?_, ih h2 fun x hx => h x (List.mem_cons_of_mem _ hx)⟩
    rcases List.mem_append.mp hd with hd | hd
    · exact h1 d hd
    · exact h c (List.mem_cons_self ..) d hd

theorem Mem.wf_filter {m : Mem} (p : Host.Cell → Bool) (h : m.wf = true) : Mem.wf (m.filter p) = true := by
  induction m with
  | nil => rfl
  | cons c r ih =>
    obtain ⟨h0, h1, h2⟩ := Mem.wf_cons.mp h
    rw [List.filter_cons]
    split
    · exact Mem.wf_cons.mpr ⟨h0, fun d hd => h1 d (List.mem_filter.mp hd).1, ih h2⟩
    · exact ih h2

theorem cellsOf_range (a n v : Nat) : ∀ c ∈ cellsOf a n v, a ≤ c.1 ∧ c.1 < a + n := by
  induction n generalizing a v with
  | zero => simp [cellsOf]
  | succ n ih =>
    intro c hc
    simp only [cellsOf] at hc
    split at hc
    · have := ih (a + 1) (v / 256) c hc
      omega
    · rcases List.mem_cons.mp hc with rfl | hc
      · exact ⟨Nat.le_refl _, by simp⟩
      · have := ih (a + 1) (v / 256) c hc
        omega

theorem cellsOf_wf (a n v : Nat) : (cellsOf a n v).wf = true := by
  induction n generalizing a v with
  | zero => rfl
  | succ n ih =>
    simp only [cellsOf]
    split
    · exact ih _ _
    · rename_i h
      refine Mem.wf_cons.mpr ⟨fun e => h ?_, fun d hd => (cellsOf_range _ _ _ d hd).1, ih _ _⟩
      have := congrArg BitVec.toNat e
      simpa using this

/-! ## Every write keeps the canonical form -/

theorem Mem.wf_writeNat {m : Mem} (a n v : Nat) (h : m.wf = true) : (m.writeNat a n v).wf = true := by
  unfold Mem.writeNat
  refine Mem.wf_append (Mem.wf_append (Mem.wf_filter _ h) (cellsOf_wf a n v) fun c hc d hd => ?_) (Mem.wf_filter _ h) fun c hc d hd => ?_
  · have h1 := (List.mem_filter.mp hc).2
    have h2 := (cellsOf_range _ _ _ d hd).1
    simp only [decide_eq_true_eq] at h1
    omega
  · have h2 := (List.mem_filter.mp hd).2
    simp only [decide_eq_true_eq] at h2
    rcases List.mem_append.mp hc with hc | hc
    · have h1 := (List.mem_filter.mp hc).2
      simp only [decide_eq_true_eq] at h1
      omega
    · have h1 := (cellsOf_range _ _ _ c hc).2
      omega

theorem Mem.wf_writeBytes {m : Mem} (a : Nat) (bs : List Byte) (h : m.wf = true) : (m.writeBytes a bs).wf = true :=
  Mem.wf_writeNat _ _ _ h

theorem Mem.wf_writeCells {m : Mem} (cs : List Host.Cell) (h : m.wf = true) : (m.writeCells cs).wf = true := by
  unfold Mem.writeCells
  induction cs generalizing m with
  | nil => exact h
  | cons c r ih => exact ih (Mem.wf_writeNat _ _ _ h)

/-! ## Reading after writing -/

theorem Mem.read1_append (m n : Mem) (a : Nat) : Mem.read1 (m ++ n) a = if ∃ c ∈ m, c.1 = a then m.read1 a else n.read1 a := by
  induction m with
  | nil => simp
  | cons c r ih =>
    obtain ⟨k, v⟩ := c
    simp only [List.cons_append, Mem.read1, ih]
    by_cases h : k = a
    · simp [h]
    · by_cases g : ∃ c ∈ r, c.1 = a <;> simp [h, g]

theorem Mem.read1_absent {m : Mem} {a : Nat} (h : ∀ c ∈ m, c.1 ≠ a) : m.read1 a = 0 := by
  induction m with
  | nil => rfl
  | cons c r ih =>
    obtain ⟨k, v⟩ := c
    simp only [Mem.read1]
    rw [if_neg (h (k, v) (List.mem_cons_self ..))]
    exact ih fun d hd => h d (List.mem_cons_of_mem _ hd)

theorem Mem.read1_filter {m : Mem} {a : Nat} (p : Host.Cell → Bool) (h : ∀ v, p (a, v) = true) : Mem.read1 (m.filter p) a = m.read1 a := by
  induction m with
  | nil => rfl
  | cons c r ih =>
    obtain ⟨k, v⟩ := c
    rw [List.filter_cons]
    by_cases e : k = a
    · subst e
      simp [h, Mem.read1]
    · split <;> simp [Mem.read1, e, ih]

theorem read1_cellsOf (a n v x : Nat) :
    Mem.read1 (cellsOf a n v) x = if a ≤ x ∧ x < a + n then BitVec.ofNat 8 (v / 256 ^ (x - a)) else 0 := by
  induction n generalizing a v with
  | zero =>
    rw [if_neg (by omega)]
    rfl
  | succ n ih =>
    have tail : a ≠ x → Mem.read1 (cellsOf (a + 1) n (v / 256)) x =
        if a ≤ x ∧ x < a + (n + 1) then BitVec.ofNat 8 (v / 256 ^ (x - a)) else 0 := by
      intro hx
      rw [ih]
      by_cases h : a + 1 ≤ x ∧ x < a + 1 + n
      · rw [if_pos h, if_pos (by omega), show x - a = (x - (a + 1)) + 1 by omega, Nat.pow_succ', Nat.div_div_eq_div_mul]
      · rw [if_neg h, if_neg (by omega)]
    simp only [cellsOf]
    split
    · rename_i hv
      by_cases hx : a = x
      · subst hx
        rw [Mem.read1_absent fun c hc => by have := (cellsOf_range _ _ _ c hc).1; omega, if_pos (by omega)]
        refine BitVec.eq_of_toNat_eq ?_
        simp [hv]
      · exact tail hx
    · by_cases hx : a = x
      · subst hx
        simp [Mem.read1]
      · simp only [Mem.read1]
        rw [if_neg hx]
        exact tail hx

/-- A byte after a write: the written one inside the range, the old one outside. -/
theorem Mem.read1_writeNat (m : Mem) (a n v x : Nat) :
    (m.writeNat a n v).read1 x = if a ≤ x ∧ x < a + n then BitVec.ofNat 8 (v / 256 ^ (x - a)) else m.read1 x := by
  unfold Mem.writeNat
  by_cases h : a ≤ x ∧ x < a + n
  · rw [if_pos h, List.append_assoc, Mem.read1_append, if_neg, Mem.read1_append]
    · split
      · rw [read1_cellsOf, if_pos h]
      · rename_i g
        have z := read1_cellsOf a n v x
        rw [if_pos h] at z
        rw [← z, Mem.read1_absent fun c hc e => g ⟨c, hc, e⟩]
        exact Mem.read1_absent fun c hc e => by
          have := (List.mem_filter.mp hc).2
          simp only [decide_eq_true_eq] at this
          omega
    · rintro ⟨c, hc, e⟩
      have := (List.mem_filter.mp hc).2
      simp only [decide_eq_true_eq] at this
      omega
  · rw [if_neg h, List.append_assoc, Mem.read1_append]
    by_cases low : x < a
    · split
      · exact Mem.read1_filter _ fun v => by simpa using low
      · rename_i g
        have none : ∀ c ∈ m, c.1 ≠ x := fun c hc e => g ⟨c, List.mem_filter.mpr ⟨hc, by simpa [e] using low⟩, e⟩
        rw [Mem.read1_absent none]
        refine Mem.read1_absent fun c hc e => ?_
        rcases List.mem_append.mp hc with hc | hc
        · have := cellsOf_range _ _ _ c hc
          omega
        · exact none c (List.mem_filter.mp hc).1 e
    · rw [if_neg, Mem.read1_append, if_neg]
      · exact Mem.read1_filter _ fun v => by simp; omega
      · rintro ⟨c, hc, e⟩
        have := cellsOf_range _ _ _ c hc
        omega
      · rintro ⟨c, hc, e⟩
        have := (List.mem_filter.mp hc).2
        simp only [decide_eq_true_eq] at this
        omega

/-- Reads that see the same bytes agree. -/
theorem Mem.readNat_congr {m n : Mem} {a k : Nat} (h : ∀ i < k, m.read1 (a + i) = n.read1 (a + i)) : m.readNat a k = n.readNat a k := by
  induction k generalizing a with
  | zero => rfl
  | succ k ih =>
    simp only [Mem.readNat]
    have h0 : m.read1 a = n.read1 a := h 0 (by omega)
    rw [h0, ih fun i hi => by have := h (i + 1) (by omega); rwa [show a + (i + 1) = a + 1 + i by omega] at this]

theorem Mem.readNat_lt (m : Mem) (a k : Nat) : m.readNat a k < 256 ^ k := by
  induction k generalizing a with
  | zero => simp [Mem.readNat]
  | succ k ih =>
    have h1 := ih (a + 1)
    have h2 := (m.read1 a).isLt
    simp only [Mem.readNat, Nat.pow_succ]
    omega

/-- A number read back from where it was written. -/
theorem Mem.readNat_writeNat (m : Mem) (a n v : Nat) : (m.writeNat a n v).readNat a n = v % 256 ^ n := by
  suffices h : ∀ (k b w : Nat) (m : Mem), (∀ i < k, m.read1 (b + i) = BitVec.ofNat 8 (w / 256 ^ i)) → m.readNat b k = w % 256 ^ k by
    refine h n a v _ fun i hi => ?_
    rw [Mem.read1_writeNat, if_pos (by omega), Nat.add_sub_cancel_left]
  intro k
  induction k with
  | zero => intro b w m _; simp [Mem.readNat, Nat.mod_one]
  | succ k ih =>
    intro b w m h
    simp only [Mem.readNat]
    rw [ih (b + 1) (w / 256) m fun i hi => ?_]
    · have h0 := h 0 (by omega)
      simp only [Nat.add_zero, Nat.pow_zero, Nat.div_one] at h0
      rw [h0, Nat.pow_succ', Nat.mod_mul]
      simp
    · rw [Nat.add_assoc, Nat.add_comm 1 i, h (i + 1) (by omega), Nat.pow_succ', Nat.div_div_eq_div_mul]

/-- A number whose bytes a write leaves out. -/
theorem Mem.readNat_writeNat_apart (m : Mem) {a n b k : Nat} (v : Nat) (h : b + k ≤ a ∨ a + n ≤ b) :
    (m.writeNat a n v).readNat b k = m.readNat b k :=
  Mem.readNat_congr fun i hi => by rw [Mem.read1_writeNat, if_neg (by omega)]

theorem leNat_lt (bs : List Byte) : leNat bs < 256 ^ bs.length := by
  induction bs with
  | nil => simp [leNat]
  | cons b r ih =>
    have h := b.isLt
    simp only [leNat, List.length_cons, Nat.pow_succ]
    omega

theorem leNat_byte (bs : List Byte) {i : Nat} (h : i < bs.length) : BitVec.ofNat 8 (leNat bs / 256 ^ i) = bs[i] := by
  induction bs generalizing i with
  | nil => simp at h
  | cons b r ih =>
    have hb := b.isLt
    cases i with
    | zero =>
      refine BitVec.eq_of_toNat_eq ?_
      simp only [leNat, Nat.pow_zero, Nat.div_one, BitVec.toNat_ofNat, List.getElem_cons_zero]
      omega
    | succ i =>
      rw [List.getElem_cons_succ, ← ih (by simpa using h), Nat.pow_succ', ← Nat.div_div_eq_div_mul, leNat,
        show (b.toNat + 256 * leNat r) / 256 = leNat r by omega]

/-- A byte after a run of bytes has been written. -/
theorem Mem.read1_writeBytes (m : Mem) (a : Nat) (bs : List Byte) (x : Nat) :
    (m.writeBytes a bs).read1 x = if a ≤ x ∧ x < a + bs.length then bs.getD (x - a) 0 else m.read1 x := by
  unfold Mem.writeBytes
  rw [Mem.read1_writeNat]
  by_cases h : a ≤ x ∧ x < a + bs.length
  · have hi : x - a < bs.length := by omega
    rw [if_pos h, if_pos h, leNat_byte bs hi]
    simp [List.getD, hi]
  · rw [if_neg h, if_neg h]

theorem Mem.length_readBytes (m : Mem) (a n : Nat) : (m.readBytes a n).length = n := by
  induction n generalizing a with
  | zero => rfl
  | succ n ih => simp [Mem.readBytes, ih]

theorem Mem.getElem_readBytes (m : Mem) (a n : Nat) {i : Nat} (h : i < n) : (m.readBytes a n)[i]? = some (m.read1 (a + i)) := by
  induction n generalizing a i with
  | zero => omega
  | succ n ih =>
    cases i with
    | zero => rfl
    | succ i =>
      simp only [Mem.readBytes, List.getElem?_cons_succ]
      rw [ih (a + 1) (by omega), show a + 1 + i = a + (i + 1) by omega]

theorem length_toBytes (n v : Nat) : (toBytes n v).length = n := by
  induction n generalizing v with
  | zero => rfl
  | succ n ih => simp [toBytes, ih]

end Sys2Proof.Machine
end

