-- ==== Sys2Proof/Laws/State.lean ====
section
/-! SUPPORT. One lemma for each field of State under each named update (what it leaves, and what it writes), each true by unfolding; what
one element of a vector holds after an update; and the same for the register writes of a strand. -/
namespace Sys2Proof.Machine

/-! ## One element of a vector -/

@[simp] theorem upd_self {α : Type} {n : Nat} (v : Vector α n) (i : Fin n) (f : α → α) : (upd v i f)[i] = f v[i] := by
  simp [upd]

theorem upd_other {α : Type} {n : Nat} (v : Vector α n) {i j : Fin n} (f : α → α) (h : j ≠ i) : (upd v i f)[j] = v[j] := by
  have : i.val ≠ j.val := fun e => h (Fin.ext e.symm)
  simp [upd, this]

theorem upd_upd {α : Type} {n : Nat} (v : Vector α n) (i : Fin n) (f g : α → α) : upd (upd v i f) i g = upd v i fun x => g (f x) := by
  simp [upd]

@[simp] theorem each_get {α : Type} {n : Nat} (v : Vector α n) (f : α → α) (i : Fin n) : (each v f)[i] = f v[i] := by
  simp [each]

/-! ## Fields under the updates of the state -/

@[simp] theorem State.onCore_time (s : State) (c : Fin 256) (f : Core → Core) : (s.onCore c f).time = s.time := rfl
@[simp] theorem State.onCore_cyc (s : State) (c : Fin 256) (f : Core → Core) : (s.onCore c f).cyc = s.cyc := rfl
@[simp] theorem State.onCore_driftOfs (s : State) (c : Fin 256) (f : Core → Core) : (s.onCore c f).driftOfs = s.driftOfs := rfl
@[simp] theorem State.onCore_drift (s : State) (c : Fin 256) (f : Core → Core) : (s.onCore c f).drift = s.drift := rfl
@[simp] theorem State.onCore_drift2 (s : State) (c : Fin 256) (f : Core → Core) : (s.onCore c f).drift2 = s.drift2 := rfl
@[simp] theorem State.onCore_driftNow (s : State) (c : Fin 256) (f : Core → Core) : (s.onCore c f).driftNow = s.driftNow := rfl
@[simp] theorem State.onCore_belled (s : State) (c : Fin 256) (f : Core → Core) : (s.onCore c f).belled = s.belled := rfl
@[simp] theorem State.onCore_noBell (s : State) (c : Fin 256) (f : Core → Core) : (s.onCore c f).noBell = s.noBell := rfl
@[simp] theorem State.onCore_calib (s : State) (c : Fin 256) (f : Core → Core) : (s.onCore c f).calib = s.calib := rfl
@[simp] theorem State.onCore_adopted (s : State) (c : Fin 256) (f : Core → Core) : (s.onCore c f).adopted = s.adopted := rfl
@[simp] theorem State.onCore_pkg (s : State) (c : Fin 256) (f : Core → Core) : (s.onCore c f).pkg = s.pkg := rfl
@[simp] theorem State.onCore_cores (s : State) (c : Fin 256) (f : Core → Core) : (s.onCore c f).cores = upd s.cores c f := rfl
@[simp] theorem State.onCore_ctxs (s : State) (c : Fin 256) (f : Core → Core) : (s.onCore c f).ctxs = s.ctxs := rfl
@[simp] theorem State.onCore_queues (s : State) (c : Fin 256) (f : Core → Core) : (s.onCore c f).queues = s.queues := rfl
@[simp] theorem State.onCore_kernels (s : State) (c : Fin 256) (f : Core → Core) : (s.onCore c f).kernels = s.kernels := rfl
@[simp] theorem State.onCore_cmds (s : State) (c : Fin 256) (f : Core → Core) : (s.onCore c f).cmds = s.cmds := rfl
@[simp] theorem State.onCore_agenda (s : State) (c : Fin 256) (f : Core → Core) : (s.onCore c f).agenda = s.agenda := rfl
@[simp] theorem State.onCore_dev (s : State) (c : Fin 256) (f : Core → Core) : (s.onCore c f).dev = s.dev := rfl
@[simp] theorem State.onCore_near (s : State) (c : Fin 256) (f : Core → Core) : (s.onCore c f).near = s.near := rfl
@[simp] theorem State.onCore_windows (s : State) (c : Fin 256) (f : Core → Core) : (s.onCore c f).windows = s.windows := rfl
@[simp] theorem State.onCore_host (s : State) (c : Fin 256) (f : Core → Core) : (s.onCore c f).host = s.host := rfl
@[simp] theorem State.onCore_hbm (s : State) (c : Fin 256) (f : Core → Core) : (s.onCore c f).hbm = s.hbm := rfl
@[simp] theorem State.onCore_nearErr (s : State) (c : Fin 256) (f : Core → Core) : (s.onCore c f).nearErr = s.nearErr := rfl
@[simp] theorem State.onCore_poison (s : State) (c : Fin 256) (f : Core → Core) : (s.onCore c f).poison = s.poison := rfl
@[simp] theorem State.onCore_nearPoison (s : State) (c : Fin 256) (f : Core → Core) : (s.onCore c f).nearPoison = s.nearPoison := rfl
@[simp] theorem State.onCore_errH (s : State) (c : Fin 256) (f : Core → Core) : (s.onCore c f).errH = s.errH := rfl
@[simp] theorem State.onCore_errN (s : State) (c : Fin 256) (f : Core → Core) : (s.onCore c f).errN = s.errN := rfl
@[simp] theorem State.onCore_pinsets (s : State) (c : Fin 256) (f : Core → Core) : (s.onCore c f).pinsets = s.pinsets := rfl
@[simp] theorem State.onCore_walks (s : State) (c : Fin 256) (f : Core → Core) : (s.onCore c f).walks = s.walks := rfl
@[simp] theorem State.onCore_tcache (s : State) (c : Fin 256) (f : Core → Core) : (s.onCore c f).tcache = s.tcache := rfl
@[simp] theorem State.onCore_ports (s : State) (c : Fin 256) (f : Core → Core) : (s.onCore c f).ports = s.ports := rfl
@[simp] theorem State.onCore_llats (s : State) (c : Fin 256) (f : Core → Core) : (s.onCore c f).llats = s.llats := rfl
@[simp] theorem State.onCore_beacons (s : State) (c : Fin 256) (f : Core → Core) : (s.onCore c f).beacons = s.beacons := rfl
@[simp] theorem State.onCore_seqTx (s : State) (c : Fin 256) (f : Core → Core) : (s.onCore c f).seqTx = s.seqTx := rfl
@[simp] theorem State.onCore_seqRx (s : State) (c : Fin 256) (f : Core → Core) : (s.onCore c f).seqRx = s.seqRx := rfl
@[simp] theorem State.onCore_gaps (s : State) (c : Fin 256) (f : Core → Core) : (s.onCore c f).gaps = s.gaps := rfl
@[simp] theorem State.onCore_gathers (s : State) (c : Fin 256) (f : Core → Core) : (s.onCore c f).gathers = s.gathers := rfl
@[simp] theorem State.onCore_farSlips (s : State) (c : Fin 256) (f : Core → Core) : (s.onCore c f).farSlips = s.farSlips := rfl
@[simp] theorem State.onCore_records (s : State) (c : Fin 256) (f : Core → Core) : (s.onCore c f).records = s.records := rfl
@[simp] theorem State.onCore_astat (s : State) (c : Fin 256) (f : Core → Core) : (s.onCore c f).astat = s.astat := rfl
@[simp] theorem State.onCore_cohBase (s : State) (c : Fin 256) (f : Core → Core) : (s.onCore c f).cohBase = s.cohBase := rfl
@[simp] theorem State.onCore_hclr (s : State) (c : Fin 256) (f : Core → Core) : (s.onCore c f).hclr = s.hclr := rfl
@[simp] theorem State.onCore_suspect (s : State) (c : Fin 256) (f : Core → Core) : (s.onCore c f).suspect = s.suspect := rfl
@[simp] theorem State.onCore_devFail (s : State) (c : Fin 256) (f : Core → Core) : (s.onCore c f).devFail = s.devFail := rfl
@[simp] theorem State.onCore_lastGrant (s : State) (c : Fin 256) (f : Core → Core) : (s.onCore c f).lastGrant = s.lastGrant := rfl
@[simp] theorem State.onCore_upAt (s : State) (c : Fin 256) (f : Core → Core) : (s.onCore c f).upAt = s.upAt := rfl
@[simp] theorem State.onCore_pf0Reset (s : State) (c : Fin 256) (f : Core → Core) : (s.onCore c f).pf0Reset = s.pf0Reset := rfl
@[simp] theorem State.onCore_vfs (s : State) (c : Fin 256) (f : Core → Core) : (s.onCore c f).vfs = s.vfs := rfl
@[simp] theorem State.onCore_fwStarts (s : State) (c : Fin 256) (f : Core → Core) : (s.onCore c f).fwStarts = s.fwStarts := rfl
@[simp] theorem State.onCore_measured (s : State) (c : Fin 256) (f : Core → Core) : (s.onCore c f).measured = s.measured := rfl
@[simp] theorem State.onCore_firmware (s : State) (c : Fin 256) (f : Core → Core) : (s.onCore c f).firmware = s.firmware := rfl
@[simp] theorem State.onCore_newFirmware (s : State) (c : Fin 256) (f : Core → Core) : (s.onCore c f).newFirmware = s.newFirmware := rfl
@[simp] theorem State.onCore_inbox (s : State) (c : Fin 256) (f : Core → Core) : (s.onCore c f).inbox = s.inbox := rfl
@[simp] theorem State.onCore_outbox (s : State) (c : Fin 256) (f : Core → Core) : (s.onCore c f).outbox = s.outbox := rfl
@[simp] theorem State.onCore_resp (s : State) (c : Fin 256) (f : Core → Core) : (s.onCore c f).resp = s.resp := rfl
@[simp] theorem State.onCore_seq (s : State) (c : Fin 256) (f : Core → Core) : (s.onCore c f).seq = s.seq := rfl
@[simp] theorem State.onCore_turn (s : State) (c : Fin 256) (f : Core → Core) : (s.onCore c f).turn = s.turn := rfl
@[simp] theorem State.onCore_nextId (s : State) (c : Fin 256) (f : Core → Core) : (s.onCore c f).nextId = s.nextId := rfl
@[simp] theorem State.onCore_nextKid (s : State) (c : Fin 256) (f : Core → Core) : (s.onCore c f).nextKid = s.nextKid := rfl
@[simp] theorem State.onCore_free (s : State) (c : Fin 256) (f : Core → Core) : (s.onCore c f).free = s.free := rfl
@[simp] theorem State.onCore_iss (s : State) (c : Fin 256) (f : Core → Core) : (s.onCore c f).iss = s.iss := rfl
@[simp] theorem State.onCore_cur (s : State) (c : Fin 256) (f : Core → Core) : (s.onCore c f).cur = s.cur := rfl

@[simp] theorem State.onStrand_time (s : State) (c : Fin 256) (j : Fin 4) (f : Strand → Strand) : (s.onStrand c j f).time = s.time := rfl
@[simp] theorem State.onStrand_cyc (s : State) (c : Fin 256) (j : Fin 4) (f : Strand → Strand) : (s.onStrand c j f).cyc = s.cyc := rfl
@[simp] theorem State.onStrand_driftOfs (s : State) (c : Fin 256) (j : Fin 4) (f : Strand → Strand) : (s.onStrand c j f).driftOfs = s.driftOfs := rfl
@[simp] theorem State.onStrand_drift (s : State) (c : Fin 256) (j : Fin 4) (f : Strand → Strand) : (s.onStrand c j f).drift = s.drift := rfl
@[simp] theorem State.onStrand_drift2 (s : State) (c : Fin 256) (j : Fin 4) (f : Strand → Strand) : (s.onStrand c j f).drift2 = s.drift2 := rfl
@[simp] theorem State.onStrand_driftNow (s : State) (c : Fin 256) (j : Fin 4) (f : Strand → Strand) : (s.onStrand c j f).driftNow = s.driftNow := rfl
@[simp] theorem State.onStrand_belled (s : State) (c : Fin 256) (j : Fin 4) (f : Strand → Strand) : (s.onStrand c j f).belled = s.belled := rfl
@[simp] theorem State.onStrand_noBell (s : State) (c : Fin 256) (j : Fin 4) (f : Strand → Strand) : (s.onStrand c j f).noBell = s.noBell := rfl
@[simp] theorem State.onStrand_calib (s : State) (c : Fin 256) (j : Fin 4) (f : Strand → Strand) : (s.onStrand c j f).calib = s.calib := rfl
@[simp] theorem State.onStrand_adopted (s : State) (c : Fin 256) (j : Fin 4) (f : Strand → Strand) : (s.onStrand c j f).adopted = s.adopted := rfl
@[simp] theorem State.onStrand_pkg (s : State) (c : Fin 256) (j : Fin 4) (f : Strand → Strand) : (s.onStrand c j f).pkg = s.pkg := rfl
@[simp] theorem State.onStrand_cores (s : State) (c : Fin 256) (j : Fin 4) (f : Strand → Strand) : (s.onStrand c j f).cores = upd s.cores c fun k => { k with strands := upd k.strands j f } := rfl
@[simp] theorem State.onStrand_ctxs (s : State) (c : Fin 256) (j : Fin 4) (f : Strand → Strand) : (s.onStrand c j f).ctxs = s.ctxs := rfl
@[simp] theorem State.onStrand_queues (s : State) (c : Fin 256) (j : Fin 4) (f : Strand → Strand) : (s.onStrand c j f).queues = s.queues := rfl
@[simp] theorem State.onStrand_kernels (s : State) (c : Fin 256) (j : Fin 4) (f : Strand → Strand) : (s.onStrand c j f).kernels = s.kernels := rfl
@[simp] theorem State.onStrand_cmds (s : State) (c : Fin 256) (j : Fin 4) (f : Strand → Strand) : (s.onStrand c j f).cmds = s.cmds := rfl
@[simp] theorem State.onStrand_agenda (s : State) (c : Fin 256) (j : Fin 4) (f : Strand → Strand) : (s.onStrand c j f).agenda = s.agenda := rfl
@[simp] theorem State.onStrand_dev (s : State) (c : Fin 256) (j : Fin 4) (f : Strand → Strand) : (s.onStrand c j f).dev = s.dev := rfl
@[simp] theorem State.onStrand_near (s : State) (c : Fin 256) (j : Fin 4) (f : Strand → Strand) : (s.onStrand c j f).near = s.near := rfl
@[simp] theorem State.onStrand_windows (s : State) (c : Fin 256) (j : Fin 4) (f : Strand → Strand) : (s.onStrand c j f).windows = s.windows := rfl
@[simp] theorem State.onStrand_host (s : State) (c : Fin 256) (j : Fin 4) (f : Strand → Strand) : (s.onStrand c j f).host = s.host := rfl
@[simp] theorem State.onStrand_hbm (s : State) (c : Fin 256) (j : Fin 4) (f : Strand → Strand) : (s.onStrand c j f).hbm = s.hbm := rfl
@[simp] theorem State.onStrand_nearErr (s : State) (c : Fin 256) (j : Fin 4) (f : Strand → Strand) : (s.onStrand c j f).nearErr = s.nearErr := rfl
@[simp] theorem State.onStrand_poison (s : State) (c : Fin 256) (j : Fin 4) (f : Strand → Strand) : (s.onStrand c j f).poison = s.poison := rfl
@[simp] theorem State.onStrand_nearPoison (s : State) (c : Fin 256) (j : Fin 4) (f : Strand → Strand) : (s.onStrand c j f).nearPoison = s.nearPoison := rfl
@[simp] theorem State.onStrand_errH (s : State) (c : Fin 256) (j : Fin 4) (f : Strand → Strand) : (s.onStrand c j f).errH = s.errH := rfl
@[simp] theorem State.onStrand_errN (s : State) (c : Fin 256) (j : Fin 4) (f : Strand → Strand) : (s.onStrand c j f).errN = s.errN := rfl
@[simp] theorem State.onStrand_pinsets (s : State) (c : Fin 256) (j : Fin 4) (f : Strand → Strand) : (s.onStrand c j f).pinsets = s.pinsets := rfl
@[simp] theorem State.onStrand_walks (s : State) (c : Fin 256) (j : Fin 4) (f : Strand → Strand) : (s.onStrand c j f).walks = s.walks := rfl
@[simp] theorem State.onStrand_tcache (s : State) (c : Fin 256) (j : Fin 4) (f : Strand → Strand) : (s.onStrand c j f).tcache = s.tcache := rfl
@[simp] theorem State.onStrand_ports (s : State) (c : Fin 256) (j : Fin 4) (f : Strand → Strand) : (s.onStrand c j f).ports = s.ports := rfl
@[simp] theorem State.onStrand_llats (s : State) (c : Fin 256) (j : Fin 4) (f : Strand → Strand) : (s.onStrand c j f).llats = s.llats := rfl
@[simp] theorem State.onStrand_beacons (s : State) (c : Fin 256) (j : Fin 4) (f : Strand → Strand) : (s.onStrand c j f).beacons = s.beacons := rfl
@[simp] theorem State.onStrand_seqTx (s : State) (c : Fin 256) (j : Fin 4) (f : Strand → Strand) : (s.onStrand c j f).seqTx = s.seqTx := rfl
@[simp] theorem State.onStrand_seqRx (s : State) (c : Fin 256) (j : Fin 4) (f : Strand → Strand) : (s.onStrand c j f).seqRx = s.seqRx := rfl
@[simp] theorem State.onStrand_gaps (s : State) (c : Fin 256) (j : Fin 4) (f : Strand → Strand) : (s.onStrand c j f).gaps = s.gaps := rfl
@[simp] theorem State.onStrand_gathers (s : State) (c : Fin 256) (j : Fin 4) (f : Strand → Strand) : (s.onStrand c j f).gathers = s.gathers := rfl
@[simp] theorem State.onStrand_farSlips (s : State) (c : Fin 256) (j : Fin 4) (f : Strand → Strand) : (s.onStrand c j f).farSlips = s.farSlips := rfl
@[simp] theorem State.onStrand_records (s : State) (c : Fin 256) (j : Fin 4) (f : Strand → Strand) : (s.onStrand c j f).records = s.records := rfl
@[simp] theorem State.onStrand_astat (s : State) (c : Fin 256) (j : Fin 4) (f : Strand → Strand) : (s.onStrand c j f).astat = s.astat := rfl
@[simp] theorem State.onStrand_cohBase (s : State) (c : Fin 256) (j : Fin 4) (f : Strand → Strand) : (s.onStrand c j f).cohBase = s.cohBase := rfl
@[simp] theorem State.onStrand_hclr (s : State) (c : Fin 256) (j : Fin 4) (f : Strand → Strand) : (s.onStrand c j f).hclr = s.hclr := rfl
@[simp] theorem State.onStrand_suspect (s : State) (c : Fin 256) (j : Fin 4) (f : Strand → Strand) : (s.onStrand c j f).suspect = s.suspect := rfl
@[simp] theorem State.onStrand_devFail (s : State) (c : Fin 256) (j : Fin 4) (f : Strand → Strand) : (s.onStrand c j f).devFail = s.devFail := rfl
@[simp] theorem State.onStrand_lastGrant (s : State) (c : Fin 256) (j : Fin 4) (f : Strand → Strand) : (s.onStrand c j f).lastGrant = s.lastGrant := rfl
@[simp] theorem State.onStrand_upAt (s : State) (c : Fin 256) (j : Fin 4) (f : Strand → Strand) : (s.onStrand c j f).upAt = s.upAt := rfl
@[simp] theorem State.onStrand_pf0Reset (s : State) (c : Fin 256) (j : Fin 4) (f : Strand → Strand) : (s.onStrand c j f).pf0Reset = s.pf0Reset := rfl
@[simp] theorem State.onStrand_vfs (s : State) (c : Fin 256) (j : Fin 4) (f : Strand → Strand) : (s.onStrand c j f).vfs = s.vfs := rfl
@[simp] theorem State.onStrand_fwStarts (s : State) (c : Fin 256) (j : Fin 4) (f : Strand → Strand) : (s.onStrand c j f).fwStarts = s.fwStarts := rfl
@[simp] theorem State.onStrand_measured (s : State) (c : Fin 256) (j : Fin 4) (f : Strand → Strand) : (s.onStrand c j f).measured = s.measured := rfl
@[simp] theorem State.onStrand_firmware (s : State) (c : Fin 256) (j : Fin 4) (f : Strand → Strand) : (s.onStrand c j f).firmware = s.firmware := rfl
@[simp] theorem State.onStrand_newFirmware (s : State) (c : Fin 256) (j : Fin 4) (f : Strand → Strand) : (s.onStrand c j f).newFirmware = s.newFirmware := rfl
@[simp] theorem State.onStrand_inbox (s : State) (c : Fin 256) (j : Fin 4) (f : Strand → Strand) : (s.onStrand c j f).inbox = s.inbox := rfl
@[simp] theorem State.onStrand_outbox (s : State) (c : Fin 256) (j : Fin 4) (f : Strand → Strand) : (s.onStrand c j f).outbox = s.outbox := rfl
@[simp] theorem State.onStrand_resp (s : State) (c : Fin 256) (j : Fin 4) (f : Strand → Strand) : (s.onStrand c j f).resp = s.resp := rfl
@[simp] theorem State.onStrand_seq (s : State) (c : Fin 256) (j : Fin 4) (f : Strand → Strand) : (s.onStrand c j f).seq = s.seq := rfl
@[simp] theorem State.onStrand_turn (s : State) (c : Fin 256) (j : Fin 4) (f : Strand → Strand) : (s.onStrand c j f).turn = s.turn := rfl
@[simp] theorem State.onStrand_nextId (s : State) (c : Fin 256) (j : Fin 4) (f : Strand → Strand) : (s.onStrand c j f).nextId = s.nextId := rfl
@[simp] theorem State.onStrand_nextKid (s : State) (c : Fin 256) (j : Fin 4) (f : Strand → Strand) : (s.onStrand c j f).nextKid = s.nextKid := rfl
@[simp] theorem State.onStrand_free (s : State) (c : Fin 256) (j : Fin 4) (f : Strand → Strand) : (s.onStrand c j f).free = s.free := rfl
@[simp] theorem State.onStrand_iss (s : State) (c : Fin 256) (j : Fin 4) (f : Strand → Strand) : (s.onStrand c j f).iss = s.iss := rfl
@[simp] theorem State.onStrand_cur (s : State) (c : Fin 256) (j : Fin 4) (f : Strand → Strand) : (s.onStrand c j f).cur = s.cur := rfl

@[simp] theorem State.onCsr_time (s : State) (c : Fin 256) (j : Fin 4) (f : Csrs → Csrs) : (s.onCsr c j f).time = s.time := rfl
@[simp] theorem State.onCsr_cyc (s : State) (c : Fin 256) (j : Fin 4) (f : Csrs → Csrs) : (s.onCsr c j f).cyc = s.cyc := rfl
@[simp] theorem State.onCsr_driftOfs (s : State) (c : Fin 256) (j : Fin 4) (f : Csrs → Csrs) : (s.onCsr c j f).driftOfs = s.driftOfs := rfl
@[simp] theorem State.onCsr_drift (s : State) (c : Fin 256) (j : Fin 4) (f : Csrs → Csrs) : (s.onCsr c j f).drift = s.drift := rfl
@[simp] theorem State.onCsr_drift2 (s : State) (c : Fin 256) (j : Fin 4) (f : Csrs → Csrs) : (s.onCsr c j f).drift2 = s.drift2 := rfl
@[simp] theorem State.onCsr_driftNow (s : State) (c : Fin 256) (j : Fin 4) (f : Csrs → Csrs) : (s.onCsr c j f).driftNow = s.driftNow := rfl
@[simp] theorem State.onCsr_belled (s : State) (c : Fin 256) (j : Fin 4) (f : Csrs → Csrs) : (s.onCsr c j f).belled = s.belled := rfl
@[simp] theorem State.onCsr_noBell (s : State) (c : Fin 256) (j : Fin 4) (f : Csrs → Csrs) : (s.onCsr c j f).noBell = s.noBell := rfl
@[simp] theorem State.onCsr_calib (s : State) (c : Fin 256) (j : Fin 4) (f : Csrs → Csrs) : (s.onCsr c j f).calib = s.calib := rfl
@[simp] theorem State.onCsr_adopted (s : State) (c : Fin 256) (j : Fin 4) (f : Csrs → Csrs) : (s.onCsr c j f).adopted = s.adopted := rfl
@[simp] theorem State.onCsr_pkg (s : State) (c : Fin 256) (j : Fin 4) (f : Csrs → Csrs) : (s.onCsr c j f).pkg = s.pkg := rfl
@[simp] theorem State.onCsr_ctxs (s : State) (c : Fin 256) (j : Fin 4) (f : Csrs → Csrs) : (s.onCsr c j f).ctxs = s.ctxs := rfl
@[simp] theorem State.onCsr_queues (s : State) (c : Fin 256) (j : Fin 4) (f : Csrs → Csrs) : (s.onCsr c j f).queues = s.queues := rfl
@[simp] theorem State.onCsr_kernels (s : State) (c : Fin 256) (j : Fin 4) (f : Csrs → Csrs) : (s.onCsr c j f).kernels = s.kernels := rfl
@[simp] theorem State.onCsr_cmds (s : State) (c : Fin 256) (j : Fin 4) (f : Csrs → Csrs) : (s.onCsr c j f).cmds = s.cmds := rfl
@[simp] theorem State.onCsr_agenda (s : State) (c : Fin 256) (j : Fin 4) (f : Csrs → Csrs) : (s.onCsr c j f).agenda = s.agenda := rfl
@[simp] theorem State.onCsr_dev (s : State) (c : Fin 256) (j : Fin 4) (f : Csrs → Csrs) : (s.onCsr c j f).dev = s.dev := rfl
@[simp] theorem State.onCsr_near (s : State) (c : Fin 256) (j : Fin 4) (f : Csrs → Csrs) : (s.onCsr c j f).near = s.near := rfl
@[simp] theorem State.onCsr_windows (s : State) (c : Fin 256) (j : Fin 4) (f : Csrs → Csrs) : (s.onCsr c j f).windows = s.windows := rfl
@[simp] theorem State.onCsr_host (s : State) (c : Fin 256) (j : Fin 4) (f : Csrs → Csrs) : (s.onCsr c j f).host = s.host := rfl
@[simp] theorem State.onCsr_hbm (s : State) (c : Fin 256) (j : Fin 4) (f : Csrs → Csrs) : (s.onCsr c j f).hbm = s.hbm := rfl
@[simp] theorem State.onCsr_nearErr (s : State) (c : Fin 256) (j : Fin 4) (f : Csrs → Csrs) : (s.onCsr c j f).nearErr = s.nearErr := rfl
@[simp] theorem State.onCsr_poison (s : State) (c : Fin 256) (j : Fin 4) (f : Csrs → Csrs) : (s.onCsr c j f).poison = s.poison := rfl
@[simp] theorem State.onCsr_nearPoison (s : State) (c : Fin 256) (j : Fin 4) (f : Csrs → Csrs) : (s.onCsr c j f).nearPoison = s.nearPoison := rfl
@[simp] theorem State.onCsr_errH (s : State) (c : Fin 256) (j : Fin 4) (f : Csrs → Csrs) : (s.onCsr c j f).errH = s.errH := rfl
@[simp] theorem State.onCsr_errN (s : State) (c : Fin 256) (j : Fin 4) (f : Csrs → Csrs) : (s.onCsr c j f).errN = s.errN := rfl
@[simp] theorem State.onCsr_pinsets (s : State) (c : Fin 256) (j : Fin 4) (f : Csrs → Csrs) : (s.onCsr c j f).pinsets = s.pinsets := rfl
@[simp] theorem State.onCsr_walks (s : State) (c : Fin 256) (j : Fin 4) (f : Csrs → Csrs) : (s.onCsr c j f).walks = s.walks := rfl
@[simp] theorem State.onCsr_tcache (s : State) (c : Fin 256) (j : Fin 4) (f : Csrs → Csrs) : (s.onCsr c j f).tcache = s.tcache := rfl
@[simp] theorem State.onCsr_ports (s : State) (c : Fin 256) (j : Fin 4) (f : Csrs → Csrs) : (s.onCsr c j f).ports = s.ports := rfl
@[simp] theorem State.onCsr_llats (s : State) (c : Fin 256) (j : Fin 4) (f : Csrs → Csrs) : (s.onCsr c j f).llats = s.llats := rfl
@[simp] theorem State.onCsr_beacons (s : State) (c : Fin 256) (j : Fin 4) (f : Csrs → Csrs) : (s.onCsr c j f).beacons = s.beacons := rfl
@[simp] theorem State.onCsr_seqTx (s : State) (c : Fin 256) (j : Fin 4) (f : Csrs → Csrs) : (s.onCsr c j f).seqTx = s.seqTx := rfl
@[simp] theorem State.onCsr_seqRx (s : State) (c : Fin 256) (j : Fin 4) (f : Csrs → Csrs) : (s.onCsr c j f).seqRx = s.seqRx := rfl
@[simp] theorem State.onCsr_gaps (s : State) (c : Fin 256) (j : Fin 4) (f : Csrs → Csrs) : (s.onCsr c j f).gaps = s.gaps := rfl
@[simp] theorem State.onCsr_gathers (s : State) (c : Fin 256) (j : Fin 4) (f : Csrs → Csrs) : (s.onCsr c j f).gathers = s.gathers := rfl
@[simp] theorem State.onCsr_farSlips (s : State) (c : Fin 256) (j : Fin 4) (f : Csrs → Csrs) : (s.onCsr c j f).farSlips = s.farSlips := rfl
@[simp] theorem State.onCsr_records (s : State) (c : Fin 256) (j : Fin 4) (f : Csrs → Csrs) : (s.onCsr c j f).records = s.records := rfl
@[simp] theorem State.onCsr_astat (s : State) (c : Fin 256) (j : Fin 4) (f : Csrs → Csrs) : (s.onCsr c j f).astat = s.astat := rfl
@[simp] theorem State.onCsr_cohBase (s : State) (c : Fin 256) (j : Fin 4) (f : Csrs → Csrs) : (s.onCsr c j f).cohBase = s.cohBase := rfl
@[simp] theorem State.onCsr_hclr (s : State) (c : Fin 256) (j : Fin 4) (f : Csrs → Csrs) : (s.onCsr c j f).hclr = s.hclr := rfl
@[simp] theorem State.onCsr_suspect (s : State) (c : Fin 256) (j : Fin 4) (f : Csrs → Csrs) : (s.onCsr c j f).suspect = s.suspect := rfl
@[simp] theorem State.onCsr_devFail (s : State) (c : Fin 256) (j : Fin 4) (f : Csrs → Csrs) : (s.onCsr c j f).devFail = s.devFail := rfl
@[simp] theorem State.onCsr_lastGrant (s : State) (c : Fin 256) (j : Fin 4) (f : Csrs → Csrs) : (s.onCsr c j f).lastGrant = s.lastGrant := rfl
@[simp] theorem State.onCsr_upAt (s : State) (c : Fin 256) (j : Fin 4) (f : Csrs → Csrs) : (s.onCsr c j f).upAt = s.upAt := rfl
@[simp] theorem State.onCsr_pf0Reset (s : State) (c : Fin 256) (j : Fin 4) (f : Csrs → Csrs) : (s.onCsr c j f).pf0Reset = s.pf0Reset := rfl
@[simp] theorem State.onCsr_vfs (s : State) (c : Fin 256) (j : Fin 4) (f : Csrs → Csrs) : (s.onCsr c j f).vfs = s.vfs := rfl
@[simp] theorem State.onCsr_fwStarts (s : State) (c : Fin 256) (j : Fin 4) (f : Csrs → Csrs) : (s.onCsr c j f).fwStarts = s.fwStarts := rfl
@[simp] theorem State.onCsr_measured (s : State) (c : Fin 256) (j : Fin 4) (f : Csrs → Csrs) : (s.onCsr c j f).measured = s.measured := rfl
@[simp] theorem State.onCsr_firmware (s : State) (c : Fin 256) (j : Fin 4) (f : Csrs → Csrs) : (s.onCsr c j f).firmware = s.firmware := rfl
@[simp] theorem State.onCsr_newFirmware (s : State) (c : Fin 256) (j : Fin 4) (f : Csrs → Csrs) : (s.onCsr c j f).newFirmware = s.newFirmware := rfl
@[simp] theorem State.onCsr_inbox (s : State) (c : Fin 256) (j : Fin 4) (f : Csrs → Csrs) : (s.onCsr c j f).inbox = s.inbox := rfl
@[simp] theorem State.onCsr_outbox (s : State) (c : Fin 256) (j : Fin 4) (f : Csrs → Csrs) : (s.onCsr c j f).outbox = s.outbox := rfl
@[simp] theorem State.onCsr_resp (s : State) (c : Fin 256) (j : Fin 4) (f : Csrs → Csrs) : (s.onCsr c j f).resp = s.resp := rfl
@[simp] theorem State.onCsr_seq (s : State) (c : Fin 256) (j : Fin 4) (f : Csrs → Csrs) : (s.onCsr c j f).seq = s.seq := rfl
@[simp] theorem State.onCsr_turn (s : State) (c : Fin 256) (j : Fin 4) (f : Csrs → Csrs) : (s.onCsr c j f).turn = s.turn := rfl
@[simp] theorem State.onCsr_nextId (s : State) (c : Fin 256) (j : Fin 4) (f : Csrs → Csrs) : (s.onCsr c j f).nextId = s.nextId := rfl
@[simp] theorem State.onCsr_nextKid (s : State) (c : Fin 256) (j : Fin 4) (f : Csrs → Csrs) : (s.onCsr c j f).nextKid = s.nextKid := rfl
@[simp] theorem State.onCsr_free (s : State) (c : Fin 256) (j : Fin 4) (f : Csrs → Csrs) : (s.onCsr c j f).free = s.free := rfl
@[simp] theorem State.onCsr_iss (s : State) (c : Fin 256) (j : Fin 4) (f : Csrs → Csrs) : (s.onCsr c j f).iss = s.iss := rfl
@[simp] theorem State.onCsr_cur (s : State) (c : Fin 256) (j : Fin 4) (f : Csrs → Csrs) : (s.onCsr c j f).cur = s.cur := rfl

@[simp] theorem State.onCtx_time (s : State) (x : Fin 17) (f : Ctx → Ctx) : (s.onCtx x f).time = s.time := rfl
@[simp] theorem State.onCtx_cyc (s : State) (x : Fin 17) (f : Ctx → Ctx) : (s.onCtx x f).cyc = s.cyc := rfl
@[simp] theorem State.onCtx_driftOfs (s : State) (x : Fin 17) (f : Ctx → Ctx) : (s.onCtx x f).driftOfs = s.driftOfs := rfl
@[simp] theorem State.onCtx_drift (s : State) (x : Fin 17) (f : Ctx → Ctx) : (s.onCtx x f).drift = s.drift := rfl
@[simp] theorem State.onCtx_drift2 (s : State) (x : Fin 17) (f : Ctx → Ctx) : (s.onCtx x f).drift2 = s.drift2 := rfl
@[simp] theorem State.onCtx_driftNow (s : State) (x : Fin 17) (f : Ctx → Ctx) : (s.onCtx x f).driftNow = s.driftNow := rfl
@[simp] theorem State.onCtx_belled (s : State) (x : Fin 17) (f : Ctx → Ctx) : (s.onCtx x f).belled = s.belled := rfl
@[simp] theorem State.onCtx_noBell (s : State) (x : Fin 17) (f : Ctx → Ctx) : (s.onCtx x f).noBell = s.noBell := rfl
@[simp] theorem State.onCtx_calib (s : State) (x : Fin 17) (f : Ctx → Ctx) : (s.onCtx x f).calib = s.calib := rfl
@[simp] theorem State.onCtx_adopted (s : State) (x : Fin 17) (f : Ctx → Ctx) : (s.onCtx x f).adopted = s.adopted := rfl
@[simp] theorem State.onCtx_pkg (s : State) (x : Fin 17) (f : Ctx → Ctx) : (s.onCtx x f).pkg = s.pkg := rfl
@[simp] theorem State.onCtx_cores (s : State) (x : Fin 17) (f : Ctx → Ctx) : (s.onCtx x f).cores = s.cores := rfl
@[simp] theorem State.onCtx_ctxs (s : State) (x : Fin 17) (f : Ctx → Ctx) : (s.onCtx x f).ctxs = upd s.ctxs x f := rfl
@[simp] theorem State.onCtx_queues (s : State) (x : Fin 17) (f : Ctx → Ctx) : (s.onCtx x f).queues = s.queues := rfl
@[simp] theorem State.onCtx_kernels (s : State) (x : Fin 17) (f : Ctx → Ctx) : (s.onCtx x f).kernels = s.kernels := rfl
@[simp] theorem State.onCtx_cmds (s : State) (x : Fin 17) (f : Ctx → Ctx) : (s.onCtx x f).cmds = s.cmds := rfl
@[simp] theorem State.onCtx_agenda (s : State) (x : Fin 17) (f : Ctx → Ctx) : (s.onCtx x f).agenda = s.agenda := rfl
@[simp] theorem State.onCtx_dev (s : State) (x : Fin 17) (f : Ctx → Ctx) : (s.onCtx x f).dev = s.dev := rfl
@[simp] theorem State.onCtx_near (s : State) (x : Fin 17) (f : Ctx → Ctx) : (s.onCtx x f).near = s.near := rfl
@[simp] theorem State.onCtx_windows (s : State) (x : Fin 17) (f : Ctx → Ctx) : (s.onCtx x f).windows = s.windows := rfl
@[simp] theorem State.onCtx_host (s : State) (x : Fin 17) (f : Ctx → Ctx) : (s.onCtx x f).host = s.host := rfl
@[simp] theorem State.onCtx_hbm (s : State) (x : Fin 17) (f : Ctx → Ctx) : (s.onCtx x f).hbm = s.hbm := rfl
@[simp] theorem State.onCtx_nearErr (s : State) (x : Fin 17) (f : Ctx → Ctx) : (s.onCtx x f).nearErr = s.nearErr := rfl
@[simp] theorem State.onCtx_poison (s : State) (x : Fin 17) (f : Ctx → Ctx) : (s.onCtx x f).poison = s.poison := rfl
@[simp] theorem State.onCtx_nearPoison (s : State) (x : Fin 17) (f : Ctx → Ctx) : (s.onCtx x f).nearPoison = s.nearPoison := rfl
@[simp] theorem State.onCtx_errH (s : State) (x : Fin 17) (f : Ctx → Ctx) : (s.onCtx x f).errH = s.errH := rfl
@[simp] theorem State.onCtx_errN (s : State) (x : Fin 17) (f : Ctx → Ctx) : (s.onCtx x f).errN = s.errN := rfl
@[simp] theorem State.onCtx_pinsets (s : State) (x : Fin 17) (f : Ctx → Ctx) : (s.onCtx x f).pinsets = s.pinsets := rfl
@[simp] theorem State.onCtx_walks (s : State) (x : Fin 17) (f : Ctx → Ctx) : (s.onCtx x f).walks = s.walks := rfl
@[simp] theorem State.onCtx_tcache (s : State) (x : Fin 17) (f : Ctx → Ctx) : (s.onCtx x f).tcache = s.tcache := rfl
@[simp] theorem State.onCtx_ports (s : State) (x : Fin 17) (f : Ctx → Ctx) : (s.onCtx x f).ports = s.ports := rfl
@[simp] theorem State.onCtx_llats (s : State) (x : Fin 17) (f : Ctx → Ctx) : (s.onCtx x f).llats = s.llats := rfl
@[simp] theorem State.onCtx_beacons (s : State) (x : Fin 17) (f : Ctx → Ctx) : (s.onCtx x f).beacons = s.beacons := rfl
@[simp] theorem State.onCtx_seqTx (s : State) (x : Fin 17) (f : Ctx → Ctx) : (s.onCtx x f).seqTx = s.seqTx := rfl
@[simp] theorem State.onCtx_seqRx (s : State) (x : Fin 17) (f : Ctx → Ctx) : (s.onCtx x f).seqRx = s.seqRx := rfl
@[simp] theorem State.onCtx_gaps (s : State) (x : Fin 17) (f : Ctx → Ctx) : (s.onCtx x f).gaps = s.gaps := rfl
@[simp] theorem State.onCtx_gathers (s : State) (x : Fin 17) (f : Ctx → Ctx) : (s.onCtx x f).gathers = s.gathers := rfl
@[simp] theorem State.onCtx_farSlips (s : State) (x : Fin 17) (f : Ctx → Ctx) : (s.onCtx x f).farSlips = s.farSlips := rfl
@[simp] theorem State.onCtx_records (s : State) (x : Fin 17) (f : Ctx → Ctx) : (s.onCtx x f).records = s.records := rfl
@[simp] theorem State.onCtx_astat (s : State) (x : Fin 17) (f : Ctx → Ctx) : (s.onCtx x f).astat = s.astat := rfl
@[simp] theorem State.onCtx_cohBase (s : State) (x : Fin 17) (f : Ctx → Ctx) : (s.onCtx x f).cohBase = s.cohBase := rfl
@[simp] theorem State.onCtx_hclr (s : State) (x : Fin 17) (f : Ctx → Ctx) : (s.onCtx x f).hclr = s.hclr := rfl
@[simp] theorem State.onCtx_suspect (s : State) (x : Fin 17) (f : Ctx → Ctx) : (s.onCtx x f).suspect = s.suspect := rfl
@[simp] theorem State.onCtx_devFail (s : State) (x : Fin 17) (f : Ctx → Ctx) : (s.onCtx x f).devFail = s.devFail := rfl
@[simp] theorem State.onCtx_lastGrant (s : State) (x : Fin 17) (f : Ctx → Ctx) : (s.onCtx x f).lastGrant = s.lastGrant := rfl
@[simp] theorem State.onCtx_upAt (s : State) (x : Fin 17) (f : Ctx → Ctx) : (s.onCtx x f).upAt = s.upAt := rfl
@[simp] theorem State.onCtx_pf0Reset (s : State) (x : Fin 17) (f : Ctx → Ctx) : (s.onCtx x f).pf0Reset = s.pf0Reset := rfl
@[simp] theorem State.onCtx_vfs (s : State) (x : Fin 17) (f : Ctx → Ctx) : (s.onCtx x f).vfs = s.vfs := rfl
@[simp] theorem State.onCtx_fwStarts (s : State) (x : Fin 17) (f : Ctx → Ctx) : (s.onCtx x f).fwStarts = s.fwStarts := rfl
@[simp] theorem State.onCtx_measured (s : State) (x : Fin 17) (f : Ctx → Ctx) : (s.onCtx x f).measured = s.measured := rfl
@[simp] theorem State.onCtx_firmware (s : State) (x : Fin 17) (f : Ctx → Ctx) : (s.onCtx x f).firmware = s.firmware := rfl
@[simp] theorem State.onCtx_newFirmware (s : State) (x : Fin 17) (f : Ctx → Ctx) : (s.onCtx x f).newFirmware = s.newFirmware := rfl
@[simp] theorem State.onCtx_inbox (s : State) (x : Fin 17) (f : Ctx → Ctx) : (s.onCtx x f).inbox = s.inbox := rfl
@[simp] theorem State.onCtx_outbox (s : State) (x : Fin 17) (f : Ctx → Ctx) : (s.onCtx x f).outbox = s.outbox := rfl
@[simp] theorem State.onCtx_resp (s : State) (x : Fin 17) (f : Ctx → Ctx) : (s.onCtx x f).resp = s.resp := rfl
@[simp] theorem State.onCtx_seq (s : State) (x : Fin 17) (f : Ctx → Ctx) : (s.onCtx x f).seq = s.seq := rfl
@[simp] theorem State.onCtx_turn (s : State) (x : Fin 17) (f : Ctx → Ctx) : (s.onCtx x f).turn = s.turn := rfl
@[simp] theorem State.onCtx_nextId (s : State) (x : Fin 17) (f : Ctx → Ctx) : (s.onCtx x f).nextId = s.nextId := rfl
@[simp] theorem State.onCtx_nextKid (s : State) (x : Fin 17) (f : Ctx → Ctx) : (s.onCtx x f).nextKid = s.nextKid := rfl
@[simp] theorem State.onCtx_free (s : State) (x : Fin 17) (f : Ctx → Ctx) : (s.onCtx x f).free = s.free := rfl
@[simp] theorem State.onCtx_iss (s : State) (x : Fin 17) (f : Ctx → Ctx) : (s.onCtx x f).iss = s.iss := rfl
@[simp] theorem State.onCtx_cur (s : State) (x : Fin 17) (f : Ctx → Ctx) : (s.onCtx x f).cur = s.cur := rfl

@[simp] theorem State.onQueue_time (s : State) (q : Fin 64) (f : Queue → Queue) : (s.onQueue q f).time = s.time := rfl
@[simp] theorem State.onQueue_cyc (s : State) (q : Fin 64) (f : Queue → Queue) : (s.onQueue q f).cyc = s.cyc := rfl
@[simp] theorem State.onQueue_driftOfs (s : State) (q : Fin 64) (f : Queue → Queue) : (s.onQueue q f).driftOfs = s.driftOfs := rfl
@[simp] theorem State.onQueue_drift (s : State) (q : Fin 64) (f : Queue → Queue) : (s.onQueue q f).drift = s.drift := rfl
@[simp] theorem State.onQueue_drift2 (s : State) (q : Fin 64) (f : Queue → Queue) : (s.onQueue q f).drift2 = s.drift2 := rfl
@[simp] theorem State.onQueue_driftNow (s : State) (q : Fin 64) (f : Queue → Queue) : (s.onQueue q f).driftNow = s.driftNow := rfl
@[simp] theorem State.onQueue_belled (s : State) (q : Fin 64) (f : Queue → Queue) : (s.onQueue q f).belled = s.belled := rfl
@[simp] theorem State.onQueue_noBell (s : State) (q : Fin 64) (f : Queue → Queue) : (s.onQueue q f).noBell = s.noBell := rfl
@[simp] theorem State.onQueue_calib (s : State) (q : Fin 64) (f : Queue → Queue) : (s.onQueue q f).calib = s.calib := rfl
@[simp] theorem State.onQueue_adopted (s : State) (q : Fin 64) (f : Queue → Queue) : (s.onQueue q f).adopted = s.adopted := rfl
@[simp] theorem State.onQueue_pkg (s : State) (q : Fin 64) (f : Queue → Queue) : (s.onQueue q f).pkg = s.pkg := rfl
@[simp] theorem State.onQueue_cores (s : State) (q : Fin 64) (f : Queue → Queue) : (s.onQueue q f).cores = s.cores := rfl
@[simp] theorem State.onQueue_ctxs (s : State) (q : Fin 64) (f : Queue → Queue) : (s.onQueue q f).ctxs = s.ctxs := rfl
@[simp] theorem State.onQueue_queues (s : State) (q : Fin 64) (f : Queue → Queue) : (s.onQueue q f).queues = upd s.queues q f := rfl
@[simp] theorem State.onQueue_kernels (s : State) (q : Fin 64) (f : Queue → Queue) : (s.onQueue q f).kernels = s.kernels := rfl
@[simp] theorem State.onQueue_cmds (s : State) (q : Fin 64) (f : Queue → Queue) : (s.onQueue q f).cmds = s.cmds := rfl
@[simp] theorem State.onQueue_agenda (s : State) (q : Fin 64) (f : Queue → Queue) : (s.onQueue q f).agenda = s.agenda := rfl
@[simp] theorem State.onQueue_dev (s : State) (q : Fin 64) (f : Queue → Queue) : (s.onQueue q f).dev = s.dev := rfl
@[simp] theorem State.onQueue_near (s : State) (q : Fin 64) (f : Queue → Queue) : (s.onQueue q f).near = s.near := rfl
@[simp] theorem State.onQueue_windows (s : State) (q : Fin 64) (f : Queue → Queue) : (s.onQueue q f).windows = s.windows := rfl
@[simp] theorem State.onQueue_host (s : State) (q : Fin 64) (f : Queue → Queue) : (s.onQueue q f).host = s.host := rfl
@[simp] theorem State.onQueue_hbm (s : State) (q : Fin 64) (f : Queue → Queue) : (s.onQueue q f).hbm = s.hbm := rfl
@[simp] theorem State.onQueue_nearErr (s : State) (q : Fin 64) (f : Queue → Queue) : (s.onQueue q f).nearErr = s.nearErr := rfl
@[simp] theorem State.onQueue_poison (s : State) (q : Fin 64) (f : Queue → Queue) : (s.onQueue q f).poison = s.poison := rfl
@[simp] theorem State.onQueue_nearPoison (s : State) (q : Fin 64) (f : Queue → Queue) : (s.onQueue q f).nearPoison = s.nearPoison := rfl
@[simp] theorem State.onQueue_errH (s : State) (q : Fin 64) (f : Queue → Queue) : (s.onQueue q f).errH = s.errH := rfl
@[simp] theorem State.onQueue_errN (s : State) (q : Fin 64) (f : Queue → Queue) : (s.onQueue q f).errN = s.errN := rfl
@[simp] theorem State.onQueue_pinsets (s : State) (q : Fin 64) (f : Queue → Queue) : (s.onQueue q f).pinsets = s.pinsets := rfl
@[simp] theorem State.onQueue_walks (s : State) (q : Fin 64) (f : Queue → Queue) : (s.onQueue q f).walks = s.walks := rfl
@[simp] theorem State.onQueue_tcache (s : State) (q : Fin 64) (f : Queue → Queue) : (s.onQueue q f).tcache = s.tcache := rfl
@[simp] theorem State.onQueue_ports (s : State) (q : Fin 64) (f : Queue → Queue) : (s.onQueue q f).ports = s.ports := rfl
@[simp] theorem State.onQueue_llats (s : State) (q : Fin 64) (f : Queue → Queue) : (s.onQueue q f).llats = s.llats := rfl
@[simp] theorem State.onQueue_beacons (s : State) (q : Fin 64) (f : Queue → Queue) : (s.onQueue q f).beacons = s.beacons := rfl
@[simp] theorem State.onQueue_seqTx (s : State) (q : Fin 64) (f : Queue → Queue) : (s.onQueue q f).seqTx = s.seqTx := rfl
@[simp] theorem State.onQueue_seqRx (s : State) (q : Fin 64) (f : Queue → Queue) : (s.onQueue q f).seqRx = s.seqRx := rfl
@[simp] theorem State.onQueue_gaps (s : State) (q : Fin 64) (f : Queue → Queue) : (s.onQueue q f).gaps = s.gaps := rfl
@[simp] theorem State.onQueue_gathers (s : State) (q : Fin 64) (f : Queue → Queue) : (s.onQueue q f).gathers = s.gathers := rfl
@[simp] theorem State.onQueue_farSlips (s : State) (q : Fin 64) (f : Queue → Queue) : (s.onQueue q f).farSlips = s.farSlips := rfl
@[simp] theorem State.onQueue_records (s : State) (q : Fin 64) (f : Queue → Queue) : (s.onQueue q f).records = s.records := rfl
@[simp] theorem State.onQueue_astat (s : State) (q : Fin 64) (f : Queue → Queue) : (s.onQueue q f).astat = s.astat := rfl
@[simp] theorem State.onQueue_cohBase (s : State) (q : Fin 64) (f : Queue → Queue) : (s.onQueue q f).cohBase = s.cohBase := rfl
@[simp] theorem State.onQueue_hclr (s : State) (q : Fin 64) (f : Queue → Queue) : (s.onQueue q f).hclr = s.hclr := rfl
@[simp] theorem State.onQueue_suspect (s : State) (q : Fin 64) (f : Queue → Queue) : (s.onQueue q f).suspect = s.suspect := rfl
@[simp] theorem State.onQueue_devFail (s : State) (q : Fin 64) (f : Queue → Queue) : (s.onQueue q f).devFail = s.devFail := rfl
@[simp] theorem State.onQueue_lastGrant (s : State) (q : Fin 64) (f : Queue → Queue) : (s.onQueue q f).lastGrant = s.lastGrant := rfl
@[simp] theorem State.onQueue_upAt (s : State) (q : Fin 64) (f : Queue → Queue) : (s.onQueue q f).upAt = s.upAt := rfl
@[simp] theorem State.onQueue_pf0Reset (s : State) (q : Fin 64) (f : Queue → Queue) : (s.onQueue q f).pf0Reset = s.pf0Reset := rfl
@[simp] theorem State.onQueue_vfs (s : State) (q : Fin 64) (f : Queue → Queue) : (s.onQueue q f).vfs = s.vfs := rfl
@[simp] theorem State.onQueue_fwStarts (s : State) (q : Fin 64) (f : Queue → Queue) : (s.onQueue q f).fwStarts = s.fwStarts := rfl
@[simp] theorem State.onQueue_measured (s : State) (q : Fin 64) (f : Queue → Queue) : (s.onQueue q f).measured = s.measured := rfl
@[simp] theorem State.onQueue_firmware (s : State) (q : Fin 64) (f : Queue → Queue) : (s.onQueue q f).firmware = s.firmware := rfl
@[simp] theorem State.onQueue_newFirmware (s : State) (q : Fin 64) (f : Queue → Queue) : (s.onQueue q f).newFirmware = s.newFirmware := rfl
@[simp] theorem State.onQueue_inbox (s : State) (q : Fin 64) (f : Queue → Queue) : (s.onQueue q f).inbox = s.inbox := rfl
@[simp] theorem State.onQueue_outbox (s : State) (q : Fin 64) (f : Queue → Queue) : (s.onQueue q f).outbox = s.outbox := rfl
@[simp] theorem State.onQueue_resp (s : State) (q : Fin 64) (f : Queue → Queue) : (s.onQueue q f).resp = s.resp := rfl
@[simp] theorem State.onQueue_seq (s : State) (q : Fin 64) (f : Queue → Queue) : (s.onQueue q f).seq = s.seq := rfl
@[simp] theorem State.onQueue_turn (s : State) (q : Fin 64) (f : Queue → Queue) : (s.onQueue q f).turn = s.turn := rfl
@[simp] theorem State.onQueue_nextId (s : State) (q : Fin 64) (f : Queue → Queue) : (s.onQueue q f).nextId = s.nextId := rfl
@[simp] theorem State.onQueue_nextKid (s : State) (q : Fin 64) (f : Queue → Queue) : (s.onQueue q f).nextKid = s.nextKid := rfl
@[simp] theorem State.onQueue_free (s : State) (q : Fin 64) (f : Queue → Queue) : (s.onQueue q f).free = s.free := rfl
@[simp] theorem State.onQueue_iss (s : State) (q : Fin 64) (f : Queue → Queue) : (s.onQueue q f).iss = s.iss := rfl
@[simp] theorem State.onQueue_cur (s : State) (q : Fin 64) (f : Queue → Queue) : (s.onQueue q f).cur = s.cur := rfl

@[simp] theorem State.onKernel_time (s : State) (kid : Nat) (f : Kernel → Kernel) : (s.onKernel kid f).time = s.time := rfl
@[simp] theorem State.onKernel_cyc (s : State) (kid : Nat) (f : Kernel → Kernel) : (s.onKernel kid f).cyc = s.cyc := rfl
@[simp] theorem State.onKernel_driftOfs (s : State) (kid : Nat) (f : Kernel → Kernel) : (s.onKernel kid f).driftOfs = s.driftOfs := rfl
@[simp] theorem State.onKernel_drift (s : State) (kid : Nat) (f : Kernel → Kernel) : (s.onKernel kid f).drift = s.drift := rfl
@[simp] theorem State.onKernel_drift2 (s : State) (kid : Nat) (f : Kernel → Kernel) : (s.onKernel kid f).drift2 = s.drift2 := rfl
@[simp] theorem State.onKernel_driftNow (s : State) (kid : Nat) (f : Kernel → Kernel) : (s.onKernel kid f).driftNow = s.driftNow := rfl
@[simp] theorem State.onKernel_belled (s : State) (kid : Nat) (f : Kernel → Kernel) : (s.onKernel kid f).belled = s.belled := rfl
@[simp] theorem State.onKernel_noBell (s : State) (kid : Nat) (f : Kernel → Kernel) : (s.onKernel kid f).noBell = s.noBell := rfl
@[simp] theorem State.onKernel_calib (s : State) (kid : Nat) (f : Kernel → Kernel) : (s.onKernel kid f).calib = s.calib := rfl
@[simp] theorem State.onKernel_adopted (s : State) (kid : Nat) (f : Kernel → Kernel) : (s.onKernel kid f).adopted = s.adopted := rfl
@[simp] theorem State.onKernel_pkg (s : State) (kid : Nat) (f : Kernel → Kernel) : (s.onKernel kid f).pkg = s.pkg := rfl
@[simp] theorem State.onKernel_cores (s : State) (kid : Nat) (f : Kernel → Kernel) : (s.onKernel kid f).cores = s.cores := rfl
@[simp] theorem State.onKernel_ctxs (s : State) (kid : Nat) (f : Kernel → Kernel) : (s.onKernel kid f).ctxs = s.ctxs := rfl
@[simp] theorem State.onKernel_queues (s : State) (kid : Nat) (f : Kernel → Kernel) : (s.onKernel kid f).queues = s.queues := rfl
@[simp] theorem State.onKernel_cmds (s : State) (kid : Nat) (f : Kernel → Kernel) : (s.onKernel kid f).cmds = s.cmds := rfl
@[simp] theorem State.onKernel_agenda (s : State) (kid : Nat) (f : Kernel → Kernel) : (s.onKernel kid f).agenda = s.agenda := rfl
@[simp] theorem State.onKernel_dev (s : State) (kid : Nat) (f : Kernel → Kernel) : (s.onKernel kid f).dev = s.dev := rfl
@[simp] theorem State.onKernel_near (s : State) (kid : Nat) (f : Kernel → Kernel) : (s.onKernel kid f).near = s.near := rfl
@[simp] theorem State.onKernel_windows (s : State) (kid : Nat) (f : Kernel → Kernel) : (s.onKernel kid f).windows = s.windows := rfl
@[simp] theorem State.onKernel_host (s : State) (kid : Nat) (f : Kernel → Kernel) : (s.onKernel kid f).host = s.host := rfl
@[simp] theorem State.onKernel_hbm (s : State) (kid : Nat) (f : Kernel → Kernel) : (s.onKernel kid f).hbm = s.hbm := rfl
@[simp] theorem State.onKernel_nearErr (s : State) (kid : Nat) (f : Kernel → Kernel) : (s.onKernel kid f).nearErr = s.nearErr := rfl
@[simp] theorem State.onKernel_poison (s : State) (kid : Nat) (f : Kernel → Kernel) : (s.onKernel kid f).poison = s.poison := rfl
@[simp] theorem State.onKernel_nearPoison (s : State) (kid : Nat) (f : Kernel → Kernel) : (s.onKernel kid f).nearPoison = s.nearPoison := rfl
@[simp] theorem State.onKernel_errH (s : State) (kid : Nat) (f : Kernel → Kernel) : (s.onKernel kid f).errH = s.errH := rfl
@[simp] theorem State.onKernel_errN (s : State) (kid : Nat) (f : Kernel → Kernel) : (s.onKernel kid f).errN = s.errN := rfl
@[simp] theorem State.onKernel_pinsets (s : State) (kid : Nat) (f : Kernel → Kernel) : (s.onKernel kid f).pinsets = s.pinsets := rfl
@[simp] theorem State.onKernel_walks (s : State) (kid : Nat) (f : Kernel → Kernel) : (s.onKernel kid f).walks = s.walks := rfl
@[simp] theorem State.onKernel_tcache (s : State) (kid : Nat) (f : Kernel → Kernel) : (s.onKernel kid f).tcache = s.tcache := rfl
@[simp] theorem State.onKernel_ports (s : State) (kid : Nat) (f : Kernel → Kernel) : (s.onKernel kid f).ports = s.ports := rfl
@[simp] theorem State.onKernel_llats (s : State) (kid : Nat) (f : Kernel → Kernel) : (s.onKernel kid f).llats = s.llats := rfl
@[simp] theorem State.onKernel_beacons (s : State) (kid : Nat) (f : Kernel → Kernel) : (s.onKernel kid f).beacons = s.beacons := rfl
@[simp] theorem State.onKernel_seqTx (s : State) (kid : Nat) (f : Kernel → Kernel) : (s.onKernel kid f).seqTx = s.seqTx := rfl
@[simp] theorem State.onKernel_seqRx (s : State) (kid : Nat) (f : Kernel → Kernel) : (s.onKernel kid f).seqRx = s.seqRx := rfl
@[simp] theorem State.onKernel_gaps (s : State) (kid : Nat) (f : Kernel → Kernel) : (s.onKernel kid f).gaps = s.gaps := rfl
@[simp] theorem State.onKernel_gathers (s : State) (kid : Nat) (f : Kernel → Kernel) : (s.onKernel kid f).gathers = s.gathers := rfl
@[simp] theorem State.onKernel_farSlips (s : State) (kid : Nat) (f : Kernel → Kernel) : (s.onKernel kid f).farSlips = s.farSlips := rfl
@[simp] theorem State.onKernel_records (s : State) (kid : Nat) (f : Kernel → Kernel) : (s.onKernel kid f).records = s.records := rfl
@[simp] theorem State.onKernel_astat (s : State) (kid : Nat) (f : Kernel → Kernel) : (s.onKernel kid f).astat = s.astat := rfl
@[simp] theorem State.onKernel_cohBase (s : State) (kid : Nat) (f : Kernel → Kernel) : (s.onKernel kid f).cohBase = s.cohBase := rfl
@[simp] theorem State.onKernel_hclr (s : State) (kid : Nat) (f : Kernel → Kernel) : (s.onKernel kid f).hclr = s.hclr := rfl
@[simp] theorem State.onKernel_suspect (s : State) (kid : Nat) (f : Kernel → Kernel) : (s.onKernel kid f).suspect = s.suspect := rfl
@[simp] theorem State.onKernel_devFail (s : State) (kid : Nat) (f : Kernel → Kernel) : (s.onKernel kid f).devFail = s.devFail := rfl
@[simp] theorem State.onKernel_lastGrant (s : State) (kid : Nat) (f : Kernel → Kernel) : (s.onKernel kid f).lastGrant = s.lastGrant := rfl
@[simp] theorem State.onKernel_upAt (s : State) (kid : Nat) (f : Kernel → Kernel) : (s.onKernel kid f).upAt = s.upAt := rfl
@[simp] theorem State.onKernel_pf0Reset (s : State) (kid : Nat) (f : Kernel → Kernel) : (s.onKernel kid f).pf0Reset = s.pf0Reset := rfl
@[simp] theorem State.onKernel_vfs (s : State) (kid : Nat) (f : Kernel → Kernel) : (s.onKernel kid f).vfs = s.vfs := rfl
@[simp] theorem State.onKernel_fwStarts (s : State) (kid : Nat) (f : Kernel → Kernel) : (s.onKernel kid f).fwStarts = s.fwStarts := rfl
@[simp] theorem State.onKernel_measured (s : State) (kid : Nat) (f : Kernel → Kernel) : (s.onKernel kid f).measured = s.measured := rfl
@[simp] theorem State.onKernel_firmware (s : State) (kid : Nat) (f : Kernel → Kernel) : (s.onKernel kid f).firmware = s.firmware := rfl
@[simp] theorem State.onKernel_newFirmware (s : State) (kid : Nat) (f : Kernel → Kernel) : (s.onKernel kid f).newFirmware = s.newFirmware := rfl
@[simp] theorem State.onKernel_inbox (s : State) (kid : Nat) (f : Kernel → Kernel) : (s.onKernel kid f).inbox = s.inbox := rfl
@[simp] theorem State.onKernel_outbox (s : State) (kid : Nat) (f : Kernel → Kernel) : (s.onKernel kid f).outbox = s.outbox := rfl
@[simp] theorem State.onKernel_resp (s : State) (kid : Nat) (f : Kernel → Kernel) : (s.onKernel kid f).resp = s.resp := rfl
@[simp] theorem State.onKernel_seq (s : State) (kid : Nat) (f : Kernel → Kernel) : (s.onKernel kid f).seq = s.seq := rfl
@[simp] theorem State.onKernel_turn (s : State) (kid : Nat) (f : Kernel → Kernel) : (s.onKernel kid f).turn = s.turn := rfl
@[simp] theorem State.onKernel_nextId (s : State) (kid : Nat) (f : Kernel → Kernel) : (s.onKernel kid f).nextId = s.nextId := rfl
@[simp] theorem State.onKernel_nextKid (s : State) (kid : Nat) (f : Kernel → Kernel) : (s.onKernel kid f).nextKid = s.nextKid := rfl
@[simp] theorem State.onKernel_free (s : State) (kid : Nat) (f : Kernel → Kernel) : (s.onKernel kid f).free = s.free := rfl
@[simp] theorem State.onKernel_iss (s : State) (kid : Nat) (f : Kernel → Kernel) : (s.onKernel kid f).iss = s.iss := rfl
@[simp] theorem State.onKernel_cur (s : State) (kid : Nat) (f : Kernel → Kernel) : (s.onKernel kid f).cur = s.cur := rfl

@[simp] theorem State.onGroup_time (s : State) (kid gp : Nat) (f : Group → Group) : (s.onGroup kid gp f).time = s.time := rfl
@[simp] theorem State.onGroup_cyc (s : State) (kid gp : Nat) (f : Group → Group) : (s.onGroup kid gp f).cyc = s.cyc := rfl
@[simp] theorem State.onGroup_driftOfs (s : State) (kid gp : Nat) (f : Group → Group) : (s.onGroup kid gp f).driftOfs = s.driftOfs := rfl
@[simp] theorem State.onGroup_drift (s : State) (kid gp : Nat) (f : Group → Group) : (s.onGroup kid gp f).drift = s.drift := rfl
@[simp] theorem State.onGroup_drift2 (s : State) (kid gp : Nat) (f : Group → Group) : (s.onGroup kid gp f).drift2 = s.drift2 := rfl
@[simp] theorem State.onGroup_driftNow (s : State) (kid gp : Nat) (f : Group → Group) : (s.onGroup kid gp f).driftNow = s.driftNow := rfl
@[simp] theorem State.onGroup_belled (s : State) (kid gp : Nat) (f : Group → Group) : (s.onGroup kid gp f).belled = s.belled := rfl
@[simp] theorem State.onGroup_noBell (s : State) (kid gp : Nat) (f : Group → Group) : (s.onGroup kid gp f).noBell = s.noBell := rfl
@[simp] theorem State.onGroup_calib (s : State) (kid gp : Nat) (f : Group → Group) : (s.onGroup kid gp f).calib = s.calib := rfl
@[simp] theorem State.onGroup_adopted (s : State) (kid gp : Nat) (f : Group → Group) : (s.onGroup kid gp f).adopted = s.adopted := rfl
@[simp] theorem State.onGroup_pkg (s : State) (kid gp : Nat) (f : Group → Group) : (s.onGroup kid gp f).pkg = s.pkg := rfl
@[simp] theorem State.onGroup_cores (s : State) (kid gp : Nat) (f : Group → Group) : (s.onGroup kid gp f).cores = s.cores := rfl
@[simp] theorem State.onGroup_ctxs (s : State) (kid gp : Nat) (f : Group → Group) : (s.onGroup kid gp f).ctxs = s.ctxs := rfl
@[simp] theorem State.onGroup_queues (s : State) (kid gp : Nat) (f : Group → Group) : (s.onGroup kid gp f).queues = s.queues := rfl
@[simp] theorem State.onGroup_cmds (s : State) (kid gp : Nat) (f : Group → Group) : (s.onGroup kid gp f).cmds = s.cmds := rfl
@[simp] theorem State.onGroup_agenda (s : State) (kid gp : Nat) (f : Group → Group) : (s.onGroup kid gp f).agenda = s.agenda := rfl
@[simp] theorem State.onGroup_dev (s : State) (kid gp : Nat) (f : Group → Group) : (s.onGroup kid gp f).dev = s.dev := rfl
@[simp] theorem State.onGroup_near (s : State) (kid gp : Nat) (f : Group → Group) : (s.onGroup kid gp f).near = s.near := rfl
@[simp] theorem State.onGroup_windows (s : State) (kid gp : Nat) (f : Group → Group) : (s.onGroup kid gp f).windows = s.windows := rfl
@[simp] theorem State.onGroup_host (s : State) (kid gp : Nat) (f : Group → Group) : (s.onGroup kid gp f).host = s.host := rfl
@[simp] theorem State.onGroup_hbm (s : State) (kid gp : Nat) (f : Group → Group) : (s.onGroup kid gp f).hbm = s.hbm := rfl
@[simp] theorem State.onGroup_nearErr (s : State) (kid gp : Nat) (f : Group → Group) : (s.onGroup kid gp f).nearErr = s.nearErr := rfl
@[simp] theorem State.onGroup_poison (s : State) (kid gp : Nat) (f : Group → Group) : (s.onGroup kid gp f).poison = s.poison := rfl
@[simp] theorem State.onGroup_nearPoison (s : State) (kid gp : Nat) (f : Group → Group) : (s.onGroup kid gp f).nearPoison = s.nearPoison := rfl
@[simp] theorem State.onGroup_errH (s : State) (kid gp : Nat) (f : Group → Group) : (s.onGroup kid gp f).errH = s.errH := rfl
@[simp] theorem State.onGroup_errN (s : State) (kid gp : Nat) (f : Group → Group) : (s.onGroup kid gp f).errN = s.errN := rfl
@[simp] theorem State.onGroup_pinsets (s : State) (kid gp : Nat) (f : Group → Group) : (s.onGroup kid gp f).pinsets = s.pinsets := rfl
@[simp] theorem State.onGroup_walks (s : State) (kid gp : Nat) (f : Group → Group) : (s.onGroup kid gp f).walks = s.walks := rfl
@[simp] theorem State.onGroup_tcache (s : State) (kid gp : Nat) (f : Group → Group) : (s.onGroup kid gp f).tcache = s.tcache := rfl
@[simp] theorem State.onGroup_ports (s : State) (kid gp : Nat) (f : Group → Group) : (s.onGroup kid gp f).ports = s.ports := rfl
@[simp] theorem State.onGroup_llats (s : State) (kid gp : Nat) (f : Group → Group) : (s.onGroup kid gp f).llats = s.llats := rfl
@[simp] theorem State.onGroup_beacons (s : State) (kid gp : Nat) (f : Group → Group) : (s.onGroup kid gp f).beacons = s.beacons := rfl
@[simp] theorem State.onGroup_seqTx (s : State) (kid gp : Nat) (f : Group → Group) : (s.onGroup kid gp f).seqTx = s.seqTx := rfl
@[simp] theorem State.onGroup_seqRx (s : State) (kid gp : Nat) (f : Group → Group) : (s.onGroup kid gp f).seqRx = s.seqRx := rfl
@[simp] theorem State.onGroup_gaps (s : State) (kid gp : Nat) (f : Group → Group) : (s.onGroup kid gp f).gaps = s.gaps := rfl
@[simp] theorem State.onGroup_gathers (s : State) (kid gp : Nat) (f : Group → Group) : (s.onGroup kid gp f).gathers = s.gathers := rfl
@[simp] theorem State.onGroup_farSlips (s : State) (kid gp : Nat) (f : Group → Group) : (s.onGroup kid gp f).farSlips = s.farSlips := rfl
@[simp] theorem State.onGroup_records (s : State) (kid gp : Nat) (f : Group → Group) : (s.onGroup kid gp f).records = s.records := rfl
@[simp] theorem State.onGroup_astat (s : State) (kid gp : Nat) (f : Group → Group) : (s.onGroup kid gp f).astat = s.astat := rfl
@[simp] theorem State.onGroup_cohBase (s : State) (kid gp : Nat) (f : Group → Group) : (s.onGroup kid gp f).cohBase = s.cohBase := rfl
@[simp] theorem State.onGroup_hclr (s : State) (kid gp : Nat) (f : Group → Group) : (s.onGroup kid gp f).hclr = s.hclr := rfl
@[simp] theorem State.onGroup_suspect (s : State) (kid gp : Nat) (f : Group → Group) : (s.onGroup kid gp f).suspect = s.suspect := rfl
@[simp] theorem State.onGroup_devFail (s : State) (kid gp : Nat) (f : Group → Group) : (s.onGroup kid gp f).devFail = s.devFail := rfl
@[simp] theorem State.onGroup_lastGrant (s : State) (kid gp : Nat) (f : Group → Group) : (s.onGroup kid gp f).lastGrant = s.lastGrant := rfl
@[simp] theorem State.onGroup_upAt (s : State) (kid gp : Nat) (f : Group → Group) : (s.onGroup kid gp f).upAt = s.upAt := rfl
@[simp] theorem State.onGroup_pf0Reset (s : State) (kid gp : Nat) (f : Group → Group) : (s.onGroup kid gp f).pf0Reset = s.pf0Reset := rfl
@[simp] theorem State.onGroup_vfs (s : State) (kid gp : Nat) (f : Group → Group) : (s.onGroup kid gp f).vfs = s.vfs := rfl
@[simp] theorem State.onGroup_fwStarts (s : State) (kid gp : Nat) (f : Group → Group) : (s.onGroup kid gp f).fwStarts = s.fwStarts := rfl
@[simp] theorem State.onGroup_measured (s : State) (kid gp : Nat) (f : Group → Group) : (s.onGroup kid gp f).measured = s.measured := rfl
@[simp] theorem State.onGroup_firmware (s : State) (kid gp : Nat) (f : Group → Group) : (s.onGroup kid gp f).firmware = s.firmware := rfl
@[simp] theorem State.onGroup_newFirmware (s : State) (kid gp : Nat) (f : Group → Group) : (s.onGroup kid gp f).newFirmware = s.newFirmware := rfl
@[simp] theorem State.onGroup_inbox (s : State) (kid gp : Nat) (f : Group → Group) : (s.onGroup kid gp f).inbox = s.inbox := rfl
@[simp] theorem State.onGroup_outbox (s : State) (kid gp : Nat) (f : Group → Group) : (s.onGroup kid gp f).outbox = s.outbox := rfl
@[simp] theorem State.onGroup_resp (s : State) (kid gp : Nat) (f : Group → Group) : (s.onGroup kid gp f).resp = s.resp := rfl
@[simp] theorem State.onGroup_seq (s : State) (kid gp : Nat) (f : Group → Group) : (s.onGroup kid gp f).seq = s.seq := rfl
@[simp] theorem State.onGroup_turn (s : State) (kid gp : Nat) (f : Group → Group) : (s.onGroup kid gp f).turn = s.turn := rfl
@[simp] theorem State.onGroup_nextId (s : State) (kid gp : Nat) (f : Group → Group) : (s.onGroup kid gp f).nextId = s.nextId := rfl
@[simp] theorem State.onGroup_nextKid (s : State) (kid gp : Nat) (f : Group → Group) : (s.onGroup kid gp f).nextKid = s.nextKid := rfl
@[simp] theorem State.onGroup_free (s : State) (kid gp : Nat) (f : Group → Group) : (s.onGroup kid gp f).free = s.free := rfl
@[simp] theorem State.onGroup_iss (s : State) (kid gp : Nat) (f : Group → Group) : (s.onGroup kid gp f).iss = s.iss := rfl
@[simp] theorem State.onGroup_cur (s : State) (kid gp : Nat) (f : Group → Group) : (s.onGroup kid gp f).cur = s.cur := rfl

@[simp] theorem State.onCmd_time (s : State) (id : Nat) (f : Cmd → Cmd) : (s.onCmd id f).time = s.time := rfl
@[simp] theorem State.onCmd_cyc (s : State) (id : Nat) (f : Cmd → Cmd) : (s.onCmd id f).cyc = s.cyc := rfl
@[simp] theorem State.onCmd_driftOfs (s : State) (id : Nat) (f : Cmd → Cmd) : (s.onCmd id f).driftOfs = s.driftOfs := rfl
@[simp] theorem State.onCmd_drift (s : State) (id : Nat) (f : Cmd → Cmd) : (s.onCmd id f).drift = s.drift := rfl
@[simp] theorem State.onCmd_drift2 (s : State) (id : Nat) (f : Cmd → Cmd) : (s.onCmd id f).drift2 = s.drift2 := rfl
@[simp] theorem State.onCmd_driftNow (s : State) (id : Nat) (f : Cmd → Cmd) : (s.onCmd id f).driftNow = s.driftNow := rfl
@[simp] theorem State.onCmd_belled (s : State) (id : Nat) (f : Cmd → Cmd) : (s.onCmd id f).belled = s.belled := rfl
@[simp] theorem State.onCmd_noBell (s : State) (id : Nat) (f : Cmd → Cmd) : (s.onCmd id f).noBell = s.noBell := rfl
@[simp] theorem State.onCmd_calib (s : State) (id : Nat) (f : Cmd → Cmd) : (s.onCmd id f).calib = s.calib := rfl
@[simp] theorem State.onCmd_adopted (s : State) (id : Nat) (f : Cmd → Cmd) : (s.onCmd id f).adopted = s.adopted := rfl
@[simp] theorem State.onCmd_pkg (s : State) (id : Nat) (f : Cmd → Cmd) : (s.onCmd id f).pkg = s.pkg := rfl
@[simp] theorem State.onCmd_cores (s : State) (id : Nat) (f : Cmd → Cmd) : (s.onCmd id f).cores = s.cores := rfl
@[simp] theorem State.onCmd_ctxs (s : State) (id : Nat) (f : Cmd → Cmd) : (s.onCmd id f).ctxs = s.ctxs := rfl
@[simp] theorem State.onCmd_queues (s : State) (id : Nat) (f : Cmd → Cmd) : (s.onCmd id f).queues = s.queues := rfl
@[simp] theorem State.onCmd_kernels (s : State) (id : Nat) (f : Cmd → Cmd) : (s.onCmd id f).kernels = s.kernels := rfl
@[simp] theorem State.onCmd_agenda (s : State) (id : Nat) (f : Cmd → Cmd) : (s.onCmd id f).agenda = s.agenda := rfl
@[simp] theorem State.onCmd_dev (s : State) (id : Nat) (f : Cmd → Cmd) : (s.onCmd id f).dev = s.dev := rfl
@[simp] theorem State.onCmd_near (s : State) (id : Nat) (f : Cmd → Cmd) : (s.onCmd id f).near = s.near := rfl
@[simp] theorem State.onCmd_windows (s : State) (id : Nat) (f : Cmd → Cmd) : (s.onCmd id f).windows = s.windows := rfl
@[simp] theorem State.onCmd_host (s : State) (id : Nat) (f : Cmd → Cmd) : (s.onCmd id f).host = s.host := rfl
@[simp] theorem State.onCmd_hbm (s : State) (id : Nat) (f : Cmd → Cmd) : (s.onCmd id f).hbm = s.hbm := rfl
@[simp] theorem State.onCmd_nearErr (s : State) (id : Nat) (f : Cmd → Cmd) : (s.onCmd id f).nearErr = s.nearErr := rfl
@[simp] theorem State.onCmd_poison (s : State) (id : Nat) (f : Cmd → Cmd) : (s.onCmd id f).poison = s.poison := rfl
@[simp] theorem State.onCmd_nearPoison (s : State) (id : Nat) (f : Cmd → Cmd) : (s.onCmd id f).nearPoison = s.nearPoison := rfl
@[simp] theorem State.onCmd_errH (s : State) (id : Nat) (f : Cmd → Cmd) : (s.onCmd id f).errH = s.errH := rfl
@[simp] theorem State.onCmd_errN (s : State) (id : Nat) (f : Cmd → Cmd) : (s.onCmd id f).errN = s.errN := rfl
@[simp] theorem State.onCmd_pinsets (s : State) (id : Nat) (f : Cmd → Cmd) : (s.onCmd id f).pinsets = s.pinsets := rfl
@[simp] theorem State.onCmd_walks (s : State) (id : Nat) (f : Cmd → Cmd) : (s.onCmd id f).walks = s.walks := rfl
@[simp] theorem State.onCmd_tcache (s : State) (id : Nat) (f : Cmd → Cmd) : (s.onCmd id f).tcache = s.tcache := rfl
@[simp] theorem State.onCmd_ports (s : State) (id : Nat) (f : Cmd → Cmd) : (s.onCmd id f).ports = s.ports := rfl
@[simp] theorem State.onCmd_llats (s : State) (id : Nat) (f : Cmd → Cmd) : (s.onCmd id f).llats = s.llats := rfl
@[simp] theorem State.onCmd_beacons (s : State) (id : Nat) (f : Cmd → Cmd) : (s.onCmd id f).beacons = s.beacons := rfl
@[simp] theorem State.onCmd_seqTx (s : State) (id : Nat) (f : Cmd → Cmd) : (s.onCmd id f).seqTx = s.seqTx := rfl
@[simp] theorem State.onCmd_seqRx (s : State) (id : Nat) (f : Cmd → Cmd) : (s.onCmd id f).seqRx = s.seqRx := rfl
@[simp] theorem State.onCmd_gaps (s : State) (id : Nat) (f : Cmd → Cmd) : (s.onCmd id f).gaps = s.gaps := rfl
@[simp] theorem State.onCmd_gathers (s : State) (id : Nat) (f : Cmd → Cmd) : (s.onCmd id f).gathers = s.gathers := rfl
@[simp] theorem State.onCmd_farSlips (s : State) (id : Nat) (f : Cmd → Cmd) : (s.onCmd id f).farSlips = s.farSlips := rfl
@[simp] theorem State.onCmd_records (s : State) (id : Nat) (f : Cmd → Cmd) : (s.onCmd id f).records = s.records := rfl
@[simp] theorem State.onCmd_astat (s : State) (id : Nat) (f : Cmd → Cmd) : (s.onCmd id f).astat = s.astat := rfl
@[simp] theorem State.onCmd_cohBase (s : State) (id : Nat) (f : Cmd → Cmd) : (s.onCmd id f).cohBase = s.cohBase := rfl
@[simp] theorem State.onCmd_hclr (s : State) (id : Nat) (f : Cmd → Cmd) : (s.onCmd id f).hclr = s.hclr := rfl
@[simp] theorem State.onCmd_suspect (s : State) (id : Nat) (f : Cmd → Cmd) : (s.onCmd id f).suspect = s.suspect := rfl
@[simp] theorem State.onCmd_devFail (s : State) (id : Nat) (f : Cmd → Cmd) : (s.onCmd id f).devFail = s.devFail := rfl
@[simp] theorem State.onCmd_lastGrant (s : State) (id : Nat) (f : Cmd → Cmd) : (s.onCmd id f).lastGrant = s.lastGrant := rfl
@[simp] theorem State.onCmd_upAt (s : State) (id : Nat) (f : Cmd → Cmd) : (s.onCmd id f).upAt = s.upAt := rfl
@[simp] theorem State.onCmd_pf0Reset (s : State) (id : Nat) (f : Cmd → Cmd) : (s.onCmd id f).pf0Reset = s.pf0Reset := rfl
@[simp] theorem State.onCmd_vfs (s : State) (id : Nat) (f : Cmd → Cmd) : (s.onCmd id f).vfs = s.vfs := rfl
@[simp] theorem State.onCmd_fwStarts (s : State) (id : Nat) (f : Cmd → Cmd) : (s.onCmd id f).fwStarts = s.fwStarts := rfl
@[simp] theorem State.onCmd_measured (s : State) (id : Nat) (f : Cmd → Cmd) : (s.onCmd id f).measured = s.measured := rfl
@[simp] theorem State.onCmd_firmware (s : State) (id : Nat) (f : Cmd → Cmd) : (s.onCmd id f).firmware = s.firmware := rfl
@[simp] theorem State.onCmd_newFirmware (s : State) (id : Nat) (f : Cmd → Cmd) : (s.onCmd id f).newFirmware = s.newFirmware := rfl
@[simp] theorem State.onCmd_inbox (s : State) (id : Nat) (f : Cmd → Cmd) : (s.onCmd id f).inbox = s.inbox := rfl
@[simp] theorem State.onCmd_outbox (s : State) (id : Nat) (f : Cmd → Cmd) : (s.onCmd id f).outbox = s.outbox := rfl
@[simp] theorem State.onCmd_resp (s : State) (id : Nat) (f : Cmd → Cmd) : (s.onCmd id f).resp = s.resp := rfl
@[simp] theorem State.onCmd_seq (s : State) (id : Nat) (f : Cmd → Cmd) : (s.onCmd id f).seq = s.seq := rfl
@[simp] theorem State.onCmd_turn (s : State) (id : Nat) (f : Cmd → Cmd) : (s.onCmd id f).turn = s.turn := rfl
@[simp] theorem State.onCmd_nextId (s : State) (id : Nat) (f : Cmd → Cmd) : (s.onCmd id f).nextId = s.nextId := rfl
@[simp] theorem State.onCmd_nextKid (s : State) (id : Nat) (f : Cmd → Cmd) : (s.onCmd id f).nextKid = s.nextKid := rfl
@[simp] theorem State.onCmd_free (s : State) (id : Nat) (f : Cmd → Cmd) : (s.onCmd id f).free = s.free := rfl
@[simp] theorem State.onCmd_iss (s : State) (id : Nat) (f : Cmd → Cmd) : (s.onCmd id f).iss = s.iss := rfl
@[simp] theorem State.onCmd_cur (s : State) (id : Nat) (f : Cmd → Cmd) : (s.onCmd id f).cur = s.cur := rfl

@[simp] theorem State.onCur_time (s : State) (f : Cur → Cur) : (s.onCur f).time = s.time := rfl
@[simp] theorem State.onCur_cyc (s : State) (f : Cur → Cur) : (s.onCur f).cyc = s.cyc := rfl
@[simp] theorem State.onCur_driftOfs (s : State) (f : Cur → Cur) : (s.onCur f).driftOfs = s.driftOfs := rfl
@[simp] theorem State.onCur_drift (s : State) (f : Cur → Cur) : (s.onCur f).drift = s.drift := rfl
@[simp] theorem State.onCur_drift2 (s : State) (f : Cur → Cur) : (s.onCur f).drift2 = s.drift2 := rfl
@[simp] theorem State.onCur_driftNow (s : State) (f : Cur → Cur) : (s.onCur f).driftNow = s.driftNow := rfl
@[simp] theorem State.onCur_belled (s : State) (f : Cur → Cur) : (s.onCur f).belled = s.belled := rfl
@[simp] theorem State.onCur_noBell (s : State) (f : Cur → Cur) : (s.onCur f).noBell = s.noBell := rfl
@[simp] theorem State.onCur_calib (s : State) (f : Cur → Cur) : (s.onCur f).calib = s.calib := rfl
@[simp] theorem State.onCur_adopted (s : State) (f : Cur → Cur) : (s.onCur f).adopted = s.adopted := rfl
@[simp] theorem State.onCur_pkg (s : State) (f : Cur → Cur) : (s.onCur f).pkg = s.pkg := rfl
@[simp] theorem State.onCur_cores (s : State) (f : Cur → Cur) : (s.onCur f).cores = s.cores := rfl
@[simp] theorem State.onCur_ctxs (s : State) (f : Cur → Cur) : (s.onCur f).ctxs = s.ctxs := rfl
@[simp] theorem State.onCur_queues (s : State) (f : Cur → Cur) : (s.onCur f).queues = s.queues := rfl
@[simp] theorem State.onCur_kernels (s : State) (f : Cur → Cur) : (s.onCur f).kernels = s.kernels := rfl
@[simp] theorem State.onCur_cmds (s : State) (f : Cur → Cur) : (s.onCur f).cmds = s.cmds := rfl
@[simp] theorem State.onCur_agenda (s : State) (f : Cur → Cur) : (s.onCur f).agenda = s.agenda := rfl
@[simp] theorem State.onCur_dev (s : State) (f : Cur → Cur) : (s.onCur f).dev = s.dev := rfl
@[simp] theorem State.onCur_near (s : State) (f : Cur → Cur) : (s.onCur f).near = s.near := rfl
@[simp] theorem State.onCur_windows (s : State) (f : Cur → Cur) : (s.onCur f).windows = s.windows := rfl
@[simp] theorem State.onCur_host (s : State) (f : Cur → Cur) : (s.onCur f).host = s.host := rfl
@[simp] theorem State.onCur_hbm (s : State) (f : Cur → Cur) : (s.onCur f).hbm = s.hbm := rfl
@[simp] theorem State.onCur_nearErr (s : State) (f : Cur → Cur) : (s.onCur f).nearErr = s.nearErr := rfl
@[simp] theorem State.onCur_poison (s : State) (f : Cur → Cur) : (s.onCur f).poison = s.poison := rfl
@[simp] theorem State.onCur_nearPoison (s : State) (f : Cur → Cur) : (s.onCur f).nearPoison = s.nearPoison := rfl
@[simp] theorem State.onCur_errH (s : State) (f : Cur → Cur) : (s.onCur f).errH = s.errH := rfl
@[simp] theorem State.onCur_errN (s : State) (f : Cur → Cur) : (s.onCur f).errN = s.errN := rfl
@[simp] theorem State.onCur_pinsets (s : State) (f : Cur → Cur) : (s.onCur f).pinsets = s.pinsets := rfl
@[simp] theorem State.onCur_walks (s : State) (f : Cur → Cur) : (s.onCur f).walks = s.walks := rfl
@[simp] theorem State.onCur_tcache (s : State) (f : Cur → Cur) : (s.onCur f).tcache = s.tcache := rfl
@[simp] theorem State.onCur_ports (s : State) (f : Cur → Cur) : (s.onCur f).ports = s.ports := rfl
@[simp] theorem State.onCur_llats (s : State) (f : Cur → Cur) : (s.onCur f).llats = s.llats := rfl
@[simp] theorem State.onCur_beacons (s : State) (f : Cur → Cur) : (s.onCur f).beacons = s.beacons := rfl
@[simp] theorem State.onCur_seqTx (s : State) (f : Cur → Cur) : (s.onCur f).seqTx = s.seqTx := rfl
@[simp] theorem State.onCur_seqRx (s : State) (f : Cur → Cur) : (s.onCur f).seqRx = s.seqRx := rfl
@[simp] theorem State.onCur_gaps (s : State) (f : Cur → Cur) : (s.onCur f).gaps = s.gaps := rfl
@[simp] theorem State.onCur_gathers (s : State) (f : Cur → Cur) : (s.onCur f).gathers = s.gathers := rfl
@[simp] theorem State.onCur_farSlips (s : State) (f : Cur → Cur) : (s.onCur f).farSlips = s.farSlips := rfl
@[simp] theorem State.onCur_records (s : State) (f : Cur → Cur) : (s.onCur f).records = s.records := rfl
@[simp] theorem State.onCur_astat (s : State) (f : Cur → Cur) : (s.onCur f).astat = s.astat := rfl
@[simp] theorem State.onCur_cohBase (s : State) (f : Cur → Cur) : (s.onCur f).cohBase = s.cohBase := rfl
@[simp] theorem State.onCur_hclr (s : State) (f : Cur → Cur) : (s.onCur f).hclr = s.hclr := rfl
@[simp] theorem State.onCur_suspect (s : State) (f : Cur → Cur) : (s.onCur f).suspect = s.suspect := rfl
@[simp] theorem State.onCur_devFail (s : State) (f : Cur → Cur) : (s.onCur f).devFail = s.devFail := rfl
@[simp] theorem State.onCur_lastGrant (s : State) (f : Cur → Cur) : (s.onCur f).lastGrant = s.lastGrant := rfl
@[simp] theorem State.onCur_upAt (s : State) (f : Cur → Cur) : (s.onCur f).upAt = s.upAt := rfl
@[simp] theorem State.onCur_pf0Reset (s : State) (f : Cur → Cur) : (s.onCur f).pf0Reset = s.pf0Reset := rfl
@[simp] theorem State.onCur_vfs (s : State) (f : Cur → Cur) : (s.onCur f).vfs = s.vfs := rfl
@[simp] theorem State.onCur_fwStarts (s : State) (f : Cur → Cur) : (s.onCur f).fwStarts = s.fwStarts := rfl
@[simp] theorem State.onCur_measured (s : State) (f : Cur → Cur) : (s.onCur f).measured = s.measured := rfl
@[simp] theorem State.onCur_firmware (s : State) (f : Cur → Cur) : (s.onCur f).firmware = s.firmware := rfl
@[simp] theorem State.onCur_newFirmware (s : State) (f : Cur → Cur) : (s.onCur f).newFirmware = s.newFirmware := rfl
@[simp] theorem State.onCur_inbox (s : State) (f : Cur → Cur) : (s.onCur f).inbox = s.inbox := rfl
@[simp] theorem State.onCur_outbox (s : State) (f : Cur → Cur) : (s.onCur f).outbox = s.outbox := rfl
@[simp] theorem State.onCur_resp (s : State) (f : Cur → Cur) : (s.onCur f).resp = s.resp := rfl
@[simp] theorem State.onCur_seq (s : State) (f : Cur → Cur) : (s.onCur f).seq = s.seq := rfl
@[simp] theorem State.onCur_turn (s : State) (f : Cur → Cur) : (s.onCur f).turn = s.turn := rfl
@[simp] theorem State.onCur_nextId (s : State) (f : Cur → Cur) : (s.onCur f).nextId = s.nextId := rfl
@[simp] theorem State.onCur_nextKid (s : State) (f : Cur → Cur) : (s.onCur f).nextKid = s.nextKid := rfl
@[simp] theorem State.onCur_free (s : State) (f : Cur → Cur) : (s.onCur f).free = s.free := rfl
@[simp] theorem State.onCur_iss (s : State) (f : Cur → Cur) : (s.onCur f).iss = s.iss := rfl
@[simp] theorem State.onCur_cur (s : State) (f : Cur → Cur) : (s.onCur f).cur = f s.cur := rfl

@[simp] theorem State.push_time (s : State) (clk : Clock) (due phase core : Nat) (act : Act) : (s.push clk due phase core act).time = s.time := rfl
@[simp] theorem State.push_cyc (s : State) (clk : Clock) (due phase core : Nat) (act : Act) : (s.push clk due phase core act).cyc = s.cyc := rfl
@[simp] theorem State.push_driftOfs (s : State) (clk : Clock) (due phase core : Nat) (act : Act) : (s.push clk due phase core act).driftOfs = s.driftOfs := rfl
@[simp] theorem State.push_drift (s : State) (clk : Clock) (due phase core : Nat) (act : Act) : (s.push clk due phase core act).drift = s.drift := rfl
@[simp] theorem State.push_drift2 (s : State) (clk : Clock) (due phase core : Nat) (act : Act) : (s.push clk due phase core act).drift2 = s.drift2 := rfl
@[simp] theorem State.push_driftNow (s : State) (clk : Clock) (due phase core : Nat) (act : Act) : (s.push clk due phase core act).driftNow = s.driftNow := rfl
@[simp] theorem State.push_belled (s : State) (clk : Clock) (due phase core : Nat) (act : Act) : (s.push clk due phase core act).belled = s.belled := rfl
@[simp] theorem State.push_noBell (s : State) (clk : Clock) (due phase core : Nat) (act : Act) : (s.push clk due phase core act).noBell = s.noBell := rfl
@[simp] theorem State.push_calib (s : State) (clk : Clock) (due phase core : Nat) (act : Act) : (s.push clk due phase core act).calib = s.calib := rfl
@[simp] theorem State.push_adopted (s : State) (clk : Clock) (due phase core : Nat) (act : Act) : (s.push clk due phase core act).adopted = s.adopted := rfl
@[simp] theorem State.push_pkg (s : State) (clk : Clock) (due phase core : Nat) (act : Act) : (s.push clk due phase core act).pkg = s.pkg := rfl
@[simp] theorem State.push_cores (s : State) (clk : Clock) (due phase core : Nat) (act : Act) : (s.push clk due phase core act).cores = s.cores := rfl
@[simp] theorem State.push_ctxs (s : State) (clk : Clock) (due phase core : Nat) (act : Act) : (s.push clk due phase core act).ctxs = s.ctxs := rfl
@[simp] theorem State.push_queues (s : State) (clk : Clock) (due phase core : Nat) (act : Act) : (s.push clk due phase core act).queues = s.queues := rfl
@[simp] theorem State.push_kernels (s : State) (clk : Clock) (due phase core : Nat) (act : Act) : (s.push clk due phase core act).kernels = s.kernels := rfl
@[simp] theorem State.push_cmds (s : State) (clk : Clock) (due phase core : Nat) (act : Act) : (s.push clk due phase core act).cmds = s.cmds := rfl
@[simp] theorem State.push_agenda (s : State) (clk : Clock) (due phase core : Nat) (act : Act) : (s.push clk due phase core act).agenda = s.agenda ++ [{ clk, due, phase, core, seq := s.seq, act }] := rfl
@[simp] theorem State.push_dev (s : State) (clk : Clock) (due phase core : Nat) (act : Act) : (s.push clk due phase core act).dev = s.dev := rfl
@[simp] theorem State.push_near (s : State) (clk : Clock) (due phase core : Nat) (act : Act) : (s.push clk due phase core act).near = s.near := rfl
@[simp] theorem State.push_windows (s : State) (clk : Clock) (due phase core : Nat) (act : Act) : (s.push clk due phase core act).windows = s.windows := rfl
@[simp] theorem State.push_host (s : State) (clk : Clock) (due phase core : Nat) (act : Act) : (s.push clk due phase core act).host = s.host := rfl
@[simp] theorem State.push_hbm (s : State) (clk : Clock) (due phase core : Nat) (act : Act) : (s.push clk due phase core act).hbm = s.hbm := rfl
@[simp] theorem State.push_nearErr (s : State) (clk : Clock) (due phase core : Nat) (act : Act) : (s.push clk due phase core act).nearErr = s.nearErr := rfl
@[simp] theorem State.push_poison (s : State) (clk : Clock) (due phase core : Nat) (act : Act) : (s.push clk due phase core act).poison = s.poison := rfl
@[simp] theorem State.push_nearPoison (s : State) (clk : Clock) (due phase core : Nat) (act : Act) : (s.push clk due phase core act).nearPoison = s.nearPoison := rfl
@[simp] theorem State.push_errH (s : State) (clk : Clock) (due phase core : Nat) (act : Act) : (s.push clk due phase core act).errH = s.errH := rfl
@[simp] theorem State.push_errN (s : State) (clk : Clock) (due phase core : Nat) (act : Act) : (s.push clk due phase core act).errN = s.errN := rfl
@[simp] theorem State.push_pinsets (s : State) (clk : Clock) (due phase core : Nat) (act : Act) : (s.push clk due phase core act).pinsets = s.pinsets := rfl
@[simp] theorem State.push_walks (s : State) (clk : Clock) (due phase core : Nat) (act : Act) : (s.push clk due phase core act).walks = s.walks := rfl
@[simp] theorem State.push_tcache (s : State) (clk : Clock) (due phase core : Nat) (act : Act) : (s.push clk due phase core act).tcache = s.tcache := rfl
@[simp] theorem State.push_ports (s : State) (clk : Clock) (due phase core : Nat) (act : Act) : (s.push clk due phase core act).ports = s.ports := rfl
@[simp] theorem State.push_llats (s : State) (clk : Clock) (due phase core : Nat) (act : Act) : (s.push clk due phase core act).llats = s.llats := rfl
@[simp] theorem State.push_beacons (s : State) (clk : Clock) (due phase core : Nat) (act : Act) : (s.push clk due phase core act).beacons = s.beacons := rfl
@[simp] theorem State.push_seqTx (s : State) (clk : Clock) (due phase core : Nat) (act : Act) : (s.push clk due phase core act).seqTx = s.seqTx := rfl
@[simp] theorem State.push_seqRx (s : State) (clk : Clock) (due phase core : Nat) (act : Act) : (s.push clk due phase core act).seqRx = s.seqRx := rfl
@[simp] theorem State.push_gaps (s : State) (clk : Clock) (due phase core : Nat) (act : Act) : (s.push clk due phase core act).gaps = s.gaps := rfl
@[simp] theorem State.push_gathers (s : State) (clk : Clock) (due phase core : Nat) (act : Act) : (s.push clk due phase core act).gathers = s.gathers := rfl
@[simp] theorem State.push_farSlips (s : State) (clk : Clock) (due phase core : Nat) (act : Act) : (s.push clk due phase core act).farSlips = s.farSlips := rfl
@[simp] theorem State.push_records (s : State) (clk : Clock) (due phase core : Nat) (act : Act) : (s.push clk due phase core act).records = s.records := rfl
@[simp] theorem State.push_astat (s : State) (clk : Clock) (due phase core : Nat) (act : Act) : (s.push clk due phase core act).astat = s.astat := rfl
@[simp] theorem State.push_cohBase (s : State) (clk : Clock) (due phase core : Nat) (act : Act) : (s.push clk due phase core act).cohBase = s.cohBase := rfl
@[simp] theorem State.push_hclr (s : State) (clk : Clock) (due phase core : Nat) (act : Act) : (s.push clk due phase core act).hclr = s.hclr := rfl
@[simp] theorem State.push_suspect (s : State) (clk : Clock) (due phase core : Nat) (act : Act) : (s.push clk due phase core act).suspect = s.suspect := rfl
@[simp] theorem State.push_devFail (s : State) (clk : Clock) (due phase core : Nat) (act : Act) : (s.push clk due phase core act).devFail = s.devFail := rfl
@[simp] theorem State.push_lastGrant (s : State) (clk : Clock) (due phase core : Nat) (act : Act) : (s.push clk due phase core act).lastGrant = s.lastGrant := rfl
@[simp] theorem State.push_upAt (s : State) (clk : Clock) (due phase core : Nat) (act : Act) : (s.push clk due phase core act).upAt = s.upAt := rfl
@[simp] theorem State.push_pf0Reset (s : State) (clk : Clock) (due phase core : Nat) (act : Act) : (s.push clk due phase core act).pf0Reset = s.pf0Reset := rfl
@[simp] theorem State.push_vfs (s : State) (clk : Clock) (due phase core : Nat) (act : Act) : (s.push clk due phase core act).vfs = s.vfs := rfl
@[simp] theorem State.push_fwStarts (s : State) (clk : Clock) (due phase core : Nat) (act : Act) : (s.push clk due phase core act).fwStarts = s.fwStarts := rfl
@[simp] theorem State.push_measured (s : State) (clk : Clock) (due phase core : Nat) (act : Act) : (s.push clk due phase core act).measured = s.measured := rfl
@[simp] theorem State.push_firmware (s : State) (clk : Clock) (due phase core : Nat) (act : Act) : (s.push clk due phase core act).firmware = s.firmware := rfl
@[simp] theorem State.push_newFirmware (s : State) (clk : Clock) (due phase core : Nat) (act : Act) : (s.push clk due phase core act).newFirmware = s.newFirmware := rfl
@[simp] theorem State.push_inbox (s : State) (clk : Clock) (due phase core : Nat) (act : Act) : (s.push clk due phase core act).inbox = s.inbox := rfl
@[simp] theorem State.push_outbox (s : State) (clk : Clock) (due phase core : Nat) (act : Act) : (s.push clk due phase core act).outbox = s.outbox := rfl
@[simp] theorem State.push_resp (s : State) (clk : Clock) (due phase core : Nat) (act : Act) : (s.push clk due phase core act).resp = s.resp := rfl
@[simp] theorem State.push_seq (s : State) (clk : Clock) (due phase core : Nat) (act : Act) : (s.push clk due phase core act).seq = s.seq + 1 := rfl
@[simp] theorem State.push_turn (s : State) (clk : Clock) (due phase core : Nat) (act : Act) : (s.push clk due phase core act).turn = s.turn := rfl
@[simp] theorem State.push_nextId (s : State) (clk : Clock) (due phase core : Nat) (act : Act) : (s.push clk due phase core act).nextId = s.nextId := rfl
@[simp] theorem State.push_nextKid (s : State) (clk : Clock) (due phase core : Nat) (act : Act) : (s.push clk due phase core act).nextKid = s.nextKid := rfl
@[simp] theorem State.push_free (s : State) (clk : Clock) (due phase core : Nat) (act : Act) : (s.push clk due phase core act).free = s.free := rfl
@[simp] theorem State.push_iss (s : State) (clk : Clock) (due phase core : Nat) (act : Act) : (s.push clk due phase core act).iss = s.iss := rfl
@[simp] theorem State.push_cur (s : State) (clk : Clock) (due phase core : Nat) (act : Act) : (s.push clk due phase core act).cur = s.cur := rfl

@[simp] theorem State.pushAs_time (s : State) (clk : Clock) (due phase core q : Nat) (act : Act) : (s.pushAs clk due phase core q act).time = s.time := rfl
@[simp] theorem State.pushAs_cyc (s : State) (clk : Clock) (due phase core q : Nat) (act : Act) : (s.pushAs clk due phase core q act).cyc = s.cyc := rfl
@[simp] theorem State.pushAs_driftOfs (s : State) (clk : Clock) (due phase core q : Nat) (act : Act) : (s.pushAs clk due phase core q act).driftOfs = s.driftOfs := rfl
@[simp] theorem State.pushAs_drift (s : State) (clk : Clock) (due phase core q : Nat) (act : Act) : (s.pushAs clk due phase core q act).drift = s.drift := rfl
@[simp] theorem State.pushAs_drift2 (s : State) (clk : Clock) (due phase core q : Nat) (act : Act) : (s.pushAs clk due phase core q act).drift2 = s.drift2 := rfl
@[simp] theorem State.pushAs_driftNow (s : State) (clk : Clock) (due phase core q : Nat) (act : Act) : (s.pushAs clk due phase core q act).driftNow = s.driftNow := rfl
@[simp] theorem State.pushAs_belled (s : State) (clk : Clock) (due phase core q : Nat) (act : Act) : (s.pushAs clk due phase core q act).belled = s.belled := rfl
@[simp] theorem State.pushAs_noBell (s : State) (clk : Clock) (due phase core q : Nat) (act : Act) : (s.pushAs clk due phase core q act).noBell = s.noBell := rfl
@[simp] theorem State.pushAs_calib (s : State) (clk : Clock) (due phase core q : Nat) (act : Act) : (s.pushAs clk due phase core q act).calib = s.calib := rfl
@[simp] theorem State.pushAs_adopted (s : State) (clk : Clock) (due phase core q : Nat) (act : Act) : (s.pushAs clk due phase core q act).adopted = s.adopted := rfl
@[simp] theorem State.pushAs_pkg (s : State) (clk : Clock) (due phase core q : Nat) (act : Act) : (s.pushAs clk due phase core q act).pkg = s.pkg := rfl
@[simp] theorem State.pushAs_cores (s : State) (clk : Clock) (due phase core q : Nat) (act : Act) : (s.pushAs clk due phase core q act).cores = s.cores := rfl
@[simp] theorem State.pushAs_ctxs (s : State) (clk : Clock) (due phase core q : Nat) (act : Act) : (s.pushAs clk due phase core q act).ctxs = s.ctxs := rfl
@[simp] theorem State.pushAs_queues (s : State) (clk : Clock) (due phase core q : Nat) (act : Act) : (s.pushAs clk due phase core q act).queues = s.queues := rfl
@[simp] theorem State.pushAs_kernels (s : State) (clk : Clock) (due phase core q : Nat) (act : Act) : (s.pushAs clk due phase core q act).kernels = s.kernels := rfl
@[simp] theorem State.pushAs_cmds (s : State) (clk : Clock) (due phase core q : Nat) (act : Act) : (s.pushAs clk due phase core q act).cmds = s.cmds := rfl
@[simp] theorem State.pushAs_agenda (s : State) (clk : Clock) (due phase core q : Nat) (act : Act) : (s.pushAs clk due phase core q act).agenda = s.agenda ++ [{ clk, due, phase, core, seq := q, act }] := rfl
@[simp] theorem State.pushAs_dev (s : State) (clk : Clock) (due phase core q : Nat) (act : Act) : (s.pushAs clk due phase core q act).dev = s.dev := rfl
@[simp] theorem State.pushAs_near (s : State) (clk : Clock) (due phase core q : Nat) (act : Act) : (s.pushAs clk due phase core q act).near = s.near := rfl
@[simp] theorem State.pushAs_windows (s : State) (clk : Clock) (due phase core q : Nat) (act : Act) : (s.pushAs clk due phase core q act).windows = s.windows := rfl
@[simp] theorem State.pushAs_host (s : State) (clk : Clock) (due phase core q : Nat) (act : Act) : (s.pushAs clk due phase core q act).host = s.host := rfl
@[simp] theorem State.pushAs_hbm (s : State) (clk : Clock) (due phase core q : Nat) (act : Act) : (s.pushAs clk due phase core q act).hbm = s.hbm := rfl
@[simp] theorem State.pushAs_nearErr (s : State) (clk : Clock) (due phase core q : Nat) (act : Act) : (s.pushAs clk due phase core q act).nearErr = s.nearErr := rfl
@[simp] theorem State.pushAs_poison (s : State) (clk : Clock) (due phase core q : Nat) (act : Act) : (s.pushAs clk due phase core q act).poison = s.poison := rfl
@[simp] theorem State.pushAs_nearPoison (s : State) (clk : Clock) (due phase core q : Nat) (act : Act) : (s.pushAs clk due phase core q act).nearPoison = s.nearPoison := rfl
@[simp] theorem State.pushAs_errH (s : State) (clk : Clock) (due phase core q : Nat) (act : Act) : (s.pushAs clk due phase core q act).errH = s.errH := rfl
@[simp] theorem State.pushAs_errN (s : State) (clk : Clock) (due phase core q : Nat) (act : Act) : (s.pushAs clk due phase core q act).errN = s.errN := rfl
@[simp] theorem State.pushAs_pinsets (s : State) (clk : Clock) (due phase core q : Nat) (act : Act) : (s.pushAs clk due phase core q act).pinsets = s.pinsets := rfl
@[simp] theorem State.pushAs_walks (s : State) (clk : Clock) (due phase core q : Nat) (act : Act) : (s.pushAs clk due phase core q act).walks = s.walks := rfl
@[simp] theorem State.pushAs_tcache (s : State) (clk : Clock) (due phase core q : Nat) (act : Act) : (s.pushAs clk due phase core q act).tcache = s.tcache := rfl
@[simp] theorem State.pushAs_ports (s : State) (clk : Clock) (due phase core q : Nat) (act : Act) : (s.pushAs clk due phase core q act).ports = s.ports := rfl
@[simp] theorem State.pushAs_llats (s : State) (clk : Clock) (due phase core q : Nat) (act : Act) : (s.pushAs clk due phase core q act).llats = s.llats := rfl
@[simp] theorem State.pushAs_beacons (s : State) (clk : Clock) (due phase core q : Nat) (act : Act) : (s.pushAs clk due phase core q act).beacons = s.beacons := rfl
@[simp] theorem State.pushAs_seqTx (s : State) (clk : Clock) (due phase core q : Nat) (act : Act) : (s.pushAs clk due phase core q act).seqTx = s.seqTx := rfl
@[simp] theorem State.pushAs_seqRx (s : State) (clk : Clock) (due phase core q : Nat) (act : Act) : (s.pushAs clk due phase core q act).seqRx = s.seqRx := rfl
@[simp] theorem State.pushAs_gaps (s : State) (clk : Clock) (due phase core q : Nat) (act : Act) : (s.pushAs clk due phase core q act).gaps = s.gaps := rfl
@[simp] theorem State.pushAs_gathers (s : State) (clk : Clock) (due phase core q : Nat) (act : Act) : (s.pushAs clk due phase core q act).gathers = s.gathers := rfl
@[simp] theorem State.pushAs_farSlips (s : State) (clk : Clock) (due phase core q : Nat) (act : Act) : (s.pushAs clk due phase core q act).farSlips = s.farSlips := rfl
@[simp] theorem State.pushAs_records (s : State) (clk : Clock) (due phase core q : Nat) (act : Act) : (s.pushAs clk due phase core q act).records = s.records := rfl
@[simp] theorem State.pushAs_astat (s : State) (clk : Clock) (due phase core q : Nat) (act : Act) : (s.pushAs clk due phase core q act).astat = s.astat := rfl
@[simp] theorem State.pushAs_cohBase (s : State) (clk : Clock) (due phase core q : Nat) (act : Act) : (s.pushAs clk due phase core q act).cohBase = s.cohBase := rfl
@[simp] theorem State.pushAs_hclr (s : State) (clk : Clock) (due phase core q : Nat) (act : Act) : (s.pushAs clk due phase core q act).hclr = s.hclr := rfl
@[simp] theorem State.pushAs_suspect (s : State) (clk : Clock) (due phase core q : Nat) (act : Act) : (s.pushAs clk due phase core q act).suspect = s.suspect := rfl
@[simp] theorem State.pushAs_devFail (s : State) (clk : Clock) (due phase core q : Nat) (act : Act) : (s.pushAs clk due phase core q act).devFail = s.devFail := rfl
@[simp] theorem State.pushAs_lastGrant (s : State) (clk : Clock) (due phase core q : Nat) (act : Act) : (s.pushAs clk due phase core q act).lastGrant = s.lastGrant := rfl
@[simp] theorem State.pushAs_upAt (s : State) (clk : Clock) (due phase core q : Nat) (act : Act) : (s.pushAs clk due phase core q act).upAt = s.upAt := rfl
@[simp] theorem State.pushAs_pf0Reset (s : State) (clk : Clock) (due phase core q : Nat) (act : Act) : (s.pushAs clk due phase core q act).pf0Reset = s.pf0Reset := rfl
@[simp] theorem State.pushAs_vfs (s : State) (clk : Clock) (due phase core q : Nat) (act : Act) : (s.pushAs clk due phase core q act).vfs = s.vfs := rfl
@[simp] theorem State.pushAs_fwStarts (s : State) (clk : Clock) (due phase core q : Nat) (act : Act) : (s.pushAs clk due phase core q act).fwStarts = s.fwStarts := rfl
@[simp] theorem State.pushAs_measured (s : State) (clk : Clock) (due phase core q : Nat) (act : Act) : (s.pushAs clk due phase core q act).measured = s.measured := rfl
@[simp] theorem State.pushAs_firmware (s : State) (clk : Clock) (due phase core q : Nat) (act : Act) : (s.pushAs clk due phase core q act).firmware = s.firmware := rfl
@[simp] theorem State.pushAs_newFirmware (s : State) (clk : Clock) (due phase core q : Nat) (act : Act) : (s.pushAs clk due phase core q act).newFirmware = s.newFirmware := rfl
@[simp] theorem State.pushAs_inbox (s : State) (clk : Clock) (due phase core q : Nat) (act : Act) : (s.pushAs clk due phase core q act).inbox = s.inbox := rfl
@[simp] theorem State.pushAs_outbox (s : State) (clk : Clock) (due phase core q : Nat) (act : Act) : (s.pushAs clk due phase core q act).outbox = s.outbox := rfl
@[simp] theorem State.pushAs_resp (s : State) (clk : Clock) (due phase core q : Nat) (act : Act) : (s.pushAs clk due phase core q act).resp = s.resp := rfl
@[simp] theorem State.pushAs_seq (s : State) (clk : Clock) (due phase core q : Nat) (act : Act) : (s.pushAs clk due phase core q act).seq = s.seq := rfl
@[simp] theorem State.pushAs_turn (s : State) (clk : Clock) (due phase core q : Nat) (act : Act) : (s.pushAs clk due phase core q act).turn = s.turn := rfl
@[simp] theorem State.pushAs_nextId (s : State) (clk : Clock) (due phase core q : Nat) (act : Act) : (s.pushAs clk due phase core q act).nextId = s.nextId := rfl
@[simp] theorem State.pushAs_nextKid (s : State) (clk : Clock) (due phase core q : Nat) (act : Act) : (s.pushAs clk due phase core q act).nextKid = s.nextKid := rfl
@[simp] theorem State.pushAs_free (s : State) (clk : Clock) (due phase core q : Nat) (act : Act) : (s.pushAs clk due phase core q act).free = s.free := rfl
@[simp] theorem State.pushAs_iss (s : State) (clk : Clock) (due phase core q : Nat) (act : Act) : (s.pushAs clk due phase core q act).iss = s.iss := rfl
@[simp] theorem State.pushAs_cur (s : State) (clk : Clock) (due phase core q : Nat) (act : Act) : (s.pushAs clk due phase core q act).cur = s.cur := rfl

@[simp] theorem State.later_time (s : State) (n phase : Nat) (e : Eff) : (s.later n phase e).time = s.time := rfl
@[simp] theorem State.later_cyc (s : State) (n phase : Nat) (e : Eff) : (s.later n phase e).cyc = s.cyc := rfl
@[simp] theorem State.later_driftOfs (s : State) (n phase : Nat) (e : Eff) : (s.later n phase e).driftOfs = s.driftOfs := rfl
@[simp] theorem State.later_drift (s : State) (n phase : Nat) (e : Eff) : (s.later n phase e).drift = s.drift := rfl
@[simp] theorem State.later_drift2 (s : State) (n phase : Nat) (e : Eff) : (s.later n phase e).drift2 = s.drift2 := rfl
@[simp] theorem State.later_driftNow (s : State) (n phase : Nat) (e : Eff) : (s.later n phase e).driftNow = s.driftNow := rfl
@[simp] theorem State.later_belled (s : State) (n phase : Nat) (e : Eff) : (s.later n phase e).belled = s.belled := rfl
@[simp] theorem State.later_noBell (s : State) (n phase : Nat) (e : Eff) : (s.later n phase e).noBell = s.noBell := rfl
@[simp] theorem State.later_calib (s : State) (n phase : Nat) (e : Eff) : (s.later n phase e).calib = s.calib := rfl
@[simp] theorem State.later_adopted (s : State) (n phase : Nat) (e : Eff) : (s.later n phase e).adopted = s.adopted := rfl
@[simp] theorem State.later_pkg (s : State) (n phase : Nat) (e : Eff) : (s.later n phase e).pkg = s.pkg := rfl
@[simp] theorem State.later_cores (s : State) (n phase : Nat) (e : Eff) : (s.later n phase e).cores = s.cores := rfl
@[simp] theorem State.later_ctxs (s : State) (n phase : Nat) (e : Eff) : (s.later n phase e).ctxs = s.ctxs := rfl
@[simp] theorem State.later_queues (s : State) (n phase : Nat) (e : Eff) : (s.later n phase e).queues = s.queues := rfl
@[simp] theorem State.later_kernels (s : State) (n phase : Nat) (e : Eff) : (s.later n phase e).kernels = s.kernels := rfl
@[simp] theorem State.later_cmds (s : State) (n phase : Nat) (e : Eff) : (s.later n phase e).cmds = s.cmds := rfl
@[simp] theorem State.later_dev (s : State) (n phase : Nat) (e : Eff) : (s.later n phase e).dev = s.dev := rfl
@[simp] theorem State.later_near (s : State) (n phase : Nat) (e : Eff) : (s.later n phase e).near = s.near := rfl
@[simp] theorem State.later_windows (s : State) (n phase : Nat) (e : Eff) : (s.later n phase e).windows = s.windows := rfl
@[simp] theorem State.later_host (s : State) (n phase : Nat) (e : Eff) : (s.later n phase e).host = s.host := rfl
@[simp] theorem State.later_hbm (s : State) (n phase : Nat) (e : Eff) : (s.later n phase e).hbm = s.hbm := rfl
@[simp] theorem State.later_nearErr (s : State) (n phase : Nat) (e : Eff) : (s.later n phase e).nearErr = s.nearErr := rfl
@[simp] theorem State.later_poison (s : State) (n phase : Nat) (e : Eff) : (s.later n phase e).poison = s.poison := rfl
@[simp] theorem State.later_nearPoison (s : State) (n phase : Nat) (e : Eff) : (s.later n phase e).nearPoison = s.nearPoison := rfl
@[simp] theorem State.later_errH (s : State) (n phase : Nat) (e : Eff) : (s.later n phase e).errH = s.errH := rfl
@[simp] theorem State.later_errN (s : State) (n phase : Nat) (e : Eff) : (s.later n phase e).errN = s.errN := rfl
@[simp] theorem State.later_pinsets (s : State) (n phase : Nat) (e : Eff) : (s.later n phase e).pinsets = s.pinsets := rfl
@[simp] theorem State.later_walks (s : State) (n phase : Nat) (e : Eff) : (s.later n phase e).walks = s.walks := rfl
@[simp] theorem State.later_tcache (s : State) (n phase : Nat) (e : Eff) : (s.later n phase e).tcache = s.tcache := rfl
@[simp] theorem State.later_ports (s : State) (n phase : Nat) (e : Eff) : (s.later n phase e).ports = s.ports := rfl
@[simp] theorem State.later_llats (s : State) (n phase : Nat) (e : Eff) : (s.later n phase e).llats = s.llats := rfl
@[simp] theorem State.later_beacons (s : State) (n phase : Nat) (e : Eff) : (s.later n phase e).beacons = s.beacons := rfl
@[simp] theorem State.later_seqTx (s : State) (n phase : Nat) (e : Eff) : (s.later n phase e).seqTx = s.seqTx := rfl
@[simp] theorem State.later_seqRx (s : State) (n phase : Nat) (e : Eff) : (s.later n phase e).seqRx = s.seqRx := rfl
@[simp] theorem State.later_gaps (s : State) (n phase : Nat) (e : Eff) : (s.later n phase e).gaps = s.gaps := rfl
@[simp] theorem State.later_gathers (s : State) (n phase : Nat) (e : Eff) : (s.later n phase e).gathers = s.gathers := rfl
@[simp] theorem State.later_farSlips (s : State) (n phase : Nat) (e : Eff) : (s.later n phase e).farSlips = s.farSlips := rfl
@[simp] theorem State.later_records (s : State) (n phase : Nat) (e : Eff) : (s.later n phase e).records = s.records := rfl
@[simp] theorem State.later_astat (s : State) (n phase : Nat) (e : Eff) : (s.later n phase e).astat = s.astat := rfl
@[simp] theorem State.later_cohBase (s : State) (n phase : Nat) (e : Eff) : (s.later n phase e).cohBase = s.cohBase := rfl
@[simp] theorem State.later_hclr (s : State) (n phase : Nat) (e : Eff) : (s.later n phase e).hclr = s.hclr := rfl
@[simp] theorem State.later_suspect (s : State) (n phase : Nat) (e : Eff) : (s.later n phase e).suspect = s.suspect := rfl
@[simp] theorem State.later_devFail (s : State) (n phase : Nat) (e : Eff) : (s.later n phase e).devFail = s.devFail := rfl
@[simp] theorem State.later_lastGrant (s : State) (n phase : Nat) (e : Eff) : (s.later n phase e).lastGrant = s.lastGrant := rfl
@[simp] theorem State.later_upAt (s : State) (n phase : Nat) (e : Eff) : (s.later n phase e).upAt = s.upAt := rfl
@[simp] theorem State.later_pf0Reset (s : State) (n phase : Nat) (e : Eff) : (s.later n phase e).pf0Reset = s.pf0Reset := rfl
@[simp] theorem State.later_vfs (s : State) (n phase : Nat) (e : Eff) : (s.later n phase e).vfs = s.vfs := rfl
@[simp] theorem State.later_fwStarts (s : State) (n phase : Nat) (e : Eff) : (s.later n phase e).fwStarts = s.fwStarts := rfl
@[simp] theorem State.later_measured (s : State) (n phase : Nat) (e : Eff) : (s.later n phase e).measured = s.measured := rfl
@[simp] theorem State.later_firmware (s : State) (n phase : Nat) (e : Eff) : (s.later n phase e).firmware = s.firmware := rfl
@[simp] theorem State.later_newFirmware (s : State) (n phase : Nat) (e : Eff) : (s.later n phase e).newFirmware = s.newFirmware := rfl
@[simp] theorem State.later_inbox (s : State) (n phase : Nat) (e : Eff) : (s.later n phase e).inbox = s.inbox := rfl
@[simp] theorem State.later_outbox (s : State) (n phase : Nat) (e : Eff) : (s.later n phase e).outbox = s.outbox := rfl
@[simp] theorem State.later_resp (s : State) (n phase : Nat) (e : Eff) : (s.later n phase e).resp = s.resp := rfl
@[simp] theorem State.later_seq (s : State) (n phase : Nat) (e : Eff) : (s.later n phase e).seq = s.seq + 1 := rfl
@[simp] theorem State.later_turn (s : State) (n phase : Nat) (e : Eff) : (s.later n phase e).turn = s.turn := rfl
@[simp] theorem State.later_nextId (s : State) (n phase : Nat) (e : Eff) : (s.later n phase e).nextId = s.nextId := rfl
@[simp] theorem State.later_nextKid (s : State) (n phase : Nat) (e : Eff) : (s.later n phase e).nextKid = s.nextKid := rfl
@[simp] theorem State.later_free (s : State) (n phase : Nat) (e : Eff) : (s.later n phase e).free = s.free := rfl
@[simp] theorem State.later_iss (s : State) (n phase : Nat) (e : Eff) : (s.later n phase e).iss = s.iss := rfl
@[simp] theorem State.later_cur (s : State) (n phase : Nat) (e : Eff) : (s.later n phase e).cur = s.cur := rfl

@[simp] theorem State.dropCmd_time (s : State) (id : Nat) : (s.dropCmd id).time = s.time := rfl
@[simp] theorem State.dropCmd_cyc (s : State) (id : Nat) : (s.dropCmd id).cyc = s.cyc := rfl
@[simp] theorem State.dropCmd_driftOfs (s : State) (id : Nat) : (s.dropCmd id).driftOfs = s.driftOfs := rfl
@[simp] theorem State.dropCmd_drift (s : State) (id : Nat) : (s.dropCmd id).drift = s.drift := rfl
@[simp] theorem State.dropCmd_drift2 (s : State) (id : Nat) : (s.dropCmd id).drift2 = s.drift2 := rfl
@[simp] theorem State.dropCmd_driftNow (s : State) (id : Nat) : (s.dropCmd id).driftNow = s.driftNow := rfl
@[simp] theorem State.dropCmd_belled (s : State) (id : Nat) : (s.dropCmd id).belled = s.belled := rfl
@[simp] theorem State.dropCmd_noBell (s : State) (id : Nat) : (s.dropCmd id).noBell = s.noBell := rfl
@[simp] theorem State.dropCmd_calib (s : State) (id : Nat) : (s.dropCmd id).calib = s.calib := rfl
@[simp] theorem State.dropCmd_adopted (s : State) (id : Nat) : (s.dropCmd id).adopted = s.adopted := rfl
@[simp] theorem State.dropCmd_pkg (s : State) (id : Nat) : (s.dropCmd id).pkg = s.pkg := rfl
@[simp] theorem State.dropCmd_cores (s : State) (id : Nat) : (s.dropCmd id).cores = s.cores := rfl
@[simp] theorem State.dropCmd_ctxs (s : State) (id : Nat) : (s.dropCmd id).ctxs = s.ctxs := rfl
@[simp] theorem State.dropCmd_queues (s : State) (id : Nat) : (s.dropCmd id).queues = s.queues := rfl
@[simp] theorem State.dropCmd_kernels (s : State) (id : Nat) : (s.dropCmd id).kernels = s.kernels := rfl
@[simp] theorem State.dropCmd_cmds (s : State) (id : Nat) : (s.dropCmd id).cmds = s.cmds.filter (·.id != id) := rfl
@[simp] theorem State.dropCmd_dev (s : State) (id : Nat) : (s.dropCmd id).dev = s.dev := rfl
@[simp] theorem State.dropCmd_near (s : State) (id : Nat) : (s.dropCmd id).near = s.near := rfl
@[simp] theorem State.dropCmd_windows (s : State) (id : Nat) : (s.dropCmd id).windows = s.windows := rfl
@[simp] theorem State.dropCmd_host (s : State) (id : Nat) : (s.dropCmd id).host = s.host := rfl
@[simp] theorem State.dropCmd_hbm (s : State) (id : Nat) : (s.dropCmd id).hbm = s.hbm := rfl
@[simp] theorem State.dropCmd_nearErr (s : State) (id : Nat) : (s.dropCmd id).nearErr = s.nearErr := rfl
@[simp] theorem State.dropCmd_poison (s : State) (id : Nat) : (s.dropCmd id).poison = s.poison := rfl
@[simp] theorem State.dropCmd_nearPoison (s : State) (id : Nat) : (s.dropCmd id).nearPoison = s.nearPoison := rfl
@[simp] theorem State.dropCmd_errH (s : State) (id : Nat) : (s.dropCmd id).errH = s.errH := rfl
@[simp] theorem State.dropCmd_errN (s : State) (id : Nat) : (s.dropCmd id).errN = s.errN := rfl
@[simp] theorem State.dropCmd_pinsets (s : State) (id : Nat) : (s.dropCmd id).pinsets = s.pinsets := rfl
@[simp] theorem State.dropCmd_walks (s : State) (id : Nat) : (s.dropCmd id).walks = s.walks := rfl
@[simp] theorem State.dropCmd_tcache (s : State) (id : Nat) : (s.dropCmd id).tcache = s.tcache := rfl
@[simp] theorem State.dropCmd_ports (s : State) (id : Nat) : (s.dropCmd id).ports = s.ports := rfl
@[simp] theorem State.dropCmd_llats (s : State) (id : Nat) : (s.dropCmd id).llats = s.llats := rfl
@[simp] theorem State.dropCmd_beacons (s : State) (id : Nat) : (s.dropCmd id).beacons = s.beacons := rfl
@[simp] theorem State.dropCmd_seqTx (s : State) (id : Nat) : (s.dropCmd id).seqTx = s.seqTx := rfl
@[simp] theorem State.dropCmd_seqRx (s : State) (id : Nat) : (s.dropCmd id).seqRx = s.seqRx := rfl
@[simp] theorem State.dropCmd_gaps (s : State) (id : Nat) : (s.dropCmd id).gaps = s.gaps := rfl
@[simp] theorem State.dropCmd_gathers (s : State) (id : Nat) : (s.dropCmd id).gathers = s.gathers := rfl
@[simp] theorem State.dropCmd_farSlips (s : State) (id : Nat) : (s.dropCmd id).farSlips = s.farSlips := rfl
@[simp] theorem State.dropCmd_records (s : State) (id : Nat) : (s.dropCmd id).records = s.records := rfl
@[simp] theorem State.dropCmd_astat (s : State) (id : Nat) : (s.dropCmd id).astat = s.astat := rfl
@[simp] theorem State.dropCmd_cohBase (s : State) (id : Nat) : (s.dropCmd id).cohBase = s.cohBase := rfl
@[simp] theorem State.dropCmd_hclr (s : State) (id : Nat) : (s.dropCmd id).hclr = s.hclr := rfl
@[simp] theorem State.dropCmd_suspect (s : State) (id : Nat) : (s.dropCmd id).suspect = s.suspect := rfl
@[simp] theorem State.dropCmd_devFail (s : State) (id : Nat) : (s.dropCmd id).devFail = s.devFail := rfl
@[simp] theorem State.dropCmd_lastGrant (s : State) (id : Nat) : (s.dropCmd id).lastGrant = s.lastGrant := rfl
@[simp] theorem State.dropCmd_upAt (s : State) (id : Nat) : (s.dropCmd id).upAt = s.upAt := rfl
@[simp] theorem State.dropCmd_pf0Reset (s : State) (id : Nat) : (s.dropCmd id).pf0Reset = s.pf0Reset := rfl
@[simp] theorem State.dropCmd_vfs (s : State) (id : Nat) : (s.dropCmd id).vfs = s.vfs := rfl
@[simp] theorem State.dropCmd_fwStarts (s : State) (id : Nat) : (s.dropCmd id).fwStarts = s.fwStarts := rfl
@[simp] theorem State.dropCmd_measured (s : State) (id : Nat) : (s.dropCmd id).measured = s.measured := rfl
@[simp] theorem State.dropCmd_firmware (s : State) (id : Nat) : (s.dropCmd id).firmware = s.firmware := rfl
@[simp] theorem State.dropCmd_newFirmware (s : State) (id : Nat) : (s.dropCmd id).newFirmware = s.newFirmware := rfl
@[simp] theorem State.dropCmd_inbox (s : State) (id : Nat) : (s.dropCmd id).inbox = s.inbox := rfl
@[simp] theorem State.dropCmd_outbox (s : State) (id : Nat) : (s.dropCmd id).outbox = s.outbox := rfl
@[simp] theorem State.dropCmd_resp (s : State) (id : Nat) : (s.dropCmd id).resp = s.resp := rfl
@[simp] theorem State.dropCmd_seq (s : State) (id : Nat) : (s.dropCmd id).seq = s.seq := rfl
@[simp] theorem State.dropCmd_turn (s : State) (id : Nat) : (s.dropCmd id).turn = s.turn := rfl
@[simp] theorem State.dropCmd_nextId (s : State) (id : Nat) : (s.dropCmd id).nextId = s.nextId := rfl
@[simp] theorem State.dropCmd_nextKid (s : State) (id : Nat) : (s.dropCmd id).nextKid = s.nextKid := rfl
@[simp] theorem State.dropCmd_free (s : State) (id : Nat) : (s.dropCmd id).free = s.free := rfl
@[simp] theorem State.dropCmd_iss (s : State) (id : Nat) : (s.dropCmd id).iss = s.iss := rfl
@[simp] theorem State.dropCmd_cur (s : State) (id : Nat) : (s.dropCmd id).cur = s.cur := rfl

/-! ## A core, a strand and a context after an update -/

@[simp] theorem State.core_onCore (s : State) (c : Fin 256) (f : Core → Core) : (s.onCore c f).core c = f (s.core c) := upd_self _ _ _

theorem State.core_onCore_other (s : State) {c d : Fin 256} (f : Core → Core) (h : d ≠ c) : (s.onCore c f).core d = s.core d := upd_other _ _ h

@[simp] theorem State.strand_onStrand (s : State) (c : Fin 256) (j : Fin 4) (f : Strand → Strand) :
    (s.onStrand c j f).strand c j = f (s.strand c j) := by
  unfold State.strand State.onStrand
  rw [State.core_onCore]
  exact upd_self _ _ _

theorem State.strand_onStrand_strand (s : State) (c : Fin 256) {j k : Fin 4} (f : Strand → Strand) (h : k ≠ j) :
    (s.onStrand c j f).strand c k = s.strand c k := by
  unfold State.strand State.onStrand
  rw [State.core_onCore]
  exact upd_other _ _ h

theorem State.strand_onStrand_core (s : State) {c d : Fin 256} (j k : Fin 4) (f : Strand → Strand) (h : d ≠ c) :
    (s.onStrand c j f).strand d k = s.strand d k := by
  unfold State.strand State.onStrand
  rw [State.core_onCore_other _ _ h]

theorem State.strand_onCore_other (s : State) {c d : Fin 256} (k : Fin 4) (f : Core → Core) (h : d ≠ c) :
    (s.onCore c f).strand d k = s.strand d k := by
  unfold State.strand
  rw [State.core_onCore_other _ _ h]

@[simp] theorem State.ctx_onCtx (s : State) (x : Fin 17) (f : Ctx → Ctx) : ((s.onCtx x f).ctxs)[x] = f s.ctxs[x] := upd_self _ _ _

theorem State.ctx_onCtx_other (s : State) {x y : Fin 17} (f : Ctx → Ctx) (h : y ≠ x) : ((s.onCtx x f).ctxs)[y] = s.ctxs[y] := upd_other _ _ h

theorem State.onCtx_onCtx (s : State) (x : Fin 17) (f g : Ctx → Ctx) : (s.onCtx x f).onCtx x g = s.onCtx x fun c => g (f c) := by
  simp [State.onCtx, upd_upd]

theorem State.onCore_onCore (s : State) (c : Fin 256) (f g : Core → Core) : (s.onCore c f).onCore c g = s.onCore c fun k => g (f k) := by
  simp [State.onCore, upd_upd]

/-- A strand that an update leaves out keeps everything. -/
theorem State.strand_onStrand_ne (s : State) {c d : Fin 256} {j k : Fin 4} (f : Strand → Strand) (h : d ≠ c ∨ k ≠ j) :
    (s.onStrand c j f).strand d k = s.strand d k := by
  by_cases hc : d = c
  · subst hc
    exact State.strand_onStrand_strand s d f (h.resolve_left fun e => e rfl)
  · exact State.strand_onStrand_core s j k f hc

/-! ## Registers (R173) -/

@[simp] theorem Strand.rx_zero (t : Strand) : t.rx 0 = 0 := rfl
@[simp] theorem Strand.rp_zero (t : Strand) : t.rp 0 = true := rfl
@[simp] theorem Strand.rk_zero (t : Strand) : t.rk 0 = BitVec.allOnes 1024 := rfl
@[simp] theorem Strand.wx_zero (t : Strand) (v : Word) : t.wx 0 v = t := rfl
@[simp] theorem Strand.wp_zero (t : Strand) (b : Bool) : t.wp 0 b = t := rfl
@[simp] theorem Strand.wk_zero (t : Strand) (v : KMask) : t.wk 0 v = t := rfl

theorem fin_val {n : Nat} [NeZero n] {i : Nat} (h : i < n) : (fin n i).val = i := by
  simp [fin, Fin.ofNat, Nat.mod_eq_of_lt h]

theorem Strand.rx_wx (t : Strand) {r : BitVec 5} (v : Word) (h : r ≠ 0) : (t.wx r v).rx r = v := by
  unfold Strand.wx Strand.rx
  rw [if_neg h, if_neg h]
  exact upd_self _ _ _

theorem Strand.rx_wx_other (t : Strand) {r q : BitVec 5} (v : Word) (h : q ≠ r) : (t.wx r v).rx q = t.rx q := by
  unfold Strand.wx Strand.rx
  by_cases hr : r = 0
  · rw [if_pos hr]
  by_cases hq : q = 0
  · rw [if_pos hq, if_pos hq]
  rw [if_neg hr, if_neg hq, if_neg hq]
  refine upd_other _ _ fun e => h (BitVec.eq_of_toNat_eq ?_)
  have e := congrArg Fin.val e
  rwa [fin_val q.isLt, fin_val r.isLt] at e

theorem Strand.ra_wa (t : Strand) (r : BitVec 4) (v : Word) : (t.wa r v).ra r = v := upd_self _ _ _

theorem Strand.ra_wa_other (t : Strand) {r q : BitVec 4} (v : Word) (h : q ≠ r) : (t.wa r v).ra q = t.ra q := by
  refine upd_other _ _ fun e => h (BitVec.eq_of_toNat_eq ?_)
  have e := congrArg Fin.val e
  rwa [fin_val q.isLt, fin_val r.isLt] at e

@[simp] theorem Strand.wx_life (t : Strand) (r : BitVec 5) (v : Word) : (t.wx r v).life = t.life := by unfold Strand.wx; split <;> rfl
@[simp] theorem Strand.wx_level (t : Strand) (r : BitVec 5) (v : Word) : (t.wx r v).level = t.level := by unfold Strand.wx; split <;> rfl
@[simp] theorem Strand.wx_trapped (t : Strand) (r : BitVec 5) (v : Word) : (t.wx r v).trapped = t.trapped := by unfold Strand.wx; split <;> rfl
@[simp] theorem Strand.wx_pc (t : Strand) (r : BitVec 5) (v : Word) : (t.wx r v).pc = t.pc := by unfold Strand.wx; split <;> rfl
@[simp] theorem Strand.wx_a (t : Strand) (r : BitVec 5) (v : Word) : (t.wx r v).a = t.a := by unfold Strand.wx; split <;> rfl
@[simp] theorem Strand.wx_p (t : Strand) (r : BitVec 5) (v : Word) : (t.wx r v).p = t.p := by unfold Strand.wx; split <;> rfl
@[simp] theorem Strand.wx_k (t : Strand) (r : BitVec 5) (v : Word) : (t.wx r v).k = t.k := by unfold Strand.wx; split <;> rfl
@[simp] theorem Strand.wx_csr (t : Strand) (r : BitVec 5) (v : Word) : (t.wx r v).csr = t.csr := by unfold Strand.wx; split <;> rfl
@[simp] theorem Strand.wx_due1 (t : Strand) (r : BitVec 5) (v : Word) : (t.wx r v).due1 = t.due1 := by unfold Strand.wx; split <;> rfl
@[simp] theorem Strand.wx_due2 (t : Strand) (r : BitVec 5) (v : Word) : (t.wx r v).due2 = t.due2 := by unfold Strand.wx; split <;> rfl
@[simp] theorem Strand.wx_lt (t : Strand) (r : BitVec 5) (v : Word) : (t.wx r v).lt = t.lt := by unfold Strand.wx; split <;> rfl
@[simp] theorem Strand.wx_base (t : Strand) (r : BitVec 5) (v : Word) : (t.wx r v).base = t.base := by unfold Strand.wx; split <;> rfl
@[simp] theorem Strand.wx_fenceW (t : Strand) (r : BitVec 5) (v : Word) : (t.wx r v).fenceW = t.fenceW := by unfold Strand.wx; split <;> rfl
@[simp] theorem Strand.wx_wait (t : Strand) (r : BitVec 5) (v : Word) : (t.wx r v).wait = t.wait := by unfold Strand.wx; split <;> rfl
@[simp] theorem Strand.wx_divBusy (t : Strand) (r : BitVec 5) (v : Word) : (t.wx r v).divBusy = t.divBusy := by unfold Strand.wx; split <;> rfl
@[simp] theorem Strand.wx_pipeBusy (t : Strand) (r : BitVec 5) (v : Word) : (t.wx r v).pipeBusy = t.pipeBusy := by unfold Strand.wx; split <;> rfl
@[simp] theorem Strand.wx_latch (t : Strand) (r : BitVec 5) (v : Word) : (t.wx r v).latch = t.latch := by unfold Strand.wx; split <;> rfl
@[simp] theorem Strand.wx_hold (t : Strand) (r : BitVec 5) (v : Word) : (t.wx r v).hold = t.hold := by unfold Strand.wx; split <;> rfl
@[simp] theorem Strand.wx_bad (t : Strand) (r : BitVec 5) (v : Word) : (t.wx r v).bad = t.bad := by unfold Strand.wx; split <;> rfl
@[simp] theorem Strand.wx_bwait (t : Strand) (r : BitVec 5) (v : Word) : (t.wx r v).bwait = t.bwait := by unfold Strand.wx; split <;> rfl
@[simp] theorem Strand.wx_yieldAt (t : Strand) (r : BitVec 5) (v : Word) : (t.wx r v).yieldAt = t.yieldAt := by unfold Strand.wx; split <;> rfl
@[simp] theorem Strand.wx_walks (t : Strand) (r : BitVec 5) (v : Word) : (t.wx r v).walks = t.walks := by unfold Strand.wx; split <;> rfl
@[simp] theorem Strand.wx_replay (t : Strand) (r : BitVec 5) (v : Word) : (t.wx r v).replay = t.replay := by unfold Strand.wx; split <;> rfl
@[simp] theorem Strand.wx_pending (t : Strand) (r : BitVec 5) (v : Word) : (t.wx r v).pending = t.pending := by unfold Strand.wx; split <;> rfl
@[simp] theorem Strand.wx_trapAt (t : Strand) (r : BitVec 5) (v : Word) : (t.wx r v).trapAt = t.trapAt := by unfold Strand.wx; split <;> rfl
@[simp] theorem Strand.wx_issuedAt (t : Strand) (r : BitVec 5) (v : Word) : (t.wx r v).issuedAt = t.issuedAt := by unfold Strand.wx; split <;> rfl
@[simp] theorem Strand.wx_wrote (t : Strand) (r : BitVec 5) (v : Word) : (t.wx r v).wrote = t.wrote := by unfold Strand.wx; split <;> rfl

@[simp] theorem Strand.wp_life (t : Strand) (r : BitVec 3) (b : Bool) : (t.wp r b).life = t.life := by unfold Strand.wp; split <;> rfl
@[simp] theorem Strand.wp_level (t : Strand) (r : BitVec 3) (b : Bool) : (t.wp r b).level = t.level := by unfold Strand.wp; split <;> rfl
@[simp] theorem Strand.wp_trapped (t : Strand) (r : BitVec 3) (b : Bool) : (t.wp r b).trapped = t.trapped := by unfold Strand.wp; split <;> rfl
@[simp] theorem Strand.wp_pc (t : Strand) (r : BitVec 3) (b : Bool) : (t.wp r b).pc = t.pc := by unfold Strand.wp; split <;> rfl
@[simp] theorem Strand.wp_x (t : Strand) (r : BitVec 3) (b : Bool) : (t.wp r b).x = t.x := by unfold Strand.wp; split <;> rfl
@[simp] theorem Strand.wp_a (t : Strand) (r : BitVec 3) (b : Bool) : (t.wp r b).a = t.a := by unfold Strand.wp; split <;> rfl
@[simp] theorem Strand.wp_k (t : Strand) (r : BitVec 3) (b : Bool) : (t.wp r b).k = t.k := by unfold Strand.wp; split <;> rfl
@[simp] theorem Strand.wp_csr (t : Strand) (r : BitVec 3) (b : Bool) : (t.wp r b).csr = t.csr := by unfold Strand.wp; split <;> rfl
@[simp] theorem Strand.wp_due1 (t : Strand) (r : BitVec 3) (b : Bool) : (t.wp r b).due1 = t.due1 := by unfold Strand.wp; split <;> rfl
@[simp] theorem Strand.wp_due2 (t : Strand) (r : BitVec 3) (b : Bool) : (t.wp r b).due2 = t.due2 := by unfold Strand.wp; split <;> rfl
@[simp] theorem Strand.wp_lt (t : Strand) (r : BitVec 3) (b : Bool) : (t.wp r b).lt = t.lt := by unfold Strand.wp; split <;> rfl
@[simp] theorem Strand.wp_base (t : Strand) (r : BitVec 3) (b : Bool) : (t.wp r b).base = t.base := by unfold Strand.wp; split <;> rfl
@[simp] theorem Strand.wp_fenceW (t : Strand) (r : BitVec 3) (b : Bool) : (t.wp r b).fenceW = t.fenceW := by unfold Strand.wp; split <;> rfl
@[simp] theorem Strand.wp_wait (t : Strand) (r : BitVec 3) (b : Bool) : (t.wp r b).wait = t.wait := by unfold Strand.wp; split <;> rfl
@[simp] theorem Strand.wp_divBusy (t : Strand) (r : BitVec 3) (b : Bool) : (t.wp r b).divBusy = t.divBusy := by unfold Strand.wp; split <;> rfl
@[simp] theorem Strand.wp_pipeBusy (t : Strand) (r : BitVec 3) (b : Bool) : (t.wp r b).pipeBusy = t.pipeBusy := by unfold Strand.wp; split <;> rfl
@[simp] theorem Strand.wp_latch (t : Strand) (r : BitVec 3) (b : Bool) : (t.wp r b).latch = t.latch := by unfold Strand.wp; split <;> rfl
@[simp] theorem Strand.wp_hold (t : Strand) (r : BitVec 3) (b : Bool) : (t.wp r b).hold = t.hold := by unfold Strand.wp; split <;> rfl
@[simp] theorem Strand.wp_bad (t : Strand) (r : BitVec 3) (b : Bool) : (t.wp r b).bad = t.bad := by unfold Strand.wp; split <;> rfl
@[simp] theorem Strand.wp_bwait (t : Strand) (r : BitVec 3) (b : Bool) : (t.wp r b).bwait = t.bwait := by unfold Strand.wp; split <;> rfl
@[simp] theorem Strand.wp_yieldAt (t : Strand) (r : BitVec 3) (b : Bool) : (t.wp r b).yieldAt = t.yieldAt := by unfold Strand.wp; split <;> rfl
@[simp] theorem Strand.wp_walks (t : Strand) (r : BitVec 3) (b : Bool) : (t.wp r b).walks = t.walks := by unfold Strand.wp; split <;> rfl
@[simp] theorem Strand.wp_replay (t : Strand) (r : BitVec 3) (b : Bool) : (t.wp r b).replay = t.replay := by unfold Strand.wp; split <;> rfl
@[simp] theorem Strand.wp_pending (t : Strand) (r : BitVec 3) (b : Bool) : (t.wp r b).pending = t.pending := by unfold Strand.wp; split <;> rfl
@[simp] theorem Strand.wp_trapAt (t : Strand) (r : BitVec 3) (b : Bool) : (t.wp r b).trapAt = t.trapAt := by unfold Strand.wp; split <;> rfl
@[simp] theorem Strand.wp_issuedAt (t : Strand) (r : BitVec 3) (b : Bool) : (t.wp r b).issuedAt = t.issuedAt := by unfold Strand.wp; split <;> rfl
@[simp] theorem Strand.wp_wrote (t : Strand) (r : BitVec 3) (b : Bool) : (t.wp r b).wrote = t.wrote := by unfold Strand.wp; split <;> rfl

@[simp] theorem Strand.wk_life (t : Strand) (r : BitVec 3) (v : KMask) : (t.wk r v).life = t.life := by unfold Strand.wk; split <;> rfl
@[simp] theorem Strand.wk_level (t : Strand) (r : BitVec 3) (v : KMask) : (t.wk r v).level = t.level := by unfold Strand.wk; split <;> rfl
@[simp] theorem Strand.wk_trapped (t : Strand) (r : BitVec 3) (v : KMask) : (t.wk r v).trapped = t.trapped := by unfold Strand.wk; split <;> rfl
@[simp] theorem Strand.wk_pc (t : Strand) (r : BitVec 3) (v : KMask) : (t.wk r v).pc = t.pc := by unfold Strand.wk; split <;> rfl
@[simp] theorem Strand.wk_x (t : Strand) (r : BitVec 3) (v : KMask) : (t.wk r v).x = t.x := by unfold Strand.wk; split <;> rfl
@[simp] theorem Strand.wk_a (t : Strand) (r : BitVec 3) (v : KMask) : (t.wk r v).a = t.a := by unfold Strand.wk; split <;> rfl
@[simp] theorem Strand.wk_p (t : Strand) (r : BitVec 3) (v : KMask) : (t.wk r v).p = t.p := by unfold Strand.wk; split <;> rfl
@[simp] theorem Strand.wk_csr (t : Strand) (r : BitVec 3) (v : KMask) : (t.wk r v).csr = t.csr := by unfold Strand.wk; split <;> rfl
@[simp] theorem Strand.wk_due1 (t : Strand) (r : BitVec 3) (v : KMask) : (t.wk r v).due1 = t.due1 := by unfold Strand.wk; split <;> rfl
@[simp] theorem Strand.wk_due2 (t : Strand) (r : BitVec 3) (v : KMask) : (t.wk r v).due2 = t.due2 := by unfold Strand.wk; split <;> rfl
@[simp] theorem Strand.wk_lt (t : Strand) (r : BitVec 3) (v : KMask) : (t.wk r v).lt = t.lt := by unfold Strand.wk; split <;> rfl
@[simp] theorem Strand.wk_base (t : Strand) (r : BitVec 3) (v : KMask) : (t.wk r v).base = t.base := by unfold Strand.wk; split <;> rfl
@[simp] theorem Strand.wk_fenceW (t : Strand) (r : BitVec 3) (v : KMask) : (t.wk r v).fenceW = t.fenceW := by unfold Strand.wk; split <;> rfl
@[simp] theorem Strand.wk_wait (t : Strand) (r : BitVec 3) (v : KMask) : (t.wk r v).wait = t.wait := by unfold Strand.wk; split <;> rfl
@[simp] theorem Strand.wk_divBusy (t : Strand) (r : BitVec 3) (v : KMask) : (t.wk r v).divBusy = t.divBusy := by unfold Strand.wk; split <;> rfl
@[simp] theorem Strand.wk_pipeBusy (t : Strand) (r : BitVec 3) (v : KMask) : (t.wk r v).pipeBusy = t.pipeBusy := by unfold Strand.wk; split <;> rfl
@[simp] theorem Strand.wk_latch (t : Strand) (r : BitVec 3) (v : KMask) : (t.wk r v).latch = t.latch := by unfold Strand.wk; split <;> rfl
@[simp] theorem Strand.wk_hold (t : Strand) (r : BitVec 3) (v : KMask) : (t.wk r v).hold = t.hold := by unfold Strand.wk; split <;> rfl
@[simp] theorem Strand.wk_bad (t : Strand) (r : BitVec 3) (v : KMask) : (t.wk r v).bad = t.bad := by unfold Strand.wk; split <;> rfl
@[simp] theorem Strand.wk_bwait (t : Strand) (r : BitVec 3) (v : KMask) : (t.wk r v).bwait = t.bwait := by unfold Strand.wk; split <;> rfl
@[simp] theorem Strand.wk_yieldAt (t : Strand) (r : BitVec 3) (v : KMask) : (t.wk r v).yieldAt = t.yieldAt := by unfold Strand.wk; split <;> rfl
@[simp] theorem Strand.wk_walks (t : Strand) (r : BitVec 3) (v : KMask) : (t.wk r v).walks = t.walks := by unfold Strand.wk; split <;> rfl
@[simp] theorem Strand.wk_replay (t : Strand) (r : BitVec 3) (v : KMask) : (t.wk r v).replay = t.replay := by unfold Strand.wk; split <;> rfl
@[simp] theorem Strand.wk_pending (t : Strand) (r : BitVec 3) (v : KMask) : (t.wk r v).pending = t.pending := by unfold Strand.wk; split <;> rfl
@[simp] theorem Strand.wk_trapAt (t : Strand) (r : BitVec 3) (v : KMask) : (t.wk r v).trapAt = t.trapAt := by unfold Strand.wk; split <;> rfl
@[simp] theorem Strand.wk_issuedAt (t : Strand) (r : BitVec 3) (v : KMask) : (t.wk r v).issuedAt = t.issuedAt := by unfold Strand.wk; split <;> rfl
@[simp] theorem Strand.wk_wrote (t : Strand) (r : BitVec 3) (v : KMask) : (t.wk r v).wrote = t.wrote := by unfold Strand.wk; split <;> rfl

@[simp] theorem Strand.wa_life (t : Strand) (r : BitVec 4) (v : Word) : (t.wa r v).life = t.life := rfl
@[simp] theorem Strand.wa_level (t : Strand) (r : BitVec 4) (v : Word) : (t.wa r v).level = t.level := rfl
@[simp] theorem Strand.wa_trapped (t : Strand) (r : BitVec 4) (v : Word) : (t.wa r v).trapped = t.trapped := rfl
@[simp] theorem Strand.wa_pc (t : Strand) (r : BitVec 4) (v : Word) : (t.wa r v).pc = t.pc := rfl
@[simp] theorem Strand.wa_x (t : Strand) (r : BitVec 4) (v : Word) : (t.wa r v).x = t.x := rfl
@[simp] theorem Strand.wa_p (t : Strand) (r : BitVec 4) (v : Word) : (t.wa r v).p = t.p := rfl
@[simp] theorem Strand.wa_k (t : Strand) (r : BitVec 4) (v : Word) : (t.wa r v).k = t.k := rfl
@[simp] theorem Strand.wa_csr (t : Strand) (r : BitVec 4) (v : Word) : (t.wa r v).csr = t.csr := rfl
@[simp] theorem Strand.wa_due1 (t : Strand) (r : BitVec 4) (v : Word) : (t.wa r v).due1 = t.due1 := rfl
@[simp] theorem Strand.wa_due2 (t : Strand) (r : BitVec 4) (v : Word) : (t.wa r v).due2 = t.due2 := rfl
@[simp] theorem Strand.wa_lt (t : Strand) (r : BitVec 4) (v : Word) : (t.wa r v).lt = t.lt := rfl
@[simp] theorem Strand.wa_base (t : Strand) (r : BitVec 4) (v : Word) : (t.wa r v).base = t.base := rfl
@[simp] theorem Strand.wa_fenceW (t : Strand) (r : BitVec 4) (v : Word) : (t.wa r v).fenceW = t.fenceW := rfl
@[simp] theorem Strand.wa_wait (t : Strand) (r : BitVec 4) (v : Word) : (t.wa r v).wait = t.wait := rfl
@[simp] theorem Strand.wa_divBusy (t : Strand) (r : BitVec 4) (v : Word) : (t.wa r v).divBusy = t.divBusy := rfl
@[simp] theorem Strand.wa_pipeBusy (t : Strand) (r : BitVec 4) (v : Word) : (t.wa r v).pipeBusy = t.pipeBusy := rfl
@[simp] theorem Strand.wa_latch (t : Strand) (r : BitVec 4) (v : Word) : (t.wa r v).latch = t.latch := rfl
@[simp] theorem Strand.wa_hold (t : Strand) (r : BitVec 4) (v : Word) : (t.wa r v).hold = t.hold := rfl
@[simp] theorem Strand.wa_bad (t : Strand) (r : BitVec 4) (v : Word) : (t.wa r v).bad = t.bad := rfl
@[simp] theorem Strand.wa_bwait (t : Strand) (r : BitVec 4) (v : Word) : (t.wa r v).bwait = t.bwait := rfl
@[simp] theorem Strand.wa_yieldAt (t : Strand) (r : BitVec 4) (v : Word) : (t.wa r v).yieldAt = t.yieldAt := rfl
@[simp] theorem Strand.wa_walks (t : Strand) (r : BitVec 4) (v : Word) : (t.wa r v).walks = t.walks := rfl
@[simp] theorem Strand.wa_replay (t : Strand) (r : BitVec 4) (v : Word) : (t.wa r v).replay = t.replay := rfl
@[simp] theorem Strand.wa_pending (t : Strand) (r : BitVec 4) (v : Word) : (t.wa r v).pending = t.pending := rfl
@[simp] theorem Strand.wa_trapAt (t : Strand) (r : BitVec 4) (v : Word) : (t.wa r v).trapAt = t.trapAt := rfl
@[simp] theorem Strand.wa_issuedAt (t : Strand) (r : BitVec 4) (v : Word) : (t.wa r v).issuedAt = t.issuedAt := rfl
@[simp] theorem Strand.wa_wrote (t : Strand) (r : BitVec 4) (v : Word) : (t.wa r v).wrote = t.wrote := rfl

end Sys2Proof.Machine
end

