-- ==== Sys2Proof/Laws/Ops.lean ====
section
/-! SUPPORT. What each shared operation of a slot can do, said once: guards, results, immediates, second sources, address checks, slips, and
taking a trap. -/
namespace Sys2Proof.Machine

/-! ## Memory after reset -/

/-- Every memory is in its canonical form after reset. -/
theorem State.reset_memories_wf : State.reset.dev.wf = true ∧ State.reset.near.wf = true ∧ State.reset.windows.wf = true ∧
    State.reset.host.wf = true ∧ ∀ c : Fin 256, (State.reset.core c).spm.wf = true ∧ (State.reset.core c).bsram.wf = true ∧
      (State.reset.core c).istore.wf = true := by
  refine ⟨rfl, rfl, rfl, rfl, fun c => ?_⟩
  have h : State.reset.core c = Core.reset := by simp [State.core, State.reset]
  rw [h]
  exact ⟨rfl, rfl, rfl⟩

/-! ## Guards and results (R67, R75, R76) -/

theorem State.guarded_true {s : State} {g : BitVec 3} (h : s.curStrand.rp g = true) (f : State → State) : s.guarded g f = .next (f s) := by
  unfold State.guarded
  rw [if_pos h]

theorem State.guarded_false {s : State} {g : BitVec 3} (h : s.curStrand.rp g = false) (f : State → State) : s.guarded g f = .next s := by
  unfold State.guarded
  rw [if_neg (by simp [h])]

theorem State.guarded_cases (s : State) (g : BitVec 3) (f : State → State) : s.guarded g f = .next (f s) ∨ s.guarded g f = .next s := by
  unfold State.guarded
  split
  · exact .inl rfl
  · exact .inr rfl

theorem State.later_agenda (s : State) (n phase : Nat) (e : Eff) :
    (s.later n phase e).agenda = s.agenda ++ [{ clk := .strand s.cur.core s.cur.strand, due := s.curStrand.lt + n, phase, core := s.cur.core.val,
                                                seq := s.seq, act := .eff s.cur.core s.cur.strand s.cur.pc s.cur.pos e }] := rfl

@[simp] theorem State.setX_zero (s : State) (n : Nat) (v : Word) : s.setX n 0 v = s := rfl
@[simp] theorem State.setP_zero (s : State) (n : Nat) (b : Bool) : s.setP n 0 b = s := rfl

theorem State.setX_of {s : State} {d : BitVec 5} (h : d ≠ 0) (n : Nat) (v : Word) : s.setX n d v = s.later n 2 (.x d v) := by
  unfold State.setX
  rw [if_neg h]

theorem State.setP_of {s : State} {d : BitVec 3} (h : d ≠ 0) (n : Nat) (b : Bool) : s.setP n d b = s.later n 2 (.p d b) := by
  unfold State.setP
  rw [if_neg h]

@[simp] theorem State.setX_cores (s : State) (n : Nat) (d : BitVec 5) (v : Word) : (s.setX n d v).cores = s.cores := by
  unfold State.setX
  split <;> rfl

@[simp] theorem State.setP_cores (s : State) (n : Nat) (d : BitVec 3) (b : Bool) : (s.setP n d b).cores = s.cores := by
  unfold State.setP
  split <;> rfl

/-! ## Immediates (R70, R205) -/

/-- Bits of two's complement taken as an integer, and as a 64-bit word. -/
theorem ofInt_toInt_signExtend {n : Nat} (hn : 0 < n) (i : BitVec n) : BitVec.ofInt 64 (toInt n i.toNat) = i.signExtend 64 := by
  rw [BitVec.signExtend]
  congr 1
  unfold toInt
  have h := BitVec.toInt_eq_toNat_cond i
  rw [Nat.mod_eq_of_lt i.isLt, h]
  have e : 2 ^ n = 2 * 2 ^ (n - 1) := by
    rw [← Nat.pow_succ']
    congr 1
    omega
  split <;> split <;> first | rfl | omega

/-- With no header the immediate is its own field, sign-extended. -/
theorem State.immS_plain {s : State} (h : s.cur.ext = none) {n : Nat} (hn : 0 < n) (i : BitVec n) : word (s.immS n i.toNat) = i.signExtend 64 := by
  unfold State.immS State.immW State.immN word
  rw [h]
  exact ofInt_toInt_signExtend hn i

/-- With a header the lent bits stand above the field. -/
theorem State.immS_lent {s : State} {e : BitVec 5} (h : s.cur.ext = some e) {n : Nat} (i : BitVec n) :
    word (s.immS n i.toNat) = (e ++ i).signExtend 64 := by
  unfold State.immS State.immW State.immN word
  rw [h]
  show BitVec.ofInt 64 (toInt (n + 5) (e.toNat * 2 ^ n + i.toNat)) = _
  have v : e.toNat * 2 ^ n + i.toNat = (e ++ i).toNat := by
    rw [BitVec.toNat_append, ← Nat.shiftLeft_add_eq_or_of_lt i.isLt, Nat.shiftLeft_eq]
  rw [v, Nat.add_comm n 5]
  exact ofInt_toInt_signExtend (by omega) (e ++ i)

/-! ## Second sources (R203) -/

theorem State.withB_register (s : State) (b : BitVec 5) (w : BitVec 3) (f : Word → State) : s.withB b 0 w f = f (s.curStrand.rx b) := by
  unfold State.withB
  rw [if_neg (by decide)]

theorem State.withB_landing {s : State} {b : BitVec 5} {h : LandFlit} (e : s.head? (fin 8 b.toNat) = some h) (w : BitVec 3) (f : Word → State) :
    s.withB b 1 w f = f (h.extractLsb' (64 * w.toNat) 64) := by
  unfold State.withB State.withHead
  rw [if_pos rfl, e]
  rfl

theorem State.withB_empty {s : State} {b : BitVec 5} (e : s.head? (fin 8 b.toNat) = none) (w : BitVec 3) (f : Word → State) :
    s.withB b 1 w f = if s.timed s.cur.core && !s.stepping s.cur.core then s.raise 0x07 0 else s.stall := by
  unfold State.withB State.withHead
  rw [if_pos rfl, e]

/-! ## Address checks (R21, R211) -/

theorem State.withSpm_fault {s : State} {addr : Int} {n align c : Nat} (h : s.spmFault addr n align = some c) (f : Nat → State) :
    s.withSpm addr n align f = s.raise c (BitVec.ofInt 64 addr) := by
  unfold State.withSpm
  rw [h]
  rfl

theorem State.withSpm_good {s : State} {addr : Int} {n align : Nat} (h : s.spmFault addr n align = none) (f : Nat → State) :
    s.withSpm addr n align f = f addr.toNat := by
  unfold State.withSpm
  rw [h]

/-- A good address lies inside the SPM that the level may reach, and is aligned. -/
theorem State.spmFault_none {s : State} {addr : Int} {n align : Nat} :
    s.spmFault addr n align = none ↔ 0 ≤ addr ∧ addr + n ≤ 0xC0000 ∧ (addr + n ≤ 0xBC000 ∨ s.cur.level ≠ .user) ∧ addr.toNat % align = 0 := by
  unfold State.spmFault spmSize spmTop
  constructor
  · intro h
    split at h
    · cases h
    · split at h
      · cases h
      · split at h
        · cases h
        · rename_i h1 h2 h3
          refine ⟨by omega, by omega, ?_, by omega⟩
          by_cases l : s.cur.level = .user
          · exact .inl (Int.not_lt.mp fun g => h2 ⟨by omega, l⟩)
          · exact .inr l
  · rintro ⟨h1, h2, h3, h4⟩
    rw [if_neg (by omega), if_neg, if_neg (by omega)]
    rintro ⟨g, l⟩
    rcases h3 with h3 | h3
    · omega
    · exact h3 l

/-! ## Slips (R159, R160) -/

/-- A slip changes the member's causes and its group's freeze point. -/
theorem State.slipAt_cases (s : State) (c : Fin 256) (cause : SlipCause) (tt : Nat) :
    s.slipAt c cause tt = s ∨ ∃ (f : Core → Core) (ks : List Kernel), (∀ k, f k = { k with causes := (f k).causes }) ∧
      (∀ k, cause ∈ (f k).causes) ∧ s.slipAt c cause tt = { s.onCore c f with kernels := ks } := by
  unfold State.slipAt
  split
  · split
    · exact .inl rfl
    · have mem : ∀ k : Core, cause ∈ (if k.causes.contains cause then k.causes else cause :: k.causes) := by
        intro k
        by_cases h : k.causes.contains cause
        · rw [if_pos h]
          exact List.contains_iff_mem.mp h
        · rw [if_neg h]
          exact List.mem_cons_self ..
      refine .inr ⟨fun x => { x with causes := if x.causes.contains cause then x.causes else cause :: x.causes }, ?_⟩
      dsimp only
      split
      · exact ⟨s.kernels, fun _ => rfl, mem, rfl⟩
      · exact ⟨_, fun _ => rfl, mem, rfl⟩
  · exact .inl rfl

/-- What a slip leaves: every strand, register, memory and clock. -/
theorem State.slipAt_frame (s : State) (c : Fin 256) (cause : SlipCause) (tt : Nat) (d : Fin 256) :
    (s.slipAt c cause tt).core d = { s.core d with causes := ((s.slipAt c cause tt).core d).causes } := by
  rcases s.slipAt_cases c cause tt with h | ⟨f, ks, hf, _, h⟩
  · rw [h]
  · rw [h]
    show (s.onCore c f).core d = { s.core d with causes := ((s.onCore c f).core d).causes }
    by_cases e : d = c
    · subst e
      rw [State.core_onCore]
      exact hf _
    · rw [State.core_onCore_other _ _ e]

theorem State.slipAt_agenda (s : State) (c : Fin 256) (cause : SlipCause) (tt : Nat) : (s.slipAt c cause tt).agenda = s.agenda := by
  rcases s.slipAt_cases c cause tt with h | ⟨f, ks, _, _, h⟩
  · rw [h]
  · rw [h]; rfl

theorem State.slipAt_memories (s : State) (c : Fin 256) (cause : SlipCause) (tt : Nat) :
    (s.slipAt c cause tt).dev = s.dev ∧ (s.slipAt c cause tt).near = s.near ∧ (s.slipAt c cause tt).windows = s.windows ∧
      (s.slipAt c cause tt).host = s.host ∧ (s.slipAt c cause tt).cmds = s.cmds ∧ (s.slipAt c cause tt).ctxs = s.ctxs := by
  rcases s.slipAt_cases c cause tt with h | ⟨f, ks, _, _, h⟩ <;> rw [h] <;> exact ⟨rfl, rfl, rfl, rfl, rfl, rfl⟩

/-! ## Taking a trap (R431, R432, R436) -/

/-- Where software has written no CSR in the cycle of the trap, the record holds what the hardware writes. -/
theorem Strand.put_unwritten {t : Strand} {now : Nat} (h : t.wrote.1 ≠ now + 1) (num : Nat) (old v : Word) : t.put now num old v = v := by
  unfold Strand.put Strand.wroteNow
  rw [if_neg (by simp [h])]

/-- What the end of a slip leaves: every strand, register, memory and clock. -/
theorem State.unslip_frame (s : State) (c : Fin 256) (cause : SlipCause) (d : Fin 256) :
    (s.unslip c cause).core d = { s.core d with causes := ((s.unslip c cause).core d).causes } := by
  unfold State.unslip
  by_cases e : d = c
  · subst e
    rw [State.core_onCore]
  · rw [State.core_onCore_other _ _ e]

@[simp] theorem State.unslip_strand (s : State) (c : Fin 256) (cause : SlipCause) (d : Fin 256) (j : Fin 4) :
    (s.unslip c cause).strand d j = s.strand d j := by
  unfold State.strand
  rw [State.unslip_frame]

/-- enterTrap writes the trap record and makes the strand TRAPPED; the slip of a bundle that does not issue now is over, and the member slips for the
trap, outside step mode. -/
theorem State.enterTrap_eq (s : State) (c : Fin 256) (j : Fin 4) (i : TrapInfo) (tpc npc : Nat) (slot : Fin 4) :
    let u := (s.onStrand c j fun t => t.entering i (s.core c).tt tpc npc slot s.time).unslip c .issue
    s.enterTrap c j i tpc npc slot = if u.stepping c then u else u.slipAt c .trap (s.core c).tt := rfl

theorem State.enterTrap_strand (s : State) (c : Fin 256) (j : Fin 4) (i : TrapInfo) (tpc npc : Nat) (slot : Fin 4) :
    (s.enterTrap c j i tpc npc slot).strand c j = (s.strand c j).entering i (s.core c).tt tpc npc slot s.time := by
  rw [State.enterTrap_eq]
  split
  · rw [State.unslip_strand]
    exact State.strand_onStrand ..
  · unfold State.strand
    rw [State.slipAt_frame, State.unslip_frame]
    exact State.strand_onStrand s c j _

theorem State.enterTrap_other (s : State) {c d : Fin 256} {j k : Fin 4} (i : TrapInfo) (tpc npc : Nat) (slot : Fin 4) (h : d ≠ c ∨ k ≠ j) :
    (s.enterTrap c j i tpc npc slot).strand d k = s.strand d k := by
  rw [State.enterTrap_eq]
  split
  · rw [State.unslip_strand]
    exact State.strand_onStrand_ne _ _ h
  · unfold State.strand
    rw [State.slipAt_frame, State.unslip_frame]
    exact State.strand_onStrand_ne s _ h

theorem State.enterTrap_agenda (s : State) (c : Fin 256) (j : Fin 4) (i : TrapInfo) (tpc npc : Nat) (slot : Fin 4) :
    (s.enterTrap c j i tpc npc slot).agenda = s.agenda := by
  rw [State.enterTrap_eq]
  split
  · rfl
  · exact State.slipAt_agenda ..

theorem State.enterTrap_memories (s : State) (c : Fin 256) (j : Fin 4) (i : TrapInfo) (tpc npc : Nat) (slot : Fin 4) :
    (s.enterTrap c j i tpc npc slot).dev = s.dev ∧ (s.enterTrap c j i tpc npc slot).near = s.near ∧
      (s.enterTrap c j i tpc npc slot).windows = s.windows ∧ (s.enterTrap c j i tpc npc slot).host = s.host ∧
      (s.enterTrap c j i tpc npc slot).cmds = s.cmds ∧ (s.enterTrap c j i tpc npc slot).ctxs = s.ctxs := by
  rw [State.enterTrap_eq]
  split
  · exact ⟨rfl, rfl, rfl, rfl, rfl, rfl⟩
  · exact State.slipAt_memories (State.unslip _ c .issue) c .trap _

/-- A trap that a slot raises first in its bundle, outside a handler, is taken at once; the bundle remembers it. -/
theorem State.raise_first {s : State} (cause : Nat) (taddr : Word) (hn : s.cur.nested = false) (ht : s.cur.trap = none)
    (hs : ¬(cause = 0x07 ∧ s.stepping s.cur.core = true)) :
    s.raise cause taddr = (s.enterTrap s.cur.core s.cur.strand { cause, taddr, coef := none } s.cur.pc (s.cur.pc + 16) s.cur.pos).onCur
      fun k => { k with trap := some { cause, taddr, coef := none } } := by
  unfold State.raise State.raiseWith
  rw [if_neg hs]
  simp [hn, ht]

/-- In step mode SCHED is not raised (R151). -/
theorem State.raise_step {s : State} (taddr : Word) (hs : s.stepping s.cur.core = true) : s.raise 0x07 taddr = s := by
  unfold State.raise State.raiseWith
  rw [if_pos ⟨rfl, hs⟩]

/-- In a handler a trap is a double trap (R428), but for a slot above an RFT.fault (R438). -/
theorem State.raise_nested {s : State} (cause : Nat) (taddr : Word) (hn : s.cur.nested = true)
    (hs : ¬(cause = 0x07 ∧ s.stepping s.cur.core = true)) :
    s.raise cause taddr = if s.cur.ends then s else s.doubleTrap s.cur.core s.cur.strand cause s.cur.pc taddr := by
  unfold State.raise State.raiseWith
  rw [if_neg hs]
  simp [hn]

/-- A trap found outside the strand's own issue, in a strand that is not TRAPPED and has no transfer out of the image due: the flight is
captured and the handler entered. -/
theorem State.takeTrap_first {s : State} {c : Fin 256} {j : Fin 4} (p : Pend) (hl : (s.strand c j).life = .live)
    (ht : (s.strand c j).trapped = false) (hb : (s.strand c j).badDue = none) (hs : ¬(p.info.cause = 0x07 ∧ s.stepping c = true)) :
    s.takeTrap c j p =
      (s.capture c j (s.strand c j).level p.ring ((s.strand c j).base - ((s.strand c j).lt + 1)) (s.strand c j).due1 (s.strand c j).due2
        []).enterTrap c j p.info p.pc (s.strand c j).pc.toNat p.slot := by
  unfold State.takeTrap State.takeTrapAt
  rw [if_neg (by simp [hl]), if_neg hs, if_neg (by simp [ht])]
  simp [hb]

/-- A strand that has exited, or waits for its save, takes no trap. -/
theorem State.takeTrap_dead {s : State} {c : Fin 256} {j : Fin 4} (p : Pend) (hl : (s.strand c j).life ≠ .live) : s.takeTrap c j p = s := by
  unfold State.takeTrap State.takeTrapAt
  rw [if_pos (by simp [hl])]

/-- In step mode a SCHED found outside the strand's issue is not raised (R151). -/
theorem State.takeTrap_step {s : State} {c : Fin 256} {j : Fin 4} (p : Pend) (hp : p.info.cause = 0x07) (hs : s.stepping c = true) :
    s.takeTrap c j p = s := by
  unfold State.takeTrap State.takeTrapAt
  simp [hp, hs]

end Sys2Proof.Machine
end

