-- ==== Sys2Proof/Laws/PerInstr.lean ====
section
/-! SUPPORT. Every instruction's word has 32 bits (R65, R84): one lemma for each constructor of Instr; an event of the table has no word, for
which encode gives 0. -/
namespace Sys2Proof.Laws.EncodesInWord

/-- The word of the instruction lies below 2^32. -/
def Statement (i : Instr) : Prop := encode i < 2 ^ 32

theorem asm_nil (m : Nat) : asm m [] = m := by simp [asm]

theorem asm_cons (m : Nat) (f : Nat × Nat) (fs : List (Nat × Nat)) : asm m (f :: fs) = asm (m + f.1 * 2 ^ f.2) fs := by simp [asm]

theorem nop : Statement .nop := by
  unfold Statement
  rw [show encode (.nop) = asm 0x0 [] from rfl]
  simp only [asm_nil]
  omega

theorem br (g : BitVec 3) (o : BitVec 23) : Statement (.br g o) := by
  have h0 := g.isLt
  have h1 := o.isLt
  unfold Statement
  rw [show encode (.br g o) = asm 0x4000000 [(g.toNat, 23), (o.toNat, 0)] from rfl]
  simp only [asm_cons, asm_nil]
  omega

theorem brx (g : BitVec 3) (a : BitVec 5) (l : BitVec 1) : Statement (.brx g a l) := by
  have h0 := g.isLt
  have h1 := a.isLt
  have h2 := l.isLt
  unfold Statement
  rw [show encode (.brx g a l) = asm 0x8000000 [(g.toNat, 23), (a.toNat, 13), (l.toNat, 0)] from rfl]
  simp only [asm_cons, asm_nil]
  omega

theorem call (g : BitVec 3) (o : BitVec 23) : Statement (.call g o) := by
  have h0 := g.isLt
  have h1 := o.isLt
  unfold Statement
  rw [show encode (.call g o) = asm 0xc000000 [(g.toNat, 23), (o.toNat, 0)] from rfl]
  simp only [asm_cons, asm_nil]
  omega

theorem ret (g : BitVec 3) : Statement (.ret g) := by
  have h0 := g.isLt
  unfold Statement
  rw [show encode (.ret g) = asm 0x10000000 [(g.toNat, 23)] from rfl]
  simp only [asm_cons, asm_nil]
  omega

theorem loop (g : BitVec 3) (e : BitVec 1) (r : BitVec 2) (s : BitVec 2) (a : BitVec 5) (n : BitVec 13) : Statement (.loop g e r s a n) := by
  have h0 := g.isLt
  have h1 := e.isLt
  have h2 := r.isLt
  have h3 := s.isLt
  have h4 := a.isLt
  have h5 := n.isLt
  unfold Statement
  rw [show encode (.loop g e r s a n) = asm 0x14000000 [(g.toNat, 23), (e.toNat, 22), (r.toNat, 20), (s.toNat, 18), (a.toNat, 13), (n.toNat, 0)] from rfl]
  simp only [asm_cons, asm_nil]
  omega

theorem loopi (g : BitVec 3) (e : BitVec 1) (r : BitVec 2) (s : BitVec 2) (c : BitVec 10) (n : BitVec 8) : Statement (.loopi g e r s c n) := by
  have h0 := g.isLt
  have h1 := e.isLt
  have h2 := r.isLt
  have h3 := s.isLt
  have h4 := c.isLt
  have h5 := n.isLt
  unfold Statement
  rw [show encode (.loopi g e r s c n) = asm 0x18000000 [(g.toNat, 23), (e.toNat, 22), (r.toNat, 20), (s.toNat, 18), (c.toNat, 8), (n.toNat, 0)] from rfl]
  simp only [asm_cons, asm_nil]
  omega

theorem lbrk (g : BitVec 3) : Statement (.lbrk g) := by
  have h0 := g.isLt
  unfold Statement
  rw [show encode (.lbrk g) = asm 0x1c000000 [(g.toNat, 23)] from rfl]
  simp only [asm_cons, asm_nil]
  omega

theorem wait (g : BitVec 3) (s : BitVec 5) (n : BitVec 18) : Statement (.wait g s n) := by
  have h0 := g.isLt
  have h1 := s.isLt
  have h2 := n.isLt
  unfold Statement
  rw [show encode (.wait g s n) = asm 0x20000000 [(g.toNat, 23), (s.toNat, 18), (n.toNat, 0)] from rfl]
  simp only [asm_cons, asm_nil]
  omega

theorem realign (g : BitVec 3) (d : BitVec 5) : Statement (.realign g d) := by
  have h0 := g.isLt
  have h1 := d.isLt
  unfold Statement
  rw [show encode (.realign g d) = asm 0x24000000 [(g.toNat, 23), (d.toNat, 18)] from rfl]
  simp only [asm_cons, asm_nil]
  omega

theorem realignP (g : BitVec 3) (d : BitVec 5) : Statement (.realignP g d) := by
  have h0 := g.isLt
  have h1 := d.isLt
  unfold Statement
  rw [show encode (.realignP g d) = asm 0x24000001 [(g.toNat, 23), (d.toNat, 18)] from rfl]
  simp only [asm_cons, asm_nil]
  omega

theorem realignJoin (g : BitVec 3) (d : BitVec 5) (a : BitVec 5) : Statement (.realignJoin g d a) := by
  have h0 := g.isLt
  have h1 := d.isLt
  have h2 := a.isLt
  unfold Statement
  rw [show encode (.realignJoin g d a) = asm 0x24000002 [(g.toNat, 23), (d.toNat, 18), (a.toNat, 13)] from rfl]
  simp only [asm_cons, asm_nil]
  omega

theorem csrr (g : BitVec 3) (d : BitVec 5) (c : BitVec 12) : Statement (.csrr g d c) := by
  have h0 := g.isLt
  have h1 := d.isLt
  have h2 := c.isLt
  unfold Statement
  rw [show encode (.csrr g d c) = asm 0x28000000 [(g.toNat, 23), (d.toNat, 18), (c.toNat, 0)] from rfl]
  simp only [asm_cons, asm_nil]
  omega

theorem csrw (g : BitVec 3) (d : BitVec 5) (a : BitVec 5) (i : BitVec 1) (c : BitVec 12) : Statement (.csrw g d a i c) := by
  have h0 := g.isLt
  have h1 := d.isLt
  have h2 := a.isLt
  have h3 := i.isLt
  have h4 := c.isLt
  unfold Statement
  rw [show encode (.csrw g d a i c) = asm 0x2c000000 [(g.toNat, 23), (d.toNat, 18), (a.toNat, 13), (i.toNat, 12), (c.toNat, 0)] from rfl]
  simp only [asm_cons, asm_nil]
  omega

theorem csrs (g : BitVec 3) (d : BitVec 5) (a : BitVec 5) (i : BitVec 1) (c : BitVec 12) : Statement (.csrs g d a i c) := by
  have h0 := g.isLt
  have h1 := d.isLt
  have h2 := a.isLt
  have h3 := i.isLt
  have h4 := c.isLt
  unfold Statement
  rw [show encode (.csrs g d a i c) = asm 0x30000000 [(g.toNat, 23), (d.toNat, 18), (a.toNat, 13), (i.toNat, 12), (c.toNat, 0)] from rfl]
  simp only [asm_cons, asm_nil]
  omega

theorem csrc (g : BitVec 3) (d : BitVec 5) (a : BitVec 5) (i : BitVec 1) (c : BitVec 12) : Statement (.csrc g d a i c) := by
  have h0 := g.isLt
  have h1 := d.isLt
  have h2 := a.isLt
  have h3 := i.isLt
  have h4 := c.isLt
  unfold Statement
  rw [show encode (.csrc g d a i c) = asm 0x34000000 [(g.toNat, 23), (d.toNat, 18), (a.toNat, 13), (i.toNat, 12), (c.toNat, 0)] from rfl]
  simp only [asm_cons, asm_nil]
  omega

theorem fence (g : BitVec 3) (s : BitVec 4) (k : BitVec 2) : Statement (.fence g s k) := by
  have h0 := g.isLt
  have h1 := s.isLt
  have h2 := k.isLt
  unfold Statement
  rw [show encode (.fence g s k) = asm 0x38000000 [(g.toNat, 23), (s.toNat, 4), (k.toNat, 0)] from rfl]
  simp only [asm_cons, asm_nil]
  omega

theorem launch (g : BitVec 3) (d : BitVec 5) (a : BitVec 4) (q : BitVec 6) : Statement (.launch g d a q) := by
  have h0 := g.isLt
  have h1 := d.isLt
  have h2 := a.isLt
  have h3 := q.isLt
  unfold Statement
  rw [show encode (.launch g d a q) = asm 0x3c000000 [(g.toNat, 23), (d.toNat, 18), (a.toNat, 13), (q.toNat, 0)] from rfl]
  simp only [asm_cons, asm_nil]
  omega

theorem exit (g : BitVec 3) : Statement (.exit g) := by
  have h0 := g.isLt
  unfold Statement
  rw [show encode (.exit g) = asm 0x40000000 [(g.toNat, 23)] from rfl]
  simp only [asm_cons, asm_nil]
  omega

theorem yield (g : BitVec 3) : Statement (.yield g) := by
  have h0 := g.isLt
  unfold Statement
  rw [show encode (.yield g) = asm 0x44000000 [(g.toNat, 23)] from rfl]
  simp only [asm_cons, asm_nil]
  omega

theorem trap (g : BitVec 3) (n : BitVec 8) : Statement (.trap g n) := by
  have h0 := g.isLt
  have h1 := n.isLt
  unfold Statement
  rw [show encode (.trap g n) = asm 0x48000000 [(g.toNat, 23), (n.toNat, 0)] from rfl]
  simp only [asm_cons, asm_nil]
  omega

theorem rft (g : BitVec 3) : Statement (.rft g) := by
  have h0 := g.isLt
  unfold Statement
  rw [show encode (.rft g) = asm 0x4c000000 [(g.toNat, 23)] from rfl]
  simp only [asm_cons, asm_nil]
  omega

theorem rftReplay (g : BitVec 3) : Statement (.rftReplay g) := by
  have h0 := g.isLt
  unfold Statement
  rw [show encode (.rftReplay g) = asm 0x4c000001 [(g.toNat, 23)] from rfl]
  simp only [asm_cons, asm_nil]
  omega

theorem rftFault (g : BitVec 3) : Statement (.rftFault g) := by
  have h0 := g.isLt
  unfold Statement
  rw [show encode (.rftFault g) = asm 0x4c000002 [(g.toNat, 23)] from rfl]
  simp only [asm_cons, asm_nil]
  omega

theorem ckpt (g : BitVec 3) (d : BitVec 5) (a : BitVec 5) (b : BitVec 5) : Statement (.ckpt g d a b) := by
  have h0 := g.isLt
  have h1 := d.isLt
  have h2 := a.isLt
  have h3 := b.isLt
  unfold Statement
  rw [show encode (.ckpt g d a b) = asm 0x50000000 [(g.toNat, 23), (d.toNat, 18), (a.toNat, 13), (b.toNat, 8)] from rfl]
  simp only [asm_cons, asm_nil]
  omega

theorem ckptOff (g : BitVec 3) (d : BitVec 5) : Statement (.ckptOff g d) := by
  have h0 := g.isLt
  have h1 := d.isLt
  unfold Statement
  rw [show encode (.ckptOff g d) = asm 0x50000001 [(g.toNat, 23), (d.toNat, 18)] from rfl]
  simp only [asm_cons, asm_nil]
  omega

theorem drift (g : BitVec 3) (d : BitVec 5) (s : BitVec 1) : Statement (.drift g d s) := by
  have h0 := g.isLt
  have h1 := d.isLt
  have h2 := s.isLt
  unfold Statement
  rw [show encode (.drift g d s) = asm 0x54000001 [(g.toNat, 23), (d.toNat, 18), (s.toNat, 1)] from rfl]
  simp only [asm_cons, asm_nil]
  omega

theorem cycr (g : BitVec 3) (d : BitVec 5) (s : BitVec 2) : Statement (.cycr g d s) := by
  have h0 := g.isLt
  have h1 := d.isLt
  have h2 := s.isLt
  unfold Statement
  rw [show encode (.cycr g d s) = asm 0x58000000 [(g.toNat, 23), (d.toNat, 18), (s.toNat, 0)] from rfl]
  simp only [asm_cons, asm_nil]
  omega

theorem strs (g : BitVec 3) (d : BitVec 5) : Statement (.strs g d) := by
  have h0 := g.isLt
  have h1 := d.isLt
  unfold Statement
  rw [show encode (.strs g d) = asm 0x5c000000 [(g.toNat, 23), (d.toNat, 18)] from rfl]
  simp only [asm_cons, asm_nil]
  omega

theorem add (g : BitVec 3) (d : BitVec 5) (a : BitVec 5) (b : BitVec 5) (l : BitVec 1) (w : BitVec 3) : Statement (.add g d a b l w) := by
  have h0 := g.isLt
  have h1 := d.isLt
  have h2 := a.isLt
  have h3 := b.isLt
  have h4 := l.isLt
  have h5 := w.isLt
  unfold Statement
  rw [show encode (.add g d a b l w) = asm 0x4000000 [(g.toNat, 23), (d.toNat, 18), (a.toNat, 13), (b.toNat, 8), (l.toNat, 7), (w.toNat, 4)] from rfl]
  simp only [asm_cons, asm_nil]
  omega

theorem sub (g : BitVec 3) (d : BitVec 5) (a : BitVec 5) (b : BitVec 5) (l : BitVec 1) (w : BitVec 3) : Statement (.sub g d a b l w) := by
  have h0 := g.isLt
  have h1 := d.isLt
  have h2 := a.isLt
  have h3 := b.isLt
  have h4 := l.isLt
  have h5 := w.isLt
  unfold Statement
  rw [show encode (.sub g d a b l w) = asm 0x8000000 [(g.toNat, 23), (d.toNat, 18), (a.toNat, 13), (b.toNat, 8), (l.toNat, 7), (w.toNat, 4)] from rfl]
  simp only [asm_cons, asm_nil]
  omega

theorem mul (g : BitVec 3) (d : BitVec 5) (a : BitVec 5) (b : BitVec 5) (l : BitVec 1) (w : BitVec 3) : Statement (.mul g d a b l w) := by
  have h0 := g.isLt
  have h1 := d.isLt
  have h2 := a.isLt
  have h3 := b.isLt
  have h4 := l.isLt
  have h5 := w.isLt
  unfold Statement
  rw [show encode (.mul g d a b l w) = asm 0x10000000 [(g.toNat, 23), (d.toNat, 18), (a.toNat, 13), (b.toNat, 8), (l.toNat, 7), (w.toNat, 4)] from rfl]
  simp only [asm_cons, asm_nil]
  omega

theorem mulh (g : BitVec 3) (d : BitVec 5) (a : BitVec 5) (b : BitVec 5) (l : BitVec 1) (w : BitVec 3) : Statement (.mulh g d a b l w) := by
  have h0 := g.isLt
  have h1 := d.isLt
  have h2 := a.isLt
  have h3 := b.isLt
  have h4 := l.isLt
  have h5 := w.isLt
  unfold Statement
  rw [show encode (.mulh g d a b l w) = asm 0x14000000 [(g.toNat, 23), (d.toNat, 18), (a.toNat, 13), (b.toNat, 8), (l.toNat, 7), (w.toNat, 4)] from rfl]
  simp only [asm_cons, asm_nil]
  omega

theorem mulhn (g : BitVec 3) (d : BitVec 5) (a : BitVec 5) (b : BitVec 5) (l : BitVec 1) (w : BitVec 3) : Statement (.mulhn g d a b l w) := by
  have h0 := g.isLt
  have h1 := d.isLt
  have h2 := a.isLt
  have h3 := b.isLt
  have h4 := l.isLt
  have h5 := w.isLt
  unfold Statement
  rw [show encode (.mulhn g d a b l w) = asm 0x18000000 [(g.toNat, 23), (d.toNat, 18), (a.toNat, 13), (b.toNat, 8), (l.toNat, 7), (w.toNat, 4)] from rfl]
  simp only [asm_cons, asm_nil]
  omega

theorem div (g : BitVec 3) (d : BitVec 5) (a : BitVec 5) (b : BitVec 5) (l : BitVec 1) (w : BitVec 3) : Statement (.div g d a b l w) := by
  have h0 := g.isLt
  have h1 := d.isLt
  have h2 := a.isLt
  have h3 := b.isLt
  have h4 := l.isLt
  have h5 := w.isLt
  unfold Statement
  rw [show encode (.div g d a b l w) = asm 0x1c000000 [(g.toNat, 23), (d.toNat, 18), (a.toNat, 13), (b.toNat, 8), (l.toNat, 7), (w.toNat, 4)] from rfl]
  simp only [asm_cons, asm_nil]
  omega

theorem divn (g : BitVec 3) (d : BitVec 5) (a : BitVec 5) (b : BitVec 5) (l : BitVec 1) (w : BitVec 3) : Statement (.divn g d a b l w) := by
  have h0 := g.isLt
  have h1 := d.isLt
  have h2 := a.isLt
  have h3 := b.isLt
  have h4 := l.isLt
  have h5 := w.isLt
  unfold Statement
  rw [show encode (.divn g d a b l w) = asm 0x20000000 [(g.toNat, 23), (d.toNat, 18), (a.toNat, 13), (b.toNat, 8), (l.toNat, 7), (w.toNat, 4)] from rfl]
  simp only [asm_cons, asm_nil]
  omega

theorem rem (g : BitVec 3) (d : BitVec 5) (a : BitVec 5) (b : BitVec 5) (l : BitVec 1) (w : BitVec 3) : Statement (.rem g d a b l w) := by
  have h0 := g.isLt
  have h1 := d.isLt
  have h2 := a.isLt
  have h3 := b.isLt
  have h4 := l.isLt
  have h5 := w.isLt
  unfold Statement
  rw [show encode (.rem g d a b l w) = asm 0x24000000 [(g.toNat, 23), (d.toNat, 18), (a.toNat, 13), (b.toNat, 8), (l.toNat, 7), (w.toNat, 4)] from rfl]
  simp only [asm_cons, asm_nil]
  omega

theorem remn (g : BitVec 3) (d : BitVec 5) (a : BitVec 5) (b : BitVec 5) (l : BitVec 1) (w : BitVec 3) : Statement (.remn g d a b l w) := by
  have h0 := g.isLt
  have h1 := d.isLt
  have h2 := a.isLt
  have h3 := b.isLt
  have h4 := l.isLt
  have h5 := w.isLt
  unfold Statement
  rw [show encode (.remn g d a b l w) = asm 0x28000000 [(g.toNat, 23), (d.toNat, 18), (a.toNat, 13), (b.toNat, 8), (l.toNat, 7), (w.toNat, 4)] from rfl]
  simp only [asm_cons, asm_nil]
  omega

theorem and (g : BitVec 3) (d : BitVec 5) (a : BitVec 5) (b : BitVec 5) (l : BitVec 1) (w : BitVec 3) : Statement (.and g d a b l w) := by
  have h0 := g.isLt
  have h1 := d.isLt
  have h2 := a.isLt
  have h3 := b.isLt
  have h4 := l.isLt
  have h5 := w.isLt
  unfold Statement
  rw [show encode (.and g d a b l w) = asm 0x2c000000 [(g.toNat, 23), (d.toNat, 18), (a.toNat, 13), (b.toNat, 8), (l.toNat, 7), (w.toNat, 4)] from rfl]
  simp only [asm_cons, asm_nil]
  omega

theorem or (g : BitVec 3) (d : BitVec 5) (a : BitVec 5) (b : BitVec 5) (l : BitVec 1) (w : BitVec 3) : Statement (.or g d a b l w) := by
  have h0 := g.isLt
  have h1 := d.isLt
  have h2 := a.isLt
  have h3 := b.isLt
  have h4 := l.isLt
  have h5 := w.isLt
  unfold Statement
  rw [show encode (.or g d a b l w) = asm 0x30000000 [(g.toNat, 23), (d.toNat, 18), (a.toNat, 13), (b.toNat, 8), (l.toNat, 7), (w.toNat, 4)] from rfl]
  simp only [asm_cons, asm_nil]
  omega

theorem xor (g : BitVec 3) (d : BitVec 5) (a : BitVec 5) (b : BitVec 5) (l : BitVec 1) (w : BitVec 3) : Statement (.xor g d a b l w) := by
  have h0 := g.isLt
  have h1 := d.isLt
  have h2 := a.isLt
  have h3 := b.isLt
  have h4 := l.isLt
  have h5 := w.isLt
  unfold Statement
  rw [show encode (.xor g d a b l w) = asm 0x34000000 [(g.toNat, 23), (d.toNat, 18), (a.toNat, 13), (b.toNat, 8), (l.toNat, 7), (w.toNat, 4)] from rfl]
  simp only [asm_cons, asm_nil]
  omega

theorem shl (g : BitVec 3) (d : BitVec 5) (a : BitVec 5) (b : BitVec 5) (l : BitVec 1) (w : BitVec 3) : Statement (.shl g d a b l w) := by
  have h0 := g.isLt
  have h1 := d.isLt
  have h2 := a.isLt
  have h3 := b.isLt
  have h4 := l.isLt
  have h5 := w.isLt
  unfold Statement
  rw [show encode (.shl g d a b l w) = asm 0x48000000 [(g.toNat, 23), (d.toNat, 18), (a.toNat, 13), (b.toNat, 8), (l.toNat, 7), (w.toNat, 4)] from rfl]
  simp only [asm_cons, asm_nil]
  omega

theorem shr (g : BitVec 3) (d : BitVec 5) (a : BitVec 5) (b : BitVec 5) (l : BitVec 1) (w : BitVec 3) : Statement (.shr g d a b l w) := by
  have h0 := g.isLt
  have h1 := d.isLt
  have h2 := a.isLt
  have h3 := b.isLt
  have h4 := l.isLt
  have h5 := w.isLt
  unfold Statement
  rw [show encode (.shr g d a b l w) = asm 0x4c000000 [(g.toNat, 23), (d.toNat, 18), (a.toNat, 13), (b.toNat, 8), (l.toNat, 7), (w.toNat, 4)] from rfl]
  simp only [asm_cons, asm_nil]
  omega

theorem sar (g : BitVec 3) (d : BitVec 5) (a : BitVec 5) (b : BitVec 5) (l : BitVec 1) (w : BitVec 3) : Statement (.sar g d a b l w) := by
  have h0 := g.isLt
  have h1 := d.isLt
  have h2 := a.isLt
  have h3 := b.isLt
  have h4 := l.isLt
  have h5 := w.isLt
  unfold Statement
  rw [show encode (.sar g d a b l w) = asm 0x50000000 [(g.toNat, 23), (d.toNat, 18), (a.toNat, 13), (b.toNat, 8), (l.toNat, 7), (w.toNat, 4)] from rfl]
  simp only [asm_cons, asm_nil]
  omega

theorem min (g : BitVec 3) (d : BitVec 5) (a : BitVec 5) (b : BitVec 5) (l : BitVec 1) (w : BitVec 3) : Statement (.min g d a b l w) := by
  have h0 := g.isLt
  have h1 := d.isLt
  have h2 := a.isLt
  have h3 := b.isLt
  have h4 := l.isLt
  have h5 := w.isLt
  unfold Statement
  rw [show encode (.min g d a b l w) = asm 0x68000000 [(g.toNat, 23), (d.toNat, 18), (a.toNat, 13), (b.toNat, 8), (l.toNat, 7), (w.toNat, 4)] from rfl]
  simp only [asm_cons, asm_nil]
  omega

theorem max (g : BitVec 3) (d : BitVec 5) (a : BitVec 5) (b : BitVec 5) (l : BitVec 1) (w : BitVec 3) : Statement (.max g d a b l w) := by
  have h0 := g.isLt
  have h1 := d.isLt
  have h2 := a.isLt
  have h3 := b.isLt
  have h4 := l.isLt
  have h5 := w.isLt
  unfold Statement
  rw [show encode (.max g d a b l w) = asm 0x6c000000 [(g.toNat, 23), (d.toNat, 18), (a.toNat, 13), (b.toNat, 8), (l.toNat, 7), (w.toNat, 4)] from rfl]
  simp only [asm_cons, asm_nil]
  omega

theorem minn (g : BitVec 3) (d : BitVec 5) (a : BitVec 5) (b : BitVec 5) (l : BitVec 1) (w : BitVec 3) : Statement (.minn g d a b l w) := by
  have h0 := g.isLt
  have h1 := d.isLt
  have h2 := a.isLt
  have h3 := b.isLt
  have h4 := l.isLt
  have h5 := w.isLt
  unfold Statement
  rw [show encode (.minn g d a b l w) = asm 0x70000000 [(g.toNat, 23), (d.toNat, 18), (a.toNat, 13), (b.toNat, 8), (l.toNat, 7), (w.toNat, 4)] from rfl]
  simp only [asm_cons, asm_nil]
  omega

theorem maxn (g : BitVec 3) (d : BitVec 5) (a : BitVec 5) (b : BitVec 5) (l : BitVec 1) (w : BitVec 3) : Statement (.maxn g d a b l w) := by
  have h0 := g.isLt
  have h1 := d.isLt
  have h2 := a.isLt
  have h3 := b.isLt
  have h4 := l.isLt
  have h5 := w.isLt
  unfold Statement
  rw [show encode (.maxn g d a b l w) = asm 0x74000000 [(g.toNat, 23), (d.toNat, 18), (a.toNat, 13), (b.toNat, 8), (l.toNat, 7), (w.toNat, 4)] from rfl]
  simp only [asm_cons, asm_nil]
  omega

theorem addi (g : BitVec 3) (d : BitVec 5) (a : BitVec 5) (i : BitVec 13) : Statement (.addi g d a i) := by
  have h0 := g.isLt
  have h1 := d.isLt
  have h2 := a.isLt
  have h3 := i.isLt
  unfold Statement
  rw [show encode (.addi g d a i) = asm 0xc000000 [(g.toNat, 23), (d.toNat, 18), (a.toNat, 13), (i.toNat, 0)] from rfl]
  simp only [asm_cons, asm_nil]
  omega

theorem andi (g : BitVec 3) (d : BitVec 5) (a : BitVec 5) (i : BitVec 13) : Statement (.andi g d a i) := by
  have h0 := g.isLt
  have h1 := d.isLt
  have h2 := a.isLt
  have h3 := i.isLt
  unfold Statement
  rw [show encode (.andi g d a i) = asm 0x38000000 [(g.toNat, 23), (d.toNat, 18), (a.toNat, 13), (i.toNat, 0)] from rfl]
  simp only [asm_cons, asm_nil]
  omega

theorem ori (g : BitVec 3) (d : BitVec 5) (a : BitVec 5) (i : BitVec 13) : Statement (.ori g d a i) := by
  have h0 := g.isLt
  have h1 := d.isLt
  have h2 := a.isLt
  have h3 := i.isLt
  unfold Statement
  rw [show encode (.ori g d a i) = asm 0x3c000000 [(g.toNat, 23), (d.toNat, 18), (a.toNat, 13), (i.toNat, 0)] from rfl]
  simp only [asm_cons, asm_nil]
  omega

theorem xori (g : BitVec 3) (d : BitVec 5) (a : BitVec 5) (i : BitVec 13) : Statement (.xori g d a i) := by
  have h0 := g.isLt
  have h1 := d.isLt
  have h2 := a.isLt
  have h3 := i.isLt
  unfold Statement
  rw [show encode (.xori g d a i) = asm 0x40000000 [(g.toNat, 23), (d.toNat, 18), (a.toNat, 13), (i.toNat, 0)] from rfl]
  simp only [asm_cons, asm_nil]
  omega

theorem shli (g : BitVec 3) (d : BitVec 5) (a : BitVec 5) (i : BitVec 13) : Statement (.shli g d a i) := by
  have h0 := g.isLt
  have h1 := d.isLt
  have h2 := a.isLt
  have h3 := i.isLt
  unfold Statement
  rw [show encode (.shli g d a i) = asm 0x54000000 [(g.toNat, 23), (d.toNat, 18), (a.toNat, 13), (i.toNat, 0)] from rfl]
  simp only [asm_cons, asm_nil]
  omega

theorem shri (g : BitVec 3) (d : BitVec 5) (a : BitVec 5) (i : BitVec 13) : Statement (.shri g d a i) := by
  have h0 := g.isLt
  have h1 := d.isLt
  have h2 := a.isLt
  have h3 := i.isLt
  unfold Statement
  rw [show encode (.shri g d a i) = asm 0x58000000 [(g.toNat, 23), (d.toNat, 18), (a.toNat, 13), (i.toNat, 0)] from rfl]
  simp only [asm_cons, asm_nil]
  omega

theorem sari (g : BitVec 3) (d : BitVec 5) (a : BitVec 5) (i : BitVec 13) : Statement (.sari g d a i) := by
  have h0 := g.isLt
  have h1 := d.isLt
  have h2 := a.isLt
  have h3 := i.isLt
  unfold Statement
  rw [show encode (.sari g d a i) = asm 0x5c000000 [(g.toNat, 23), (d.toNat, 18), (a.toNat, 13), (i.toNat, 0)] from rfl]
  simp only [asm_cons, asm_nil]
  omega

theorem lop3 (g : BitVec 3) (d : BitVec 5) (a : BitVec 5) (b : BitVec 5) (l : BitVec 8) : Statement (.lop3 g d a b l) := by
  have h0 := g.isLt
  have h1 := d.isLt
  have h2 := a.isLt
  have h3 := b.isLt
  have h4 := l.isLt
  unfold Statement
  rw [show encode (.lop3 g d a b l) = asm 0x44000000 [(g.toNat, 23), (d.toNat, 18), (a.toNat, 13), (b.toNat, 8), (l.toNat, 0)] from rfl]
  simp only [asm_cons, asm_nil]
  omega

theorem fshl (g : BitVec 3) (d : BitVec 5) (a : BitVec 5) (b : BitVec 5) (s : BitVec 6) : Statement (.fshl g d a b s) := by
  have h0 := g.isLt
  have h1 := d.isLt
  have h2 := a.isLt
  have h3 := b.isLt
  have h4 := s.isLt
  unfold Statement
  rw [show encode (.fshl g d a b s) = asm 0x60000000 [(g.toNat, 23), (d.toNat, 18), (a.toNat, 13), (b.toNat, 8), (s.toNat, 0)] from rfl]
  simp only [asm_cons, asm_nil]
  omega

theorem fshr (g : BitVec 3) (d : BitVec 5) (a : BitVec 5) (b : BitVec 5) (s : BitVec 6) : Statement (.fshr g d a b s) := by
  have h0 := g.isLt
  have h1 := d.isLt
  have h2 := a.isLt
  have h3 := b.isLt
  have h4 := s.isLt
  unfold Statement
  rw [show encode (.fshr g d a b s) = asm 0x64000000 [(g.toNat, 23), (d.toNat, 18), (a.toNat, 13), (b.toNat, 8), (s.toNat, 0)] from rfl]
  simp only [asm_cons, asm_nil]
  omega

theorem clz (g : BitVec 3) (d : BitVec 5) (a : BitVec 5) : Statement (.clz g d a) := by
  have h0 := g.isLt
  have h1 := d.isLt
  have h2 := a.isLt
  unfold Statement
  rw [show encode (.clz g d a) = asm 0x78000000 [(g.toNat, 23), (d.toNat, 18), (a.toNat, 13)] from rfl]
  simp only [asm_cons, asm_nil]
  omega

theorem popc (g : BitVec 3) (d : BitVec 5) (a : BitVec 5) : Statement (.popc g d a) := by
  have h0 := g.isLt
  have h1 := d.isLt
  have h2 := a.isLt
  unfold Statement
  rw [show encode (.popc g d a) = asm 0x7c000000 [(g.toNat, 23), (d.toNat, 18), (a.toNat, 13)] from rfl]
  simp only [asm_cons, asm_nil]
  omega

theorem sel (g : BitVec 3) (d : BitVec 5) (a : BitVec 5) (b : BitVec 5) (l : BitVec 1) (w : BitVec 3) (c : BitVec 3) : Statement (.sel g d a b l w c) := by
  have h0 := g.isLt
  have h1 := d.isLt
  have h2 := a.isLt
  have h3 := b.isLt
  have h4 := l.isLt
  have h5 := w.isLt
  have h6 := c.isLt
  unfold Statement
  rw [show encode (.sel g d a b l w c) = asm 0x80000000 [(g.toNat, 23), (d.toNat, 18), (a.toNat, 13), (b.toNat, 8), (l.toNat, 7), (w.toNat, 4), (c.toNat, 0)] from rfl]
  simp only [asm_cons, asm_nil]
  omega

theorem movi (g : BitVec 3) (d : BitVec 5) (i : BitVec 18) : Statement (.movi g d i) := by
  have h0 := g.isLt
  have h1 := d.isLt
  have h2 := i.isLt
  unfold Statement
  rw [show encode (.movi g d i) = asm 0x84000000 [(g.toNat, 23), (d.toNat, 18), (i.toNat, 0)] from rfl]
  simp only [asm_cons, asm_nil]
  omega

theorem movhi (g : BitVec 3) (d : BitVec 5) (i : BitVec 18) : Statement (.movhi g d i) := by
  have h0 := g.isLt
  have h1 := d.isLt
  have h2 := i.isLt
  unfold Statement
  rw [show encode (.movhi g d i) = asm 0x88000000 [(g.toNat, 23), (d.toNat, 18), (i.toNat, 0)] from rfl]
  simp only [asm_cons, asm_nil]
  omega

theorem cmp (g : BitVec 3) (d : BitVec 3) (a : BitVec 5) (b : BitVec 5) (l : BitVec 1) (w : BitVec 3) (c : BitVec 4) : Statement (.cmp g d a b l w c) := by
  have h0 := g.isLt
  have h1 := d.isLt
  have h2 := a.isLt
  have h3 := b.isLt
  have h4 := l.isLt
  have h5 := w.isLt
  have h6 := c.isLt
  unfold Statement
  rw [show encode (.cmp g d a b l w c) = asm 0x8c000000 [(g.toNat, 23), (d.toNat, 18), (a.toNat, 13), (b.toNat, 8), (l.toNat, 7), (w.toNat, 4), (c.toNat, 0)] from rfl]
  simp only [asm_cons, asm_nil]
  omega

theorem cmpi (g : BitVec 3) (d : BitVec 3) (a : BitVec 5) (c : BitVec 3) (i : BitVec 10) : Statement (.cmpi g d a c i) := by
  have h0 := g.isLt
  have h1 := d.isLt
  have h2 := a.isLt
  have h3 := c.isLt
  have h4 := i.isLt
  unfold Statement
  rw [show encode (.cmpi g d a c i) = asm 0x90000000 [(g.toNat, 23), (d.toNat, 18), (a.toNat, 13), (c.toNat, 10), (i.toNat, 0)] from rfl]
  simp only [asm_cons, asm_nil]
  omega

theorem plog (g : BitVec 3) (d : BitVec 3) (a : BitVec 3) (b : BitVec 3) (l : BitVec 4) : Statement (.plog g d a b l) := by
  have h0 := g.isLt
  have h1 := d.isLt
  have h2 := a.isLt
  have h3 := b.isLt
  have h4 := l.isLt
  unfold Statement
  rw [show encode (.plog g d a b l) = asm 0x94000000 [(g.toNat, 23), (d.toNat, 18), (a.toNat, 13), (b.toNat, 8), (l.toNat, 0)] from rfl]
  simp only [asm_cons, asm_nil]
  omega

theorem aadd (g : BitVec 3) (d : BitVec 4) (a : BitVec 4) (b : BitVec 5) (l : BitVec 1) (w : BitVec 3) : Statement (.aadd g d a b l w) := by
  have h0 := g.isLt
  have h1 := d.isLt
  have h2 := a.isLt
  have h3 := b.isLt
  have h4 := l.isLt
  have h5 := w.isLt
  unfold Statement
  rw [show encode (.aadd g d a b l w) = asm 0x98000000 [(g.toNat, 23), (d.toNat, 18), (a.toNat, 13), (b.toNat, 8), (l.toNat, 7), (w.toNat, 4)] from rfl]
  simp only [asm_cons, asm_nil]
  omega

theorem aaddi (g : BitVec 3) (d : BitVec 4) (a : BitVec 4) (i : BitVec 13) : Statement (.aaddi g d a i) := by
  have h0 := g.isLt
  have h1 := d.isLt
  have h2 := a.isLt
  have h3 := i.isLt
  unfold Statement
  rw [show encode (.aaddi g d a i) = asm 0x9c000000 [(g.toNat, 23), (d.toNat, 18), (a.toNat, 13), (i.toNat, 0)] from rfl]
  simp only [asm_cons, asm_nil]
  omega

theorem amovToA (g : BitVec 3) (d : BitVec 4) (a : BitVec 5) : Statement (.amovToA g d a) := by
  have h0 := g.isLt
  have h1 := d.isLt
  have h2 := a.isLt
  unfold Statement
  rw [show encode (.amovToA g d a) = asm 0xa0000000 [(g.toNat, 23), (d.toNat, 18), (a.toNat, 13)] from rfl]
  simp only [asm_cons, asm_nil]
  omega

theorem amovToX (g : BitVec 3) (d : BitVec 5) (a : BitVec 4) : Statement (.amovToX g d a) := by
  have h0 := g.isLt
  have h1 := d.isLt
  have h2 := a.isLt
  unfold Statement
  rw [show encode (.amovToX g d a) = asm 0xa0000001 [(g.toNat, 23), (d.toNat, 18), (a.toNat, 13)] from rfl]
  simp only [asm_cons, asm_nil]
  omega

theorem ld (g : BitVec 3) (d : BitVec 5) (a : BitVec 4) (w : BitVec 2) (s : BitVec 1) (o : BitVec 10) : Statement (.ld g d a w s o) := by
  have h0 := g.isLt
  have h1 := d.isLt
  have h2 := a.isLt
  have h3 := w.isLt
  have h4 := s.isLt
  have h5 := o.isLt
  unfold Statement
  rw [show encode (.ld g d a w s o) = asm 0xa4000000 [(g.toNat, 23), (d.toNat, 18), (a.toNat, 13), (w.toNat, 11), (s.toNat, 10), (o.toNat, 0)] from rfl]
  simp only [asm_cons, asm_nil]
  omega

theorem st (g : BitVec 3) (d : BitVec 5) (a : BitVec 4) (w : BitVec 2) (o : BitVec 10) : Statement (.st g d a w o) := by
  have h0 := g.isLt
  have h1 := d.isLt
  have h2 := a.isLt
  have h3 := w.isLt
  have h4 := o.isLt
  unfold Statement
  rw [show encode (.st g d a w o) = asm 0xa8000000 [(g.toNat, 23), (d.toNat, 18), (a.toNat, 13), (w.toNat, 11), (o.toNat, 0)] from rfl]
  simp only [asm_cons, asm_nil]
  omega

theorem lda (g : BitVec 3) (d : BitVec 4) (a : BitVec 4) (o : BitVec 10) : Statement (.lda g d a o) := by
  have h0 := g.isLt
  have h1 := d.isLt
  have h2 := a.isLt
  have h3 := o.isLt
  unfold Statement
  rw [show encode (.lda g d a o) = asm 0xac001800 [(g.toNat, 23), (d.toNat, 18), (a.toNat, 13), (o.toNat, 0)] from rfl]
  simp only [asm_cons, asm_nil]
  omega

theorem sta (g : BitVec 3) (d : BitVec 4) (a : BitVec 4) (o : BitVec 10) : Statement (.sta g d a o) := by
  have h0 := g.isLt
  have h1 := d.isLt
  have h2 := a.isLt
  have h3 := o.isLt
  unfold Statement
  rw [show encode (.sta g d a o) = asm 0xb0001800 [(g.toNat, 23), (d.toNat, 18), (a.toNat, 13), (o.toNat, 0)] from rfl]
  simp only [asm_cons, asm_nil]
  omega

theorem vadd (g : BitVec 3) (d : BitVec 5) (a : BitVec 5) (b : BitVec 5) (k : BitVec 3) (f : BitVec 3) (j : BitVec 1) (s : BitVec 1) : Statement (.vadd g d a b k f j s) := by
  have h0 := g.isLt
  have h1 := d.isLt
  have h2 := a.isLt
  have h3 := b.isLt
  have h4 := k.isLt
  have h5 := f.isLt
  have h6 := j.isLt
  have h7 := s.isLt
  unfold Statement
  rw [show encode (.vadd g d a b k f j s) = asm 0x4000000 [(g.toNat, 23), (d.toNat, 18), (a.toNat, 13), (b.toNat, 8), (k.toNat, 5), (f.toNat, 2), (j.toNat, 1), (s.toNat, 0)] from rfl]
  simp only [asm_cons, asm_nil]
  omega

theorem vsub (g : BitVec 3) (d : BitVec 5) (a : BitVec 5) (b : BitVec 5) (k : BitVec 3) (f : BitVec 3) (j : BitVec 1) (s : BitVec 1) : Statement (.vsub g d a b k f j s) := by
  have h0 := g.isLt
  have h1 := d.isLt
  have h2 := a.isLt
  have h3 := b.isLt
  have h4 := k.isLt
  have h5 := f.isLt
  have h6 := j.isLt
  have h7 := s.isLt
  unfold Statement
  rw [show encode (.vsub g d a b k f j s) = asm 0x8000000 [(g.toNat, 23), (d.toNat, 18), (a.toNat, 13), (b.toNat, 8), (k.toNat, 5), (f.toNat, 2), (j.toNat, 1), (s.toNat, 0)] from rfl]
  simp only [asm_cons, asm_nil]
  omega

theorem vmul (g : BitVec 3) (d : BitVec 5) (a : BitVec 5) (b : BitVec 5) (k : BitVec 3) (f : BitVec 3) (j : BitVec 1) (s : BitVec 1) : Statement (.vmul g d a b k f j s) := by
  have h0 := g.isLt
  have h1 := d.isLt
  have h2 := a.isLt
  have h3 := b.isLt
  have h4 := k.isLt
  have h5 := f.isLt
  have h6 := j.isLt
  have h7 := s.isLt
  unfold Statement
  rw [show encode (.vmul g d a b k f j s) = asm 0xc000000 [(g.toNat, 23), (d.toNat, 18), (a.toNat, 13), (b.toNat, 8), (k.toNat, 5), (f.toNat, 2), (j.toNat, 1), (s.toNat, 0)] from rfl]
  simp only [asm_cons, asm_nil]
  omega

theorem vfma (g : BitVec 3) (d : BitVec 5) (a : BitVec 5) (b : BitVec 5) (c : BitVec 5) (f : BitVec 3) : Statement (.vfma g d a b c f) := by
  have h0 := g.isLt
  have h1 := d.isLt
  have h2 := a.isLt
  have h3 := b.isLt
  have h4 := c.isLt
  have h5 := f.isLt
  unfold Statement
  rw [show encode (.vfma g d a b c f) = asm 0x10000000 [(g.toNat, 23), (d.toNat, 18), (a.toNat, 13), (b.toNat, 8), (c.toNat, 3), (f.toNat, 0)] from rfl]
  simp only [asm_cons, asm_nil]
  omega

theorem vfms (g : BitVec 3) (d : BitVec 5) (a : BitVec 5) (b : BitVec 5) (c : BitVec 5) (f : BitVec 3) : Statement (.vfms g d a b c f) := by
  have h0 := g.isLt
  have h1 := d.isLt
  have h2 := a.isLt
  have h3 := b.isLt
  have h4 := c.isLt
  have h5 := f.isLt
  unfold Statement
  rw [show encode (.vfms g d a b c f) = asm 0x14000000 [(g.toNat, 23), (d.toNat, 18), (a.toNat, 13), (b.toNat, 8), (c.toNat, 3), (f.toNat, 0)] from rfl]
  simp only [asm_cons, asm_nil]
  omega

theorem vfnma (g : BitVec 3) (d : BitVec 5) (a : BitVec 5) (b : BitVec 5) (c : BitVec 5) (f : BitVec 3) : Statement (.vfnma g d a b c f) := by
  have h0 := g.isLt
  have h1 := d.isLt
  have h2 := a.isLt
  have h3 := b.isLt
  have h4 := c.isLt
  have h5 := f.isLt
  unfold Statement
  rw [show encode (.vfnma g d a b c f) = asm 0x18000000 [(g.toNat, 23), (d.toNat, 18), (a.toNat, 13), (b.toNat, 8), (c.toNat, 3), (f.toNat, 0)] from rfl]
  simp only [asm_cons, asm_nil]
  omega

theorem vdiv (g : BitVec 3) (d : BitVec 5) (a : BitVec 5) (b : BitVec 5) (k : BitVec 3) (f : BitVec 3) (j : BitVec 1) : Statement (.vdiv g d a b k f j) := by
  have h0 := g.isLt
  have h1 := d.isLt
  have h2 := a.isLt
  have h3 := b.isLt
  have h4 := k.isLt
  have h5 := f.isLt
  have h6 := j.isLt
  unfold Statement
  rw [show encode (.vdiv g d a b k f j) = asm 0x1c000000 [(g.toNat, 23), (d.toNat, 18), (a.toNat, 13), (b.toNat, 8), (k.toNat, 5), (f.toNat, 2), (j.toNat, 1)] from rfl]
  simp only [asm_cons, asm_nil]
  omega

theorem vsqrt (g : BitVec 3) (d : BitVec 5) (a : BitVec 5) (k : BitVec 3) (f : BitVec 3) (j : BitVec 1) : Statement (.vsqrt g d a k f j) := by
  have h0 := g.isLt
  have h1 := d.isLt
  have h2 := a.isLt
  have h3 := k.isLt
  have h4 := f.isLt
  have h5 := j.isLt
  unfold Statement
  rw [show encode (.vsqrt g d a k f j) = asm 0x20000000 [(g.toNat, 23), (d.toNat, 18), (a.toNat, 13), (k.toNat, 5), (f.toNat, 2), (j.toNat, 1)] from rfl]
  simp only [asm_cons, asm_nil]
  omega

theorem vrsq (g : BitVec 3) (d : BitVec 5) (a : BitVec 5) (k : BitVec 3) (f : BitVec 3) (j : BitVec 1) : Statement (.vrsq g d a k f j) := by
  have h0 := g.isLt
  have h1 := d.isLt
  have h2 := a.isLt
  have h3 := k.isLt
  have h4 := f.isLt
  have h5 := j.isLt
  unfold Statement
  rw [show encode (.vrsq g d a k f j) = asm 0x24000000 [(g.toNat, 23), (d.toNat, 18), (a.toNat, 13), (k.toNat, 5), (f.toNat, 2), (j.toNat, 1)] from rfl]
  simp only [asm_cons, asm_nil]
  omega

theorem vrcp (g : BitVec 3) (d : BitVec 5) (a : BitVec 5) (k : BitVec 3) (f : BitVec 3) (j : BitVec 1) : Statement (.vrcp g d a k f j) := by
  have h0 := g.isLt
  have h1 := d.isLt
  have h2 := a.isLt
  have h3 := k.isLt
  have h4 := f.isLt
  have h5 := j.isLt
  unfold Statement
  rw [show encode (.vrcp g d a k f j) = asm 0x28000000 [(g.toNat, 23), (d.toNat, 18), (a.toNat, 13), (k.toNat, 5), (f.toNat, 2), (j.toNat, 1)] from rfl]
  simp only [asm_cons, asm_nil]
  omega

theorem vmin (g : BitVec 3) (d : BitVec 5) (a : BitVec 5) (b : BitVec 5) (k : BitVec 3) (f : BitVec 3) (j : BitVec 1) : Statement (.vmin g d a b k f j) := by
  have h0 := g.isLt
  have h1 := d.isLt
  have h2 := a.isLt
  have h3 := b.isLt
  have h4 := k.isLt
  have h5 := f.isLt
  have h6 := j.isLt
  unfold Statement
  rw [show encode (.vmin g d a b k f j) = asm 0x2c000000 [(g.toNat, 23), (d.toNat, 18), (a.toNat, 13), (b.toNat, 8), (k.toNat, 5), (f.toNat, 2), (j.toNat, 1)] from rfl]
  simp only [asm_cons, asm_nil]
  omega

theorem vmax (g : BitVec 3) (d : BitVec 5) (a : BitVec 5) (b : BitVec 5) (k : BitVec 3) (f : BitVec 3) (j : BitVec 1) : Statement (.vmax g d a b k f j) := by
  have h0 := g.isLt
  have h1 := d.isLt
  have h2 := a.isLt
  have h3 := b.isLt
  have h4 := k.isLt
  have h5 := f.isLt
  have h6 := j.isLt
  unfold Statement
  rw [show encode (.vmax g d a b k f j) = asm 0x30000000 [(g.toNat, 23), (d.toNat, 18), (a.toNat, 13), (b.toNat, 8), (k.toNat, 5), (f.toNat, 2), (j.toNat, 1)] from rfl]
  simp only [asm_cons, asm_nil]
  omega

theorem vabs (g : BitVec 3) (d : BitVec 5) (a : BitVec 5) (k : BitVec 3) (f : BitVec 3) (j : BitVec 1) (s : BitVec 1) : Statement (.vabs g d a k f j s) := by
  have h0 := g.isLt
  have h1 := d.isLt
  have h2 := a.isLt
  have h3 := k.isLt
  have h4 := f.isLt
  have h5 := j.isLt
  have h6 := s.isLt
  unfold Statement
  rw [show encode (.vabs g d a k f j s) = asm 0x34000000 [(g.toNat, 23), (d.toNat, 18), (a.toNat, 13), (k.toNat, 5), (f.toNat, 2), (j.toNat, 1), (s.toNat, 0)] from rfl]
  simp only [asm_cons, asm_nil]
  omega

theorem vneg (g : BitVec 3) (d : BitVec 5) (a : BitVec 5) (k : BitVec 3) (f : BitVec 3) (j : BitVec 1) (s : BitVec 1) : Statement (.vneg g d a k f j s) := by
  have h0 := g.isLt
  have h1 := d.isLt
  have h2 := a.isLt
  have h3 := k.isLt
  have h4 := f.isLt
  have h5 := j.isLt
  have h6 := s.isLt
  unfold Statement
  rw [show encode (.vneg g d a k f j s) = asm 0x38000000 [(g.toNat, 23), (d.toNat, 18), (a.toNat, 13), (k.toNat, 5), (f.toNat, 2), (j.toNat, 1), (s.toNat, 0)] from rfl]
  simp only [asm_cons, asm_nil]
  omega

theorem vcmp (g : BitVec 3) (d : BitVec 3) (a : BitVec 5) (b : BitVec 5) (c : BitVec 3) (f : BitVec 3) (u : BitVec 1) (y : BitVec 1) : Statement (.vcmp g d a b c f u y) := by
  have h0 := g.isLt
  have h1 := d.isLt
  have h2 := a.isLt
  have h3 := b.isLt
  have h4 := c.isLt
  have h5 := f.isLt
  have h6 := u.isLt
  have h7 := y.isLt
  unfold Statement
  rw [show encode (.vcmp g d a b c f u y) = asm 0x3c000000 [(g.toNat, 23), (d.toNat, 18), (a.toNat, 13), (b.toNat, 8), (c.toNat, 5), (f.toNat, 2), (u.toNat, 1), (y.toNat, 0)] from rfl]
  simp only [asm_cons, asm_nil]
  omega

theorem vsel (g : BitVec 3) (d : BitVec 5) (a : BitVec 5) (b : BitVec 5) (k : BitVec 3) (f : BitVec 3) (j : BitVec 1) : Statement (.vsel g d a b k f j) := by
  have h0 := g.isLt
  have h1 := d.isLt
  have h2 := a.isLt
  have h3 := b.isLt
  have h4 := k.isLt
  have h5 := f.isLt
  have h6 := j.isLt
  unfold Statement
  rw [show encode (.vsel g d a b k f j) = asm 0x40000000 [(g.toNat, 23), (d.toNat, 18), (a.toNat, 13), (b.toNat, 8), (k.toNat, 5), (f.toNat, 2), (j.toNat, 1)] from rfl]
  simp only [asm_cons, asm_nil]
  omega

theorem vexp (g : BitVec 3) (d : BitVec 5) (a : BitVec 5) (k : BitVec 3) (j : BitVec 1) : Statement (.vexp g d a k j) := by
  have h0 := g.isLt
  have h1 := d.isLt
  have h2 := a.isLt
  have h3 := k.isLt
  have h4 := j.isLt
  unfold Statement
  rw [show encode (.vexp g d a k j) = asm 0x44000000 [(g.toNat, 23), (d.toNat, 18), (a.toNat, 13), (k.toNat, 5), (j.toNat, 1)] from rfl]
  simp only [asm_cons, asm_nil]
  omega

theorem vlog (g : BitVec 3) (d : BitVec 5) (a : BitVec 5) (k : BitVec 3) (j : BitVec 1) : Statement (.vlog g d a k j) := by
  have h0 := g.isLt
  have h1 := d.isLt
  have h2 := a.isLt
  have h3 := k.isLt
  have h4 := j.isLt
  unfold Statement
  rw [show encode (.vlog g d a k j) = asm 0x48000000 [(g.toNat, 23), (d.toNat, 18), (a.toNat, 13), (k.toNat, 5), (j.toNat, 1)] from rfl]
  simp only [asm_cons, asm_nil]
  omega

theorem vsin (g : BitVec 3) (d : BitVec 5) (a : BitVec 5) (k : BitVec 3) (j : BitVec 1) : Statement (.vsin g d a k j) := by
  have h0 := g.isLt
  have h1 := d.isLt
  have h2 := a.isLt
  have h3 := k.isLt
  have h4 := j.isLt
  unfold Statement
  rw [show encode (.vsin g d a k j) = asm 0x4c000000 [(g.toNat, 23), (d.toNat, 18), (a.toNat, 13), (k.toNat, 5), (j.toNat, 1)] from rfl]
  simp only [asm_cons, asm_nil]
  omega

theorem vcos (g : BitVec 3) (d : BitVec 5) (a : BitVec 5) (k : BitVec 3) (j : BitVec 1) : Statement (.vcos g d a k j) := by
  have h0 := g.isLt
  have h1 := d.isLt
  have h2 := a.isLt
  have h3 := k.isLt
  have h4 := j.isLt
  unfold Statement
  rw [show encode (.vcos g d a k j) = asm 0x50000000 [(g.toNat, 23), (d.toNat, 18), (a.toNat, 13), (k.toNat, 5), (j.toNat, 1)] from rfl]
  simp only [asm_cons, asm_nil]
  omega

theorem vtanh (g : BitVec 3) (d : BitVec 5) (a : BitVec 5) (k : BitVec 3) (j : BitVec 1) : Statement (.vtanh g d a k j) := by
  have h0 := g.isLt
  have h1 := d.isLt
  have h2 := a.isLt
  have h3 := k.isLt
  have h4 := j.isLt
  unfold Statement
  rw [show encode (.vtanh g d a k j) = asm 0x54000000 [(g.toNat, 23), (d.toNat, 18), (a.toNat, 13), (k.toNat, 5), (j.toNat, 1)] from rfl]
  simp only [asm_cons, asm_nil]
  omega

theorem verf (g : BitVec 3) (d : BitVec 5) (a : BitVec 5) (k : BitVec 3) (j : BitVec 1) : Statement (.verf g d a k j) := by
  have h0 := g.isLt
  have h1 := d.isLt
  have h2 := a.isLt
  have h3 := k.isLt
  have h4 := j.isLt
  unfold Statement
  rw [show encode (.verf g d a k j) = asm 0x58000000 [(g.toNat, 23), (d.toNat, 18), (a.toNat, 13), (k.toNat, 5), (j.toNat, 1)] from rfl]
  simp only [asm_cons, asm_nil]
  omega

theorem vsigm (g : BitVec 3) (d : BitVec 5) (a : BitVec 5) (k : BitVec 3) (j : BitVec 1) : Statement (.vsigm g d a k j) := by
  have h0 := g.isLt
  have h1 := d.isLt
  have h2 := a.isLt
  have h3 := k.isLt
  have h4 := j.isLt
  unfold Statement
  rw [show encode (.vsigm g d a k j) = asm 0x5c000000 [(g.toNat, 23), (d.toNat, 18), (a.toNat, 13), (k.toNat, 5), (j.toNat, 1)] from rfl]
  simp only [asm_cons, asm_nil]
  omega

theorem vqtz (g : BitVec 3) (d : BitVec 5) (a : BitVec 5) (b : BitVec 5) (k : BitVec 3) : Statement (.vqtz g d a b k) := by
  have h0 := g.isLt
  have h1 := d.isLt
  have h2 := a.isLt
  have h3 := b.isLt
  have h4 := k.isLt
  unfold Statement
  rw [show encode (.vqtz g d a b k) = asm 0x60000010 [(g.toNat, 23), (d.toNat, 18), (a.toNat, 13), (b.toNat, 8), (k.toNat, 5)] from rfl]
  simp only [asm_cons, asm_nil]
  omega

theorem vcvt (g : BitVec 3) (d : BitVec 5) (a : BitVec 5) (s : BitVec 5) (k : BitVec 3) (t : BitVec 5) : Statement (.vcvt g d a s k t) := by
  have h0 := g.isLt
  have h1 := d.isLt
  have h2 := a.isLt
  have h3 := s.isLt
  have h4 := k.isLt
  have h5 := t.isLt
  unfold Statement
  rw [show encode (.vcvt g d a s k t) = asm 0x64000000 [(g.toNat, 23), (d.toNat, 18), (a.toNat, 13), (s.toNat, 8), (k.toNat, 5), (t.toNat, 0)] from rfl]
  simp only [asm_cons, asm_nil]
  omega

theorem vand (g : BitVec 3) (d : BitVec 5) (a : BitVec 5) (b : BitVec 5) (k : BitVec 3) (f : BitVec 3) : Statement (.vand g d a b k f) := by
  have h0 := g.isLt
  have h1 := d.isLt
  have h2 := a.isLt
  have h3 := b.isLt
  have h4 := k.isLt
  have h5 := f.isLt
  unfold Statement
  rw [show encode (.vand g d a b k f) = asm 0x68000000 [(g.toNat, 23), (d.toNat, 18), (a.toNat, 13), (b.toNat, 8), (k.toNat, 5), (f.toNat, 2)] from rfl]
  simp only [asm_cons, asm_nil]
  omega

theorem vor (g : BitVec 3) (d : BitVec 5) (a : BitVec 5) (b : BitVec 5) (k : BitVec 3) (f : BitVec 3) : Statement (.vor g d a b k f) := by
  have h0 := g.isLt
  have h1 := d.isLt
  have h2 := a.isLt
  have h3 := b.isLt
  have h4 := k.isLt
  have h5 := f.isLt
  unfold Statement
  rw [show encode (.vor g d a b k f) = asm 0x6c000000 [(g.toNat, 23), (d.toNat, 18), (a.toNat, 13), (b.toNat, 8), (k.toNat, 5), (f.toNat, 2)] from rfl]
  simp only [asm_cons, asm_nil]
  omega

theorem vxor (g : BitVec 3) (d : BitVec 5) (a : BitVec 5) (b : BitVec 5) (k : BitVec 3) (f : BitVec 3) : Statement (.vxor g d a b k f) := by
  have h0 := g.isLt
  have h1 := d.isLt
  have h2 := a.isLt
  have h3 := b.isLt
  have h4 := k.isLt
  have h5 := f.isLt
  unfold Statement
  rw [show encode (.vxor g d a b k f) = asm 0x70000000 [(g.toNat, 23), (d.toNat, 18), (a.toNat, 13), (b.toNat, 8), (k.toNat, 5), (f.toNat, 2)] from rfl]
  simp only [asm_cons, asm_nil]
  omega

theorem vlop3 (g : BitVec 3) (d : BitVec 5) (a : BitVec 5) (b : BitVec 5) (l : BitVec 8) : Statement (.vlop3 g d a b l) := by
  have h0 := g.isLt
  have h1 := d.isLt
  have h2 := a.isLt
  have h3 := b.isLt
  have h4 := l.isLt
  unfold Statement
  rw [show encode (.vlop3 g d a b l) = asm 0x74000000 [(g.toNat, 23), (d.toNat, 18), (a.toNat, 13), (b.toNat, 8), (l.toNat, 0)] from rfl]
  simp only [asm_cons, asm_nil]
  omega

theorem vshl (g : BitVec 3) (d : BitVec 5) (a : BitVec 5) (b : BitVec 5) (k : BitVec 3) (f : BitVec 3) : Statement (.vshl g d a b k f) := by
  have h0 := g.isLt
  have h1 := d.isLt
  have h2 := a.isLt
  have h3 := b.isLt
  have h4 := k.isLt
  have h5 := f.isLt
  unfold Statement
  rw [show encode (.vshl g d a b k f) = asm 0x78000000 [(g.toNat, 23), (d.toNat, 18), (a.toNat, 13), (b.toNat, 8), (k.toNat, 5), (f.toNat, 2)] from rfl]
  simp only [asm_cons, asm_nil]
  omega

theorem vshr (g : BitVec 3) (d : BitVec 5) (a : BitVec 5) (b : BitVec 5) (k : BitVec 3) (f : BitVec 3) : Statement (.vshr g d a b k f) := by
  have h0 := g.isLt
  have h1 := d.isLt
  have h2 := a.isLt
  have h3 := b.isLt
  have h4 := k.isLt
  have h5 := f.isLt
  unfold Statement
  rw [show encode (.vshr g d a b k f) = asm 0x7c000000 [(g.toNat, 23), (d.toNat, 18), (a.toNat, 13), (b.toNat, 8), (k.toNat, 5), (f.toNat, 2)] from rfl]
  simp only [asm_cons, asm_nil]
  omega

theorem vsar (g : BitVec 3) (d : BitVec 5) (a : BitVec 5) (b : BitVec 5) (k : BitVec 3) (f : BitVec 3) : Statement (.vsar g d a b k f) := by
  have h0 := g.isLt
  have h1 := d.isLt
  have h2 := a.isLt
  have h3 := b.isLt
  have h4 := k.isLt
  have h5 := f.isLt
  unfold Statement
  rw [show encode (.vsar g d a b k f) = asm 0x80000000 [(g.toNat, 23), (d.toNat, 18), (a.toNat, 13), (b.toNat, 8), (k.toNat, 5), (f.toNat, 2)] from rfl]
  simp only [asm_cons, asm_nil]
  omega

theorem vfshl (g : BitVec 3) (d : BitVec 5) (a : BitVec 5) (b : BitVec 5) (c : BitVec 5) (f : BitVec 3) : Statement (.vfshl g d a b c f) := by
  have h0 := g.isLt
  have h1 := d.isLt
  have h2 := a.isLt
  have h3 := b.isLt
  have h4 := c.isLt
  have h5 := f.isLt
  unfold Statement
  rw [show encode (.vfshl g d a b c f) = asm 0x84000000 [(g.toNat, 23), (d.toNat, 18), (a.toNat, 13), (b.toNat, 8), (c.toNat, 3), (f.toNat, 0)] from rfl]
  simp only [asm_cons, asm_nil]
  omega

theorem vfshr (g : BitVec 3) (d : BitVec 5) (a : BitVec 5) (b : BitVec 5) (c : BitVec 5) (f : BitVec 3) : Statement (.vfshr g d a b c f) := by
  have h0 := g.isLt
  have h1 := d.isLt
  have h2 := a.isLt
  have h3 := b.isLt
  have h4 := c.isLt
  have h5 := f.isLt
  unfold Statement
  rw [show encode (.vfshr g d a b c f) = asm 0x88000000 [(g.toNat, 23), (d.toNat, 18), (a.toNat, 13), (b.toNat, 8), (c.toNat, 3), (f.toNat, 0)] from rfl]
  simp only [asm_cons, asm_nil]
  omega

theorem vpopc (g : BitVec 3) (d : BitVec 5) (a : BitVec 5) (k : BitVec 3) (f : BitVec 3) : Statement (.vpopc g d a k f) := by
  have h0 := g.isLt
  have h1 := d.isLt
  have h2 := a.isLt
  have h3 := k.isLt
  have h4 := f.isLt
  unfold Statement
  rw [show encode (.vpopc g d a k f) = asm 0x8c000000 [(g.toNat, 23), (d.toNat, 18), (a.toNat, 13), (k.toNat, 5), (f.toNat, 2)] from rfl]
  simp only [asm_cons, asm_nil]
  omega

theorem vclz (g : BitVec 3) (d : BitVec 5) (a : BitVec 5) (k : BitVec 3) (f : BitVec 3) : Statement (.vclz g d a k f) := by
  have h0 := g.isLt
  have h1 := d.isLt
  have h2 := a.isLt
  have h3 := k.isLt
  have h4 := f.isLt
  unfold Statement
  rw [show encode (.vclz g d a k f) = asm 0x90000000 [(g.toNat, 23), (d.toNat, 18), (a.toNat, 13), (k.toNat, 5), (f.toNat, 2)] from rfl]
  simp only [asm_cons, asm_nil]
  omega

theorem vmov (g : BitVec 3) (d : BitVec 5) (a : BitVec 5) (k : BitVec 3) : Statement (.vmov g d a k) := by
  have h0 := g.isLt
  have h1 := d.isLt
  have h2 := a.isLt
  have h3 := k.isLt
  unfold Statement
  rw [show encode (.vmov g d a k) = asm 0x94000014 [(g.toNat, 23), (d.toNat, 18), (a.toNat, 13), (k.toNat, 5)] from rfl]
  simp only [asm_cons, asm_nil]
  omega

theorem vmovL (g : BitVec 3) (d : BitVec 5) (q : BitVec 3) (r : BitVec 4) (k : BitVec 3) (t : BitVec 2) : Statement (.vmovL g d q r k t) := by
  have h0 := g.isLt
  have h1 := d.isLt
  have h2 := q.isLt
  have h3 := r.isLt
  have h4 := k.isLt
  have h5 := t.isLt
  unfold Statement
  rw [show encode (.vmovL g d q r k t) = asm 0x94000002 [(g.toNat, 23), (d.toNat, 18), (q.toNat, 13), (r.toNat, 8), (k.toNat, 5), (t.toNat, 2)] from rfl]
  simp only [asm_cons, asm_nil]
  omega

theorem vbrow (g : BitVec 3) (d : BitVec 5) (a : BitVec 5) (n : BitVec 4) (k : BitVec 3) : Statement (.vbrow g d a n k) := by
  have h0 := g.isLt
  have h1 := d.isLt
  have h2 := a.isLt
  have h3 := n.isLt
  have h4 := k.isLt
  unfold Statement
  rw [show encode (.vbrow g d a n k) = asm 0x98000014 [(g.toNat, 23), (d.toNat, 18), (a.toNat, 13), (n.toNat, 8), (k.toNat, 5)] from rfl]
  simp only [asm_cons, asm_nil]
  omega

theorem vbcol (g : BitVec 3) (d : BitVec 5) (a : BitVec 5) (n : BitVec 5) (k : BitVec 3) (h : BitVec 1) : Statement (.vbcol g d a n k h) := by
  have h0 := g.isLt
  have h1 := d.isLt
  have h2 := a.isLt
  have h3 := n.isLt
  have h4 := k.isLt
  have h5 := h.isLt
  unfold Statement
  rw [show encode (.vbcol g d a n k h) = asm 0x9c000014 [(g.toNat, 23), (d.toNat, 18), (a.toNat, 13), (n.toNat, 8), (k.toNat, 5), (h.toNat, 0)] from rfl]
  simp only [asm_cons, asm_nil]
  omega

theorem vrotr (g : BitVec 3) (d : BitVec 5) (a : BitVec 5) (n : BitVec 5) (k : BitVec 3) (h : BitVec 1) : Statement (.vrotr g d a n k h) := by
  have h0 := g.isLt
  have h1 := d.isLt
  have h2 := a.isLt
  have h3 := n.isLt
  have h4 := k.isLt
  have h5 := h.isLt
  unfold Statement
  rw [show encode (.vrotr g d a n k h) = asm 0xa0000014 [(g.toNat, 23), (d.toNat, 18), (a.toNat, 13), (n.toNat, 8), (k.toNat, 5), (h.toNat, 0)] from rfl]
  simp only [asm_cons, asm_nil]
  omega

theorem vrotc (g : BitVec 3) (d : BitVec 5) (a : BitVec 5) (n : BitVec 4) (k : BitVec 3) : Statement (.vrotc g d a n k) := by
  have h0 := g.isLt
  have h1 := d.isLt
  have h2 := a.isLt
  have h3 := n.isLt
  have h4 := k.isLt
  unfold Statement
  rw [show encode (.vrotc g d a n k) = asm 0xa4000014 [(g.toNat, 23), (d.toNat, 18), (a.toNat, 13), (n.toNat, 8), (k.toNat, 5)] from rfl]
  simp only [asm_cons, asm_nil]
  omega

theorem vredr (g : BitVec 3) (d : BitVec 5) (a : BitVec 5) (o : BitVec 5) (k : BitVec 3) (f : BitVec 3) (j : BitVec 1) (s : BitVec 1) : Statement (.vredr g d a o k f j s) := by
  have h0 := g.isLt
  have h1 := d.isLt
  have h2 := a.isLt
  have h3 := o.isLt
  have h4 := k.isLt
  have h5 := f.isLt
  have h6 := j.isLt
  have h7 := s.isLt
  unfold Statement
  rw [show encode (.vredr g d a o k f j s) = asm 0xa8000000 [(g.toNat, 23), (d.toNat, 18), (a.toNat, 13), (o.toNat, 8), (k.toNat, 5), (f.toNat, 2), (j.toNat, 1), (s.toNat, 0)] from rfl]
  simp only [asm_cons, asm_nil]
  omega

theorem vredc (g : BitVec 3) (d : BitVec 5) (a : BitVec 5) (o : BitVec 5) (k : BitVec 3) (f : BitVec 3) (j : BitVec 1) (s : BitVec 1) : Statement (.vredc g d a o k f j s) := by
  have h0 := g.isLt
  have h1 := d.isLt
  have h2 := a.isLt
  have h3 := o.isLt
  have h4 := k.isLt
  have h5 := f.isLt
  have h6 := j.isLt
  have h7 := s.isLt
  unfold Statement
  rw [show encode (.vredc g d a o k f j s) = asm 0xac000000 [(g.toNat, 23), (d.toNat, 18), (a.toNat, 13), (o.toNat, 8), (k.toNat, 5), (f.toNat, 2), (j.toNat, 1), (s.toNat, 0)] from rfl]
  simp only [asm_cons, asm_nil]
  omega

theorem vtrn (g : BitVec 3) (d : BitVec 5) (a : BitVec 5) (k : BitVec 3) : Statement (.vtrn g d a k) := by
  have h0 := g.isLt
  have h1 := d.isLt
  have h2 := a.isLt
  have h3 := k.isLt
  unfold Statement
  rw [show encode (.vtrn g d a k) = asm 0xb0000014 [(g.toNat, 23), (d.toNat, 18), (a.toNat, 13), (k.toNat, 5)] from rfl]
  simp only [asm_cons, asm_nil]
  omega

theorem vperm (g : BitVec 3) (d : BitVec 5) (a : BitVec 5) (b : BitVec 5) (k : BitVec 3) : Statement (.vperm g d a b k) := by
  have h0 := g.isLt
  have h1 := d.isLt
  have h2 := a.isLt
  have h3 := b.isLt
  have h4 := k.isLt
  unfold Statement
  rw [show encode (.vperm g d a b k) = asm 0xb4000014 [(g.toNat, 23), (d.toNat, 18), (a.toNat, 13), (b.toNat, 8), (k.toNat, 5)] from rfl]
  simp only [asm_cons, asm_nil]
  omega

theorem viota (g : BitVec 3) (d : BitVec 5) (k : BitVec 3) (f : BitVec 3) : Statement (.viota g d k f) := by
  have h0 := g.isLt
  have h1 := d.isLt
  have h2 := k.isLt
  have h3 := f.isLt
  unfold Statement
  rw [show encode (.viota g d k f) = asm 0xb8000000 [(g.toNat, 23), (d.toNat, 18), (k.toNat, 5), (f.toNat, 2)] from rfl]
  simp only [asm_cons, asm_nil]
  omega

theorem vins (g : BitVec 3) (d : BitVec 5) (a : BitVec 5) (b : BitVec 5) (f : BitVec 3) : Statement (.vins g d a b f) := by
  have h0 := g.isLt
  have h1 := d.isLt
  have h2 := a.isLt
  have h3 := b.isLt
  have h4 := f.isLt
  unfold Statement
  rw [show encode (.vins g d a b f) = asm 0xbc000000 [(g.toNat, 23), (d.toNat, 18), (a.toNat, 13), (b.toNat, 8), (f.toNat, 2)] from rfl]
  simp only [asm_cons, asm_nil]
  omega

theorem vext (g : BitVec 3) (d : BitVec 5) (a : BitVec 5) (b : BitVec 5) (f : BitVec 3) (u : BitVec 1) : Statement (.vext g d a b f u) := by
  have h0 := g.isLt
  have h1 := d.isLt
  have h2 := a.isLt
  have h3 := b.isLt
  have h4 := f.isLt
  have h5 := u.isLt
  unfold Statement
  rw [show encode (.vext g d a b f u) = asm 0xc0000000 [(g.toNat, 23), (d.toNat, 18), (a.toNat, 13), (b.toNat, 8), (f.toNat, 2), (u.toNat, 1)] from rfl]
  simp only [asm_cons, asm_nil]
  omega

theorem vbmax (g : BitVec 3) (d : BitVec 5) (a : BitVec 5) (f : BitVec 3) (t : BitVec 2) : Statement (.vbmax g d a f t) := by
  have h0 := g.isLt
  have h1 := d.isLt
  have h2 := a.isLt
  have h3 := f.isLt
  have h4 := t.isLt
  unfold Statement
  rw [show encode (.vbmax g d a f t) = asm 0xc4000000 [(g.toNat, 23), (d.toNat, 18), (a.toNat, 13), (f.toNat, 2), (t.toNat, 0)] from rfl]
  simp only [asm_cons, asm_nil]
  omega

theorem vqnt (g : BitVec 3) (d : BitVec 5) (a : BitVec 5) (b : BitVec 5) (s : BitVec 1) (p : BitVec 2) (f : BitVec 3) (t : BitVec 2) : Statement (.vqnt g d a b s p f t) := by
  have h0 := g.isLt
  have h1 := d.isLt
  have h2 := a.isLt
  have h3 := b.isLt
  have h4 := s.isLt
  have h5 := p.isLt
  have h6 := f.isLt
  have h7 := t.isLt
  unfold Statement
  rw [show encode (.vqnt g d a b s p f t) = asm 0xc8000000 [(g.toNat, 23), (d.toNat, 18), (a.toNat, 13), (b.toNat, 8), (s.toNat, 7), (p.toNat, 5), (f.toNat, 2), (t.toNat, 0)] from rfl]
  simp only [asm_cons, asm_nil]
  omega

theorem vdqnt (g : BitVec 3) (d : BitVec 5) (a : BitVec 5) (b : BitVec 5) (p : BitVec 2) (f : BitVec 3) (s : BitVec 2) : Statement (.vdqnt g d a b p f s) := by
  have h0 := g.isLt
  have h1 := d.isLt
  have h2 := a.isLt
  have h3 := b.isLt
  have h4 := p.isLt
  have h5 := f.isLt
  have h6 := s.isLt
  unfold Statement
  rw [show encode (.vdqnt g d a b p f s) = asm 0xcc000000 [(g.toNat, 23), (d.toNat, 18), (a.toNat, 13), (b.toNat, 8), (p.toNat, 5), (f.toNat, 2), (s.toNat, 0)] from rfl]
  simp only [asm_cons, asm_nil]
  omega

theorem vld (g : BitVec 3) (d : BitVec 5) (a : BitVec 4) (k : BitVec 3) (m : BitVec 1) (o : BitVec 10) : Statement (.vld g d a k m o) := by
  have h0 := g.isLt
  have h1 := d.isLt
  have h2 := a.isLt
  have h3 := k.isLt
  have h4 := m.isLt
  have h5 := o.isLt
  unfold Statement
  rw [show encode (.vld g d a k m o) = asm 0xd0000000 [(g.toNat, 23), (d.toNat, 18), (a.toNat, 14), (k.toNat, 11), (m.toNat, 10), (o.toNat, 0)] from rfl]
  simp only [asm_cons, asm_nil]
  omega

theorem vst (g : BitVec 3) (d : BitVec 5) (a : BitVec 4) (o : BitVec 10) : Statement (.vst g d a o) := by
  have h0 := g.isLt
  have h1 := d.isLt
  have h2 := a.isLt
  have h3 := o.isLt
  unfold Statement
  rw [show encode (.vst g d a o) = asm 0xd4000000 [(g.toNat, 23), (d.toNat, 18), (a.toNat, 14), (o.toNat, 0)] from rfl]
  simp only [asm_cons, asm_nil]
  omega

theorem vldx (g : BitVec 3) (d : BitVec 5) (s : BitVec 5) (b : BitVec 4) (k : BitVec 3) : Statement (.vldx g d s b k) := by
  have h0 := g.isLt
  have h1 := d.isLt
  have h2 := s.isLt
  have h3 := b.isLt
  have h4 := k.isLt
  unfold Statement
  rw [show encode (.vldx g d s b k) = asm 0xd8000014 [(g.toNat, 23), (d.toNat, 18), (s.toNat, 13), (b.toNat, 8), (k.toNat, 5)] from rfl]
  simp only [asm_cons, asm_nil]
  omega

theorem vstx (g : BitVec 3) (d : BitVec 5) (s : BitVec 5) (b : BitVec 4) (k : BitVec 3) : Statement (.vstx g d s b k) := by
  have h0 := g.isLt
  have h1 := d.isLt
  have h2 := s.isLt
  have h3 := b.isLt
  have h4 := k.isLt
  unfold Statement
  rw [show encode (.vstx g d s b k) = asm 0xdc000014 [(g.toNat, 23), (d.toNat, 18), (s.toNat, 13), (b.toNat, 8), (k.toNat, 5)] from rfl]
  simp only [asm_cons, asm_nil]
  omega

theorem klog (g : BitVec 3) (d : BitVec 3) (a : BitVec 3) (b : BitVec 3) (l : BitVec 2) (m : BitVec 2) : Statement (.klog g d a b l m) := by
  have h0 := g.isLt
  have h1 := d.isLt
  have h2 := a.isLt
  have h3 := b.isLt
  have h4 := l.isLt
  have h5 := m.isLt
  unfold Statement
  rw [show encode (.klog g d a b l m) = asm 0xe0000000 [(g.toNat, 23), (d.toNat, 18), (a.toNat, 13), (b.toNat, 8), (l.toNat, 2), (m.toNat, 0)] from rfl]
  simp only [asm_cons, asm_nil]
  omega

theorem kmovToK (g : BitVec 3) (d : BitVec 3) (a : BitVec 5) (r : BitVec 4) : Statement (.kmovToK g d a r) := by
  have h0 := g.isLt
  have h1 := d.isLt
  have h2 := a.isLt
  have h3 := r.isLt
  unfold Statement
  rw [show encode (.kmovToK g d a r) = asm 0xe4000000 [(g.toNat, 23), (d.toNat, 18), (a.toNat, 13), (r.toNat, 8)] from rfl]
  simp only [asm_cons, asm_nil]
  omega

theorem kmovToX (g : BitVec 3) (d : BitVec 5) (a : BitVec 3) (r : BitVec 4) : Statement (.kmovToX g d a r) := by
  have h0 := g.isLt
  have h1 := d.isLt
  have h2 := a.isLt
  have h3 := r.isLt
  unfold Statement
  rw [show encode (.kmovToX g d a r) = asm 0xe4000001 [(g.toNat, 23), (d.toNat, 18), (a.toNat, 13), (r.toNat, 8)] from rfl]
  simp only [asm_cons, asm_nil]
  omega

theorem vrng (g : BitVec 3) (d : BitVec 5) (a : BitVec 5) (b : BitVec 5) (k : BitVec 3) : Statement (.vrng g d a b k) := by
  have h0 := g.isLt
  have h1 := d.isLt
  have h2 := a.isLt
  have h3 := b.isLt
  have h4 := k.isLt
  unfold Statement
  rw [show encode (.vrng g d a b k) = asm 0xe8000014 [(g.toNat, 23), (d.toNat, 18), (a.toNat, 13), (b.toNat, 8), (k.toNat, 5)] from rfl]
  simp only [asm_cons, asm_nil]
  omega

theorem vcadd (g : BitVec 3) (d : BitVec 5) (a : BitVec 5) (b : BitVec 5) (k : BitVec 3) : Statement (.vcadd g d a b k) := by
  have h0 := g.isLt
  have h1 := d.isLt
  have h2 := a.isLt
  have h3 := b.isLt
  have h4 := k.isLt
  unfold Statement
  rw [show encode (.vcadd g d a b k) = asm 0xec000014 [(g.toNat, 23), (d.toNat, 18), (a.toNat, 13), (b.toNat, 8), (k.toNat, 5)] from rfl]
  simp only [asm_cons, asm_nil]
  omega

theorem vcaddX (g : BitVec 3) (d : BitVec 5) (a : BitVec 5) (b : BitVec 5) (k : BitVec 3) : Statement (.vcaddX g d a b k) := by
  have h0 := g.isLt
  have h1 := d.isLt
  have h2 := a.isLt
  have h3 := b.isLt
  have h4 := k.isLt
  unfold Statement
  rw [show encode (.vcaddX g d a b k) = asm 0xec000015 [(g.toNat, 23), (d.toNat, 18), (a.toNat, 13), (b.toNat, 8), (k.toNat, 5)] from rfl]
  simp only [asm_cons, asm_nil]
  omega

theorem jseed (g : BitVec 3) (d : BitVec 5) (a : BitVec 5) (b : BitVec 5) (k : BitVec 3) (f : BitVec 3) (s : BitVec 1) : Statement (.jseed g d a b k f s) := by
  have h0 := g.isLt
  have h1 := d.isLt
  have h2 := a.isLt
  have h3 := b.isLt
  have h4 := k.isLt
  have h5 := f.isLt
  have h6 := s.isLt
  unfold Statement
  rw [show encode (.jseed g d a b k f s) = asm 0xf0000000 [(g.toNat, 23), (d.toNat, 18), (a.toNat, 13), (b.toNat, 8), (k.toNat, 5), (f.toNat, 2), (s.toNat, 0)] from rfl]
  simp only [asm_cons, asm_nil]
  omega

theorem jext (g : BitVec 3) (d : BitVec 5) (a : BitVec 5) (n : BitVec 3) (k : BitVec 3) (f : BitVec 3) (c : BitVec 1) : Statement (.jext g d a n k f c) := by
  have h0 := g.isLt
  have h1 := d.isLt
  have h2 := a.isLt
  have h3 := n.isLt
  have h4 := k.isLt
  have h5 := f.isLt
  have h6 := c.isLt
  unfold Statement
  rw [show encode (.jext g d a n k f c) = asm 0xf4000000 [(g.toNat, 23), (d.toNat, 18), (a.toNat, 13), (n.toNat, 8), (k.toNat, 5), (f.toNat, 2), (c.toNat, 0)] from rfl]
  simp only [asm_cons, asm_nil]
  omega

theorem jcoefDiff (g : BitVec 3) (d : BitVec 5) (a : BitVec 5) (k : BitVec 3) (f : BitVec 3) : Statement (.jcoefDiff g d a k f) := by
  have h0 := g.isLt
  have h1 := d.isLt
  have h2 := a.isLt
  have h3 := k.isLt
  have h4 := f.isLt
  unfold Statement
  rw [show encode (.jcoefDiff g d a k f) = asm 0xf8000000 [(g.toNat, 23), (d.toNat, 18), (a.toNat, 13), (k.toNat, 5), (f.toNat, 2)] from rfl]
  simp only [asm_cons, asm_nil]
  omega

theorem jcoefTrunc (g : BitVec 3) (d : BitVec 5) (a : BitVec 5) (m : BitVec 3) (k : BitVec 3) (f : BitVec 3) : Statement (.jcoefTrunc g d a m k f) := by
  have h0 := g.isLt
  have h1 := d.isLt
  have h2 := a.isLt
  have h3 := m.isLt
  have h4 := k.isLt
  have h5 := f.isLt
  unfold Statement
  rw [show encode (.jcoefTrunc g d a m k f) = asm 0xf8000001 [(g.toNat, 23), (d.toNat, 18), (a.toNat, 13), (m.toNat, 8), (k.toNat, 5), (f.toNat, 2)] from rfl]
  simp only [asm_cons, asm_nil]
  omega

theorem jcoefRescale (g : BitVec 3) (d : BitVec 5) (a : BitVec 5) (b : BitVec 5) (k : BitVec 3) (f : BitVec 3) : Statement (.jcoefRescale g d a b k f) := by
  have h0 := g.isLt
  have h1 := d.isLt
  have h2 := a.isLt
  have h3 := b.isLt
  have h4 := k.isLt
  have h5 := f.isLt
  unfold Statement
  rw [show encode (.jcoefRescale g d a b k f) = asm 0xf8000002 [(g.toNat, 23), (d.toNat, 18), (a.toNat, 13), (b.toNat, 8), (k.toNat, 5), (f.toNat, 2)] from rfl]
  simp only [asm_cons, asm_nil]
  omega

theorem mstrm (g : BitVec 3) (d : BitVec 4) (a : BitVec 4) (f : BitVec 4) : Statement (.mstrm g d a f) := by
  have h0 := g.isLt
  have h1 := d.isLt
  have h2 := a.isLt
  have h3 := f.isLt
  unfold Statement
  rw [show encode (.mstrm g d a f) = asm 0x4000000 [(g.toNat, 23), (d.toNat, 18), (a.toNat, 13), (f.toNat, 4)] from rfl]
  simp only [asm_cons, asm_nil]
  omega

theorem mstrmBnd (g : BitVec 3) (d : BitVec 4) (a : BitVec 5) : Statement (.mstrmBnd g d a) := by
  have h0 := g.isLt
  have h1 := d.isLt
  have h2 := a.isLt
  unfold Statement
  rw [show encode (.mstrmBnd g d a) = asm 0x4000001 [(g.toNat, 23), (d.toNat, 18), (a.toNat, 13)] from rfl]
  simp only [asm_cons, asm_nil]
  omega

theorem mstrmRbnd (g : BitVec 3) (d : BitVec 5) (a : BitVec 4) : Statement (.mstrmRbnd g d a) := by
  have h0 := g.isLt
  have h1 := d.isLt
  have h2 := a.isLt
  unfold Statement
  rw [show encode (.mstrmRbnd g d a) = asm 0x4000002 [(g.toNat, 23), (d.toNat, 18), (a.toNat, 13)] from rfl]
  simp only [asm_cons, asm_nil]
  omega

theorem mzero (g : BitVec 3) (t : BitVec 2) (i : BitVec 2) (a : BitVec 9) : Statement (.mzero g t i a) := by
  have h0 := g.isLt
  have h1 := t.isLt
  have h2 := i.isLt
  have h3 := a.isLt
  unfold Statement
  rw [show encode (.mzero g t i a) = asm 0x8000000 [(g.toNat, 23), (t.toNat, 18), (i.toNat, 9), (a.toNat, 0)] from rfl]
  simp only [asm_cons, asm_nil]
  omega

theorem mma (g : BitVec 3) (t : BitVec 2) (a : BitVec 4) (b : BitVec 4) (j : BitVec 1) (r : BitVec 1) : Statement (.mma g t a b j r) := by
  have h0 := g.isLt
  have h1 := t.isLt
  have h2 := a.isLt
  have h3 := b.isLt
  have h4 := j.isLt
  have h5 := r.isLt
  unfold Statement
  rw [show encode (.mma g t a b j r) = asm 0xc000000 [(g.toNat, 23), (t.toNat, 18), (a.toNat, 13), (b.toNat, 8), (j.toNat, 1), (r.toNat, 0)] from rfl]
  simp only [asm_cons, asm_nil]
  omega

theorem mcell (g : BitVec 3) (t : BitVec 2) (a : BitVec 5) (n : BitVec 4) : Statement (.mcell g t a n) := by
  have h0 := g.isLt
  have h1 := t.isLt
  have h2 := a.isLt
  have h3 := n.isLt
  unfold Statement
  rw [show encode (.mcell g t a n) = asm 0x10000000 [(g.toNat, 23), (t.toNat, 18), (a.toNat, 13), (n.toNat, 0)] from rfl]
  simp only [asm_cons, asm_nil]
  omega

theorem mepi (g : BitVec 3) (t : BitVec 2) (o : BitVec 4) (b : BitVec 4) (c : BitVec 1) (r : BitVec 1) (e : BitVec 3) (l : BitVec 1) : Statement (.mepi g t o b c r e l) := by
  have h0 := g.isLt
  have h1 := t.isLt
  have h2 := o.isLt
  have h3 := b.isLt
  have h4 := c.isLt
  have h5 := r.isLt
  have h6 := e.isLt
  have h7 := l.isLt
  unfold Statement
  rw [show encode (.mepi g t o b c r e l) = asm 0x14000000 [(g.toNat, 23), (t.toNat, 18), (o.toNat, 13), (b.toNat, 8), (c.toNat, 7), (r.toNat, 6), (e.toNat, 3), (l.toNat, 2)] from rfl]
  simp only [asm_cons, asm_nil]
  omega

theorem msig (g : BitVec 3) (d : BitVec 5) (t : BitVec 2) (s : BitVec 2) : Statement (.msig g d t s) := by
  have h0 := g.isLt
  have h1 := d.isLt
  have h2 := t.isLt
  have h3 := s.isLt
  unfold Statement
  rw [show encode (.msig g d t s) = asm 0x18000000 [(g.toNat, 23), (d.toNat, 18), (t.toNat, 13), (s.toNat, 0)] from rfl]
  simp only [asm_cons, asm_nil]
  omega

theorem mroute (g : BitVec 3) (d : BitVec 3) (a : BitVec 5) : Statement (.mroute g d a) := by
  have h0 := g.isLt
  have h1 := d.isLt
  have h2 := a.isLt
  unfold Statement
  rw [show encode (.mroute g d a) = asm 0x1c000000 [(g.toNat, 23), (d.toNat, 18), (a.toNat, 13)] from rfl]
  simp only [asm_cons, asm_nil]
  omega

theorem mrouteRd (g : BitVec 3) (d : BitVec 5) (a : BitVec 3) : Statement (.mrouteRd g d a) := by
  have h0 := g.isLt
  have h1 := d.isLt
  have h2 := a.isLt
  unfold Statement
  rw [show encode (.mrouteRd g d a) = asm 0x1c000001 [(g.toNat, 23), (d.toNat, 18), (a.toNat, 13)] from rfl]
  simp only [asm_cons, asm_nil]
  omega

theorem cpy (g : BitVec 3) (d : BitVec 4) (a : BitVec 4) (b : BitVec 5) (z : BitVec 1) (s : BitVec 1) (c : BitVec 4) : Statement (.cpy g d a b z s c) := by
  have h0 := g.isLt
  have h1 := d.isLt
  have h2 := a.isLt
  have h3 := b.isLt
  have h4 := z.isLt
  have h5 := s.isLt
  have h6 := c.isLt
  unfold Statement
  rw [show encode (.cpy g d a b z s c) = asm 0x20000000 [(g.toNat, 23), (d.toNat, 18), (a.toNat, 13), (b.toNat, 8), (z.toNat, 7), (s.toNat, 6), (c.toNat, 0)] from rfl]
  simp only [asm_cons, asm_nil]
  omega

theorem cpy2 (g : BitVec 3) (d : BitVec 4) (a : BitVec 4) (b : BitVec 5) (z : BitVec 1) (c : BitVec 4) : Statement (.cpy2 g d a b z c) := by
  have h0 := g.isLt
  have h1 := d.isLt
  have h2 := a.isLt
  have h3 := b.isLt
  have h4 := z.isLt
  have h5 := c.isLt
  unfold Statement
  rw [show encode (.cpy2 g d a b z c) = asm 0x24000000 [(g.toNat, 23), (d.toNat, 18), (a.toNat, 13), (b.toNat, 8), (z.toNat, 7), (c.toNat, 0)] from rfl]
  simp only [asm_cons, asm_nil]
  omega

theorem cpyb (g : BitVec 3) (d : BitVec 4) (a : BitVec 4) (b : BitVec 5) (z : BitVec 1) (c : BitVec 4) : Statement (.cpyb g d a b z c) := by
  have h0 := g.isLt
  have h1 := d.isLt
  have h2 := a.isLt
  have h3 := b.isLt
  have h4 := z.isLt
  have h5 := c.isLt
  unfold Statement
  rw [show encode (.cpyb g d a b z c) = asm 0x28000000 [(g.toNat, 23), (d.toNat, 18), (a.toNat, 13), (b.toNat, 8), (z.toNat, 7), (c.toNat, 0)] from rfl]
  simp only [asm_cons, asm_nil]
  omega

theorem cpyq (g : BitVec 3) (d : BitVec 4) (a : BitVec 4) (b : BitVec 5) (z : BitVec 1) (c : BitVec 4) : Statement (.cpyq g d a b z c) := by
  have h0 := g.isLt
  have h1 := d.isLt
  have h2 := a.isLt
  have h3 := b.isLt
  have h4 := z.isLt
  have h5 := c.isLt
  unfold Statement
  rw [show encode (.cpyq g d a b z c) = asm 0x2c000000 [(g.toNat, 23), (d.toNat, 18), (a.toNat, 13), (b.toNat, 8), (z.toNat, 7), (c.toNat, 0)] from rfl]
  simp only [asm_cons, asm_nil]
  omega

theorem cpyh (g : BitVec 3) (d : BitVec 4) (a : BitVec 4) (b : BitVec 5) (z : BitVec 1) (h : BitVec 1) (c : BitVec 4) : Statement (.cpyh g d a b z h c) := by
  have h0 := g.isLt
  have h1 := d.isLt
  have h2 := a.isLt
  have h3 := b.isLt
  have h4 := z.isLt
  have h5 := h.isLt
  have h6 := c.isLt
  unfold Statement
  rw [show encode (.cpyh g d a b z h c) = asm 0x30000000 [(g.toNat, 23), (d.toNat, 18), (a.toNat, 13), (b.toNat, 8), (z.toNat, 7), (h.toNat, 6), (c.toNat, 0)] from rfl]
  simp only [asm_cons, asm_nil]
  omega

theorem binit (g : BitVec 3) (d : BitVec 5) (a : BitVec 4) (s : BitVec 4) : Statement (.binit g d a s) := by
  have h0 := g.isLt
  have h1 := d.isLt
  have h2 := a.isLt
  have h3 := s.isLt
  unfold Statement
  rw [show encode (.binit g d a s) = asm 0x34000000 [(g.toNat, 23), (d.toNat, 18), (a.toNat, 13), (s.toNat, 0)] from rfl]
  simp only [asm_cons, asm_nil]
  omega

theorem barv (g : BitVec 3) (a : BitVec 4) (n : BitVec 8) : Statement (.barv g a n) := by
  have h0 := g.isLt
  have h1 := a.isLt
  have h2 := n.isLt
  unfold Statement
  rw [show encode (.barv g a n) = asm 0x38000000 [(g.toNat, 23), (a.toNat, 13), (n.toNat, 0)] from rfl]
  simp only [asm_cons, asm_nil]
  omega

theorem bwait (g : BitVec 3) (d : BitVec 5) (a : BitVec 4) : Statement (.bwait g d a) := by
  have h0 := g.isLt
  have h1 := d.isLt
  have h2 := a.isLt
  unfold Statement
  rw [show encode (.bwait g d a) = asm 0x3c000000 [(g.toNat, 23), (d.toNat, 18), (a.toNat, 13)] from rfl]
  simp only [asm_cons, asm_nil]
  omega

theorem btest (g : BitVec 3) (d : BitVec 5) (a : BitVec 4) : Statement (.btest g d a) := by
  have h0 := g.isLt
  have h1 := d.isLt
  have h2 := a.isLt
  unfold Statement
  rw [show encode (.btest g d a) = asm 0x40000000 [(g.toNat, 23), (d.toNat, 18), (a.toNat, 13)] from rfl]
  simp only [asm_cons, asm_nil]
  omega

theorem bexp (g : BitVec 3) (d : BitVec 5) (a : BitVec 4) : Statement (.bexp g d a) := by
  have h0 := g.isLt
  have h1 := d.isLt
  have h2 := a.isLt
  unfold Statement
  rw [show encode (.bexp g d a) = asm 0x44000000 [(g.toNat, 23), (d.toNat, 18), (a.toNat, 13)] from rfl]
  simp only [asm_cons, asm_nil]
  omega

theorem amo (g : BitVec 3) (d : BitVec 5) (a : BitVec 4) (b : BitVec 5) (s : BitVec 4) (z : BitVec 1) (o : BitVec 3) : Statement (.amo g d a b s z o) := by
  have h0 := g.isLt
  have h1 := d.isLt
  have h2 := a.isLt
  have h3 := b.isLt
  have h4 := s.isLt
  have h5 := z.isLt
  have h6 := o.isLt
  unfold Statement
  rw [show encode (.amo g d a b s z o) = asm 0x48000000 [(g.toNat, 23), (d.toNat, 18), (a.toNat, 13), (b.toNat, 8), (s.toNat, 4), (z.toNat, 3), (o.toNat, 0)] from rfl]
  simp only [asm_cons, asm_nil]
  omega

theorem acell (g : BitVec 3) (a : BitVec 4) (b : BitVec 5) (s : BitVec 4) : Statement (.acell g a b s) := by
  have h0 := g.isLt
  have h1 := a.isLt
  have h2 := b.isLt
  have h3 := s.isLt
  unfold Statement
  rw [show encode (.acell g a b s) = asm 0x4c000000 [(g.toNat, 23), (a.toNat, 13), (b.toNat, 8), (s.toNat, 4)] from rfl]
  simp only [asm_cons, asm_nil]
  omega

theorem acrd (g : BitVec 3) (d : BitVec 5) (a : BitVec 4) (s : BitVec 4) (c : BitVec 1) : Statement (.acrd g d a s c) := by
  have h0 := g.isLt
  have h1 := d.isLt
  have h2 := a.isLt
  have h3 := s.isLt
  have h4 := c.isLt
  unfold Statement
  rw [show encode (.acrd g d a s c) = asm 0x50000000 [(g.toNat, 23), (d.toNat, 18), (a.toNat, 13), (s.toNat, 4), (c.toNat, 0)] from rfl]
  simp only [asm_cons, asm_nil]
  omega

theorem send (g : BitVec 3) (d : BitVec 3) (a : BitVec 5) : Statement (.send g d a) := by
  have h0 := g.isLt
  have h1 := d.isLt
  have h2 := a.isLt
  unfold Statement
  rw [show encode (.send g d a) = asm 0x54000000 [(g.toNat, 23), (d.toNat, 18), (a.toNat, 13)] from rfl]
  simp only [asm_cons, asm_nil]
  omega

theorem sendV (g : BitVec 3) (d : BitVec 3) (a : BitVec 5) (q : BitVec 2) (r : BitVec 4) : Statement (.sendV g d a q r) := by
  have h0 := g.isLt
  have h1 := d.isLt
  have h2 := a.isLt
  have h3 := q.isLt
  have h4 := r.isLt
  unfold Statement
  rw [show encode (.sendV g d a q r) = asm 0x54000080 [(g.toNat, 23), (d.toNat, 18), (a.toNat, 13), (q.toNat, 5), (r.toNat, 0)] from rfl]
  simp only [asm_cons, asm_nil]
  omega

theorem recv (g : BitVec 3) (d : BitVec 5) (a : BitVec 3) (s : BitVec 2) : Statement (.recv g d a s) := by
  have h0 := g.isLt
  have h1 := d.isLt
  have h2 := a.isLt
  have h3 := s.isLt
  unfold Statement
  rw [show encode (.recv g d a s) = asm 0x58000000 [(g.toNat, 23), (d.toNat, 18), (a.toNat, 13), (s.toNat, 4)] from rfl]
  simp only [asm_cons, asm_nil]
  omega

theorem recvV (g : BitVec 3) (d : BitVec 5) (a : BitVec 3) (q : BitVec 2) (r : BitVec 4) : Statement (.recvV g d a q r) := by
  have h0 := g.isLt
  have h1 := d.isLt
  have h2 := a.isLt
  have h3 := q.isLt
  have h4 := r.isLt
  unfold Statement
  rw [show encode (.recvV g d a q r) = asm 0x58000040 [(g.toNat, 23), (d.toNat, 18), (a.toNat, 13), (q.toNat, 4), (r.toNat, 0)] from rfl]
  simp only [asm_cons, asm_nil]
  omega

theorem recvDrop (g : BitVec 3) (a : BitVec 3) : Statement (.recvDrop g a) := by
  have h0 := g.isLt
  have h1 := a.isLt
  unfold Statement
  rw [show encode (.recvDrop g a) = asm 0x58000080 [(g.toNat, 23), (a.toNat, 13)] from rfl]
  simp only [asm_cons, asm_nil]
  omega

theorem lstat (g : BitVec 3) (d : BitVec 5) (a : BitVec 3) : Statement (.lstat g d a) := by
  have h0 := g.isLt
  have h1 := d.isLt
  have h2 := a.isLt
  unfold Statement
  rw [show encode (.lstat g d a) = asm 0x5c000000 [(g.toNat, 23), (d.toNat, 18), (a.toNat, 13)] from rfl]
  simp only [asm_cons, asm_nil]
  omega

theorem lstatPort (g : BitVec 3) (d : BitVec 5) (a : BitVec 5) : Statement (.lstatPort g d a) := by
  have h0 := g.isLt
  have h1 := d.isLt
  have h2 := a.isLt
  unfold Statement
  rw [show encode (.lstatPort g d a) = asm 0x5c000001 [(g.toNat, 23), (d.toNat, 18), (a.toNat, 13)] from rfl]
  simp only [asm_cons, asm_nil]
  omega

theorem ltime (g : BitVec 3) (d : BitVec 5) (a : BitVec 3) (r : BitVec 1) : Statement (.ltime g d a r) := by
  have h0 := g.isLt
  have h1 := d.isLt
  have h2 := a.isLt
  have h3 := r.isLt
  unfold Statement
  rw [show encode (.ltime g d a r) = asm 0x60000000 [(g.toNat, 23), (d.toNat, 18), (a.toNat, 13), (r.toNat, 0)] from rfl]
  simp only [asm_cons, asm_nil]
  omega

theorem coll (g : BitVec 3) (e : BitVec 4) : Statement (.coll g e) := by
  have h0 := g.isLt
  have h1 := e.isLt
  unfold Statement
  rw [show encode (.coll g e) = asm 0x64000000 [(g.toNat, 23), (e.toNat, 0)] from rfl]
  simp only [asm_cons, asm_nil]
  omega

theorem cdrpLd (g : BitVec 3) (a : BitVec 4) (e : BitVec 4) : Statement (.cdrpLd g a e) := by
  have h0 := g.isLt
  have h1 := a.isLt
  have h2 := e.isLt
  unfold Statement
  rw [show encode (.cdrpLd g a e) = asm 0x68000000 [(g.toNat, 23), (a.toNat, 13), (e.toNat, 0)] from rfl]
  simp only [asm_cons, asm_nil]
  omega

theorem cdrpDrop (g : BitVec 3) (e : BitVec 4) : Statement (.cdrpDrop g e) := by
  have h0 := g.isLt
  have h1 := e.isLt
  unfold Statement
  rw [show encode (.cdrpDrop g e) = asm 0x68000010 [(g.toNat, 23), (e.toNat, 0)] from rfl]
  simp only [asm_cons, asm_nil]
  omega

theorem cdrpSt (g : BitVec 3) (d : BitVec 5) (e : BitVec 4) : Statement (.cdrpSt g d e) := by
  have h0 := g.isLt
  have h1 := d.isLt
  have h2 := e.isLt
  unfold Statement
  rw [show encode (.cdrpSt g d e) = asm 0x68000020 [(g.toNat, 23), (d.toNat, 18), (e.toNat, 0)] from rfl]
  simp only [asm_cons, asm_nil]
  omega

theorem bundleIssue (c : Fin 256) (j : Fin 4) : Statement (.bundleIssue c j) := Nat.two_pow_pos 32

theorem freezeRestart (k : Nat) (g : Nat) : Statement (.freezeRestart k g) := Nat.two_pow_pos 32

theorem strandSelect (c : Fin 256) (j : Fin 4) : Statement (.strandSelect c j) := Nat.two_pow_pos 32

theorem bell : Statement .bell := Nat.two_pow_pos 32

theorem recordPromotion (k : Nat) : Statement (.recordPromotion k) := Nat.two_pow_pos 32

theorem groupRelease (k : Nat) (g : Nat) : Statement (.groupRelease k g) := Nat.two_pow_pos 32

theorem preSet (k : Nat) (g : Nat) : Statement (.preSet k g) := Nat.two_pow_pos 32

theorem preemptionSave (k : Nat) (g : Nat) : Statement (.preemptionSave k g) := Nat.two_pow_pos 32

theorem saveComplete (k : Nat) (g : Nat) : Statement (.saveComplete k g) := Nat.two_pow_pos 32

theorem groupRetire (k : Nat) (g : Nat) : Statement (.groupRetire k g) := Nat.two_pow_pos 32

theorem deadline (k : Nat) (g : Nat) : Statement (.deadline k g) := Nat.two_pow_pos 32

theorem joinComplete (k : Nat) (g : Nat) : Statement (.joinComplete k g) := Nat.two_pow_pos 32

theorem joinTimeout (k : Nat) (g : Nat) : Statement (.joinTimeout k g) := Nat.two_pow_pos 32

theorem realignResume (c : Fin 256) (j : Fin 4) : Statement (.realignResume c j) := Nat.two_pow_pos 32

theorem realignMismatch (k : Nat) (g : Nat) : Statement (.realignMismatch k g) := Nat.two_pow_pos 32

theorem commandStart (id : Nat) : Statement (.commandStart id) := Nat.two_pow_pos 32

theorem mmaReady (id : Nat) : Statement (.mmaReady id) := Nat.two_pow_pos 32

theorem epilogueSnapshot (id : Nat) : Statement (.epilogueSnapshot id) := Nat.two_pow_pos 32

theorem outputFolded (id : Nat) : Statement (.outputFolded id) := Nat.two_pow_pos 32

theorem verdict (id : Nat) : Statement (.verdict id) := Nat.two_pow_pos 32

theorem arbitrationEnd (c : Fin 256) : Statement (.arbitrationEnd c) := Nat.two_pow_pos 32

theorem residueArbitrationEnd (c : Fin 256) : Statement (.residueArbitrationEnd c) := Nat.two_pow_pos 32

theorem copyRead (id : Nat) : Statement (.copyRead id) := Nat.two_pow_pos 32

theorem copyPerform (id : Nat) : Statement (.copyPerform id) := Nat.two_pow_pos 32

theorem copyResendRead (id : Nat) : Statement (.copyResendRead id) := Nat.two_pow_pos 32

theorem copyResendLand (id : Nat) : Statement (.copyResendLand id) := Nat.two_pow_pos 32

theorem cpyhPerform (id : Nat) : Statement (.cpyhPerform id) := Nat.two_pow_pos 32

theorem barrierDue (c : Fin 256) (off : Nat) : Statement (.barrierDue c off) := Nat.two_pow_pos 32

theorem walkComplete (id : Nat) : Statement (.walkComplete id) := Nat.two_pow_pos 32

theorem correctionDelivery (id : Nat) : Statement (.correctionDelivery id) := Nat.two_pow_pos 32

theorem amoPerform (id : Nat) : Statement (.amoPerform id) := Nat.two_pow_pos 32

theorem hostAtomicCompletion (id : Nat) : Statement (.hostAtomicCompletion id) := Nat.two_pow_pos 32

theorem acellPerform (id : Nat) : Statement (.acellPerform id) := Nat.two_pow_pos 32

theorem acrdRead (id : Nat) : Statement (.acrdRead id) := Nat.two_pow_pos 32

theorem checkpointMark (f : Fin 17) : Statement (.checkpointMark f) := Nat.two_pow_pos 32

theorem pairCompare (k : Nat) : Statement (.pairCompare k) := Nat.two_pow_pos 32

theorem flitArrival (p : Fin 46) (fl : Flit) (fec : Fec) : Statement (.flitArrival p fl fec) := Nat.two_pow_pos 32

theorem flitLanding (fl : Flit) : Statement (.flitLanding fl) := Nat.two_pow_pos 32

theorem flitMissing (c : Fin 256) (route : BitVec 64) : Statement (.flitMissing c route) := Nat.two_pow_pos 32

theorem beacon (p : Fin 46) (b : Beacon) : Statement (.beacon p b) := Nat.two_pow_pos 32

theorem portEnable (p : Fin 46) : Statement (.portEnable p) := Nat.two_pow_pos 32

theorem trainingComplete (p : Fin 46) (lanes : Fin 9) : Statement (.trainingComplete p lanes) := Nat.two_pow_pos 32

theorem trainingFail (p : Fin 46) : Statement (.trainingFail p) := Nat.two_pow_pos 32

theorem alignComplete (p : Fin 46) : Statement (.alignComplete p) := Nat.two_pow_pos 32

theorem linkDegrade (l : LaneLoss) : Statement (.linkDegrade l) := Nat.two_pow_pos 32

theorem retrain (p : Fin 46) : Statement (.retrain p) := Nat.two_pow_pos 32

theorem portDisable (p : Fin 46) : Statement (.portDisable p) := Nat.two_pow_pos 32

theorem signalLoss (p : Fin 46) : Statement (.signalLoss p) := Nat.two_pow_pos 32

theorem portReset (p : Fin 46) : Statement (.portReset p) := Nat.two_pow_pos 32

theorem driftStep : Statement .driftStep := Nat.two_pow_pos 32

theorem collectiveStep (c : Fin 256) (e : Fin 16) (i : Nat) : Statement (.collectiveStep c e i) := Nat.two_pow_pos 32

theorem finStep (c : Fin 256) (e : Fin 16) (i : Nat) : Statement (.finStep c e i) := Nat.two_pow_pos 32

theorem chunkApply (ch : Chunk) : Statement (.chunkApply ch) := Nat.two_pow_pos 32

theorem ackArrival (c : Fin 256) (e : Fin 16) (i : Nat) : Statement (.ackArrival c e i) := Nat.two_pow_pos 32

theorem ackTimeout (c : Fin 256) (e : Fin 16) (i : Nat) : Statement (.ackTimeout c e i) := Nat.two_pow_pos 32

theorem instanceComplete (c : Fin 256) (e : Fin 16) : Statement (.instanceComplete c e) := Nat.two_pow_pos 32

theorem stepComplete (k : Nat) (g : Nat) : Statement (.stepComplete k g) := Nat.two_pow_pos 32

theorem flr (f : Fin 17) : Statement (.flr f) := Nat.two_pow_pos 32

theorem hostRequestAbandon (f : Fin 17) : Statement (.hostRequestAbandon f) := Nat.two_pow_pos 32

theorem drainComplete (f : Fin 17) : Statement (.drainComplete f) := Nat.two_pow_pos 32

theorem scrubComplete (f : Fin 17) : Statement (.scrubComplete f) := Nat.two_pow_pos 32

theorem invalComplete (f : Fin 17) : Statement (.invalComplete f) := Nat.two_pow_pos 32

theorem flrPf0 : Statement .flrPf0 := Nat.two_pow_pos 32

theorem deviceReset : Statement .deviceReset := Nat.two_pow_pos 32

theorem configurationRequest (f : Fin 17) (q : CfgReq) : Statement (.configurationRequest f q) := Nat.two_pow_pos 32

theorem temperatureTrip (die : Fin 8) : Statement (.temperatureTrip die) := Nat.two_pow_pos 32

theorem firmwareFailure : Statement .firmwareFailure := Nat.two_pow_pos 32

theorem taggedReturn (tag : BitVec 8) (id : Nat) : Statement (.taggedReturn tag id) := Nat.two_pow_pos 32

theorem openCtx (f : Fin 17) : Statement (.openCtx f) := Nat.two_pow_pos 32

theorem closeCtx (f : Fin 17) : Statement (.closeCtx f) := Nat.two_pow_pos 32

theorem queueStart (f : Fin 17) (q : Fin 64) : Statement (.queueStart f q) := Nat.two_pow_pos 32

theorem queueStop (f : Fin 17) (q : Fin 64) : Statement (.queueStop f q) := Nat.two_pow_pos 32

theorem queueReset (f : Fin 17) (q : Fin 64) : Statement (.queueReset f q) := Nat.two_pow_pos 32

theorem inval (f : Fin 17) (page : BitVec 32) (count : BitVec 16) : Statement (.inval f page count) := Nat.two_pow_pos 32

theorem rbreq (f : Fin 17) : Statement (.rbreq f) := Nat.two_pow_pos 32

theorem stepMode (f : Fin 17) (grp : BitVec 16) (on : Bool) : Statement (.stepMode f grp on) := Nat.two_pow_pos 32

theorem singleStep (f : Fin 17) (grp : BitVec 16) (j : Fin 4) : Statement (.singleStep f grp j) := Nat.two_pow_pos 32

theorem assign (f : BitVec 5) : Statement (.assign f) := Nat.two_pow_pos 32

theorem withdraw (f : BitVec 5) : Statement (.withdraw f) := Nat.two_pow_pos 32

theorem hclr (i : Fin 4) (mask : BitVec 64) : Statement (.hclr i mask) := Nat.two_pow_pos 32

theorem registerWrite (f : Fin 17) (off : Nat) (v : BitVec 64) : Statement (.registerWrite f off v) := Nat.two_pow_pos 32

theorem hostMemoryAccess (acc : HostAccess) : Statement (.hostMemoryAccess acc) := Nat.two_pow_pos 32

theorem readHealth (cs : List (Fin 256)) : Statement (.readHealth cs) := Nat.two_pow_pos 32

theorem readFaultLog : Statement .readFaultLog := Nat.two_pow_pos 32

theorem readStatus : Statement .readStatus := Nat.two_pow_pos 32

theorem resetCmd : Statement .resetCmd := Nat.two_pow_pos 32

theorem stepCmd (f : Fin 17) (v : BitVec 64) : Statement (.stepCmd f v) := Nat.two_pow_pos 32

theorem pldmPlatformMonitoring : Statement .pldmPlatformMonitoring := Nat.two_pow_pos 32

theorem pldmFirmwareUpdate (img : List (BitVec 8)) : Statement (.pldmFirmwareUpdate img) := Nat.two_pow_pos 32

theorem getVersion (t : Transport) : Statement (.getVersion t) := Nat.two_pow_pos 32

theorem getCapabilities (t : Transport) : Statement (.getCapabilities t) := Nat.two_pow_pos 32

theorem negotiateAlgorithms (t : Transport) : Statement (.negotiateAlgorithms t) := Nat.two_pow_pos 32

theorem getDigests (t : Transport) : Statement (.getDigests t) := Nat.two_pow_pos 32

theorem getCertificate (t : Transport) (off : BitVec 16) (len : BitVec 16) : Statement (.getCertificate t off len) := Nat.two_pow_pos 32

theorem challenge (t : Transport) (nonce : BitVec 256) : Statement (.challenge t nonce) := Nat.two_pow_pos 32

theorem getMeasurements (t : Transport) (idx : BitVec 8) : Statement (.getMeasurements t idx) := Nat.two_pow_pos 32

theorem forcedClose (f : Fin 17) : Statement (.forcedClose f) := Nat.two_pow_pos 32

end Sys2Proof.Laws.EncodesInWord
end

