-- ==== Sys2Proof/Laws/Step.lean ====
section
/-! SUPPORT. What a step can be: one inversion lemma for step, one for the choice of the next work, and how a property passes through the
issue phase. -/
namespace Sys2Proof.Machine

/-- A step that goes on is the meaning of an input (or nothing, where it cannot come), of an event, of an event of the agenda, an effect of the agenda, or the end of a cycle. -/
theorem step_cases {s t : State} (h : step s = .next t) : ∃ u,
    (∃ i, s.nextWork = (u, .input i) ∧ Instr.isInput i = true ∧ (u.accepts i = true ∧ exec i u = .next t ∨ u.accepts i = false ∧ t = u)) ∨
    (∃ i, s.nextWork = (u, .event i) ∧ exec i u = .next t) ∨
    (∃ it i, s.nextWork = (u, .item it) ∧ it.act = .ev i ∧ (exec i { u with turn := it.seq } = .next t ∨ t = u)) ∨
    (∃ it, s.nextWork = (u, .item it) ∧ (∀ i, it.act ≠ .ev i) ∧ t = ({ u with turn := it.seq }).applyAct it) ∨
    (s.nextWork = (u, .cycle) ∧ t = u.settleCycle.tick) := by
  unfold step at h
  cases hw : s.nextWork with
  | mk u w =>
    rw [hw] at h
    refine ⟨u, ?_⟩
    cases w with
    | input i =>
      simp only [State.doWork] at h
      split at h
      · cases h
      · rename_i hi
        refine .inl ⟨i, rfl, by simpa using hi, ?_⟩
        split at h
        · rename_i ha
          exact .inl ⟨ha, h⟩
        · rename_i ha
          exact .inr ⟨by simpa using ha, (Host.Outcome.next.inj h).symm⟩
    | event i => exact .inr (.inl ⟨i, rfl, h⟩)
    | item it =>
      simp only [State.doWork] at h
      split at h
      · rename_i i hi
        refine .inr (.inr (.inl ⟨it, i, rfl, hi, ?_⟩))
        split at h
        · rename_i v hv
          exact .inl (by rw [hv]; exact h)
        · exact .inr (Host.Outcome.next.inj h).symm
      · rename_i hi
        exact .inr (.inr (.inr (.inl ⟨it, rfl, hi, (Host.Outcome.next.inj h).symm⟩)))
    | cycle => exact .inr (.inr (.inr (.inr ⟨rfl, (Host.Outcome.next.inj h).symm⟩)))

/-- The state that takes up the next work is s but for the inbox and the agenda, or s after the issue phase but for the agenda. -/
theorem State.nextWork_cases (s : State) :
    let t := (State.issueFrom ((List.finRange 256).drop s.iss) s).1
    (∃ ib, s.nextWork.1 = { s with inbox := ib }) ∨ (∃ ag, s.nextWork.1 = { s with agenda := ag }) ∨ s.nextWork.1 = s ∨
      s.nextWork.1 = t ∨ ∃ ag, s.nextWork.1 = { t with agenda := ag } := by
  intro t
  unfold State.nextWork
  split
  · exact .inr (.inl ⟨_, rfl⟩)
  · split
    · exact .inl ⟨_, rfl⟩
    · split
      · exact .inr (.inl ⟨_, rfl⟩)
      · split
        · exact .inr (.inr (.inl rfl))
        · split
          · rename_i h
            exact .inr (.inr (.inr (.inl (congrArg Prod.fst h).symm)))
          · rename_i u h
            have hu : u = t := (congrArg Prod.fst h).symm
            split
            · exact .inr (.inr (.inr (.inr ⟨_, by rw [hu]⟩)))
            · split
              · exact .inr (.inr (.inr (.inl hu)))
              · exact .inr (.inr (.inr (.inl hu)))

/-- What every core's turn keeps, the issue phase keeps. -/
theorem State.issueFrom_keeps {P : State → Prop} (ht : ∀ s c, P s → P (s.coreTurn c).1) (hi : ∀ (s : State) n, P s → P { s with iss := n })
    (l : List (Fin 256)) {s : State} (h : P s) : P (State.issueFrom l s).1 := by
  induction l generalizing s with
  | nil => exact hi _ _ h
  | cons c r ih =>
    have hc := ht s c h
    unfold State.issueFrom
    split
    · rename_i e
      rw [e] at hc
      exact hi _ _ hc
    · rename_i e
      rw [e] at hc
      exact ih hc

/-- What the waits of trials and slips keep, the choice of a strand keeps. -/
theorem State.firstIssue_keeps {P : State → Prop} {c : Fin 256} (hb : ∀ (s : State) j u, P s → s.attempt c j = .blocked u → P u)
    (hs : ∀ s : State, P s → P (s.slip c .issue)) (l : List (Fin 4)) {s : State} (h : P s) : P (State.firstIssue c l s).1 := by
  induction l generalizing s with
  | nil => exact h
  | cons j r ih =>
    unfold State.firstIssue
    split
    · exact ih h
    · split
      · exact ih h
      · exact h
      · rename_i u hu
        refine ih ?_
        split
        · exact hs _ (hb s j u h hu)
        · exact hb s j u h hu

/-- What the ends of waits, blocked trials and slips keep, a core's turn keeps. -/
theorem State.coreTurn_keeps {P : State → Prop} {c : Fin 256} (hw : ∀ (s : State) j, P s → P (s.wake c j))
    (hb : ∀ (s : State) j u, P s → s.attempt c j = .blocked u → P u) (hs : ∀ (s : State) k, P s → P (s.slip c k))
    (hu : ∀ (s : State) k, P s → P (s.unslip c k)) {s : State} (h : P s) : P (s.coreTurn c).1 := by
  have fold : ∀ (l : List (Fin 4)) (s : State), P s → P (l.foldl (fun s j => s.wake c j) s) := by
    intro l
    induction l with
    | nil => exact fun _ h => h
    | cons j r ih => exact fun s h => ih _ (hw s j h)
  have ho : P (s.standOverdue c) := by
    unfold State.standOverdue
    split
    · exact h
    · split
      · exact hs _ _ h
      · split
        · exact hu _ _ h
        · exact h
  have hf := fold (List.finRange 4) _ ho
  unfold State.coreTurn
  split
  · exact h
  · dsimp only
    generalize (List.finRange 4).foldl (fun s j => s.wake c j) (s.standOverdue c) = u at hf ⊢
    split
    · split
      · exact hf
      · have h1 := State.firstIssue_keeps hb (fun s => hs s _) [(u.core c).sel] hf
        split
        · rename_i e
          rw [e] at h1
          exact h1
        · rename_i e
          rw [e] at h1
          rename_i v _
          have h2 := State.firstIssue_keeps hb (fun s => hs s _) (others (u.core c).sel) h1
          split
          · rename_i e2
            rw [e2] at h2
            exact h2
          · rename_i e2
            rw [e2] at h2
            exact h2
    · exact State.firstIssue_keeps hb (fun s => hs s _) _ hf

/-- A trial that is blocked leaves the state, but for what the strand waits at and the walks. -/
theorem State.tried_blocked {s r u : State} {c : Fin 256} {j : Fin 4} (h : s.tried c j r = .blocked u) :
    u = s ∨ ∃ k, u = s.blockedBy c j k := by
  unfold State.tried at h
  by_cases h1 : r.cur.stall = true
  · rw [if_pos h1] at h
    exact .inr ⟨_, (Try.blocked.inj h).symm⟩
  · rw [if_neg h1] at h
    dsimp only at h
    generalize r.finish = fin at h
    generalize r.ended.1.flightCount c j + (r.ended.2.map fun a => a.more.length).getD 0 = n at h
    by_cases h2 : 127 < n
    · rw [if_pos h2] at h
      exact .inl (Try.blocked.inj h).symm
    · rw [if_neg h2] at h
      exact nomatch h

/-- An illegal encoding that has not issued waits as the rest of its bundle does. -/
theorem State.wouldIssue_blocked {s u : State} {c : Fin 256} {j : Fin 4} {pc : Nat} {bad : Option (Fin 4)} {r : Try}
    (h : s.wouldIssue c j pc bad r = .blocked u) : r = .blocked u := by
  unfold State.wouldIssue at h
  split at h
  · cases h
  · exact h

/-- An attempt that is blocked leaves the state, but for what the strand waits at and the walks. -/
theorem State.attempt_blocked {s u : State} {c : Fin 256} {j : Fin 4} (h : s.attempt c j = .blocked u) :
    u = s ∨ ∃ k, u = s.blockedBy c j k := by
  unfold State.attempt State.attemptWith at h
  dsimp only at h
  split at h
  · split at h
    · cases h
    · exact State.tried_blocked (State.wouldIssue_blocked h)
  · split at h
    · split at h <;> cases h
    · split at h
      · cases h
      · have h := State.wouldIssue_blocked h
        split at h
        · split at h
          · exact State.tried_blocked h
          · exact .inl (Try.blocked.inj h).symm
        · exact State.tried_blocked h

/-- A bundle that issues runs its slots by exec or by the trap of an illegal slot: its result is that of execBundleIssue. -/
theorem exec_bundleIssue (c : Fin 256) (j : Fin 4) (s : State) : exec (.bundleIssue c j) s = execBundleIssue c j s := rfl

end Sys2Proof.Machine
end

