-- ==== Sys2Proof/Laws/Tile.lean ====
section
/-! SUPPORT. Accumulators: an update of every element lists its elements in order, each once and inside the tile, and an accumulator so listed
reads each element back as it was updated. -/
namespace Sys2Proof.Machine

theorem accMap_range (init : AccElem) (f : Nat → AccElem → AccElem) (n i : Nat) (l : List (Nat × AccElem)) :
    ∀ e ∈ accMap init f n i l, i ≤ e.1 ∧ e.1 < i + n := by
  induction n generalizing i l with
  | zero => simp [accMap]
  | succ n ih =>
    have put : ∀ (b : Prop) [Decidable b] (x : AccElem) (r : List (Nat × AccElem)),
        ∀ e ∈ (if b then accMap init f n (i + 1) r else (i, x) :: accMap init f n (i + 1) r), i ≤ e.1 ∧ e.1 < i + (n + 1) := by
      intro b _ x r e he
      split at he
      · have := ih (i + 1) r e he
        omega
      · rcases List.mem_cons.mp he with rfl | he
        · exact ⟨Nat.le_refl _, by simp⟩
        · have := ih (i + 1) r e he
          omega
    cases l with
    | nil => exact put _ _ _
    | cons d r =>
      obtain ⟨j, x⟩ := d
      unfold accMap
      split
      · exact put _ _ _
      · exact put _ _ _

theorem accMap_sorted (init : AccElem) (f : Nat → AccElem → AccElem) (n i : Nat) (l : List (Nat × AccElem)) :
    ((accMap init f n i l).map (·.1)).Pairwise (· < ·) := by
  induction n generalizing i l with
  | zero => simp [accMap]
  | succ n ih =>
    have put : ∀ (b : Prop) [Decidable b] (x : AccElem) (r : List (Nat × AccElem)),
        (((if b then accMap init f n (i + 1) r else (i, x) :: accMap init f n (i + 1) r)).map (·.1)).Pairwise (· < ·) := by
      intro b _ x r
      split
      · exact ih _ _
      · refine List.Pairwise.cons (fun k hk => ?_) (ih _ _)
        obtain ⟨e, he, rfl⟩ := List.mem_map.mp hk
        have := accMap_range init f n (i + 1) r e he
        show i < e.1
        omega
    cases l with
    | nil => exact put _ _ _
    | cons d r =>
      obtain ⟨j, x⟩ := d
      unfold accMap
      split
      · exact put _ _ _
      · exact put _ _ _

theorem Acc.map_range (a : Acc) (f : Nat → AccElem → AccElem) : ∀ e ∈ (a.map f).elems, e.1 < 6144 := fun e he => by
  have := accMap_range _ _ _ _ _ e he
  omega

theorem Acc.map_sorted (a : Acc) (f : Nat → AccElem → AccElem) : ((a.map f).elems.map (·.1)).Pairwise (· < ·) := accMap_sorted _ _ _ _ _

@[simp] theorem Acc.map_init (a : Acc) (f : Nat → AccElem → AccElem) : (a.map f).init = a.init := rfl

/-- An element by its number, or the initial one. -/
def lookupAcc (init : AccElem) (l : List (Nat × AccElem)) (i : Nat) : AccElem := match l.find? (·.1 == i) with
  | some e => e.2
  | none => init

theorem lookupAcc_cons (init : AccElem) (j : Nat) (x : AccElem) (r : List (Nat × AccElem)) (k : Nat) :
    lookupAcc init ((j, x) :: r) k = if j = k then x else lookupAcc init r k := by
  unfold lookupAcc
  rw [List.find?_cons]
  by_cases h : j = k
  · simp [h]
  · have : (j == k) = false := by simpa using h
    simp [this, h]

theorem lookupAcc_absent {init : AccElem} {l : List (Nat × AccElem)} {k : Nat} (h : ∀ e ∈ l, e.1 ≠ k) : lookupAcc init l k = init := by
  induction l with
  | nil => rfl
  | cons e r ih =>
    obtain ⟨j, x⟩ := e
    rw [lookupAcc_cons, if_neg (h _ (List.mem_cons_self ..))]
    exact ih fun d hd => h d (List.mem_cons_of_mem _ hd)

/-- The elements i to i + n − 1 after an update, from a list in order that starts no earlier than i. -/
theorem lookupAcc_accMap (init : AccElem) (f : Nat → AccElem → AccElem) (n i : Nat) (l : List (Nat × AccElem)) (k : Nat)
    (hs : (l.map (·.1)).Pairwise (· < ·)) (hl : ∀ e ∈ l, i ≤ e.1) (hk : i ≤ k) (hn : k < i + n) :
    lookupAcc init (accMap init f n i l) k = f k (lookupAcc init l k) := by
  induction n generalizing i l with
  | zero => omega
  | succ n ih =>
    have put : ∀ (x y : AccElem) (r : List (Nat × AccElem)), (r.map (·.1)).Pairwise (· < ·) → (∀ e ∈ r, i + 1 ≤ e.1) → x = f i y →
        lookupAcc init (if x = init then accMap init f n (i + 1) r else (i, x) :: accMap init f n (i + 1) r) k =
          if k = i then f i y else f k (lookupAcc init r k) := by
      intro x y r hr hb hx
      have low : ∀ e ∈ accMap init f n (i + 1) r, e.1 ≠ i := fun e he => by
        have := accMap_range init f n (i + 1) r e he
        omega
      by_cases hki : k = i
      · subst hki
        rw [if_pos rfl]
        split
        · rename_i e
          rw [lookupAcc_absent low, ← hx, e]
        · rw [lookupAcc_cons, if_pos rfl, hx]
      · rw [if_neg hki]
        have step := ih (i + 1) r hr hb (by omega) (by omega)
        split
        · exact step
        · rw [lookupAcc_cons, if_neg (fun e => hki e.symm)]
          exact step
    cases l with
    | nil =>
      unfold accMap
      rw [put _ init [] List.Pairwise.nil (by simp) rfl]
      split
      · rename_i h
        rw [h]
        rfl
      · rfl
    | cons d r =>
      obtain ⟨j, x⟩ := d
      have hs' := List.pairwise_cons.mp hs
      have hj : i ≤ j := hl (j, x) (List.mem_cons_self ..)
      have hr : ∀ e ∈ r, j < e.1 := fun e he => hs'.1 e.1 (List.mem_map_of_mem he)
      unfold accMap
      split
      · rename_i hij
        subst hij
        rw [put _ x r hs'.2 (fun e he => hr e he) rfl]
        by_cases h : k = i
        · rw [if_pos h, h, lookupAcc_cons, if_pos rfl]
        · rw [if_neg h, lookupAcc_cons, if_neg (fun e => h e.symm)]
      · rename_i hij
        have big : ∀ e ∈ (j, x) :: r, i + 1 ≤ e.1 := fun e he => by
          rcases List.mem_cons.mp he with rfl | he
          · show i + 1 ≤ j
            omega
          · have := hr e he
            omega
        rw [put _ init ((j, x) :: r) hs big rfl]
        split
        · rename_i h
          rw [h, lookupAcc_absent]
          intro e he
          have := big e he
          omega
        · rfl

/-- An accumulator in order, updated by f, reads f of what it read. -/
theorem Acc.at_map (a : Acc) (f : Nat → AccElem → AccElem) (hs : (a.elems.map (·.1)).Pairwise (· < ·)) {k : Nat} (hk : k < 6144) :
    (a.map f).at_ k = f k (a.at_ k) :=
  lookupAcc_accMap a.init f 6144 0 a.elems k hs (fun _ _ => Nat.zero_le _) (Nat.zero_le _) (by omega)

end Sys2Proof.Machine
end

