-- ==== Sys2Proof/Tests/Slice0.lean ====
section
/-! SUPPORT. Tests of the decoder, the check of well-formedness and single steps on small states, with results taken from the spec; and for
each statement with hypotheses a witness: concrete states and operands that meet the hypotheses of each of its clauses. -/

-- One theorem after another: all at once, their evaluations would need a stack each.
set_option Elab.async false

/-! ## States that the tests start from -/

namespace Sys2Proof.Tests
open Sys2Proof Sys2Proof.Machine Sys2Proof.Claims

/-- The machine after reset with strand 0 of core 0 changed, and with core 0 changed. -/
def withStrand (f : Strand → Strand) : State := State.reset.onStrand 0 0 f
def withCore (f : Core → Core) : State := State.reset.onCore 0 f

/-- Core 0 as the only member of kernel 1, TIMED or not, with a live strand 0; then the strand, the core and the group changed. -/
def running (timed : Bool) (g : Group → Group) (f : Core → Core) (t : Strand → Strand) : State :=
  { State.reset with
    kernels := [{ fetchKernel 1 with record := { fetchRecord with timed }, groups := (fetchKernel 1).groups.map g }],
    cores := upd State.reset.cores 0 fun k => f { k with
      owner := some { kid := 1, gpos := 0, index := 0 }, strands := upd k.strands 0 fun u => t { u with life := .live } } }

/-- The group of `running`. -/
def theGroup : Group :=
  { index := 0, replica := 0, members := [0], st := .released, level := 2, count := 1, offset := 0, freeze := none, pre := none, step := .off,
    stepped := 0, realigns := [], saveEnd := 0, resumes := false, llats := [] }

/-- One flit in landing queue q of a core, and X, A and P registers. -/
def landed (q : Fin 8) (v : BitVec 512) (k : Core) : Core := { k with landq := upd k.landq q fun l => { l with flits := [v] } }
def xs (l : List (BitVec 5 × Word)) (t : Strand) : Strand := l.foldl (fun t r => t.wx r.1 r.2) t
def as (l : List (BitVec 4 × Word)) (t : Strand) : Strand := l.foldl (fun t r => t.wa r.1 r.2) t

/-- The LPS words of the loop levels from level 0 on. -/
def loops (l : List Word) (t : Strand) : Strand := { t with csr := { t.csr with lps := Vector.ofFn fun i : Fin 4 => l.getD i.val 0 } }

/-- The level of the bundle at hand, and a strand at SUPER in a handler. -/
def atLevel (l : Level) (s : State) : State := Claims.cur s fun k => { k with level := l }
def inHandler (s : State) : State := Claims.cur s fun k => { k with level := .super, nested := true }

end Sys2Proof.Tests

section
open Sys2Proof Sys2Proof.Machine Sys2Proof.Claims Sys2Proof.Tests

/-! ## Decoding (R66, R68, R69, R83 to R90)

Each word is written field by field from the encoding tables of chapter 3: opcode [31:26], guard [25:23], then the fields of the format. -/

-- BR P1, -4: 0x01 | P1 | off23 = 0x7FFFFC
theorem test_decode_br : decodeSlot 0 (0x01 * 2 ^ 26 + 1 * 2 ^ 23 + 0x7FFFFC) = .ok (.br 1 0x7FFFFC) := by rfl
theorem test_decode_call : decodeSlot 0 (0x03 * 2 ^ 26 + 0x10) = .ok (.call 0 0x10) := by rfl
theorem test_decode_trap : decodeSlot 0 0x48000021 = .ok (.trap 0 0x21) := by rfl
theorem test_decode_fence : decodeSlot 0 0x38000043 = .ok (.fence 0 4 3) := by rfl
-- ADD X3, X1, X2: d [22:18], a [17:13], b [12:8]
theorem test_decode_add : decodeSlot 1 (0x01 * 2 ^ 26 + 3 * 2 ^ 18 + 1 * 2 ^ 13 + 2 * 2 ^ 8) = .ok (.add 0 3 1 2 0 0) := by rfl
theorem test_decode_movi : decodeSlot 1 (0x21 * 2 ^ 26 + 5 * 2 ^ 18 + 0x3FFFF) = .ok (.movi 0 5 0x3FFFF) := by rfl
theorem test_decode_ld : decodeSlot 1 0xA41C5808 = .ok (.ld 0 7 2 3 0 8) := by rfl
theorem test_decode_cmp : decodeSlot 1 0x8C088602 = .ok (.cmp 0 2 4 6 0 0 2) := by rfl
theorem test_decode_vadd : decodeSlot 2 (0x01 * 2 ^ 26 + 1 * 2 ^ 18 + 2 * 2 ^ 13 + 3 * 2 ^ 8) = .ok (.vadd 0 1 2 3 0 0 0 0) := by rfl
theorem test_decode_vfma : decodeSlot 2 0x10102218 = .ok (.vfma 0 4 1 2 3 0) := by rfl
theorem test_decode_vld : decodeSlot 2 0xD0084000 = .ok (.vld 0 2 1 0 0 0) := by rfl
theorem test_decode_mma : decodeSlot 3 0x0C044300 = .ok (.mma 0 1 2 3 0 0) := by rfl
theorem test_decode_cpy : decodeSlot 3 0x20044400 = .ok (.cpy 0 1 2 4 0 0 0) := by rfl
theorem test_decode_send : decodeSlot 3 0x54044000 = .ok (.send 0 1 2) := by rfl
theorem test_decode_amo : decodeSlot 3 0x48044318 = .ok (.amo 0 1 2 3 1 1 0) := by rfl
theorem test_decode_header : decodeHeader 0xFC0C1443 = some { dly := 3, pop := 5, ext1 := 2, ext3 := 3 } := by rfl
theorem test_decode_reserved : decodeSlot 1 0xFC000000 = .error .reservedOpcode ∧ decodeSlot 0 0x38000100 = .error .reservedField ∧
    decodeSlot 2 1 = .error .reservedField := ⟨rfl, rfl, rfl⟩
-- the class decides: the same word is ADD in position 1 and VADD in position 2
theorem test_decode_position : decodeSlot 1 0x04044300 = .ok (.add 0 1 2 3 0 0) ∧ decodeSlot 2 0x04044300 = .ok (.vadd 0 1 2 3 0 0 0 0) := ⟨rfl, rfl⟩

/-! ## Ill-formed instructions, one for each check (R83, R84, R90 and the chapter of each instruction) -/

theorem test_ill_formed_scalar : ∀ i ∈ ([.loop 0 0 0 0 1 0, .loopi 0 0 0 0 0 1, .loopi 0 0 0 0 1 0, .csrr 0 1 0x006, .csrw 0 1 1 0 0x010, .csrs 0 1 1 0 0x019,
    .csrc 0 1 1 0 0x148, .fence 0 9 0, .add 0 1 2 8 1 0, .add 0 1 2 3 0 1, .divn 0 1 2 9 1 0, .aadd 0 1 2 3 0 7, .sel 0 1 2 8 1 0 1,
    .cmp 0 1 2 3 0 0 8, .cmp 0 1 2 8 1 0 0, .shli 0 1 2 64, .shri 0 1 2 64, .sari 0 1 2 64, .ld 0 1 2 3 1 0] : List Instr), ¬i.WellFormed := by
  decide

theorem test_ill_formed_vector : ∀ i ∈ ([.vadd 0 1 2 3 0 1 1 0, .vsub 0 1 2 3 0 0 0 1, .vmul 0 1 2 3 0 2 1 0, .vdiv 0 1 2 3 0 5 0, .vdiv 0 1 2 3 0 1 1,
    .vsqrt 0 1 2 0 5 0, .vrsq 0 1 2 0 4 0, .vrcp 0 1 2 0 4 1, .vmin 0 1 2 3 0 1 1, .vmax 0 1 2 3 0 2 1, .vabs 0 1 2 0 5 1 0, .vneg 0 1 2 0 0 0 1,
    .vcmp 0 1 2 3 0 0 1 0, .vcmp 0 1 2 3 0 3 0 1, .vsel 0 1 2 3 0 5 1, .vcvt 0 1 2 0 0 0, .vcvt 0 1 2 0 4 1, .vcvt 0 1 2 0 2 1, .vand 0 1 2 3 0 0,
    .vfshl 0 1 2 3 4 4, .vpopc 0 1 2 0 3, .vredr 0 1 2 3 0 0 0 0, .vredr 0 1 2 6 0 5 0 0, .vredc 0 1 2 1 0 5 0 1, .viota 0 1 0 0, .vext 0 1 2 3 0 1,
    .vbmax 0 1 2 3 0, .vqnt 0 1 2 3 0 0 0 0, .vqnt 0 1 2 3 1 2 1 0, .vdqnt 0 1 2 3 0 0 3, .vdqnt 0 1 2 3 2 1 0, .jseed 0 1 2 3 0 0 0,
    .jext 0 1 2 0 0 1 0, .jcoefDiff 0 1 2 0 5, .jcoefTrunc 0 1 2 0 0 2, .jcoefRescale 0 1 2 3 0 7] : List Instr), ¬i.WellFormed := by
  decide

theorem test_ill_formed_engine : ∀ i ∈ ([.mstrm 0 1 2 9, .mzero 0 1 3 0, .mepi 0 1 2 3 0 0 0 0, .mepi 0 1 2 0 0 0 0 1, .mepi 0 1 2 0 0 0 1 0, .msig 0 1 2 3,
    .cpy 0 1 2 3 0 0 1, .cpy 0 1 2 31 0 1 0, .cpy2 0 1 2 31 0 0, .cpyb 0 1 2 3 0 1, .cpyq 0 1 2 3 0 1, .cpyh 0 1 2 3 0 0 1, .binit 0 1 2 9, .barv 0 1 0,
    .amo 0 1 2 3 9 0 0, .acell 0 1 2 9, .acrd 0 1 2 9 0, .send 0 1 31, .recv 0 31 1 0] : List Instr), ¬i.WellFormed := by
  decide

theorem test_lent_bits : extLegal 1 1 (.addi 0 1 2 0) = true ∧ extLegal 1 1 (.shli 0 1 2 0) = false ∧ extLegal 3 1 (.barv 0 1 1) = false ∧
    extLegal 1 0 (.add 0 1 2 3 0 0) = true := by decide

/-! ## Witnesses: the X and C classes -/

/-- Both forms of the second source: Xb, and a word of the head of L7. -/
theorem witness_second : Second (withStrand (xs [(2, 7)])) 2 0 0 7 ∧ Second (withCore (landed 7 (0x55 * 2 ^ 448))) 7 1 7 0x55 :=
  ⟨.inl ⟨rfl, by decide +kernel⟩, .inr ⟨rfl, 0x55 * 2 ^ 448, [], by decide +kernel, by decide +kernel⟩⟩

theorem witness_ScalarTwoSource : on (withStrand (xs [(2, 7)])) 0 ∧ Second (withStrand (xs [(2, 7)])) 2 0 0 7 ∧
    on (withCore (landed 7 (0x55 * 2 ^ 448))) 0 ∧ Second (withCore (landed 7 (0x55 * 2 ^ 448))) 7 1 7 0x55 :=
  ⟨rfl, witness_second.1, rfl, witness_second.2⟩

/-- An empty head in a PACED group, in a TIMED one, and in a TIMED one in step mode. -/
theorem witness_ScalarTwoSource_empty :
    (let s := running false id id id; on s 0 ∧ ((s.core s.cur.core).landq[fin 8 7]).flits = [] ∧ s.timed s.cur.core = false) ∧
    (let s := running true id id id; on s 0 ∧ ((s.core s.cur.core).landq[fin 8 0]).flits = [] ∧
      ¬(s.timed s.cur.core = false ∨ s.stepping s.cur.core = true) ∧ s.cur.nested = false ∧ s.cur.trap = none) ∧
    (let s := running true (fun g => { g with step := .halted }) id id; s.timed s.cur.core = true ∧ s.stepping s.cur.core = true) := by
  refine ⟨⟨rfl, ?_⟩, ⟨rfl, ?_⟩, ?_⟩ <;> decide +kernel

/-- The divide unit free, and held to the next cycle. -/
theorem witness_ScalarDivision : (on State.reset 0 ∧ Second State.reset 2 0 0 0 ∧ (State.reset.strand 0 0).divBusy ≤ (State.reset.strand 0 0).lt) ∧
    (let s := withStrand fun t => { t with divBusy := 1 };
     on s 0 ∧ Second s 2 0 0 0 ∧ (s.strand 0 0).lt < (s.strand 0 0).divBusy ∧ s.cur.nested = false ∧ s.cur.trap = none ∧ s.stepping 0 = false) :=
  ⟨⟨rfl, .inl ⟨rfl, rfl⟩, by decide +kernel⟩, rfl, .inl ⟨rfl, rfl⟩, by decide +kernel⟩

theorem witness_ScalarImmediatesAndBits : on State.reset 0 ∧ immN State.reset 13 63 < 64 ∧ Second State.reset 31 0 0 0 :=
  ⟨rfl, by decide, .inl ⟨rfl, rfl⟩⟩

theorem witness_PredicatesAndAddresses : on State.reset 0 ∧ Second State.reset 31 0 0 0 ∧ (7 : BitVec 4).toNat < 8 := ⟨rfl, .inl ⟨rfl, rfl⟩, by decide⟩

/-- A store of 8 bytes whose address is below 0, past SPM, in the reserved top, misaligned, pinned, and the last good one at USER. -/
theorem witness_ScalarMemory : (let adr (v : Word) (o : BitVec 10) : Int := ((Claims.a (withStrand (as [(2, v)])) 2).toNat : Int) + (immS (withStrand (as [(2, v)])) o).toInt
      adr 0 (-1) < 0 ∧ 0xC0000 < adr 0xBFFF9 0 + (8 : Nat) ∧ (0xBC000 < adr 0xBBFF9 0 + (8 : Nat) ∧ (withStrand (as [(2, 0xBBFF9)])).cur.level = .user) ∧
      adr 0xBBFF7 0 % (8 : Nat) ≠ 0 ∧ adr 0xBBFF7 1 = 0xBBFF8 ∧ ¬(0xBC000 < adr 0xBBFF7 1 + (8 : Nat))) ∧
    (let s := withCore fun k => { k with pins := [{ mma := 0, space := .spm, regions := [(0xBBFFF, 1)], tiles := [0], outs := [], keep := none }] };
      on s 0 ∧ (s.core s.cur.core).pinned .spm 0xBBFF8 8 = true ∧ (s.core s.cur.core).pinned .spm 0xBBFF0 8 = false) := by
  refine ⟨?_, rfl, ?_⟩ <;> decide +kernel

/-! ### Control -/

theorem witness_TransfersAndDelays : on State.reset 0 ∧
    (let s := running false id id id; s.cur.replay = false ∧ s.cur.back = none ∧ s.cur.exit = false ∧ s.cur.trap = none ∧ (me s).life = .live ∧
      s.cur.due1 = none ∧ s.cur.skip = none ∧ NoLoop s) ∧
    (let s := Claims.cur (running false id id id) fun k => { k with due1 := some { target := 32, source := 0, order := 0 } };
     s.cur.due1 = some { target := 32, source := 0, order := 0 } ∧ (me s).life = .live ∧ s.cur.trap = none) := by
  refine ⟨rfl, ⟨rfl, rfl, rfl, rfl, rfl, rfl, rfl, ?_⟩, rfl, rfl, rfl⟩
  unfold NoLoop; decide +kernel

/-- A skipped body; and the last bundle of a level-1 loop with a step left, that none but a higher count would end. -/
theorem witness_TransfersAndDelays_loop :
    (let s := Claims.cur (running false id id id) fun k => { k with skip := some 3 }; s.cur.skip = some 3 ∧ s.cur.due1 = none ∧ s.cur.back = none ∧
      s.cur.trap = none ∧ (me s).life = .live) ∧
    (let s := running false id id fun t => { loops [lpsMk true false false false 0 0 0 false 0 5, lpsMk true true false false 0 0 3 false 0 0] t with
        csr := { (loops [lpsMk true false false false 0 0 0 false 0 5, lpsMk true true false false 0 0 3 false 0 0] t).csr with lit := upd t.csr.lit 1 fun _ => litMk 4 2 } }
     let w := (me s).csr.lps[(1 : Fin 4)]; let i := (me s).csr.lit[(1 : Fin 4)]
     s.cur.nested = false ∧ s.cur.skip = none ∧ s.cur.due1 = none ∧ lpsAct w = true ∧ (∀ m : Fin 4, 1 < m → lpsAct (me s).csr.lps[m] = false) ∧
     lpsEnd w = s.cur.pc / 16 ∧ lpsLast w = false ∧ lpsPe w = true ∧ s.pre s.cur.core = false ∧ litStep i + 2 ≤ litTrip i + lpsStg w ∧
     litStep i + 1 < 2 ^ 32 ∧ keeps s 0x145 = false ∧ keeps s 0x141 = false ∧ (me s).life = .live) := by
  refine ⟨⟨rfl, rfl, rfl, rfl, rfl⟩, ?_⟩
  decide +kernel

/-- No level active: a count of 2^32, a body that ends past the image, one that ends with it, a count of 0. Two levels active, with a stage count on
one: a body within the inner one and one beyond it. And LBRK with an active level. -/
theorem witness_HardwareLoops :
    (let s := running false id (fun k => { k with text := 48 }) (xs [(1, 0x100000000)])
     on s 0 ∧ (∀ l : Fin 4, lpsAct (me s).csr.lps[l] = true ↔ l.val < 0) ∧ 2 ^ 32 ≤ (x s 1).toNat ∧ (x s 0).toNat = 0 ∧ s.cur.trap = none ∧
     s.stepping s.cur.core = false ∧ s.cur.nested = false ∧ s.cur.due1.isSome = false ∧ s.cur.due2.isSome = false ∧
     (mine s).inImage s.cur.level (16 * (0 + 3)) = false ∧ (mine s).inImage s.cur.level (16 * (0 + 2)) = true) ∧
    (let s := running false id (fun k => { k with text := 256 }) (loops [lpsMk true true false false 2 3 0 false 1 9, lpsMk true false false false 0 0 0 false 2 5])
     on s 0 ∧ (∀ l : Fin 4, lpsAct (me s).csr.lps[l] = true ↔ l.val < 2) ∧ s.cur.trap = none ∧ s.stepping s.cur.core = false ∧ s.cur.nested = false ∧
     lpsStg (me s).csr.lps[(0 : Fin 4)] ≠ 0 ∧ lpsRing (me s).csr.lps[(0 : Fin 4)] ≠ 0 ∧
     lpsEnd (me s).csr.lps[(1 : Fin 4)] = 0 + 5 ∧ (∀ l : Fin 4, l.val < 2 → ¬lpsEnd (me s).csr.lps[l] < 0 + 5) ∧ lpsEnd (me s).csr.lps[(1 : Fin 4)] < 0 + 6 ∧
     (mine s).inImage s.cur.level (16 * (0 + 5)) = true) ∧
    (inHandler State.reset).cur.nested = true ∧
    (let s := withStrand (loops (List.replicate 4 (lpsMk true false false false 0 0 0 false 1 9)))
     (∀ l : Fin 4, lpsAct (me s).csr.lps[l] = true ↔ l.val < 4) ∧ s.cur.nested = false) ∧
    (let s := withStrand (loops [0, BitVec.ofNat 64 (2 ^ 63)])
     on s 0 ∧ lpsAct (me s).csr.lps[(1 : Fin 4)] = true ∧ ∀ m : Fin 4, 1 < m → lpsAct (me s).csr.lps[m] = false) := by
  refine ⟨⟨rfl, ?_⟩, ⟨rfl, ?_⟩, rfl, ?_, rfl, ?_⟩ <;> decide +kernel

/-- LOOPI.p back at the START and END of a loop that has been parked at its step 5: it goes on there, and a count of 5 skips it; at another END it starts
anew (R188, R194). -/
theorem witness_HardwareLoops_parked :
    let s := running false id (fun k => { k with text := 256 }) fun t => { loops [lpsMk false true true false 0 0 0 false 1 5] t with
      csr := { (loops [lpsMk false true true false 0 0 0 false 1 5] t).csr with lit := upd t.csr.lit 0 fun _ => litMk 9 5 } }
    let old := (me s).csr.lps[(0 : Fin 4)]
    on s 0 ∧ (∀ l : Fin 4, lpsAct (me s).csr.lps[l] = true ↔ l.val < 0) ∧ ((1 : BitVec 1) == 1 && (0 : Nat) == 0 && lpsPark old && lpsStart old == 0 + 1 && lpsEnd old == 0 + 5) = true ∧
    lpsEnd old ≠ 0 + 6 ∧ litStep (me s).csr.lit[(0 : Fin 4)] = 5 ∧ (mine s).inImage s.cur.level (16 * (0 + 5)) = true ∧ keeps s 0x140 = false := by
  refine ⟨rfl, ?_⟩; decide +kernel

theorem witness_WaitsAndEnds : on (withStrand (xs [(1, 0xFFFFFFFF), (2, 0x100000000)])) 0 ∧
    (let s := withStrand (xs [(1, 0xFFFFFFFF), (2, 0x100000000)]); (x s 1).toNat < 2 ^ 32 ∧ 2 ^ 32 ≤ (x s 2).toNat ∧ s.timed s.cur.core = false) ∧
    (let s := running true id id id; on s 0 ∧ s.timed s.cur.core = true) := by
  refine ⟨rfl, ?_, rfl, ?_⟩ <;> decide +kernel

theorem witness_TimeAndStrands : (let s := running false id id id;
    on s 0 ∧ (∃ k gr, s.owner? s.cur.core = some (k, gr) ∧ k.record.strands < 4) ∧ (me s).life = .live) ∧ 0 < 1 ∧ 2 ^ 16 - 1 < 2 ^ 16 :=
  ⟨⟨rfl, ⟨_, _, rfl, by decide⟩, rfl⟩, by decide⟩

-- CYCR.tt X5 (R172), and the word with bit 17 set
theorem test_decode_cycr : decodeSlot 0 0x58140001 = .ok (.cycr 0 5 1) ∧ decodeSlot 0 0x58160001 = .error .reservedField ∧
    decodeSlot 0 0x5C140000 = .ok (.strs 0 5) := ⟨rfl, rfl, rfl⟩

/-- CSR 0x017 at FIRM, TVEC at SUPER, FSR at USER; and each of the two below its level. -/
theorem witness_ControlAndStatus : on State.reset 0 ∧ (atLevel .firm State.reset).cur.level = .firm ∧
    ((0x020#12).toNat ≠ 0x017 ∧ (atLevel .super State.reset).cur.level ≠ .user) ∧ (0x13F#12).toNat < 0x140 ∧
    (atLevel .super State.reset).cur.level ≠ .firm ∧ 0x140 ≤ (0x140#12).toNat ∧ State.reset.cur.level = .user := by
  refine ⟨rfl, rfl, ?_, ?_, ?_, ?_, rfl⟩ <;> decide

/-- JCR with an order above G - 1, and with one at it (R183). -/
theorem witness_ControlAndStatus_jcr : ¬bits (0x14#64).toNat 0 3 + 1 ≤ 2 ^ bits (0x14#64).toNat 4 2 ∧ bits (0x23#64).toNat 0 3 + 1 ≤ 2 ^ bits (0x23#64).toNat 4 2 := by
  decide

theorem witness_TrapAndRftFault : on State.reset 0 ∧ State.reset.cur.level = .user ∧
    ((atLevel .super State.reset).cur.level ≠ .user ∧ (atLevel .super State.reset).cur.nested = false) ∧
    ((inHandler State.reset).cur.level ≠ .user ∧ (inHandler State.reset).cur.nested = true ∧ (mine (inHandler State.reset)).owner = none) ∧
    (let s := inHandler (running false id id id); on s 0 ∧ s.cur.level ≠ .user ∧ s.cur.nested = true ∧
      (∃ k, (mine s).owner = some k ∧ ∃ w, s.kernel? k.kid = some w ∧ w.fault = none)) :=
  ⟨rfl, rfl, ⟨by decide, rfl⟩, ⟨by decide, rfl, rfl⟩, rfl, by decide, rfl, _, rfl, _, rfl, rfl⟩

end

/-! ## Witnesses: the vector pipe, what lands, barriers, waiting and traps -/

section
open Sys2Proof Sys2Proof.Machine Sys2Proof.Claims Sys2Proof.Tests

/-- The pipe is free after reset; held by the own strand, and by another one, to the next cycle. -/
theorem witness_free : Free State.reset := by unfold Free; decide +kernel

theorem witness_VectorPipeHeld :
    (let s := withStrand fun t => { t with pipeBusy := 1 };
     on s 0 ∧ (me s).lt < (me s).pipeBusy ∧ s.cur.nested = false ∧ s.cur.trap = none ∧ s.stepping s.cur.core = false) ∧
    (let s := State.reset.onStrand 0 3 fun t => { t with pipeBusy := 1 };
     on s 0 ∧ (me s).pipeBusy ≤ (me s).lt ∧ ∃ j : Fin 4, j ≠ s.cur.strand ∧ (s.strand s.cur.core j).lt < (s.strand s.cur.core j).pipeBusy) := by
  refine ⟨⟨rfl, ?_⟩, rfl, ?_⟩ <;> decide +kernel

/-- Each format on its own; FMA codes for plain formats and for jets. -/
theorem witness_VectorFloat : on State.reset 0 ∧ Free State.reset ∧ fmtOf 0 = some .f32 ∧ fmtOf 1 = some .f16 ∧ fmtOf 2 = some .bf16 ∧ fmtOf 3 = some .f64 ∧
    fmtOf 4 = some .d64 ∧ ((0 : BitVec 1) == 1) = false ∧ ((1 : BitVec 1) == 1) = true ∧ (0 : BitVec 3).toNat = 0 ∧ (7 : BitVec 3).toNat = 7 :=
  ⟨rfl, witness_free, rfl, rfl, rfl, rfl, rfl, rfl, rfl, rfl, rfl⟩

theorem witness_VectorMinMax : on State.reset 0 ∧ Free State.reset ∧ fmtOf 3 = some .f64 := ⟨rfl, witness_free, rfl⟩

theorem witness_PlainFormsAndJets : (Fmt.f32 ≠ .e4m3 ∧ Fmt.f32 ≠ .e2m1) ∧ (7 : Nat) ≤ 7 := by decide

/-- 3 / 2 in either sign, and 2^24 + 1 into f32: inexact, no overflow. -/
theorem witness_RoundingIsNearest : (0 < 2 ∧ 3 % 2 ≠ 0 ∧ 4 % 2 = 0) ∧ Fmt.f32 ≠ .d64 ∧ 0 < 16777217 ∧
    roundTo .f32 .rne false 16777217 0 0 = (.fin false 8388608 1, { Flags.none with nx := true }) ∧ ({ Flags.none with nx := true } : Flags).ovf = false := by
  decide +kernel

theorem witness_VectorIntegersAndBits : on State.reset 0 ∧ Free State.reset ∧ fmtOf 5 = none ∧ fmtOf 6 = none ∧ fmtOf 7 = none ∧
    viewWidth 5 = 32 ∧ viewWidth 7 = 8 := ⟨rfl, witness_free, rfl, rfl, rfl, rfl, rfl⟩

theorem witness_VectorMovementAndElements : on State.reset 0 ∧ Free State.reset ∧ fmtOf 7 = none ∧ fmtOf 4 = some .d64 ∧ (1 : BitVec 1) = 1 :=
  ⟨rfl, witness_free, rfl, rfl, rfl⟩

theorem witness_VectorFromLanding :
    (on (withCore (landed 7 5)) 0 ∧ ((mine (withCore (landed 7 5))).landq[fin 8 7]).flits = [5] ∧ Free (withCore (landed 7 5))) ∧
    ((let s := running true id id id; on s 0 ∧ ((mine s).landq[fin 8 7]).flits = [] ∧ s.timed s.cur.core = true ∧ s.stepping s.cur.core = false) ∧
     let s := running false id id id; on s 0 ∧ ((mine s).landq[fin 8 7]).flits = [] ∧ s.timed s.cur.core = false) := by
  unfold Free
  refine ⟨⟨rfl, ?_⟩, ⟨rfl, ?_⟩, rfl, ?_⟩ <;> decide +kernel

theorem witness_VectorReduce : on State.reset 0 ∧ Free State.reset ∧ fmtOf 5 = none ∧ fmtOf 4 = some .d64 ∧ (2 : BitVec 5).toNat ≤ 2 :=
  ⟨rfl, witness_free, rfl, rfl, by decide⟩

/-- Narrowing into the last part, widening from it, and between decimals; an NaN, an infinity, and integers to integers. -/
theorem witness_VectorConversions : on State.reset 0 ∧ Free State.reset ∧ (14 : BitVec 5).toNat ≤ 14 ∧
    (7 * (32768 / max 32 4) + 32768 / max 32 4) * 4 ≤ 32768 ∧ (0 + 32768 / max 64 64) * 64 ≤ 32768 ∧
    (cvtFmt 0 = some .f32 ∧ (decodeF .f32 0x7FC00000).isNan = true ∧ decodeF .f32 0xFF800000 = .inf true ∧ Fmt.f32 ≠ .d64) ∧
    5 ≤ 5 ∧ 10 ≤ 10 := by
  unfold Free; refine ⟨rfl, ?_⟩; decide +kernel

/-- The latch form with no latch, and with the latch of the same codes; the scale form in the last slot. -/
theorem witness_VectorBlocks : on State.reset 0 ∧ Free State.reset ∧ (2 : BitVec 3).toNat ≤ 2 ∧
    ((0 : BitVec 1) = 0 ∧ (me State.reset).latch.valid = false ∧ State.reset.cur.nested = false ∧ State.reset.cur.trap = none ∧ State.reset.stepping 0 = false) ∧
    (let s := withStrand fun t => { t with latch := { t.latch with valid := true } };
     Free s ∧ ¬((me s).latch.valid = false ∨ s.latchInFlight = true ∨ (me s).latch.src ≠ (0 : BitVec 3).truncate 2 ∨ (me s).latch.tgt ≠ 0)) ∧
    3 * slotBytes (blockFmt 0) + slotBytes (blockFmt 0) ≤ 4096 ∧ 1 * slotBytes (blockFmt 2) + slotBytes (blockFmt 2) ≤ 4096 := by
  unfold Free; refine ⟨rfl, ?_⟩; decide +kernel

/-- The last place for a vector in SPM at USER and past it; a misplaced one; a mark that is and is not good; a pin; rows that step
out of SPM at row 1, and rows that do not. -/
theorem witness_VectorMemory : on State.reset 0 ∧ Free State.reset ∧
    (let s := withStrand (as [(2, 0xBB000), (3, 0xBB040), (4, 0x20), (15, 0xBBFF0), (5, 8)]);
     let adr (n : BitVec 4) (o : BitVec 10) : Int := ((Claims.a s n).toNat : Int) + 64 * o.toInt
     adr 2 0 = 0xBB000 ∧ adr 2 1 = 0xBB040 ∧ ¬(0xBC000 < adr 2 0 + (4096 : Nat)) ∧ 0xBC000 < adr 3 0 + (4096 : Nat) ∧ adr 5 (-1) < 0 ∧ adr 4 0 % (64 : Nat) ≠ 0 ∧
     ¬((Claims.a s 15).toNat % 16 ≠ 0 ∨ 0xC0000 < (Claims.a s 15).toNat + 16 ∨ (0xBC000 < (Claims.a s 15).toNat + 16 ∧ s.cur.level = .user)) ∧
     (Claims.a s 5).toNat % 16 ≠ 0 ∧ (mine s).pinned .spm 0xBB000 4096 = false) ∧
    (let s := withCore fun k => { k with pins := [{ mma := 0, space := .spm, regions := [(0xBBFFF, 1)], tiles := [0], outs := [], keep := none }] };
     (mine s).pinned .spm 0xBB000 4096 = true ∧ (s.kmask 0).getLsbD (64 * 15 + 63) = true ∧ (mine s).pinned .spm (0xBBF00 + 4 * 63) 4 = true) ∧
    let s := withStrand (as [(2, 0xBBF00)] ∘ xs [(3, 256)]);
    let row (r : BitVec 5) (i : Nat) : Int := ((Claims.a s 2).toNat : Int) + i * (x s r).toInt
    row 0 15 = 0xBBF00 ∧ row 3 0 = 0xBBF00 ∧ row 3 1 = 0xBC000 ∧ s.cur.level = .user := by
  unfold Free; refine ⟨rfl, ?_⟩; decide +kernel

theorem witness_JetInstructions : on State.reset 0 ∧ Free State.reset ∧ fmtOf 0 = some .f32 ∧ fmtOf 3 = some .f64 ∧ fmtOf 4 = some .d64 :=
  ⟨rfl, witness_free, rfl, rfl, rfl⟩

/-- An access of 8 bytes, the last row of a VSTX, a barrier at which nothing has arrived in this cycle. -/
theorem witness_EffectsLand : (0 < 8 ∧ (8 : Nat) ≤ 8) ∧ 15 < 16 ∧ ∀ u ∈ (State.reset.core 0).arrived, u.1 ≠ 64 := by
  refine ⟨by decide, by decide, fun u h => ?_⟩; cases h

/-- A result without a trap, with one, checked with and without a failure to come, and one that writes one register. -/
theorem witness_VectorResultLands :
    (let r : VRes := { flags := HwFlags.none, trap := none, writes := [{ reg := 31, mask := 1, val := 1 }], kwrites := [], krow := none, xwrites := [],
                       latch := none, check := some 8, ring := (0, 0) };
     r.trap = none ∧ (State.reset.core 0).errV = [] ∧ (State.reset.core 0).errV.headD [] = [] ∧ OnlyV r ∧ r.writes = [{ reg := 31, mask := 1, val := 1 }]) ∧
    ∃ r : VRes, r.trap = some { cause := 3, taddr := 0, coef := none } :=
  ⟨⟨rfl, rfl, rfl, ⟨rfl, rfl, rfl, rfl⟩, rfl⟩,
   { flags := HwFlags.none, trap := some { cause := 3, taddr := 0, coef := none }, writes := [], kwrites := [], krow := none, xwrites := [],
     latch := none, check := none, ring := (0, 0) }, rfl⟩

/-- A strand that is gone, one in its handler, one whose core's turn of the issue phase is still to come, and one whose core's turn is over. -/
theorem witness_VectorResultLands_trap : (State.reset.strand 0 0).life ≠ .live ∧
    (let s := running false id id fun t => { t with trapped := true }; (s.strand 0 0).life = .live ∧ (s.strand 0 0).trapped = true) ∧
    (let s := running false id id id; (s.strand 0 0).life = .live ∧ (s.strand 0 0).trapped = false ∧ s.iss ≤ (0 : Fin 256).val ∧
      (0 : Fin 256).val < ({ s with iss := 1 } : State).iss) := by
  decide +kernel

/-- A barrier word at an address: PEND and EXPECT 2, PBYTES 8, DUE 5, OPEN. -/
def barred (k : Core) : Core := k.setBar 0x40 { pend := 2, expect := 2, pbytes := 8, due := 5, b12 := 0, rest := 0 }

theorem witness_Barriers :
    (let s := withCore (barred) |>.onStrand 0 0 (as [(2, 0x40), (3, 0x44), (4, 0xBBFF0), (5, 0xBC000)] ∘ xs [(1, 0x0FFFF), (2, 0x10001)]);
     on s 0 ∧ (Claims.a s 3).toNat % 16 ≠ 0 ∧ (Claims.a s 5).toNat % 16 = 0 ∧ 0xBC000 < (Claims.a s 5).toNat + 16 ∧ s.cur.level = .user ∧
     (Claims.a s 2).toNat % 16 = 0 ∧ ¬(0xC0000 < (Claims.a s 4).toNat + 16 ∨ (0xBC000 < (Claims.a s 4).toNat + 16 ∧ s.cur.level = .user)) ∧
     ((mine s).bar 0x40).state = .isOpen ∧ ((mine s).bar 0xBBFF0).state ≠ .isOpen ∧ (x s 0).toNat % 65536 = 0 ∧ (x s 2).toNat / 65536 % 65536 ≠ 0 ∧
     (x s 1).toNat % 65536 ≠ 0 ∧ (x s 1).toNat / 65536 % 65536 = 0 ∧ s.cur.trap = none ∧ s.cur.nested = false ∧ s.stepping 0 = false) ∧
    (let k (a n b : Nat) : Core := { barred Core.reset with arrived := [(a, n, b)] };
     ((k 0x80 1 0).bar 0x80).state ≠ .isOpen ∧
     (((k 0x40 3 0).bar 0x40).state = .isOpen ∧ ((k 0x40 3 0).bar 0x40).pend < 3) ∧
     (2 ≤ ((k 0x40 2 8).bar 0x40).pend ∧ ((k 0x40 2 8).bar 0x40).pend = 2 ∧ ((k 0x40 2 8).bar 0x40).pbytes = 8) ∧
     (1 ≤ ((k 0x40 1 9).bar 0x40).pend ∧ ¬(((k 0x40 1 9).bar 0x40).pend = 1 ∧ ((k 0x40 1 9).bar 0x40).pbytes = 9) ∧ 9 < 2 ^ 32)) ∧
    ((8 : BitVec 4).toNat ≤ 8 ∧ (1 : BitVec 16) ≠ 0) ∧
    let k : Core := { barred Core.reset with arrived := [(0x40, 1, 0)], bars := [0x40], tt := 5 };
    0x40 ∈ k.bars ∧ (k.bar 0x40).state = .isOpen ∧ (k.bar 0x40).due ≠ 0 ∧ (k.bar 0x40).due = k.tt % 2 ^ 32 ∧ (withCore fun _ => k).core 0 = k := by
  refine ⟨⟨rfl, ?_⟩, ?_⟩ <;> decide +kernel

/-- A BARRIER_DUE at a barrier that is not OPEN. -/
theorem witness_Barriers_closed : let k : Core := { barred Core.reset with arrived := [(0x80, 1, 0)] }
    k.arrived = [(0x80, 1, 0)] ∧ (k.bar 0x80).state ≠ .isOpen ∧ (withCore fun _ => k).core 0 = k := by
  refine ⟨rfl, ?_, ?_⟩ <;> decide +kernel

/-! ### Realigning, launching, returning -/

theorem witness_RealignWaits :
    (let s := running false id id id; on s 0 ∧ s.timed s.cur.core = false) ∧
    (let s := running true (fun g => { g with freeze := some (2, none) }) id id;
     on s 0 ∧ s.timed s.cur.core = true ∧ (mine s).tt + 1 < 2 ∧ ∃ k gr, s.owner? s.cur.core = some (k, gr) ∧ gr.freeze = some (2, none)) ∧
    (let s := running true (fun g => { g with level := 4 }) id (xs [(1, 0x07001000)]);
     (∃ k gr, s.owner? s.cur.core = some (k, gr) ∧ k.record.timed = true ∧ gr.level = 4 ∧ k.record.preemptible = false) ∧
      (bits (x s 1).toNat 24 8 = 6 ∨ bits (x s 1).toNat 24 8 = 7) ∧ bits (x s 1).toNat 0 12 < bits (x s 1).toNat 12 12) ∧
    (let s := running false id id id; (∀ k gr, s.owner? s.cur.core = some (k, gr) → k.record.timed = false) ∧ s.cur.nested = false ∧ s.cur.trap = none ∧
      s.stepping 0 = false) := by
  refine ⟨⟨rfl, by decide +kernel⟩, ⟨rfl, by decide +kernel, by decide +kernel, _, _, rfl, rfl⟩, ⟨⟨_, _, rfl, rfl, rfl, rfl⟩, by decide +kernel, by decide +kernel⟩, ?_, ?_⟩
  · intro k gr h; cases h; rfl
  · decide +kernel

/-- Two members, one of which waits at a REALIGN of TT 3 and the other has yet to come to it, or has passed it: common and not. Below a freeze point of 9
it is the new one, and at 4 it changes nothing. -/
theorem witness_RealignWaits_common :
    let s (n : Nat) := (running true (fun g => { g with members := [0, 1], freeze := some (9, none) }) id fun t => { t with wait := .realign 1 false 7 3 }).onCore 1
      fun k => { k with tt := n }
    let r : Nat × Nat × Word := (3, 0, 0)
    ((s 2).strand 0 0).realignAt = some r ∧ ((s 2).strand 1 0).realignAt = none ∧ ((s 2).core 1).tt < r.1 ∧ ¬((s 4).core 1).tt < r.1 ∧ ((s 4).core 1).tt ≠ r.1 ∧
    r.1 + 1 < 9 ∧ 4 ≤ r.1 + 1 := by
  decide +kernel

/-- A launch record's last place at USER and one past it; 7 and 8 launches held; CKPT of one page mapped LOGGED, of none, and of too
many; a PAIR kernel. -/
theorem witness_LaunchDriftCheckpoint :
    (let s := withStrand (as [(2, 0xBBF80), (3, 0xBBFC0)] ∘ xs [(1, 65537)]);
     on s 0 ∧ ¬((Claims.a s 2).toNat % 64 ≠ 0 ∨ 0xC0000 < (Claims.a s 2).toNat + 128 ∨ (0xBC000 < (Claims.a s 2).toNat + 128 ∧ s.cur.level = .user)) ∧
     (0xBC000 < (Claims.a s 3).toNat + 128 ∧ s.cur.level = .user) ∧ (mine s).launches.length < 8 ∧ s.cur.level ≠ .firm ∧
     (x s 0).toNat = 0 ∧ 65536 < (x s 1).toNat ∧ s.isPair s.cur.core = false ∧ s.cur.nested = false ∧ s.cur.trap = none) ∧
    (8 ≤ (mine (withCore fun k => { k with
      launches := List.replicate 8 { strand := 0, d := 0, kid := 0, queue := 0, bytes := [], order := 0, held := false, full := false, at_ := 0, from_ := 0, addr := 0 } })).launches.length) ∧
    (atLevel .firm State.reset).cur.level = .firm ∧
    (let s := { running false id id id with kernels := [{ fetchKernel 1 with record := { fetchRecord with pair := true } }] }; s.isPair s.cur.core = true) ∧
    -- the page at VA 0, pinned by kernel 1: writable, LOGGED
    (let s := { running false id id (xs [(2, 1)]) with
       pinsets := [{ kid := 1, die := 0, xs := [{ va := 0, block := false, leaf := 0x3004B, bits0 := 0, bits1 := 0 }] }] };
     on s 0 ∧ s.isPair s.cur.core = false ∧ 0 < (x s 2).toNat ∧ (x s 2).toNat ≤ 65536 ∧
     ∀ p ∈ (chunks (x s 1).toNat (65536 * (x s 2).toNat)).map (·.1), (∃ r, s.resolve false p 1 = .run r false) ∧ (s.loggedPage p).isSome = true) := by
  refine ⟨⟨rfl, ?_⟩, ?_, rfl, ?_, rfl, ?_, ?_, ?_, ?_⟩
  all_goals first | decide +kernel | skip
  intro p hp
  have e : (chunks (x (running false id id (xs [(2, 1)])) 1).toNat (65536 * (x (running false id id (xs [(2, 1)])) 2).toNat)).map (·.1) = [0] := by decide +kernel
  cases List.mem_singleton.mp (e ▸ hp)
  exact ⟨⟨_, rfl⟩, rfl⟩

/-- A flight-save area with no entry, with a return still to come, and with an entry of no known kind; a kernel that holds the core. -/
theorem witness_ReturnFromTrap :
    let s (m : Mem) := inHandler (running false id (fun k => { k with spm := m }) id)
    let area (m : Mem) := (s m).flightEntries 0 0
    on (s []) 0 ∧ (s []).cur.level ≠ .user ∧ (s []).cur.nested = true ∧
    (flightOk (area []).1 (area []).2 (me (s [])).hold = true ∧ (s []).returnsPending 0 0 = false) ∧
    (let m : Mem := [(0xBC000, 1), (0xBC018, 1), (0xBC019, 5), (0xBC01B, 1)];
     flightOk (area m).1 (area m).2 (me (s m)).hold = true ∧ (s m).returnsPending 0 0 = true) ∧
    (let m : Mem := [(0xBC000, 128)];
     ¬(flightOk (area m).1 (area m).2 (me (s m)).hold = true) ∧ ∃ o, (mine (s m)).owner = some o ∧ ∃ w, (s m).kernel? o.kid = some w ∧ w.fault = none) :=
  ⟨rfl, by decide, rfl, by decide +kernel, by decide +kernel, by decide +kernel, _, rfl, _, rfl, rfl⟩

/-- An area that RFT refuses in step mode, where no SCHED is raised, and out of it; the end of an RFT's bundle, with no return still to come. -/
theorem witness_ReturnFromTrap_end :
    (let s (m : StepSt) := inHandler (running false (fun g => { g with step := m }) (fun k => { k with spm := [(0xBC000, 128)] }) id);
     (s .halted).stepping (s .halted).cur.core = true ∧ (s .off).stepping (s .off).cur.core = false ∧
     ¬(flightOk ((s .halted).flightEntries 0 0).1 ((s .halted).flightEntries 0 0).2 (me (s .halted)).hold = true) ∧
     ∃ o, (mine (s .off)).owner = some o ∧ ∃ w, (s .off).kernel? o.kid = some w ∧ w.fault = none ∧ w.halted = false) ∧
    (let s := Claims.cur (inHandler (running false id id id)) fun k => { k with back := some true }
     s.cur.back = some true ∧ s.cur.ends = false ∧ (me s).life = .live ∧ s.returnsPending 0 0 = false ∧ ¬(s.timed 0 = true ∧ s.stepping 0 = true)) :=
  ⟨⟨by decide +kernel, by decide +kernel, by decide +kernel, _, rfl, _, rfl, rfl, rfl⟩, by decide +kernel⟩

end

/-! ## Witnesses: the engines -/

namespace Sys2Proof.Tests
open Sys2Proof Sys2Proof.Machine Sys2Proof.Claims

/-- Command 7 of strand 0 of core 0 with a body, queued or not, alone in the machine. -/
def theCmd (queued : Bool) (body : Body) : Cmd :=
  { id := 7, core := 0, strand := 0, pc := 0, owner := some { kid := 1, gpos := 0, index := 0 }, ctx := 1, tag := 1, engine := .matrix, queued, start := 1,
    occ := 1, seq := 0, reach := 0, stepped := false, nested := false, body }
def holding (queued : Bool) (body : Body) (s : State) : State := { s with cmds := [theCmd queued body] }

def aStream : Stream := { Stream.reset with k := 128, rowStride := 128 }
def bStream : Stream := { Stream.reset with k := 128, bsram := true }
def oStream : Stream := { Stream.reset with fmt := 6, k := 96, rowStride := 384, rows := 63 }
def streams (l : List (Fin 16 × Stream)) (k : Core) : Core := { k with streams := l.foldl (fun v p => upd v p.1 fun _ => p.2) k.streams }

/-- A local route of a kind to core 0, with an index. -/
def localRoute (kind index : Nat) : Word := BitVec.ofNat 64 (kind * 2 ^ 62 + 2 ^ 49 + index * 2 ^ 32)
/-- Context 1 holds core 0 and a near window of 4 KiB. -/
def partitioned (s : State) : State :=
  { s with ctxs := upd s.ctxs 1 fun c => { c with part := { c.part with cores := 1, nearSize := 4096 }, peers := 2 } }

def anOutput (fails : List Nat) (arith : Option Nat) (counted : Bool) (slot : Option Press) : Mepi :=
  { tile := 0, out := oStream, bias := none, route := none, nolocal := false, fte := 0, bnd := 0x300000000, init := AccElem.zero, anc := 0, coef := 0,
    biasW := [], fed := [], slot, flags := HwFlags.none, arith, fails, counted }
def aPress (sd : Word) (disputed : Bool) (arb : Option Arb) : Press :=
  { id := 7, tile := 0, p := [1], sd := [], sigP := 1, sigS := sd, disputed, recheck := false, tt := 0, arb }
def aResidue : Residue :=
  { strand := 0, pc := 0, pos := 2, low := 0, elems := 1, dur := 5, wrong := false, tt := 0,
    res := { flags := HwFlags.none, trap := none, writes := [], kwrites := [], krow := none, xwrites := [], latch := none, check := none, ring := (0, 0) } }
def anArb : Arb := { words := [1], namedP := true, namedS := false, undecided := false, elems := 1, lowWord := 0, dur := 10 }

end Sys2Proof.Tests

section
open Sys2Proof Sys2Proof.Machine Sys2Proof.Claims Sys2Proof.Tests

/-- A descriptor's last place at USER, one past it, a misplaced one; one with K = 0, and the good one of K = 1. -/
theorem witness_StreamInstructions :
    let s := running false id (fun k => { k with spm := [(0xBBFE8, 1)] }) (as [(1, 0xBBFE0), (2, 0xBC000), (3, 0x10), (4, 0)]);
    on s 0 ∧ (Claims.a s 3).toNat % 32 ≠ 0 ∧ ((Claims.a s 2).toNat % 32 = 0 ∧ spmEnd s < (Claims.a s 2).toNat + 32) ∧
    ((Claims.a s 1).toNat % 32 = 0 ∧ (Claims.a s 1).toNat + 32 ≤ spmEnd s ∧ ¬BadDescriptor (fun o n => (mine s).spm.readNat ((Claims.a s 1).toNat + o) n) 0) ∧
    ((Claims.a s 4).toNat + 32 ≤ spmEnd s ∧ BadDescriptor (fun o n => (mine s).spm.readNat ((Claims.a s 4).toNat + o) n) 0) ∧
    s.cur.nested = false ∧ s.cur.trap = none ∧ s.stepping 0 = false := by
  refine ⟨rfl, ?_, ?_, ⟨?_, ?_, ?_⟩, ⟨?_, ?_⟩, ?_⟩
  any_goals unfold BadDescriptor
  all_goals decide +kernel

/-- A run that ends past a limit, and runs that end at it. -/
theorem witness_outside : Outside 0xBC000 [(0xBBFF0, 128)] 0xBC000 ∧ (∀ x, ¬Outside 0xBC000 [(0xBBF80, 128)] x) ∧ ∀ y, ¬Outside 0x600000 [(0x5FFF80, 128)] y := by
  refine ⟨⟨⟨(0xBBFF0, 128), by decide, by decide, by decide⟩, by decide⟩, fun x h => ?_, fun x h => ?_⟩ <;> obtain ⟨r, hr, hl, -⟩ := h.1 <;> clear h <;> revert r <;> decide

/-- A full queue. A pair of streams that MMA takes and one that it does not; one that reaches past SPM and one that ends with it. An output
stream that MEPI takes and one of K = 0; its image past SPM, a misaligned bias, a bad route, a good one, a pinned target. -/
theorem witness_MatrixQueue :
    (let s := { State.reset with cmds := List.replicate 4 (theCmd true (.mcell 0 [.mac])) }; on s 0 ∧ 4 ≤ s.queueUsed s.cur.core .matrix) ∧
    (let s := partitioned (running false id (fun k => { streams [(1, aStream), (2, bStream), (3, { aStream with base := 0xBBFF0 }), (4, oStream),
       (5, { oStream with base := 0xBBFF0 })] k with rt := upd (upd k.rt 0 fun _ => localRoute 0 0) 1 fun _ => localRoute 3 0 }) (as [(1, 2)]));
     on s 0 ∧ s.queueUsed s.cur.core .matrix < 4 ∧ (mine s).streams[(1 : Fin 16)] = aStream ∧ (mine s).streams[(2 : Fin 16)] = bStream ∧
     (aStream.bsram = false ∧ bStream.bsram = true ∧ aStream.k = bStream.k ∧ aStream.fmt < 4 ∧ bStream.fmt < 4) ∧
     (mine s).streams[(0 : Fin 16)].bsram = false ∧ ((mine s).tiles[(0 : Fin 4)]).count < 2 ^ 26 ∧
     mmaRuns { aStream with base := 0xBBFF0 } false [0] = [(0xBBFF0, 128)] ∧ (∀ r ∈ mmaRuns aStream false [0], ¬(spmEnd s < r.1 + r.2)) ∧
     (∀ r ∈ mmaRuns bStream false [0], ¬(0x600000 < r.1 + r.2)) ∧
     (mine s).streams[(4 : Fin 16)] = oStream ∧ oStream.bsram = false ∧ ¬(oStream.fmt = 5) ∧ oStream.k ≠ 0 ∧ ¬(96 < oStream.k) ∧ oStream.scaled = false ∧
     oStream.fmt ≠ 3 ∧ oStream.fmt ≠ 2 ∧ (mine s).streams[(0 : Fin 16)].k = 0 ∧ (∀ r ∈ oStream.outRuns, ¬(spmEnd s < r.1 + r.2)) ∧
     (∃ r ∈ ({ oStream with base := 0xBBFF0 } : Stream).outRuns, spmEnd s < r.1 + r.2) ∧ (Claims.a s 1).toNat % 4 ≠ 0 ∧ (Claims.a s 0).toNat % 4 = 0 ∧
     s.routeFault s.cur.core (localRoute 3 0) oStream.imageBytes = some 7 ∧ s.routeFault s.cur.core (localRoute 0 0) oStream.imageBytes = none ∧
     rtKind (localRoute 0 0) ≠ 2 ∧ (∀ r ∈ oStream.outRuns, (mine s).pinned .spm r.1 r.2 = false)) ∧
    (let s := withCore fun k => { k with pins := [{ mma := 0, space := .spm, regions := [(63 * 384 + 383, 1)], tiles := [1], outs := [], keep := none }] };
     ∃ r ∈ oStream.outRuns, (mine s).pinned .spm r.1 r.2 = true) := by
  refine ⟨⟨rfl, ?_⟩, ⟨rfl, ?_⟩, ?_⟩ <;> decide +kernel

theorem witness_ordered : AccOrdered Acc.zero := by unfold AccOrdered; decide

/-- Each command that can start; one that has started; one that the mender holds back. The floor of 3 / 2, and the least term. -/
theorem witness_MatrixCommands :
    (∀ b ∈ [Body.mzero 0 1 0, .mcell 0 [.mac], .mma { tile := 0, a := aStream, b := bStream, jet := false, ref := false, k := 0, occ := 64, descs := [], dead := [], qmal := none },
        .mepi (anOutput [] none false none)],
      let s := holding true b State.reset
      s.cmd? 7 = some (theCmd true b) ∧ (theCmd true b).queued = true ∧ (theCmd true b).engine = .matrix ∧ s.startBlocked 0 b = false) ∧
    (theCmd false (.mcell 0 [.mac])).queued = false ∧
    (let s := holding true (.mcell 0 [.mac]) (withCore fun k => { k with stopTill := 1 }); s.startBlocked 0 (.mcell 0 [.mac]) = true) ∧
    (let d : MmaDesc := { id := 7, a := aStream, b := bStream, anc := 0, seq := [.mac], passes := [(0, 0)], ref := false, coef := 0, allPasses := 1 };
     let m : Mma := { tile := 0, a := aStream, b := bStream, jet := false, ref := false, k := 0, occ := 64, descs := [(0, d)], dead := [], qmal := none };
     (holding false (.mma m) State.reset).cmd? 7 = some (theCmd false (.mma m)) ∧ m.descs = [(0, d)] ∧ m.dead = []) ∧
    AccOrdered ((State.reset.core 0).tiles[(0 : Fin 4)]).prim ∧ AccOrdered ((State.reset.core 0).tiles[(0 : Fin 4)]).shad ∧
    ((1 : Int) * 2 ≤ 3 * 1 ∧ (3 : Int) * 1 < (1 + 1) * 2) ∧
    (-(2 : Int) ^ 127 * 1 ≤ -((2 ^ 127 * 1 : Nat) : Int) * 1 ∧ -((2 ^ 127 * 1 : Nat) : Int) * 1 < (-(2 : Int) ^ 127 + 1) * 1) := by
  refine ⟨?_, rfl, ?_, ?_, witness_ordered, witness_ordered, ?_, ?_⟩ <;> decide +kernel

/-- An output before its snapshot; one to be folded, counted and not, with and without a failure; one with an enabled flag; a trapping and
a quiet policy; a verdict on equal and on different signatures, held up and not; an arbitration's end. -/
theorem witness_OutputsVerdictsResidues :
    (let s := holding false (.mepi (anOutput [] none false none)) State.reset;
     s.cmd? 7 = some (theCmd false (.mepi (anOutput [] none false none))) ∧ (s.core 0).errP = [] ∧ (s.core 0).errS = [] ∧ (s.core 0).health.degraded = false) ∧
    (let p := aPress 1 false none;
     (State.reset.core 0).press.any (·.id == 7) = false ∧ (anOutput [] none false (some p)).slot = some p ∧ (anOutput [3] none true (some p)).counted = true ∧
     bits (anOutput [3] none true (some p)).bnd.toNat 32 2 = 3 ∧ (anOutput [] none true (some p)).fails = [] ∧ (anOutput [] (some 5) true (some p)).arith = some 5 ∧
     (∃ x ∈ (anOutput [3, 9] none true (some p)).fails, ∀ y ∈ (anOutput [3, 9] none true (some p)).fails, x ≤ y)) ∧
    (let s := running false id id id; (s.strand 0 0).life = .live ∧ (s.strand 0 0).trapped = false ∧ s.iss ≤ (0 : Fin 256).val) ∧
    (let s (sd : Word) (mend : Option (Mend × Nat)) (d : Bool) (a : Option Arb) (n : Nat) := holding false (.mepi (anOutput [] none true none))
        (withCore fun k => { k with press := [aPress sd d a], mender := mend, judgedAt := n });
     ((s 1 none false none 0).core 0).press.find? (·.id == 7) = some (aPress 1 false none) ∧ ((s 1 none false none 1).core 0).judgedAt = (s 1 none false none 1).time + 1 ∧
     ((((s 1 none false none 0).core 0).press.takeWhile (·.id != 7)).any (·.disputed) = false ∧ ((s 1 none false none 0).core 0).judgedAt ≠ (s 1 none false none 0).time + 1) ∧
     (aPress 1 false none).sigP = (aPress 1 false none).sigS ∧ (aPress 2 false none).sigP ≠ (aPress 2 false none).sigS ∧ ((s 2 none false none 0).core 0).mender = none ∧
     (anOutput [] none true none).route = none ∧
     (((s 2 (some (.tile 7, 10)) true (some anArb) 0).core 0).mender = some (.tile 7, 10) ∧
      ((s 2 (some (.tile 7, 10)) true (some anArb) 0).core 0).press.find? (·.id == 7) = some (aPress 2 true (some anArb)) ∧
      ((s 2 (some (.tile 7, 10)) true (some anArb) 0).core 0).waiting = [] ∧ ((s 2 (some (.tile 7, 10)) true (some anArb) 0).core 0).health.clear = false ∧
      anArb.undecided = false ∧ anArb.kind false (State.reset.core 0).health ≠ 3)) ∧
    ∃ r : Residue, ((withCore fun k => { k with mender := some (.residue r, 5) }).core 0).mender = some (.residue r, 5) := by
  refine ⟨?_, ?_, ?_, ?_, ⟨aResidue, rfl⟩⟩ <;> decide +kernel

end

/-! ## Witnesses: copies, atomics, the link and the collective -/

namespace Sys2Proof.Tests
open Sys2Proof Sys2Proof.Machine Sys2Proof.Claims

/-- Addresses of core 0's SPM and of near memory, and runs. -/
def spmVA (n : Nat) : Word := BitVec.ofNat 64 (0xFFFE * 2 ^ 48 + n)
def nearVA (n : Nat) : Word := BitVec.ofNat 64 (0xFFFD * 2 ^ 48 + n)
def aRun (p : Place) (adr n va : Nat) : Run := { place := p, addr := adr, len := n, va, shadow := none }

/-- Kernel 1 on core 0 with its partition, and the page at VA 0 pinned to a leaf. -/
def mapped (timed : Bool) (leaf : Word) (f : Core → Core) (t : Strand → Strand) : State :=
  { partitioned (running timed id f t) with pinsets := [{ kid := 1, die := 0, xs := [{ va := 0, block := false, leaf, bits0 := 0, bits1 := 0 }] }] }

def copyCmd (queued : Bool) (body : Body) : Cmd := { theCmd queued body with engine := .copy }
def copying (queued : Bool) (body : Body) : State := { running false id id id with cmds := [copyCmd queued body] }
def aCopy (sig : Option Word) (dst : Place) : Copy := fresh [aRun .dev 0 16 0] [aRun dst 0 16 0] .plain sig none 16 5 9
def aHostCopy : HostCopy := { src := [aRun .dev 0 16 0], dst := [aRun .host 0 16 0], coh := false, bar := none, bytes := 16, posted := false, buf := [] }
def pinAt (n : Nat) (k : Core) : Core := { k with pins := [{ mma := 0, space := .spm, regions := [(n, 1)], tiles := [0], outs := [], keep := none }] }

def aWalk : Walk := { id := 3, core := 0, strand := 0, page := 5, busy := true, old := none }
def anAtomic (p : Place) (size : Nat) : Atomic := { target := aRun p 0 size 0, size, op := 0, x := 1, cmp := 0, d := 1, fte := 0 }

end Sys2Proof.Tests

section
open Sys2Proof Sys2Proof.Machine Sys2Proof.Claims Sys2Proof.Tests

/-- A full queue; lengths 0, 16 and 2^26; ends that resolve in the own SPM and in near memory; a refused pair of ends; the last barrier
place at USER; a host page for CPYH, coherent and not. -/
theorem witness_CopyInstructions :
    (let s := { State.reset with cmds := List.replicate 8 (copyCmd true (.mcell 0 [.mac])) }; on s 0 ∧ 8 ≤ s.queueUsed s.cur.core .copy) ∧
    (let s := mapped false 0x5001B id (as [(1, spmVA 64), (2, nearVA 0), (3, 0xBBFF0), (4, 0)] ∘ xs [(2, 16)]);
     on s 0 ∧ s.queueUsed s.cur.core .copy < 8 ∧ ¬(0 < (x s 0).toNat % 2 ^ 32) ∧ (x s 2).toNat < 2 ^ 32 ∧ (0 < 16 ∧ 16 ≤ 2 ^ 26) ∧ bits (Claims.a s 1).toNat 48 16 = 0xFFFE ∧
     CopyForm.plain.endsOk 0 [((Claims.a s 1).toNat, 16)] [((Claims.a s 2).toNat, 16)] = true ∧
     CopyForm.plain.endsOk 0 [((Claims.a s 2).toNat, 16)] [((Claims.a s 2).toNat, 16)] = false ∧
     (CopyForm.quant 0 0).endsOk 0 [((Claims.a s 1).toNat, 128)] [((Claims.a s 2).toNat, 33)] = true ∧ CopyForm.bsram.endsOk 0 [((Claims.a s 1).toNat, 16)] [(0, 16)] = true ∧
     s.resolveAll false [((Claims.a s 1).toNat, 16)] = [aRun (.spm 0) 64 16 (spmVA 64).toNat].map (.run · false) ∧
     s.resolveAll true [((Claims.a s 2).toNat, 16)] = [aRun .near 0 16 (nearVA 0).toNat].map (.run · false) ∧
     s.pinnedByte 0 [aRun .near 0 16 (nearVA 0).toNat] = none ∧ (Claims.a s 3).toNat % 16 = 0 ∧ (Claims.a s 3).toNat + 16 ≤ spmEnd s ∧
     s.timed s.cur.core = false ∧ s.replica? s.cur.core = none ∧
     s.resolveAll false [((Claims.a s 4).toNat, 16)] = [aRun .host 0x50000 16 0].map (fun u => .run u (u.place == .host)) ∧
     ({ s with cohBase := 1 }.cohBase.toNat % 2 = 1 ∧ { s with cohBase := 1 }.cohBase.toNat / 2 ^ 36 = 0x50000 / 2 ^ 36)) := by
  refine ⟨⟨rfl, ?_⟩, rfl, ?_⟩ <;> decide +kernel

/-- Copies about to start, to read, to be judged (good, bad, and a resend), to land, and to be corrected; a CPYH in its two stages; a walk. -/
theorem witness_CopyEvents :
    (∀ b ∈ [Body.copy (aCopy none (.spm 0)), .cpyh aHostCopy],
      (copying true b).cmd? 7 = some (copyCmd true b) ∧ (copyCmd true b).queued = true ∧ (copyCmd true b).engine = .copy ∧ (copying false b).cmd? 7 = some (copyCmd false b)) ∧
    ((aCopy none (.spm 0)).read = false ∧ (aCopy none (.spm 0)).due = false ∧ (aCopy none (.spm 0)).src = [aRun .dev 0 16 0]) ∧
    (let s := copying false (.copy (aCopy none (.spm 0)));
     s.poison = [] ∧ s.hbm = [] ∧ s.nearPoison = [] ∧ s.nearErr = [] ∧ (s.ctxs[(1 : Fin 17)]).ckpt.armed = false ∧ (s.core 0).errL = [] ∧
     s.landsOnPin 0 (aCopy none (.spm 0)).dst (aCopy none (.spm 0)).src.isEmpty = none) ∧
    (let c (sig : Option Word) : Copy := { aCopy sig (.spm 0) with read := true, buf := List.replicate 16 1 };
     (c none).sig = none ∧ (c (some (fold (wordsOf (c none).buf)))).sig = some (fold (wordsOf (c none).buf)) ∧ (c (some 0)).sig ≠ some (fold (wordsOf (c (some 0)).buf)) ∧
     (c (some 0)).resent = false ∧ (c (some 0)).src ≠ [] ∧ (c none).fetch = false ∧ (c none).judged = false ∧ ({ c none with resent := true }).resent = true) ∧
    (let c : Copy := { aCopy none .dev with judged := true, buf := List.replicate 16 1, bar := some (0, 64) };
     c.judged = true ∧ c.dropped = false ∧ c.kind = .plain ∧ c.dst = [aRun .dev 0 16 0] ∧ c.buf.length = (aRun .dev 0 16 0).len ∧
     ∀ u ∈ ((copying false (.copy c)).core 0).arrived, u.1 ≠ 64) ∧
    (aHostCopy.posted = false ∧ ({ aHostCopy with posted := true, buf := List.replicate 16 1 }).buf.length = (aRun .host 0 16 0).len) ∧
    (({ aCopy none (.spm 0) with fetch := true }).fetch = true ∧ ({ aCopy none (.spm 0) with fetch := true }).due = false) ∧
    ({ State.reset with walks := [aWalk] }).walks.find? (·.id == 3) = some aWalk := by
  decide +kernel

/-- Targets in the own SPM, in near memory, in device memory and on a host page; misaligned, and pinned; a TIMED and a PACED group; a
host that does and does not advertise the operation; an ACELL operand of 2^32. -/
theorem witness_AtomicInstructions :
    (let s := mapped false 0x5001B id (as [(1, spmVA 0), (2, nearVA 8), (3, spmVA 4), (4, 0), (5, nearVA 16)] ∘ xs [(1, 0x100000000)]);
     on s 0 ∧ s.resolve true (Claims.a s 1).toNat (min 8 (65536 - (Claims.a s 1).toNat % 65536)) = .run (aRun (.spm 0) 0 8 (spmVA 0).toNat) false ∧
     s.resolve true (Claims.a s 2).toNat (min 16 (65536 - (Claims.a s 2).toNat % 65536)) = .run (aRun .near 8 16 (nearVA 8).toNat) false ∧
     s.resolve true (Claims.a s 5).toNat (min 16 (65536 - (Claims.a s 5).toNat % 65536)) = .run (aRun .near 16 16 (nearVA 16).toNat) false ∧
     s.resolve true (Claims.a s 3).toNat (min 8 (65536 - (Claims.a s 3).toNat % 65536)) = .run (aRun (.spm 0) 4 8 (spmVA 4).toNat) false ∧
     s.resolve true (Claims.a s 4).toNat (min 8 (65536 - (Claims.a s 4).toNat % 65536)) = .run (aRun .host 0x50000 8 0) true ∧
     (Claims.a s 1).toNat % 8 = 0 ∧ (Claims.a s 3).toNat % 8 ≠ 0 ∧ (Claims.a s 2).toNat % 16 ≠ 0 ∧ (Claims.a s 5).toNat % 16 = 0 ∧ (mine s).pinned .spm 0 8 = false ∧
     s.timed s.cur.core = false ∧ s.replica? s.cur.core = none ∧ (s.ctxs[s.ctxOf s.cur.core]).atomic8 = false ∧ 2 < (3 : BitVec 3).toNat ∧
     2 ^ 32 ≤ (x s 1).toNat ∧ (x s 0).toNat < 2 ^ 32) ∧
    (let s := mapped false 0x1000B id id; s.resolve true 0 8 = .run (aRun .dev 0x10000 8 0) false) ∧
    (let s := mapped true 0x5001B (pinAt 7) id; s.resolve true 0 8 = .run (aRun .host 0x50000 8 0) true ∧ s.timed s.cur.core = true ∧ (mine s).pinned .spm 0 8 = true) ∧
    (let s := { mapped false 0x5001B id id with ctxs := upd State.reset.ctxs 1 fun c => { c with atomic8 := true } };
     (2 : BitVec 3).toNat ≤ 2 ∧ (s.ctxs[s.ctxOf s.cur.core]).atomic8 = true) := by
  refine ⟨⟨rfl, ?_⟩, ?_⟩ <;> decide +kernel

/-- A host page in a TIMED group, and one that a PAIR kernel would write (R347, R352); neither in a PACED group of a kernel that is no PAIR. -/
theorem witness_AtomicInstructions_barred :
    (let s := mapped true 0x5001B id id; s.resolve true 0 (min 16 (65536 - 0 % 65536)) = .run (aRun .host 0x50000 16 0) true ∧ s.timed 0 = true) ∧
    (let s := mapped false 0x5001B id id;
     (let s := { s with kernels := [{ fetchKernel 1 with record := { fetchRecord with pair := true } }] }; (s.replica? 0).isSome = true) ∧
     s.timed 0 = false ∧ s.replica? 0 = none) ∧
    (let s := mapped true 0x5001B id id; s.keepsTT 0 = true ∧ s.cur.nested = false ∧ ∃ o, (mine s).owner = some o) := by
  refine ⟨by decide +kernel, by decide +kernel, by decide +kernel, rfl, _, rfl⟩

/-- Each atomic about to perform; cells with an anchor of 255, above, at and below the value's exponent; infinities and NaN; each of the
states that a read finds. -/
theorem witness_AtomicsPerform :
    (∀ b ∈ [Body.amo (anAtomic (.spm 0) 4), .amo (anAtomic .near 8), .acell (anAtomic .near 16), .acrd (anAtomic .near 16) true],
      (holding false b State.reset).cmd? 7 = some (theCmd false b)) ∧
    (State.reset.strand 0 0).hold.rets = [] ∧ State.reset.nearPoison = [] ∧ State.reset.nearErr = [] ∧
    (let s := withStrand fun t => { t with wait := .hostAmo 7 }; (s.strand 0 0).wait = .hostAmo 7) ∧
    (let cell (n : Nat) : Nat := n * 2 ^ 88;
     let exp (q : Nat) : Nat := max 1 (q / 2 ^ 23 % 256);
     (cell 255 < 2 ^ 128 ∧ cell 255 / 2 ^ 122 = 0 ∧ cell 255 / 2 ^ 88 % 256 = 255) ∧
     (decodeF .f32 0x3F800000 = .fin false 8388608 (-23) ∧ cell 126 / 2 ^ 88 % 256 < exp 0x3F800000 ∧ exp 0x3F800000 ≤ cell 127 / 2 ^ 88 % 256 ∧
      exp 0x3F800000 ≤ cell 254 / 2 ^ 88 % 256 ∧ (2 ^ 17 : Int) * 1 ≤ 8388608 * 2 ^ 17 ∧
      (8388608 * 2 ^ 17 : Int) * 2 ^ ((127 - 167 : Int) - (-23)).toNat ≤ 8388608 * 2 ^ ((-23 : Int) - (127 - 167)).toNat ∧
      (8388608 : Int) * 2 ^ ((-23 : Int) - (127 - 167)).toNat < (8388608 * 2 ^ 17 + 1) * 2 ^ ((127 - 167 : Int) - (-23)).toNat) ∧
     decodeF .f32 0xFF800000 = .inf true ∧ decodeF .f32 0x7FC00001 = .nan 1 false) ∧
    (let st (n : Nat) : Nat := n * 2 ^ 96;
     st 0x400000 / 2 ^ (96 + 22) % 2 = 1 ∧ (st 0x1800000 / 2 ^ (96 + 23) % 2 = 1 ∧ st 0x1800000 / 2 ^ (96 + 24) % 2 = 1 ∧ st 0x1800000 / 2 ^ (96 + 22) % 2 = 0) ∧
     st 0x800000 / 2 ^ (96 + 24) % 2 = 0 ∧ st 0x1000000 / 2 ^ (96 + 23) % 2 = 0 ∧ st 0x2000000 / 2 ^ (96 + 25) % 2 = 1 ∧ st 0x3FFFFF / 2 ^ (96 + 22) % 2 = 0) := by
  decide +kernel

/-- The ports to other packages are in TRAINING after reset. -/
theorem port_training (p : Nat) : (State.reset.ports[portTo p]).st = .training := by
  have h : ∀ m : Fin 36, (State.reset.ports[fin 46 (10 + m.val)]).st = .training := by decide +kernel
  exact h ⟨Config.portOf p % 36, Nat.mod_lt _ (by decide)⟩

/-- Routes that fail each check or none; within and out of the package; a landing queue with one flit, with 96, and without; ports. -/
theorem witness_LinkInstructions :
    (let s := partitioned (running false id (landed 7 5) (xs [(1, 9), (2, 16), (3, 51), (4, 10), (5, 52)])); on s 0 ∧ s.routeFault 0 (localRoute 3 0) 64 = some 7 ∧
     (s.routeFault 0 (localRoute 2 15) 64 = none ∧ rtKind (localRoute 2 15) = 2) ∧
     (s.routeFault 0 (localRoute 0 7) 64 = none ∧ rtKind (localRoute 0 7) ≠ 2 ∧ s.linkBad 0 (localRoute 0 7) = false ∧ bits (localRoute 0 7).toNat 49 1 = 1 ∧ (mine s).errL = []) ∧
     (let w : Word := BitVec.ofNat 64 (2 ^ 50); s.routeFault 0 w 64 = none ∧ bits w.toNat 49 1 = 0) ∧
     ((mine s).landq[fin 8 7]).flits = [5] ∧ ((mine s).landq[fin 8 6]).flits = [] ∧ s.timed 0 = false ∧ ((mine s).landq[fin 8 7]).flits.length ≤ 96 ∧
     ((x s 1).toNat = 9 ∧ (x s 2).toNat = 6 + 10 ∧ (x s 3).toNat = 6 + 45) ∧ (s.ports[(9 : Fin 46)]).width ≤ 8 ∧ (-32768 ≤ (s.ports[(9 : Fin 46)]).ofs ∧ (s.ports[(9 : Fin 46)]).ofs ≤ 32767) ∧
     (10 ≤ (x s 4).toNat ∧ (x s 4).toNat < 16) ∧ 52 ≤ (x s 5).toNat) ∧
    (let s := partitioned (running true id id id); let w : Word := BitVec.ofNat 64 (2 ^ 50);
     s.routeFault 0 w 64 = none ∧ rtKind w ≠ 2 ∧ s.linkBad 0 w = true ∧ s.stepping 0 = false ∧ ∃ o, (mine s).owner = some o ∧ ∃ k, s.kernel? o.kid = some k ∧ k.fault = none ∧ k.halted = false) ∧
    (let s := partitioned (running false id id id); s.linkBad 0 (BitVec.ofNat 64 (2 ^ 50)) = false) := by
  refine ⟨⟨rfl, by decide +kernel⟩, ⟨by decide +kernel, by decide +kernel, ?_, by decide +kernel, _, rfl, _, rfl, rfl, rfl⟩, by rfl⟩
  have h := port_training (rtPkg (BitVec.ofNat 64 (2 ^ 50)))
  have e : (partitioned (running true id id id)).linkBad 0 (BitVec.ofNat 64 (2 ^ 50)) =
    (((State.reset.ports[portTo (rtPkg (BitVec.ofNat 64 (2 ^ 50)))]).st != .timed ||
      ([] : List Nat).contains (portTo (rtPkg (BitVec.ofNat 64 (2 ^ 50)))).val) || false) := rfl
  rw [e, h]; rfl

/-- A SEND of a TIMED member to itself and to a fellow on another die, whose edges carry traffic (R163). -/
theorem witness_LinkInstructions_timed :
    let s := partitioned (running true (fun g => { g with members := [0, 32] }) id id)
    let s := { s with cores := upd s.cores 32 fun k => { k with owner := some { kid := 1, gpos := 0, index := 1 } },
                      ctxs := upd s.ctxs 1 fun c => { c with part := { c.part with cores := 1 + 2 ^ 32 } } }
    let w : Word := BitVec.ofNat 64 (2 ^ 49 + 2 ^ 41)
    s.routeFault 0 w 64 = none ∧ s.linkBad 0 w = false ∧ bits w.toNat 49 1 = 1 ∧ fin 256 (bits w.toNat 41 3 * 32 + bits w.toNat 36 5) = 32 ∧ s.fellow 0 32 = true ∧
    s.keepsTT 0 = true ∧ (mine s).errL = [] ∧ (∀ p ∈ dieEdges (dieOf 0) (dieOf 32), (s.ports[p]).st.carries = true) ∧ dieEdges (dieOf 0) (dieOf 32) ≠ [] ∧
    s.routeFault 0 (localRoute 0 7) 64 = none ∧ s.linkBad 0 (localRoute 0 7) = false := by
  decide +kernel

/-- Entries in each state; a descriptor out of place, out of reach, with its table out of reach, of 0 steps, and a good one of one step. -/
theorem witness_CollectiveInstructions :
    let good : Nat := 0x400 + 2 ^ 32 + 2 ^ (8 * 0x1C)
    let m : Mem := (Mem.writeNat [] 0 64 good).writeNat 0x400 16 (64 * 2 ^ 64) |>.writeNat 0x40 64 0xBBFF0 |>.writeNat 0x40 6 (0xBBFF0 + 2 * 2 ^ 32)
    let s := running false id (fun k => { k with spm := m, entries := upd (upd k.entries 1 fun e => { e with st := .armed }) 2 fun e => { e with st := .active } })
      (as [(1, 0), (2, 32), (3, 0xBC000), (4, 0x40), (5, 0x80)])
    let desc (n : Nat) := (mine s).spm.readBytes n 64
    let table (n : Nat) := (List.range ((mine s).spm.readNat (n + 4) 2)).map fun i => parseStep ((mine s).spm.readBytes ((mine s).spm.readNat n 4 + 16 * i) 16)
    on s 0 ∧ ((mine s).entry 0).st = .idle ∧ (((mine s).entry 1).st = .armed ∧ ((mine s).entry 1).buf = []) ∧ ((mine s).entry 2).st = .active ∧
    (Claims.a s 2).toNat % 64 ≠ 0 ∧ spmEnd s < (Claims.a s 3).toNat + 64 ∧ spmEnd s < (mine s).spm.readNat 0x40 4 + 16 * (mine s).spm.readNat 0x44 2 ∧
    ((mine s).spm.readNat 0 4 + 16 * (mine s).spm.readNat 4 2 ≤ spmEnd s ∧ (mine s).spm.readNat 4 2 ≤ 256 ∧ ldOk (desc 0) (table 0) 0 = true) ∧
    ((mine s).spm.readNat 0x80 4 + 16 * (mine s).spm.readNat 0x84 2 ≤ spmEnd s ∧ ldOk (desc 0x80) (table 0x80) 0 = false) ∧
    ((mine s).entry 2).redos ≤ 65535 ∧ ((mine s).entry 2).dups ≤ 65535 ∧ ((mine s).entry 1).running = false := by
  refine ⟨rfl, ?_⟩; decide +kernel

/-- A descriptor in its place with one step of 64 bytes, with one of 65 bytes, with 257 steps, and with none. -/
theorem witness_CollectiveInstructions_descriptor :
    let m (steps bytes : Nat) : Mem := (Mem.writeNat [] 0 64 (0x400 + steps * 2 ^ 32 + 2 ^ (8 * 0x1C))).writeNat 0x400 16 (bytes * 2 ^ 64)
    let fld (m : Mem) (o k : Nat) : Nat := m.readNat (0 + o) k
    let stp (m : Mem) (k o n : Nat) : Nat := m.readNat (m.readNat 0 4 + 16 * k + o) n
    GoodDescriptor (fld (m 1 64)) (stp (m 1 64)) 0 ∧ ¬GoodDescriptor (fld (m 1 65)) (stp (m 1 65)) 0 ∧ ¬GoodDescriptor (fld (m 257 64)) (stp (m 257 64)) 0 ∧
    ¬GoodDescriptor (fld (m 0 64)) (stp (m 0 64)) 0 ∧ fld (m 0 64) 4 2 = 0 ∧ fld (m 257 64) 0 4 + 16 * fld (m 257 64) 4 2 ≤ 0xBC000 := by
  refine ⟨?_, fun h => ?_, fun h => ?_, fun h => ?_, ?_, ?_⟩
  · dsimp only [GoodDescriptor]
    refine ⟨by decide +kernel, by decide +kernel, by decide +kernel, by decide +kernel, by decide +kernel, fun k hk i hi => ?_, by decide +kernel⟩
    obtain rfl := Nat.lt_one_iff.mp (Nat.lt_of_lt_of_le hk (by decide +kernel))
    obtain rfl := Nat.lt_one_iff.mp (Nat.lt_of_lt_of_le hi (by decide +kernel))
    exact ⟨by decide +kernel, by decide +kernel, by decide +kernel⟩
  · exact absurd (h.2.2.1 0 (by decide +kernel)).2.1 (by decide +kernel)
  · exact absurd h.1.2.2.2.1 (by decide +kernel)
  · exact absurd h.1.2.2.1 (by decide +kernel)
  all_goals decide +kernel

end

/-! ## Witnesses: what comes in at a port, and the collective's events -/

namespace Sys2Proof.Tests
open Sys2Proof Sys2Proof.Machine Sys2Proof.Claims

/-- A flit for landing queue 0 of core 0, context 1, from package 2, with its CRC; and the same with a route, a due TT or a payload of its own. -/
def bareFlit (route : Word) (due : BitVec 32) : Flit :=
  { route, due, srcPkg := 2, srcCore := 0, func := 1, isBeacon := false, trailer := false, rseq := 0, crc := 0, payload := 0, image := false, part := 0, gen := 0, port := 46 }
def aFlit (route : Word) (due : BitVec 32) : Flit := { bareFlit route due with crc := flitCrc (bareFlit route due) }
/-- A route of a kind to core 0 of function 1 in another package. -/
def farRoute (kind : Nat) : Word := BitVec.ofNat 64 (kind * 2 ^ 62 + 2 ^ 50 + 2 ^ 44)
/-- Kernel 1 on core 0 with package port 10 in a state. -/
def linked (timed : Bool) (st : PortSt) (f : Core → Core) : State :=
  { running timed id f id with ports := upd State.reset.ports 10 fun p => { p with st, good := 16 } }
def aBeacon : Beacon := { cyc := 4096, driftOfs := 0, calib := true, srcPkg := 1 }

/-- A collective entry with one plain step of 64 bytes, a FIN step, and a chunk for it. -/
def anEntry (st : EntrySt) (inst : Nat) : Entry :=
  { Entry.reset with
    st, inst, steps := [{ ofs := 0, src := 0, bytes := 64, op := 0, rt := 0 }, { ofs := 0, src := 0, bytes := 64, op := 3, rt := 0 }],
    desc := toBytes 64 (0x400 + 2 * 2 ^ 32 + 2 ^ (8 * 0x1C)) }
def aChunk (inst : Nat) : Chunk :=
  { core := 0, entry := 0, srcPkg := 0, srcCore := 1, srcEntry := 0, inst, ofs := 0, op := 0, step := 0, redo := false, func := 1, gen := 0, port := 46, data := List.replicate 64 0 }
def aRetained (redo : Bool) : Retained := { step := 0, data := List.replicate 64 0, ofs := 0, op := 0, route := localRoute 2 0, redo }
/-- Core 0 with an entry 0 and RT0 naming itself as a collective's destination. -/
def collecting (e : Entry) : State :=
  partitioned (running false id (fun k => { k with entries := upd k.entries 0 fun _ => e, rt := upd k.rt 0 fun _ => localRoute 2 0 }) id)

end Sys2Proof.Tests

section
open Sys2Proof Sys2Proof.Machine Sys2Proof.Claims Sys2Proof.Tests

/-- A good flit and one whose CRC fails; due at once, and half the range of TT ahead; a landing queue with room and a full one; a beacon at
each kind of port; a drift. -/
theorem witness_LinkEvents :
    (let s := linked false .degraded id; let f := aFlit (farRoute 0) 0;
     flitCrc f = f.crc ∧ flitCrc { f with payload := 1 } ≠ f.crc ∧ ((s.ports[(10 : Fin 46)]).st = .timed ∨ (s.ports[(10 : Fin 46)]).st = .degraded) ∧
     s.seqRx = [] ∧ f.route.toNat / 2 ^ 62 ≠ 2 ∧ f.image = false ∧ f.trailer = false ∧ s.gaps = [] ∧ s.timed 0 = false ∧
     fin 256 (bits f.route.toNat 41 3 * 32 + bits f.route.toNat 36 5) = 0 ∧ bits f.route.toNat 44 5 = 1 ∧ bits f.route.toNat 49 1 = 0 ∧
     (∃ k g, s.owner? 0 = some (k, g) ∧ k.ctx.val = 1) ∧ f.route.toNat / 2 ^ 62 = 0 ∧ (farRoute 1).toNat / 2 ^ 62 = 1 ∧
     ((s.core 0).landq[fin 8 0]).flits.length < 96 ∧ (s.core 0).pinned .spm 0 64 = false) ∧
    (let s := linked true .timed id; let f := aFlit (farRoute 0) 0x7FFFFFFF;
     s.timed 0 = true ∧ f.due ≠ 0 ∧ (f.due.toNat + 2 ^ 32 - (s.core 0).tt % 2 ^ 32) % 2 ^ 32 < 2 ^ 31 ∧ ∃ o, (s.core 0).owner = some o ∧ ∃ k, s.kernel? o.kid = some k ∧ k.fault = none) ∧
    (let s := linked false .timed fun k => { k with landq := upd k.landq 0 fun q => { q with flits := List.replicate 96 0 } };
     96 ≤ ((s.core 0).landq[fin 8 0]).flits.length) ∧
    (let s := linked false .aligning id; (s.ports[(10 : Fin 46)]).st = .aligning ∧ s.calib = false ∧ s.adopted = false ∧ 10 ≤ (10 : Fin 46).val ∧ aBeacon.calib = true) ∧
    (State.reset.ports[(45 : Fin 46)]).st = .training ∧ ({ State.reset with driftNow := -1 } : State).driftNow ≠ 0 := by
  refine ⟨?_, ⟨by decide +kernel, by decide, by decide +kernel, _, rfl, _, rfl, rfl⟩, ?_, ?_, ?_, ?_⟩
  · refine ⟨?_, ?_, ?_, ?_, ?_, ?_, ?_, ?_, ?_, ?_, ?_, ?_, ⟨_, _, rfl, rfl⟩, ?_, ?_, ?_, ?_⟩ <;> decide +kernel
  all_goals decide +kernel

/-- A lost flit of a collective, and of another kind in a TIMED group. -/
theorem witness_LinkEvents_missing : (localRoute 2 0).toNat / 2 ^ 62 = 2 ∧ (localRoute 1 0).toNat / 2 ^ 62 ≠ 2 ∧ (linked true .timed id).timed 0 = true := by
  decide +kernel

/-- A flit between two dies that has yet to land, on its way over an edge (PortStates). -/
theorem witness_PortStates_edge :
    let f : Flit := { bareFlit (BitVec.ofNat 64 (2 ^ 49 + 2 ^ 41)) 0 with srcCore := 0 }
    let it : Item := { clk := .tt 32, due := 5, phase := 3, core := 0, seq := 0, act := .ev (.flitLanding f) }
    let s := { linked false .timed id with agenda := [it] }
    it ∈ s.agenda ∧ f.port = 46 ∧ bits f.route.toNat 49 1 = 1 ∧ it.clk ≠ .time ∧ f.trailer = false ∧
    ∃ p : Fin 46, p ∈ dieEdges (dieOf (fin 256 f.srcCore.toNat)) (dieOf (fin 256 (bits f.route.toNat 41 3 * 32 + bits f.route.toNat 36 5))) := by
  refine ⟨.head _, ?_⟩; decide +kernel

/-- A port in each of the states; a width of 8 and of 4; an edge that falls. -/
theorem witness_PortStates : (∀ st ∈ [PortSt.down, .training, .aligning, .timed, .degraded, .failed], ((linked false st id).ports[(10 : Fin 46)]).st = st) ∧
    ((8 : Fin 9) = 8 ∧ 4 ≤ (4 : Fin 9).val ∧ (4 : Fin 9) ≠ 8 ∧ (3 : Fin 9).val < 4) ∧ 16 ≤ ((linked false .aligning id).ports[(10 : Fin 46)]).good ∧
    ((State.reset.ports[(9 : Fin 46)]).st = .timed ∧ (9 : Fin 46).val < 10) ∧ (State.reset.ports[(10 : Fin 46)]).good < 16 := by
  decide +kernel

/-- A running entry before its steps, a FIN step that has read, chunks of every distance, a retained chunk not yet and already sent again, and
entries that are and are not complete. -/
theorem witness_CollectiveEvents :
    (let n := anEntry .active 1; ((collecting n).core 0).entry 0 = n ∧ n.running = true ∧ n.ran = [] ∧ n.steps.length = 2 ∧
      (∃ st, n.steps[0]? = some st ∧ st.isFin = false ∧ st.code = 0 ∧ (collecting n).routeFault 0 (((collecting n).core 0).rt[fin 8 st.rt]) st.len = none) ∧
      (∃ st, n.steps[1]? = some st ∧ st.isFin = true) ∧ rtKind (localRoute 2 0) = 2 ∧ rtLocal (localRoute 2 0) = true ∧ ((collecting n).core 0).errL = [] ∧
      (collecting n).linkBad 0 (localRoute 2 0) = false ∧ ∀ q ∈ dieEdges (dieOf 0) (dieOf (rtCore (localRoute 2 0))), ((collecting n).ports[q]).st.carries = true) ∧
    (let n := { anEntry .active 1 with finBuf := [(1, List.replicate 64 0, List.replicate 8 0)] };
      n.finBuf.find? (fun y => y.1 == 1) = some (1, List.replicate 64 0, List.replicate 8 0) ∧ ((collecting n).core 0).pinned .spm 0 32 = false) ∧
    (let n := anEntry .active 1; let dist (i : Nat) : Nat := (((i : Int) - 1) % 4096).toNat;
      n.st ≠ .idle ∧ n.applied = [] ∧ (0 ≤ n.dbase n.inst + 0 ∧ n.dbase n.inst + 0 + (64 : Nat) ≤ 0xBC000) ∧ dist 1 = 0 ∧ dist 2 = 1 ∧ dist 3 = 2 ∧ dist 2048 = 2047 ∧ dist 2049 = 2048 ∧ dist 0 = 4095 ∧
      n.buf = [] ∧ (n.buf.map fun b => b.data.length).sum + 64 ≤ 16384) ∧
    ((anEntry .armed 1).running = false ∧ (((anEntry .armed 1).inst : Int) - 1 - 0) = 0) ∧ (anEntry .idle 0).st = .idle ∧
    (∀ redo, { anEntry .active 1 with kept := [aRetained redo] }.kept.find? (fun r => r.step == 0) = some (aRetained redo)) ∧
    ((collecting (anEntry .active 1)).routeFault 0 (localRoute 2 0) 64 = none) ∧ (anEntry .active 1).kept.find? (fun r => r.step == 0) = none ∧
    (let n := { anEntry .active 1 with ran := [0, 1], finsDone := [1] }; n.complete = true ∧ n.late = none ∧ { n with late := some 16 }.complete = true) ∧
    (anEntry .active 1).complete = false := by
  refine ⟨⟨?_, ?_, ?_, ?_, ⟨_, rfl, ?_⟩, ⟨_, rfl, ?_⟩, ?_⟩, ?_⟩ <;> decide +kernel

/-! ## Witnesses: bundles, groups, contexts, the host, and what holds of every step -/

/-- Core 0 as the member of kernel 1's group in a state, at a cycle, with a strand 0 that waits. -/
def Sys2Proof.Tests.grouped (timed : Bool) (cyc : Nat) (g : Group → Group) (t : Strand → Strand) : State := { running timed g id t with cyc }

theorem witness_group (timed : Bool) (cyc : Nat) (t : Strand → Strand) : HasGroup (grouped timed cyc id t) 1 0
    { fetchKernel 1 with record := { fetchRecord with timed } } theGroup := ⟨rfl, rfl, rfl⟩

/-- A slot and a bundle that decode; an input, an event and an item as the next work. -/
theorem witness_StepRunsDecoded :
    (((State.reset.withFetchWord 32 0x040C2200).core 0).bundle ((State.reset.withFetchWord 32 0x040C2200).strand 0 0) 0).bad = none ∧
    decodeSlot 1 0x040C2200 = .ok (.add 0 3 1 2 0 0) ∧
    ({ State.reset with inbox := [(0, .readStatus)] } : State).nextWork.2 = .input .readStatus ∧ Instr.isInput .readStatus = true ∧
    State.reset.nextWork.2 = .event .bell ∧
    ({ State.reset with agenda := [{ clk := .time, due := 0, phase := 3, core := 0, seq := 0, act := .ev .driftStep }], driftNow := 1 } : State).nextWork.2 =
      .item { clk := .time, due := 0, phase := 3, core := 0, seq := 0, act := .ev .driftStep } :=
  ⟨by decide +kernel, rfl, by decide +kernel, rfl, by decide +kernel, by decide +kernel⟩

/-- A bundle that issues, one with an illegal slot, a strand that cannot try, one whose neighbour is selected, and a frozen group. -/
theorem witness_BundlesAndStrands :
    (let s := State.reset.withFetchWord 32 0x040C2200; let t := s.strand 0 0; let b := (s.core 0).bundle t 0;
     s.mayTry 0 0 = true ∧ ((s.core 0).sel = 0 ∧ (s.core 0).selFrom ≤ s.time) ∧ t.replay = [] ∧ t.bad = none ∧ t.earliest b.dly ≤ t.lt ∧ t.pc.toNat = 0 ∧ b.bad = none ∧ b.pops = 0 ∧
     (let ran := runsBy b (bundleStart s 0 0 b); ran.cur.stall = false ∧ ran.ended.2 = none ∧ ran.ended.1.flightCount 0 0 ≤ 127)) ∧
    (let d : Transfer := { target := 0x7777, source := 16, order := 0 };
     let s := running false id id fun t => { t with bad := some d };
     s.mayTry 0 0 = true ∧ ((s.core 0).sel = 0 ∧ (s.core 0).selFrom ≤ s.time) ∧ (s.strand 0 0).replay = [] ∧ (s.strand 0 0).bad = some d ∧
     max (s.strand 0 0).base (s.strand 0 0).fenceW ≤ (s.strand 0 0).lt ∧ (s.strand 0 0).trapped = false ∧ (s.strand 0 0).wrote.1 ≠ s.time + 1) ∧
    (let s := (State.reset.withFetchWord 32 0).onCore 0 fun k => { k with istore := Mem.writeNat [] 0 4 0x60000000 }; ((s.core 0).bundle (s.strand 0 0) 0).bad = some 0 ∧ s.mayTry 0 0 = true) ∧
    State.reset.mayTry 0 0 = false ∧
    (let s := (State.reset.withFetchWord 32 0).onCore 0 fun k => { k with strands := upd (upd k.strands 0 fun t => { t with base := 1 }) 3 fun t => { t with life := .live } };
     s.selects 0 = true ∧ s.arbitrating 0 = false ∧ (s.core 0).selFrom ≤ s.time ∧ s.canIssue 0 0 = false ∧ s.canIssue 0 ((s.core 0).sel + 3) = true ∧
     ∀ m : Fin 4, m < 3 → s.canIssue 0 ((s.core 0).sel + m) = false) ∧
    (State.reset.withFetchWord 32 0).canIssue 0 0 = true ∧
    (let g : Group → Group := fun g => { g with freeze := some (6, some 20) };
     (∃ k, HasGroup (grouped true 20 g id) 1 0 k (g theGroup)) ∧ (∀ m ∈ theGroup.members, ((grouped true 20 g id).core m).causes = []) ∧ 20 ≤ (grouped true 20 g id).cyc ∧
     (grouped true 19 g id).cyc < 20) := by
  refine ⟨?_, ?_, ?_, ?_, ?_, ?_, ⟨_, rfl, rfl, rfl⟩, ?_⟩ <;> decide +kernel

/-- A bell with a REALIGN issued before it, and a saving one; a REALIGN that one of two members has issued HLAT cycles before; a budget just
reached and not; a join that has stood too long, and one whose HLAT has passed at a bell. -/
theorem witness_RealignEnds :
    (let s (p : Bool) := grouped false 4096 (fun g => { g with pre := some 0 }) fun t => { t with wait := .realign 1 p 4095 0 };
     (s true).isBell = true ∧ ((s true).strand 0 0).wait = .realign 1 true 4095 0 ∧ 4095 < (s true).cyc ∧ ((s true).strand 0 0).life = .live ∧ (s true).timed 0 = false ∧
     (s true).pre 0 = true) ∧ (grouped false 4095 id id).isBell = false ∧
    (let g : Group → Group := fun g => { g with members := [0, 1], realigns := [(0, 0, 0, [0])] };
     let s := (grouped true 9 g id).onCore 0 (fun k => { k with tt := 6 }) |>.onCore 1 fun k => { k with tt := 6 };
     (∃ k, HasGroup s 1 0 k (g theGroup) ∧ k.fault = none ∧ k.record.timed = true) ∧ (g theGroup).st = .released ∧ [(0 : Fin 256)].length < (g theGroup).members.length ∧
     0 + hlat (g theGroup).level ≤ 2 ^ 64 ∧ ∀ m ∈ (g theGroup).members, 0 + hlat (g theGroup).level ≤ s.reachedTT m) ∧
    (let s (n : Nat) := { (grouped true 9 id id).onCore 0 (fun k => { k with tt := n }) with kernels := [{ fetchKernel 1 with record := { fetchRecord with timed := true, budget := 7 } }] };
     ∃ k, HasGroup (s 7) 1 0 k theGroup ∧ k.record.budget ≠ 0 ∧ theGroup.step = .off ∧ theGroup.members ≠ [] ∧ (∀ m ∈ theGroup.members, k.record.budget ≤ ((s 7).core m).tt) ∧
       ∃ m ∈ theGroup.members, ((s 6).core m).tt < k.record.budget) ∧
    (let s := grouped true (2 ^ 24) id fun t => { t with wait := .join 1 0x07002000 0 0 };
     0 ∈ theGroup.members ∧ (s.strand 0 0).wait = .join 1 0x07002000 0 0 ∧ 0 + 2 ^ 24 ≤ s.cyc) ∧
    (let s := grouped true 4096 id fun t => { t with wait := .join 1 0x07002000 1696 0 };
     s.isBell = true ∧ theGroup.freeze = none ∧ theGroup.members ≠ [] ∧ theGroup.members.Nodup ∧
     ∀ m ∈ theGroup.members, ∃ d y, (s.strand m 0).wait = .join d 0x07002000 y 0 ∧ y + hlat (bits (0x07002000#64).toNat 24 8) ≤ s.cyc) := by
  refine ⟨?_, ?_, ⟨⟨_, ⟨rfl, rfl, rfl⟩, rfl, rfl⟩, ?_⟩, ⟨_, ⟨rfl, rfl, rfl⟩, ?_⟩, ?_, ?_, ?_, ?_, ?_, ?_⟩
  any_goals decide +kernel
  intro m hm; cases List.mem_singleton.mp hm
  exact ⟨1, 1696, rfl, by decide⟩

/-- A bell with a queue that runs, with 16 records and with the window's 255, and with more; a record that has waited 2^20 cycles; a group
whose load is complete in this cycle and one whose is in the next. -/
theorem witness_BellAndRelease :
    (let s (n : Nat) := { State.reset with queues := upd State.reset.queues 63 fun q => { q with st := .running, ctx := some 1 },
                                           ctxs := upd State.reset.ctxs 1 fun c => { c with st := .open_ }, windows := Mem.writeNat [] (0x8000 * 63) 8 n };
     (s 255).isBell = true ∧ (s 255).kernels = [] ∧ ((s 255).queues[(63 : Fin 64)]).ctx = some 1 ∧ ((s 255).queues[(63 : Fin 64)]).st = .running ∧ ((s 255).ctxs[(1 : Fin 17)]).st = .open_ ∧
     (s 255).windows.readNat (0x8000 * 63) 8 = 255 ∧ (s 256).windows.readNat (0x8000 * 63) 8 = 256 ∧ (s 256).windows.readNat (0x8000 * 63 + 8) 8 + 255 < 256) ∧
    ({ State.reset with belled := true } : State).isBell = false ∧
    (let s (c : Nat) := { State.reset with cyc := c, kernels := [{ fetchKernel 1 with st := .queued }], ctxs := upd State.reset.ctxs 1 fun c => { c with part := { c.part with maxClass := 1 } } };
     (s (2 ^ 20)).kernel? 1 = some { fetchKernel 1 with st := .queued } ∧ (fetchKernel 1).rises ≤ (s (2 ^ 20)).cyc ∧ 0 < min 5 ((s (2 ^ 20)).ctxs[(1 : Fin 17)]).part.maxClass ∧ ¬({ fetchKernel 1 with rises := 2 ^ 20 }.rises ≤ (s (2 ^ 20 - 1)).cyc)) ∧
    (let g (n : Nat) : Group → Group := fun g => { g with st := .forming, saveEnd := n };
     let s (n : Nat) := { grouped false 4096 (g n) id with time := 4096 };
     (∀ n, ∃ k, HasGroup (s n) 1 0 k (g n theGroup) ∧ k.fault = none) ∧ (s 4096).inBell = true ∧ (g 4096 theGroup).st = .forming ∧ (g 4096 theGroup).resumes = false ∧
     (g 4096 theGroup).saveEnd ≤ (s 4096).time ∧ (s 4097).time < (g 4097 theGroup).saveEnd) := by
  refine ⟨?_, ?_, ?_, fun n => ⟨_, ⟨rfl, rfl, rfl⟩, rfl⟩, ?_⟩ <;> decide +kernel

/-- A victim's group; one that may be saved at this bell, with its save mapped by a block of device memory; a save just complete and not. -/
theorem witness_Preemption :
    (let s := { grouped false 9 id id with kernels := [fetchKernel 1, { fetchKernel 2 with victims := [1] }] };
     HasGroup s 1 0 (fetchKernel 1) theGroup ∧ theGroup.st = .released ∧ theGroup.pre = none ∧ ∃ o ∈ s.kernels, 1 ∈ o.victims) ∧
    (∀ o ∈ (grouped false 9 id id).kernels, 1 ∉ o.victims) ∧
    (let g : Group → Group := fun g => { g with st := .draining, pre := some 0 };
     let s := { grouped false 4096 g (fun t => { t with wait := .saving 1 }) with
       ctxs := upd State.reset.ctxs 1 fun c => { c with root := 0x10000 }, dev := (Mem.writeNat [] 0x10000 8 0x20001).writeNat 0x20000 8 (2 ^ 29 + 0xB) };
     HasGroup s 1 0 { fetchKernel 1 with groups := [g theGroup] } (g theGroup) ∧ s.isBell = true ∧ s.saveReady { fetchKernel 1 with groups := [g theGroup] } (g theGroup) = true ∧ (g theGroup).members = [0] ∧ (g theGroup).index = 0 ∧
     s.poison = [] ∧ s.hbm = [] ∧ (s.ctxs[(1 : Fin 17)]).ckpt.armed = false ∧
     ∀ m : Mem, (∀ n, n < 2 ^ 29 ∨ 2 ^ 29 + 983040 ≤ n → m.read1 n = s.dev.read1 n) → ∀ o < 983040, ∃ e, { s with dev := m }.vaLeaf 1 (0 + o) = some (e, 2 ^ 29 + o)) ∧
    (let g (n : Nat) : Group → Group := fun g => { g with st := .saved, saveEnd := n };
     let s (n : Nat) := { grouped false 9 (g n) id with time := 9 };
     (∀ n, ∃ k, HasGroup (s n) 1 0 k (g n theGroup) ∧ k.fault = none) ∧ (g 9 theGroup).saveEnd ≤ (s 9).time ∧ (s 10).time < (g 10 theGroup).saveEnd) := by
  refine ⟨⟨⟨rfl, rfl, rfl⟩, rfl, rfl, ⟨_, .tail _ (.head _), ?_⟩⟩, ?_, ⟨⟨rfl, rfl, rfl⟩, ?_, ?_, rfl, rfl, rfl, rfl, rfl, ?_⟩, ⟨fun n => ⟨_, ⟨rfl, rfl, rfl⟩, rfl⟩, ?_⟩⟩
  any_goals decide +kernel
  intro m hm o ho
  have e1 : m.readNat (0x10000 + 8 * bits (0 + o) 42 6) 8 = 0x20001 := by
    have : bits (0 + o) 42 6 = 0 := by unfold bits; omega
    rw [this, Mem.readNat_congr fun i hi => hm _ (.inl (by omega))]; decide +kernel
  have e2 : m.readNat (0x20000 + 8 * bits (0 + o) 29 13) 8 = 2 ^ 29 + 0xB := by
    have : bits (0 + o) 29 13 = 0 := by unfold bits; omega
    rw [this, Mem.readNat_congr fun i hi => hm _ (.inl (by omega))]; decide +kernel
  refine ⟨2 ^ 29 + 0xB, ?_⟩
  have hw : ∀ s : State, s.dev = m → s.walkTables 0x10000 (0 + o) = some (true, 2 ^ 29 + 0xB) := by
    intro s hs
    unfold State.walkTables
    simp only [hs, e1, show ptePa 0x20001 = 0x20000 by decide, e2]
    rfl
  have hl : ∀ s : State, ((s.ctxs)[(1 : Fin 17)]).root.toNat = 0x10000 → s.dev = m → s.vaLeaf 1 (0 + o) =
      some (2 ^ 29 + 0xB, (mkXlat (0 + o) (true, 2 ^ 29 + 0xB)).pa (0 + o)) := by
    intro s h1 h2
    unfold State.vaLeaf
    rw [if_neg (by omega), h1, hw s h2]
  rw [hl _ rfl rfl]
  have hp : (mkXlat (0 + o) (true, 2 ^ 29 + 0xB)).pa (0 + o) = ptePa (2 ^ 29 + 0xB) + (0 + o) % 2 ^ 29 := rfl
  rw [hp, show ptePa (2 ^ 29 + 0xB) = 2 ^ 29 by decide, Nat.mod_eq_of_lt (by omega), Nat.zero_add]

end

/-! ## Witnesses: the ends of groups, contexts, functions and the host -/

section
open Sys2Proof Sys2Proof.Machine Sys2Proof.Claims Sys2Proof.Tests

/-- A PAIR kernel with one page written, alike in both replicas or in one alone. -/
def Sys2Proof.Tests.paired (b0 b1 : BitVec 32) : State :=
  { State.reset with
    kernels := [{ fetchKernel 1 with record := { fetchRecord with pair := true }, groups := [{ theGroup with st := .retired }] }],
    pinsets := [{ kid := 1, die := 0, xs := [{ va := 0, block := false, leaf := 0x1002B, bits0 := b0, bits1 := b1 }] }] }

theorem paired_agree : ((paired 1 1).replicaSums 1 0).map (·.2) = ((paired 1 1).replicaSums 1 1).map (·.2) := by
  have z : ∀ n a b, Mem.readBytes [] a n = Mem.readBytes [] b n := by
    intro n; induction n with
    | zero => intros; rfl
    | succ n ih => intro a b; simp only [Mem.readBytes, ih (a + 1) (b + 1)]; rfl
  have d : ∀ a b, (paired 1 1).lineDigest a = (paired 1 1).lineDigest b := fun a b => congrArg (fun x => fold (wordsOf x)) (z 2048 a b)
  have e : ∀ a b bm, (paired 1 1).pageDigest a bm = (paired 1 1).pageDigest b bm := by
    intro a b bm; unfold State.pageDigest; simp only [d _ 0]
  have p : (paired 1 1).shadowPages 1 = [(0x10000, 0)] := by decide +kernel
  unfold State.replicaSums
  rw [p]; simp only [List.map_cons, List.map_nil, e _ 0]
  rw [show (paired 1 1).shadowBits 1 0 0x10000 = (paired 1 1).shadowBits 1 1 0x10000 by decide +kernel]

/-- A group whose strand is gone, and one that runs; a PAIR kernel whose replicas agree and one whose do not; a CKPT that is due; a step that
is over. -/
theorem witness_GroupEnds :
    (let s := grouped false 9 id fun t => { t with life := .idle };
     (∃ k, HasGroup s 1 0 k theGroup ∧ k.record.pair = false ∧ ∀ n h, k.groups[n]? = some h → n ≠ 0 → h.st = .retired) ∧ s.retirable (fetchKernel 1) theGroup = true) ∧
    (grouped false 9 id id).retirable (fetchKernel 1) theGroup = false ∧
    (∃ k, HasGroup (paired 1 1) 1 0 k { theGroup with st := .retired } ∧ k.record.pair = true ∧ k.st = .running ∧ k.fault = none ∧ (∀ h ∈ k.groups, h.st = .retired) ∧ k.first = none ∧
      k.record.doneVA = 0) ∧
    (((paired 1 1).replicaSums 1 0).map (·.2) = ((paired 1 1).replicaSums 1 1).map (·.2)) ∧ ((paired 1 1).poison = [] ∧ ((paired 1 1).ctxs[(1 : Fin 17)]).ckpt.armed = false ∧
     (paired 1 1).shadowPages 1 = [(0x10000, 0)] ∧ ((paired 1 1).shadowBits 1 0 0x10000).getLsbD ((0x10000 - 0x10000) / 2048) = true) ∧
    ((paired 1 0).replicaSums 1 0).map (·.2) ≠ ((paired 1 0).replicaSums 1 1).map (·.2) ∧
    (let r : CkptReq := { core := 0, strand := 0, kid := 1, d := 1, off := false, pages := [0x30000], order := 0, at_ := 4093 };
     let s := { grouped false 4096 id id with ctxs := upd State.reset.ctxs 1 fun c => { c with ckpts := [r] } };
     (s.ctxs[(1 : Fin 17)]).ckpts = [r] ∧ s.isBell = true ∧ r.at_ + 2 < s.cyc ∧ (s.strand 0 0).life = .live ∧ ((s.core 0).owner.map (·.kid)) = some 1) ∧
    (let g : Group → Group := fun g => { g with step := .waiting 0 [(0, 16)] };
     let s := grouped false 9 g id;
     (∃ k, HasGroup s 1 0 k (g theGroup)) ∧ s.stepDone 1 0 (g theGroup) = true ∧ ([((0 : Fin 256), 16)].map (·.1)).Nodup ∧ (s.strand 0 0).life = .live ∧ (s.strand 0 0).trapped = false) := by
  refine ⟨⟨⟨_, ⟨rfl, rfl, rfl⟩, rfl, fun n h e hn => ?_⟩, ?_⟩, ?_, ⟨_, ⟨rfl, rfl, rfl⟩, rfl, rfl, rfl, ?_, rfl, rfl⟩, paired_agree, ?_, ?_, ?_, ⟨_, rfl, rfl, rfl⟩, ?_⟩
  · cases n with
    | zero => exact absurd rfl hn
    | succ n => cases e
  all_goals decide +kernel

/-- Context 1 in a state, changed otherwise too. -/
def Sys2Proof.Tests.inCtx (st : CtxSt) (f : Ctx → Ctx) : State := { State.reset with ctxs := upd State.reset.ctxs 1 fun c => f { c with st } }

/-- A context in each state; busy or not; a root out of place, no handler, a handler that is not mapped; 10 ms in QUIESCING; tags. -/
theorem witness_ContextLife :
    (∀ st ∈ [CtxSt.free, .closed, .open_, .active, .quiescing, .scrubbing], ((inCtx st id).ctxs[(1 : Fin 17)]).st = st ∧ ((inCtx st id).ctxs[(1 : Fin 17)]).busy = false) ∧
    ((inCtx .open_ fun c => { c with busy := true }).ctxs[(1 : Fin 17)]).busy = true ∧
    (let k := (inCtx .closed fun c => { c with root := 1 }).ctxs[(1 : Fin 17)]; k.root.toNat % 65536 ≠ 0) ∧
    (let s := inCtx .closed fun c => { c with root := 0x10000, hva := 0x100 };
     (s.ctxs[(1 : Fin 17)]).root.toNat % 65536 = 0 ∧ (s.ctxs[(1 : Fin 17)]).hva ≠ 0 ∧ s.handlerText 1 0x100 = none) ∧
    (∀ x : Fin 17, (State.reset.ctxs[x]).st = .free) ∧ (∃ x : Fin 17, ((inCtx .open_ id).ctxs[x]).st ≠ .free) ∧ (inCtx .open_ id).pf0Reset = [] ∧
    ({ inCtx .open_ id with pf0Reset := [0] } : State).pf0Reset ≠ [] ∧ (inCtx .quiescing id).outstanding 1 = false ∧
    ({ inCtx .quiescing id with cmds := [theCmd false (.mcell 0 [])] } : State).outstanding 1 = true ∧
    (let s := { inCtx .quiescing id with time := 19000000 }; (s.ctxs[(1 : Fin 17)]).since + 19000000 ≤ s.time) ∧
    (∀ x : Fin 17, x ≠ 1 → ((inCtx .scrubbing id).ctxs[x]).st ≠ .quiescing ∧ ((inCtx .scrubbing id).ctxs[x]).st ≠ .scrubbing) ∧
    (1#8 = ((inCtx .open_ id).ctxs[(1 : Fin 17)]).gen ++ BitVec.ofNat 5 (1 : Fin 17).val) ∧ 17 ≤ (17 : BitVec 8).toNat % 32 ∧
    ((33 : BitVec 8).toNat % 32 = (1 : Fin 17).val ∧ (33#8) ≠ ((inCtx .open_ id).ctxs[(1 : Fin 17)]).gen ++ BitVec.ofNat 5 (1 : Fin 17).val) := by
  decide +kernel

/-- A handler image in a mapped block (R106): magic, version, five sections at 0x100, the .text of 16 bytes, the two tables at 0x100. -/
def Sys2Proof.Tests.handlerImage : Nat :=
  0x4B4E5341 + 2 ^ 32 + (2 ^ 64 + 2 ^ 128 + 2 ^ 192 + 2 ^ 256 + 2 ^ 320) * 256 + 16 * 2 ^ 96 + 256 * 2 ^ (8 * 0x34) + 256 * 2 ^ (8 * 0x3C)

theorem witness_ContextLife_handler :
    { inCtx .closed (fun c => { c with root := 0x10000, hva := 0x1000 }) with
      dev := (((Mem.writeNat [] 0x10000 8 0x20001).writeNat 0x20000 8 (2 ^ 29 + 0xB)).writeNat (2 ^ 29 + 0x1000) 256 handlerImage) }.handlerText 1 0x1000 =
      some (List.replicate 16 0) := by
  decide +kernel

theorem witness_FunctionCommands :
    (let s (st : QueueSt) := { inCtx .open_ id with queues := upd State.reset.queues 63 fun q => { q with st, ctx := some 1 } };
     (∀ st ∈ [QueueSt.unbound, .stopped, .running, .overrun], ((s st).queues[(63 : Fin 64)]).st = st) ∧ ((s .stopped).queues[(63 : Fin 64)]).ctx = some 1 ∧
     ((s .stopped).queues[(0 : Fin 64)]).ctx ≠ some 1 ∧ ((s .stopped).ctxs[(1 : Fin 17)]).busy = false) ∧
    (let k := (inCtx .open_ fun c => { c with ckpt := { c.ckpt with armed := true } }).ctxs[(1 : Fin 17)]; k.st = .open_ ∧ k.ckpt.armed = true ∧ k.rolling = false) ∧
    ((inCtx .open_ id).ctxs[(1 : Fin 17)]).ckpt.armed = false ∧ ((inCtx .open_ id).ctxs[(1 : Fin 17)]).inval = none ∧
    ((inCtx .open_ fun c => { c with inval := some (0, 65536) }).ctxs[(1 : Fin 17)]).inval = some (0, 65536) ∧
    (inCtx .open_ id).stepGroup 1 0 = none ∧
    (∀ st ∈ [StepSt.off, .halted, .stepping 0 []], let g : Group → Group := fun g => { g with step := st };
      (grouped false 9 g id).stepGroup 1 0 = some (1, 0, g theGroup) ∧ (g theGroup).step = st) ∧
    ∃ k, HasGroup (grouped false 9 id id) 1 0 k theGroup := by
  refine ⟨?_, ?_, ?_, ?_, ?_, ?_, ?_, ⟨_, rfl, rfl, rfl⟩⟩ <;> decide +kernel

/-- Partition records that fail each check in turn, and a good one; register writes; host accesses that end with device memory and past it. -/
theorem witness_PartitionsAndHost :
    (17 ≤ (17 : BitVec 5).toNat ∧ (1 : BitVec 5).toNat = (1 : Fin 17).val) ∧ ((State.reset.ctxs[(1 : Fin 17)]).st = .closed ∨ (State.reset.ctxs[(1 : Fin 17)]).st = .free) ∧
    (let p (v : Nat) := parsePartition (BitVec.ofNat 512 v);
     let near (b n : Nat) : Nat := b * 2 ^ 336 + n * 2 ^ 352;
     let s := { State.reset with ctxs := upd State.reset.ctxs 2 fun c => { c with part := { c.part with cores := 1, pins := Vector.replicate 8 16384 } } };
     1152 * 2 ^ 20 < (p (near 1 1152)).nearBase + (p (near 1 1152)).nearSize ∧ ¬(1152 * 2 ^ 20 < (p (near 0 1152)).nearBase + (p (near 0 1152)).nearSize) ∧
     (∃ g : Fin 17, g ≠ 1 ∧ (p 1).overlaps (s.ctxs[g]).part = true) ∧ ¬(∃ g : Fin 17, g ≠ 1 ∧ (p 2).overlaps (s.ctxs[g]).part = true) ∧
     (∃ d : Fin 8, 16384 < (p (2 + 2 ^ (8 * 60)) ).pins[d] + (((List.finRange 17).filter (· != 1)).map fun g => ((s.ctxs[g]).part).pins[d]).sum) ∧
     ¬(∃ d : Fin 8, 16384 < (p 2).pins[d] + (((List.finRange 17).filter (· != 1)).map fun g => ((s.ctxs[g]).part).pins[d]).sum) ∧
     (p (2 ^ 319)).queues.getLsbD 63 = true) ∧
    ((3 : Fin 4) = 3 ∧ (2 : Fin 4) ≠ 3) ∧ (bits (0x1#64).toNat 0 2 = 1 ∧ bits (0x2#64).toNat 0 2 = 2 ∧ bits (0x33F#64).toNat 8 2 = 3 ∧ (0x1FFFF#64).toNat < 2 ^ 17 ∧
      bits (0x100#64).toNat 8 1 = 1 ∧ bits (0x10#64).toNat 8 1 = 0 ∧ (4 ≤ bits (20#64).toNat 0 5 ∧ bits (20#64).toNat 0 5 ≤ 20)) ∧
    ((inCtx .closed id).ctxs[(1 : Fin 17)]).st = .closed ∧ ((inCtx .open_ id).ctxs[(1 : Fin 17)]).st ≠ .closed ∧ (1 : Fin 17) ≠ 0 ∧ State.reset.hbm = [] ∧ State.reset.poison = [] ∧
    (12 * 2 ^ 36 - 8) + 8 ≤ 12 * 2 ^ 36 ∧ 12 * 2 ^ 36 < (12 * 2 ^ 36 - 7) + 8 ∧
    (let s := { State.reset with queues := upd State.reset.queues 63 fun q => { q with ctx := some 1 } }; 0x1FFFFF < 0x200000 ∧ (s.queues[fin 64 (0x1FFFFF / 0x8000)]).ctx = some 1) := by
  decide +kernel

theorem witness_Management : ((inCtx .open_ id).ctxs[(1 : Fin 17)]).st = .open_ ∧ ((inCtx .closed id).ctxs[(1 : Fin 17)]).st = .closed ∧
    (let s := { State.reset with ctxs := upd State.reset.ctxs 0 fun c => { c with evBase := 0x10000 } }; (s.ctxs[(0 : Fin 17)]).evBase ≠ 0) ∧ (State.reset.ctxs[(16 : Fin 17)]).err < 16 := by
  decide +kernel

/-- An instruction of each position that accepts its fields; a word that decodes. -/
theorem witness_DecodeAndEncodeAgree : (Instr.br 7 0x7FFFFF).position = some 0 ∧ (Instr.br 7 0x7FFFFF).WellFormed ∧ (Instr.add 7 31 31 7 1 7).position = some 1 ∧
    (Instr.add 7 31 31 7 1 7).WellFormed ∧ (Instr.vadd 7 31 31 31 7 7 1 1).position = some 2 ∧ (Instr.vadd 7 31 31 31 7 7 1 1).WellFormed ∧
    (Instr.barv 7 15 255).position = some 3 ∧ (Instr.barv 7 15 255).WellFormed ∧ 0x3B8400FF < 2 ^ 32 := by
  decide

/-- P7 reads false after reset, and an instruction guarded by it; a register number of its own. -/
theorem witness_GuardedOff : (Instr.add 7 31 31 7 1 7).position = some 1 ∧ State.reset.curStrand.rp (fld (encode (.add 7 31 31 7 1 7)) 23 3) = false ∧ (7 : BitVec 3) ≠ 0 := by
  decide +kernel

/-- A live strand that is not TRAPPED, of a TIMED member; one that is, and took its trap in an earlier cycle. -/
theorem witness_TrapEntry :
    (let s := running true id id id; (s.strand 0 0).life = .live ∧ (s.strand 0 0).trapped = false ∧ s.flightCount 0 0 ≤ 127 ∧ s.timed 0 = true ∧ s.stepping 0 = false) ∧
    (let s := { running true id id (fun t => { t with trapped := true }) with time := 1 };
     (s.strand 0 0).life = .live ∧ (s.strand 0 0).trapped = true ∧ (s.strand 0 0).trapAt ≠ s.time ∧
     ∃ w, (s.core 0).owner = some w ∧ ∃ k, s.kernel? w.kid = some k ∧ k.fault = none) := by
  refine ⟨by decide +kernel, by decide +kernel, by decide +kernel, by decide +kernel, _, rfl, _, rfl, rfl⟩

/-! ## Single steps -/

/-- ADD on a register and itself, mod 2^64 (R203): 2^63 + 2^63 is 0, due in the next cycle (R75). -/
theorem test_add_wraps : exec (.add 0 1 2 2 0 0) (withStrand (xs [(2, 0x8000000000000000)])) = .next (due (withStrand (xs [(2, 0x8000000000000000)])) 1 2 (.x 1 0)) := by rfl

/-- DIV by 0 and of the most negative number by -1 (R204). -/
theorem test_div_corners : quotS 5 0 = -1 ∧ restS 5 0 = 5 ∧ quotS (BitVec.intMin 64) (-1) = BitVec.intMin 64 ∧ restS (BitVec.intMin 64) (-1) = 0 := by decide

/-- A misaligned LD raises MISALIGN with the address in TADDR, at SUPER (R211, R431). -/
theorem test_ld_misaligned : ∃ t, exec (.ld 0 1 2 3 0 0) (running false id id (as [(2, 0x104)])) = .next t ∧ (t.strand 0 0).csr.tcause = 6 ∧ (t.strand 0 0).csr.taddr = 0x104 ∧
    (t.strand 0 0).trapped = true ∧ (t.strand 0 0).level = .super := ⟨_, rfl, by decide +kernel, by decide +kernel, by decide +kernel, by decide +kernel⟩

/-- A guard that reads false (R67). -/
theorem test_guarded_off : exec (.add 1 1 2 2 0 0) State.reset = .next State.reset := by rfl

/-- X0 and P0 discard writes (R173, R76). -/
theorem test_discarded : exec (.add 0 0 2 2 0 0) State.reset = .next State.reset ∧ exec (.plog 0 0 1 2 15) State.reset = .next State.reset := ⟨rfl, rfl⟩

/-- CSRW of TVEC at USER raises PRIV (R200). -/
theorem test_csrw_privilege : ∃ t, exec (.csrw 0 0 1 0 0x020) (running false id id id) = .next t ∧ (t.strand 0 0).csr.tcause = 2 :=
  ⟨_, rfl, by decide +kernel⟩

/-- 1 + 2^-24 in f32 to nearest goes to the even neighbour, up in RUP (R44); 1 / 3 in E2M1 has no such place. -/
theorem test_round : roundTo .f32 .rne false 16777217 (-24) 0 = (.fin false 8388608 (-23), { Flags.none with nx := true }) ∧
    roundTo .f32 .rup false 16777217 (-24) 0 = (.fin false 8388609 (-23), { Flags.none with nx := true }) := by decide +kernel

/-- The machine's first step from reset is the bell at CYC 0, and a word placed at the fetch is decoded and issued (R156, R73). -/
theorem test_first_steps : State.reset.nextWork.2 = .event .bell ∧ (State.reset.withFetchWord 32 0x040C2200).nextWork.2 = .event (.bundleIssue 0 0) := by
  exact ⟨by decide +kernel, by decide +kernel⟩

/-- An arrival that completes a barrier flips its phase and reloads PEND (R334). -/
theorem test_barrier_completes : (({ barred Core.reset with arrived := [(0x40, 2, 8)] }.barTest 0x40).bar 0x40).b12 = 1 ∧
    (({ barred Core.reset with arrived := [(0x40, 2, 8)] }.barTest 0x40).bar 0x40).pend = 2 := by decide +kernel

end

/-! ## Witnesses of the clauses that the repaired rules add -/

namespace Sys2Proof.Tests
open Sys2Proof Sys2Proof.Machine Sys2Proof.Claims

/-- A pin of one byte of SPM. -/
def onePin (n : Nat) : Pin := { mma := 0, space := .spm, regions := [(n, 1)], tiles := [0], outs := [], keep := none }
/-- VFs enabled by SR-IOV. -/
def enabled (n : Nat) (s : State) : State := { s with vfs := n }

end Sys2Proof.Tests

section
open Sys2Proof Sys2Proof.Machine Sys2Proof.Claims Sys2Proof.Tests

/-- A store that meets an older pin, one of its own bundle's MMA, and neither (ScalarMemory, VectorMemory). -/
theorem witness_meetsPin :
    (withCore fun k => { k with pins := [onePin 0xBBFFF] }).meetsPin 0xBBFF8 8 = true ∧
    (Claims.cur State.reset fun k => { k with newPins := [onePin 0xBBFFF] }).meetsPin 0xBBFF8 8 = true ∧
    (Claims.cur State.reset fun k => { k with newPins := [onePin 0xBBFFF] }).meetsPin 0xBBFF0 8 = false ∧ State.reset.meetsPin 0xBB000 4096 = false := by
  decide +kernel

/-- LPS0 written by software in this very cycle, and not (HardwareLoops). -/
theorem witness_HardwareLoops_kept :
    keeps (withStrand fun t => { t with wrote := (1, [0x140]) }) 0x140 = true ∧ keeps (withStrand fun t => { t with wrote := (1, [0x140]) }) 0x144 = false ∧
    keeps State.reset 0x140 = false := by decide +kernel

/-- The end of a bundle whose RFT.fault ends its kernel (TrapAndRftFault); the end of one that does not (TransfersAndDelays). -/
theorem witness_TrapAndRftFault_ends :
    (let s := Claims.cur (inHandler (running false id id id)) fun k => { k with ends := true };
     s.cur.ends = true ∧ (mine s).owner = some { kid := 1, gpos := 0, index := 0 } ∧
     ∃ w, s.kernel? 1 = some w ∧ w.fault = none ∧ w.halted = false) ∧ (running false id id id).cur.ends = false :=
  ⟨⟨rfl, rfl, _, rfl, rfl, rfl⟩, rfl⟩

/-- A DUE that is reached on a core that a group holds and that nothing freezes (Barriers). -/
theorem witness_Barriers_due :
    let s := running true id (fun k => { barred k with bars := [0x40], tt := 5 }) id
    0x40 ∈ (s.core 0).bars ∧ (s.core 0).owner.isSome = true ∧ s.frozen 0 = false ∧ ((s.core 0).bar 0x40).state = .isOpen ∧
      ((s.core 0).bar 0x40).due ≠ 0 ∧ ((s.core 0).bar 0x40).due = (s.core 0).tt % 2 ^ 32 := by decide +kernel

/-- Seven and eight entries that hold a record (LaunchDriftCheckpoint); one that found them full does not count. -/
theorem witness_LaunchDriftCheckpoint_held :
    let l (full : Bool) : Launch := { strand := 0, d := 0, kid := 0, queue := 0, bytes := [], order := 0, held := false, full, at_ := 0, from_ := 0, addr := 0 }
    let held (k : Core) : Nat := (k.launches.filter fun l => !l.full).length
    held { Core.reset with launches := List.replicate 7 (l false) ++ [l true] } < 8 ∧ 8 ≤ held { Core.reset with launches := List.replicate 8 (l false) } := by
  decide

/-- Slots that an RFT.replay had left, saved at the trap (ReturnFromTrap). -/
theorem witness_ReturnFromTrap_replay :
    let r : Replay := { pc := 16, pos := 2, ring := (0, 0), from_ := 0 }
    let s := inHandler (running false id id fun t => { t with hold := { t.hold with replay := [r], level := .super } })
    (me s).hold.replay.map (fun r => (r.pc, r.pos)) = [(16, 2)] ∧ flightOk (s.flightEntries 0 0).1 (s.flightEntries 0 0).2 (me s).hold = true ∧
      s.returnsPending 0 0 = false := by decide +kernel

/-- A strand whose trap can be taken at once (OutputsVerdictsResidues, TrapEntry, GroupEnds): it has written no CSR in this cycle and enters no
bundle out of the image in it. -/
theorem witness_trap_at_once : let s := running false id id id
    (s.strand 0 0).life = .live ∧ (s.strand 0 0).trapped = false ∧ (s.strand 0 0).badDue = none ∧ (s.strand 0 0).wrote.1 ≠ s.time + 1 := by decide +kernel

/-- A trap in the cycle of another one, whose area is still to be written; an area of a strand with no transfer out of the image; one in a
handler of a kernel that has not ended (TrapEntry). -/
theorem witness_TrapEntry_more :
    (let p : Pend := { slot := 3, pc := 16, info := { cause := 8, taddr := 0, coef := none }, order := 0, ring := (0, 0) };
     let s := running false id id fun t => { t with trapped := true, hold := { t.hold with image := some ([], []) } };
     ¬(p.info.cause = 7 ∧ s.stepping 0 = true) ∧ (s.strand 0 0).life = .live ∧ (s.strand 0 0).trapped = true ∧ (s.strand 0 0).trapAt = s.time ∧
     (s.strand 0 0).hold.image = some ([], [])) ∧
    ((running false id id id).strand 0 0).bad = none ∧ (running false id id id).flightCount 0 0 ≤ 127 ∧
    (let p : Pend := { slot := 3, pc := 16, info := { cause := 8, taddr := 0, coef := none }, order := 0, ring := (0, 0) };
     let s := running false id id fun t => { t with pending := [p] }
     (s.strand 0 0).pending = [p] ∧ (s.strand 0 0).returning = none ∧ s.iss ≤ (0 : Fin 256).val) ∧
    ∃ k, (running false id id id).kernel? 1 = some k ∧ k.fault = none ∧ k.halted = false :=
  ⟨by decide +kernel, by decide +kernel, by decide +kernel, by decide +kernel, _, rfl, rfl, rfl⟩

/-- An acknowledgement that can come in and one that cannot (StepRunsDecoded). -/
theorem witness_StepRunsDecoded_inputs :
    (let s := State.reset.onEntry 0 0 fun n => { n with kept := [{ aRetained false with route := BitVec.ofNat 64 (2 * 2 ^ 62 + 2 ^ 50) }] };
     s.accepts (.ackArrival 0 0 0) = true) ∧
    (let s := { State.reset with inbox := [(0, .ackArrival 0 0 0)] };
     s.nextWork.2 = .input (.ackArrival 0 0 0) ∧ s.nextWork.1.accepts (.ackArrival 0 0 0) = false) ∧
    (let s := { State.reset with inbox := [(0, .readStatus)] }; s.nextWork.1.accepts .readStatus = true) := by decide +kernel

/-- A kernel that has neither faulted nor been stopped, a group out of step mode whose stepped cycles do not count, one in step mode, and a
budget of 7 cycles beside 2 stepped ones (RealignEnds). -/
theorem witness_RealignEnds_more :
    (let s (n : Nat) := { (grouped true 9 (fun g => { g with stepped := 2 }) id).onCore 0 (fun k => { k with tt := n }) with
       kernels := [{ fetchKernel 1 with record := { fetchRecord with timed := true, budget := 7 }, groups := [{ theGroup with stepped := 2 }] }] };
     ∃ k, HasGroup (s 9) 1 0 k { theGroup with stepped := 2 } ∧ k.fault = none ∧ k.halted = false ∧ k.record.budget ≠ 0 ∧
       (∀ m ∈ theGroup.members, k.record.budget + 2 ≤ ((s 9).core m).tt) ∧ ∃ m ∈ theGroup.members, ((s 8).core m).tt < k.record.budget + 2) ∧
    (∃ k, HasGroup (grouped true 9 (fun g => { g with step := .halted }) id) 1 0 k { theGroup with step := .halted } ∧ k.fault = none ∧ k.halted = false) ∧
    (let s := grouped true 4096 id fun t => { t with wait := .realign 1 false 4095 0 };
     s.isBell = true ∧ s.atFreeze 0 = false ∧ (s.core 0).causes = [] ∧ (s.strand 0 0).trapped = false) := by
  refine ⟨⟨_, ⟨rfl, rfl, rfl⟩, rfl, rfl, ?_⟩, ⟨_, ⟨rfl, rfl, rfl⟩, rfl, rfl⟩, ?_⟩ <;> decide +kernel

/-- A resumed group's release, with PRE risen and not (BellAndRelease). -/
theorem witness_BellAndRelease_resumed : ∀ pre : Option Nat,
    let g : Group := { theGroup with st := .forming, resumes := true, pre }
    let s := grouped false 4096 (fun _ => g) id
    (∃ k, HasGroup s 1 0 k g ∧ k.fault = none) ∧ s.inBell = true ∧ g.saveEnd ≤ s.time ∧ s.poison = [] ∧ s.hbm = [] :=
  fun _ => ⟨⟨_, ⟨rfl, rfl, rfl⟩, rfl⟩, by simp [State.inBell, grouped, running]; rfl, Nat.zero_le _, rfl, rfl⟩

/-- PRE of a group that still forms (Preemption). -/
theorem witness_Preemption_forming :
    let g : Group := { theGroup with st := .forming }
    let s := { grouped false 9 (fun _ => g) id with kernels := [{ fetchKernel 1 with groups := [g] }, { fetchKernel 2 with victims := [1] }] }
    HasGroup s 1 0 { fetchKernel 1 with groups := [g] } g ∧ g.pre = none ∧ ∃ o ∈ s.kernels, 1 ∈ o.victims :=
  ⟨⟨rfl, rfl, rfl⟩, rfl, _, .tail _ (.head _), by decide⟩

/-- A CKPT whose strand has trapped since, and one whose strand has not; a line of the last area that is cleared (GroupEnds). -/
theorem witness_GroupEnds_more :
    (let r : CkptReq := { core := 0, strand := 0, kid := 1, d := 1, off := false, pages := [0x30000], order := 5, at_ := 4093 };
     let s (o : List (Nat × Nat)) := { grouped false 4096 id (fun t => { t with hold := { t.hold with owed := o } }) with
       ctxs := upd State.reset.ctxs 1 fun c => { c with ckpts := [r] } };
     r.d ≠ 0 ∧ ((s []).strand 0 0).hold.owed = [] ∧ ((s [(5, 3)]).strand 0 0).hold.owed = [(r.order, 3)] ∧ ((s [(5, 3)]).strand 0 0).hold.image = none ∧
     ((s [(5, 3)]).strand 0 0).life = .live ∧ (((s [(5, 3)]).core 0).owner.map (·.kid)) = some r.kid) ∧
    (let s (r a : Bool) := inCtx .open_ fun c => { c with rolling := r, ckpt := { c.ckpt with armed := a } };
     ((s true true).ctxs[(1 : Fin 17)]).rolling = true ∧ ((s false true).ctxs[(1 : Fin 17)]).rolling = false ∧ ((s false true).ctxs[(1 : Fin 17)]).ckpt.armed = true ∧
     ((s false false).ctxs[(1 : Fin 17)]).ckpt.armed = false ∧ (s false true).poison = [] ∧ (s false true).hbm = []) ∧
    (let s := grouped false 9 (fun g => { g with step := .waiting 0 [(0, 16)] }) id; s.iss ≤ (0 : Fin 256).val ∧ (0 : Fin 256).val < ({ s with iss := 1 } : State).iss ∧
      (s.strand 0 0).pending = [] ∧ (s.strand 0 0).returning = none) ∧
    ((paired 0 1).hbm = [] ∧ (paired 0 1).poison = [] ∧ (paired 1 1).hbm = [] ∧ (fetchKernel 1).record.doneVA = 0 ∧ (State.reset.ctxs[(1 : Fin 17)]).nextSeq ≤ (fetchKernel 1).seq + 65536) := by
  decide +kernel

/-- Functions that answer and that do not; returns of a command of the same tag and of another (ContextLife); what an FLR of PF0 finds. -/
theorem witness_ContextLife_functions :
    State.reset.functionOn 0 = true ∧ (enabled 15 State.reset).functionOn 15 = true ∧ (enabled 15 State.reset).functionOn 16 = false ∧
    State.reset.pf0Reset = [] ∧ (State.reset.ctxs[(0 : Fin 17)]).st = .free ∧ (inCtx .closed id).poison = [] ∧ (inCtx .closed id).hbm = [] ∧
    (let s := holding false (.mcell 0 []) State.reset;
     (∃ y, s.cmd? 7 = some y ∧ y.tag = (1#8)) ∧ ∀ y, s.cmd? 7 = some y → y.tag ≠ (33#8)) ∧ ∀ y, State.reset.cmd? 7 = some y → y.tag ≠ (1#8) := by
  refine ⟨by decide +kernel, by decide +kernel, by decide +kernel, rfl, by decide +kernel, rfl, rfl, ⟨⟨_, rfl, rfl⟩, fun y h => ?_⟩, fun y h => ?_⟩
  · cases h; decide
  · cases h

/-- Commands of the enabled VF 1 (FunctionCommands): STEP through the side band (stepCmd) finds it, and does not find VF 2. -/
theorem witness_FunctionCommands_enabled : (enabled 1 (inCtx .open_ id)).functionOn 1 = true ∧ (enabled 1 (inCtx .open_ id)).functionOn 2 = false ∧
    ((enabled 1 (inCtx .open_ id)).ctxs[(1 : Fin 17)]).busy = false := by decide +kernel

/-- A window that belongs to an enabled function and one that does not; a register of PF0 (PartitionsAndHost). -/
theorem witness_PartitionsAndHost_functions :
    (let s (n : Nat) := enabled n { State.reset with queues := upd State.reset.queues 63 fun q => { q with ctx := some 1 } };
     ((s 1).functionOn 1 = true ∧ 0x1FFFFF < 0x200000 ∧ ((s 1).queues[fin 64 (0x1FFFFF / 0x8000)]).ctx = some 1) ∧ (s 0).functionOn 1 = false ∧
     ((s 1).queues[fin 64 (0 / 0x8000)]).ctx ≠ some 1) ∧ State.reset.functionOn 0 = true := by decide +kernel

/-- Configuration requests while the part trains and after, to a function that answers and to one that does not; the measurement indices
(Management). -/
theorem witness_Management_requests :
    ({ State.reset with upAt := 1 } : State).time < ({ State.reset with upAt := 1 } : State).upAt ∧ State.reset.upAt ≤ State.reset.time ∧
    State.reset.functionOn 0 = true ∧ State.reset.functionOn 16 = false ∧ (enabled 16 State.reset).functionOn 16 = true ∧
    (1 ≤ (3 : BitVec 8).toNat ∧ (3 : BitVec 8).toNat ≤ 3) ∧ (0 : BitVec 8).toNat = 0 ∧ 3 < (4 : BitVec 8).toNat := by decide +kernel

end

namespace Sys2Proof.Tests
open Sys2Proof Sys2Proof.Machine Sys2Proof.Claims

/-- Who takes and who has been saved are decided alike by owner?. -/
theorem taken_of {s : State} {d : Fin 256} {n : Nat} {gen : Option (BitVec 3)} (k : Kernel) (g : Group) (h : s.owner? d = some (k, g)) (hn : k.ctx.val = n)
    (hg : ∀ x, gen = some x → (s.ctxs[k.ctx]).gen = x) (hs : g.st ≠ .saved) (hl : ∀ j : Fin 4, ((s.core d).strands[j]).life ≠ .saved) : Taken s d n gen :=
  ⟨k, g, h, hn, hg, hs, hl⟩

/-- Core 0 taken for function 1, whatever is done to the core but its owner and strands. -/
theorem taken_linked (timed : Bool) (st : PortSt) (gen : Option (BitVec 3)) (hg : ∀ x, gen = some x → (0 : BitVec 3) = x) :
    Taken (linked timed st id) 0 1 gen := by
  refine taken_of _ _ rfl rfl ?_ (by intro h; cases h) (by cases timed <;> cases st <;> decide +kernel)
  intro x hx
  exact (show ((State.reset.ctxs[(1 : Fin 17)]).gen : BitVec 3) = 0 by decide +kernel) ▸ hg x hx

/-- Kernel 1 saved on core 0. -/
def savedOn : State := running false (fun g => { g with st := .saved }) id id

theorem saved_savedOn : Saved savedOn 0 1 none := ⟨_, _, rfl, rfl, (fun _ h => nomatch h), .inl rfl⟩

theorem not_taken (s : State) (d : Fin 256) (n : Nat) (gen : Option (BitVec 3)) (h : s.owner? d = none) : ¬Taken s d n gen ∧ ¬Saved s d n gen := by
  constructor <;> rintro ⟨k, g, e, -⟩ <;> rw [h] at e <;> cases e

end Sys2Proof.Tests

section
open Sys2Proof Sys2Proof.Machine Sys2Proof.Claims Sys2Proof.Tests

/-- A flit whose core is free for its function, one whose group has been saved, one that finds nobody; a repaired and a lost FEC word; a gap
that an earlier loss on the package left (LinkEvents). -/
theorem witness_LinkEvents_more :
    Taken (linked false .degraded id) 0 1 none ∧ Taken (linked true .timed id) 0 1 (some 0) ∧ Saved savedOn 0 1 none ∧
    (¬Taken State.reset 0 1 (some 0) ∧ ¬Saved State.reset 0 1 (some 0) ∧ State.reset.performsIn (aFlit (farRoute 0) 0) 0 = false) ∧
    (Fec.corrected ≠ .failed ∧ Fec.failed = .failed) ∧
    (let s := { linked true .timed id with gaps := [(localRoute 1 0, 0)] }; ((localRoute 1 0), (0 : Nat)) ∈ s.gaps ∧ bits (localRoute 1 0).toNat 49 1 = 1) ∧
    ((linked false .down id).ports[(10 : Fin 46)]).st = .down ∧ ({ aFlit (farRoute 0) 0 with isBeacon := true }).isBeacon = true := by
  refine ⟨taken_linked _ _ _ (by intro x h; cases h), taken_linked _ _ _ (by intro x h; cases h; rfl), saved_savedOn,
    ⟨(not_taken _ _ _ _ rfl).1, (not_taken _ _ _ _ rfl).2, ?_⟩, ?_, ?_, ?_, rfl⟩ <;> decide +kernel

/-- A port that holds nothing (PortStates). -/
theorem witness_PortStates_holds : HoldsNothing (linked false .timed id) 10 := by
  refine ⟨?_, ?_, by decide +kernel⟩ <;> intro it h <;> cases h

/-- A chunk that its core takes, one for a saved group, one for nobody; a route of the core's own, on which no link fails; an acknowledgement
of a TIMED member before its due TT, and one at once (CollectiveEvents). -/
theorem witness_CollectiveEvents_more :
    Taken (collecting (anEntry .active 1)) 0 (aChunk 1).func (some (aChunk 1).gen) ∧ Saved savedOn 0 1 none ∧
    (¬Taken State.reset 0 1 (some 0) ∧ ¬Saved State.reset 0 1 (some 0)) ∧ (aChunk 1).srcPkg = (collecting (anEntry .active 1)).pkg ∧
    (∀ y ∈ (collecting (anEntry .active 1)).agenda, y.act = .ev (.ackTimeout 0 0 0) → ∀ m, y.clk ≠ .tt m) ∧
    (let it : Item := { clk := .tt 0, due := 5, phase := 3, core := 2 ^ 40, seq := 0, act := .ev (.ackTimeout 0 0 0) };
     it ∈ ({ collecting (anEntry .active 1) with agenda := [it] } : State).agenda ∧ ((collecting (anEntry .active 1)).core 0).tt < it.due) := by
  refine ⟨?_, saved_savedOn, not_taken _ _ _ _ rfl, rfl, ?_, ?_⟩
  · exact taken_of _ _ rfl rfl (by intro x h; cases h; decide +kernel) (by intro h; cases h) (by decide +kernel)
  · intro y h; cases h
  · exact ⟨.head _, by decide +kernel⟩

end
end

/-! ## Partitions and host accesses (R8, R118, R142, R388, R452 to R458) -/

namespace Sys2Proof.Machine

/-! ### Fields of words -/

theorem testBit_bits (v lo n j : Nat) : (bits v lo n).testBit j = (decide (j < n) && v.testBit (lo + j)) := by
  simp [bits, Nat.testBit_mod_two_pow, Nat.testBit_div_two_pow, Nat.add_comm]

/-- A field that a mask lets through. -/
theorem bits_and_of_set (v m : Word) {lo n : Nat} (h : ∀ j < n, m.getLsbD (lo + j) = true) :
    bits (v &&& m).toNat lo n = bits v.toNat lo n := by
  refine Nat.eq_of_testBit_eq fun j => ?_
  rw [testBit_bits, testBit_bits]
  by_cases hj : j < n
  · have hm : m.toNat.testBit (lo + j) = true := h j hj
    simp [hm]
  · simp [hj]

/-- A field that a mask clears. -/
theorem bits_and_of_clear (v m : Word) {lo n : Nat} (h : ∀ j < n, m.getLsbD (lo + j) = false) : bits (v &&& m).toNat lo n = 0 := by
  refine Nat.eq_of_testBit_eq fun j => ?_
  rw [testBit_bits, Nat.zero_testBit]
  by_cases hj : j < n
  · have hm : m.toNat.testBit (lo + j) = false := h j hj
    simp [hm]
  · simp [hj]

/-- EVBASE keeps a multiple of 32 (R460). -/
theorem toNat_and_not_31 (v : Word) : (v &&& ~~~0x1F).toNat = v.toNat / 32 * 32 := by
  have low : bits (v &&& ~~~0x1F).toNat 0 5 = 0 := bits_and_of_clear v _ (by decide)
  have high : bits (v &&& ~~~0x1F).toNat 5 59 = bits v.toNat 5 59 := bits_and_of_set v _ (by decide)
  have hx := (v &&& ~~~0x1F).isLt
  have hv := v.isLt
  generalize (v &&& ~~~0x1F).toNat = x at *
  simp only [bits] at low high
  omega

/-- EVCTL keeps its PRODUCE half, and takes a size of 4 to 20. -/
theorem bits_evCtlWrite (old v : Word) :
    bits (evCtlWrite old v).toNat 32 32 = bits old.toNat 32 32 ∧
    bits (evCtlWrite old v).toNat 0 5 = if 4 ≤ bits v.toNat 0 5 ∧ bits v.toNat 0 5 ≤ 20 then bits v.toNat 0 5 else bits old.toNat 0 5 := by
  unfold evCtlWrite
  by_cases fits : 4 ≤ bits v.toNat 0 5 ∧ bits v.toNat 0 5 ≤ 20
  · simp only [fits, and_self, if_true]
    generalize bits v.toNat 0 5 = n at fits
    have hold := old.isLt
    rw [BitVec.toNat_ofNat, Nat.mod_eq_of_lt (by omega)]
    simp only [bits]
    omega
  · simp only [fits, if_false, and_self]

/-- A STEPCTL value below 2^17 is its group index and its mode bit. -/
theorem ofNat_stepCtl_fields {v : Word} (h : v.toNat < 2 ^ 17) :
    BitVec.ofNat 64 ((v.extractLsb' 0 16).toNat + 2 ^ 16 * bit (bits v.toNat 16 1 == 1)) = v := by
  have mode : bit (bits v.toNat 16 1 == 1) = bits v.toNat 16 1 := by
    have : bits v.toNat 16 1 = 0 ∨ bits v.toNat 16 1 = 1 := by simp only [bits]; omega
    rcases this with e | e <;> simp [e, bit]
  refine BitVec.eq_of_toNat_eq ?_
  rw [mode, BitVec.toNat_ofNat, BitVec.extractLsb'_toNat, Nat.shiftRight_zero]
  simp only [bits]
  omega

theorem fin_eq_of_val {n i : Nat} [NeZero n] {f : Fin n} (h : i = f.val) : fin n i = f :=
  Fin.ext ((fin_val (h ▸ f.isLt)).trans h)

/-! ### Dwords of wide registers -/

theorem getLsbD_putDword {w : Nat} (r : BitVec w) (i : Nat) (v : Word) {b : Nat} (hb : b < w) :
    (putDword r i v).getLsbD b = if 64 * i ≤ b ∧ b < 64 * i + 64 then v.getLsbD (b - 64 * i) else r.getLsbD b := by
  have ones : (BitVec.ofNat w (2 ^ 64 - 1)).getLsbD (b - 64 * i) = decide (b - 64 * i < 64) := by
    rw [BitVec.getLsbD_ofNat, Nat.testBit_two_pow_sub_one]
    simp only [show b - 64 * i < w by omega, decide_true, Bool.true_and]
  unfold putDword
  simp only [BitVec.getLsbD_or, BitVec.getLsbD_and, BitVec.getLsbD_not, BitVec.getLsbD_shiftLeft, BitVec.getLsbD_setWidth, ones, hb, decide_true,
    Bool.true_and, BitVec.zeroExtend]
  by_cases low : b < 64 * i
  · simp [low, Nat.not_le.mpr low]
  · by_cases high : b < 64 * i + 64
    · simp [low, high, Nat.not_lt.mp low, show b - 64 * i < 64 by omega, show b - 64 * i < w by omega]
    · have past : v.getLsbD (b - 64 * i) = false := BitVec.getLsbD_of_ge _ _ (by omega)
      simp [high, past, show ¬b - 64 * i < 64 by omega]

/-- Each dword of a register after one of them has been replaced. -/
theorem extractLsb'_putDword (r : BitVec 512) (i y : Fin 8) (v : Word) :
    (putDword r i.val v).extractLsb' (64 * y.val) 64 = if y = i then v else r.extractLsb' (64 * y.val) 64 := by
  refine BitVec.eq_of_getLsbD_eq fun b hb => ?_
  rw [BitVec.getLsbD_extractLsb', getLsbD_putDword _ _ _ (by omega)]
  by_cases e : y = i
  · subst e
    simp [hb]
  · have apart : ¬(64 * i.val ≤ 64 * y.val + b ∧ 64 * y.val + b < 64 * i.val + 64) := by
      have : y.val ≠ i.val := fun h => e (Fin.ext h)
      omega
    simp [apart, e, hb]

/-! ### Partitions -/

/-- Some other context's partition overlaps p. -/
theorem any_others_overlap (s : State) (f : Fin 17) (p : Partition) :
    (((List.finRange 17).filter (· != f)).map fun g => (s.ctxs[g]).part).any p.overlaps = true ↔
      ∃ g : Fin 17, g ≠ f ∧ p.overlaps (s.ctxs[g]).part = true := by
  simp [List.any_eq_true]

section
variable (s : State) (f : Fin 17) (p : Partition) (st : CtxSt) (q : Fin 64)

/-- A queue after a partition has been given (R142): one that joins the mask is STOPPED, one that leaves it UNBOUND, any other as it was. -/
theorem queue_setPartition :
    (s.setPartition f p st).queues[q] =
      if p.queues.getLsbD q.val then (if (s.queues[q]).ctx = some f then s.queues[q] else { s.queues[q] with st := .stopped, ctx := some f })
      else if (s.queues[q]).ctx = some f then { s.queues[q] with st := .unbound, ctx := none } else s.queues[q] := by
  simp [State.setPartition]

variable {q}

theorem queue_setPartition_of_mem (h : p.queues.getLsbD q.val = true) :
    ((s.setPartition f p st).queues[q]).ctx = some f ∧ ((s.queues[q]).ctx ≠ some f → ((s.setPartition f p st).queues[q]).st = .stopped) := by
  rw [queue_setPartition, if_pos h]
  by_cases had : (s.queues[q]).ctx = some f
  · rw [if_pos had]
    exact ⟨had, fun no => absurd had no⟩
  · rw [if_neg had]
    exact ⟨rfl, fun _ => rfl⟩

variable {p}

theorem queue_setPartition_of_leaving (h : p.queues.getLsbD q.val = false) (had : (s.queues[q]).ctx = some f) :
    ((s.setPartition f p st).queues[q]).ctx = none ∧ ((s.setPartition f p st).queues[q]).st = .unbound := by
  rw [queue_setPartition, if_neg (by rw [h]; decide), if_pos had]
  exact ⟨rfl, rfl⟩

theorem queue_setPartition_of_other (h : p.queues.getLsbD q.val = false) (no : (s.queues[q]).ctx ≠ some f) :
    (s.setPartition f p st).queues[q] = s.queues[q] := by
  rw [queue_setPartition, if_neg (by rw [h]; decide), if_neg no]

end

/-- Some die's pins exceed 16,384 with those of the record. -/
theorem any_pins_exceed (s : State) (f : Fin 17) (p : Partition) :
    ((List.finRange 8).any fun d => decide (16384 < p.pins[d] +
      ((((List.finRange 17).filter (· != f)).map fun g => (s.ctxs[g]).part).map fun o => o.pins[d]).sum)) = true ↔
      ∃ d : Fin 8, 16384 < p.pins[d] + (((List.finRange 17).filter (· != f)).map fun g => ((s.ctxs[g]).part).pins[d]).sum := by
  simp [List.any_eq_true, Function.comp_def]

theorem occupied_iff (st : CtxSt) : (st != .closed && st != .free) = true ↔ ¬(st = .closed ∨ st = .free) := by
  simp

theorem execAssign_no_context {n : BitVec 5} (s : State) (h : 17 ≤ n.toNat) : execAssign n s = .next (s.setAstat 4) := if_pos h

theorem execWithdraw_no_context {n : BitVec 5} (s : State) (h : 17 ≤ n.toNat) : execWithdraw n s = .next (s.setAstat 4) := if_pos h

/-- ASSIGN of a context, its checks in the order of R456. -/
theorem execAssign_eq {n : BitVec 5} {f : Fin 17} (s : State) (h : n.toNat = f.val) :
    execAssign n s =
      (let p := parsePartition s.records[f]
       let others := ((List.finRange 17).filter (· != f)).map fun g => (s.ctxs[g]).part
       if ((s.ctxs[f]).st != .closed && (s.ctxs[f]).st != .free) = true then .next (s.setAstat 3)
       else if 1152 * 2 ^ 20 < p.nearBase + p.nearSize then .next (s.setAstat 5)
       else if others.any p.overlaps then .next (s.setAstat 1)
       else if (List.finRange 8).any fun d => decide (16384 < p.pins[d] + (others.map fun o => o.pins[d]).sum) then .next (s.setAstat 2)
       else if !s.functionOn f then .next ({ s with free := s.free + 1 }.setAstat (Config.astat s.free))
       else .next ((s.setPartition f p .closed).setAstat 0)) := by
  obtain rfl : fin 17 n.toNat = f := fin_eq_of_val h
  exact if_neg (by omega)

section
variable {n : BitVec 5} {f : Fin 17} (s : State) (index : n.toNat = f.val)
include index

theorem execAssign_occupied (h : ¬((s.ctxs[f]).st = .closed ∨ (s.ctxs[f]).st = .free)) : execAssign n s = .next (s.setAstat 3) :=
  (execAssign_eq s index).trans (if_pos ((occupied_iff _).mpr h))

variable (vacant : (s.ctxs[f]).st = .closed ∨ (s.ctxs[f]).st = .free)
include vacant

theorem execAssign_nearTooLarge (h : 1152 * 2 ^ 20 < (parsePartition s.records[f]).nearBase + (parsePartition s.records[f]).nearSize) :
    execAssign n s = .next (s.setAstat 5) := by
  rw [execAssign_eq s index, if_neg fun e => (occupied_iff _).mp e vacant, if_pos h]

variable (fits : ¬1152 * 2 ^ 20 < (parsePartition s.records[f]).nearBase + (parsePartition s.records[f]).nearSize)
include fits

theorem execAssign_overlapping (h : ∃ g : Fin 17, g ≠ f ∧ (parsePartition s.records[f]).overlaps (s.ctxs[g]).part = true) :
    execAssign n s = .next (s.setAstat 1) := by
  rw [execAssign_eq s index, if_neg fun e => (occupied_iff _).mp e vacant, if_neg fits, if_pos ((any_others_overlap ..).mpr h)]

variable (apart : ¬∃ g : Fin 17, g ≠ f ∧ (parsePartition s.records[f]).overlaps (s.ctxs[g]).part = true)
include apart

theorem execAssign_pinsExceeded (h : ∃ d : Fin 8, 16384 < (parsePartition s.records[f]).pins[d] +
    (((List.finRange 17).filter (· != f)).map fun g => ((s.ctxs[g]).part).pins[d]).sum) : execAssign n s = .next (s.setAstat 2) := by
  rw [execAssign_eq s index, if_neg fun e => (occupied_iff _).mp e vacant, if_neg fits, if_neg fun e => apart ((any_others_overlap ..).mp e),
    if_pos ((any_pins_exceed ..).mpr h)]

/-- A record that passes every check goes to an enabled function only (R119). -/
theorem execAssign_good (h : ¬∃ d : Fin 8, 16384 < (parsePartition s.records[f]).pins[d] +
    (((List.finRange 17).filter (· != f)).map fun g => ((s.ctxs[g]).part).pins[d]).sum) :
    execAssign n s = if !s.functionOn f then .next ({ s with free := s.free + 1 }.setAstat (Config.astat s.free))
      else .next ((s.setPartition f (parsePartition s.records[f]) .closed).setAstat 0) := by
  rw [execAssign_eq s index, if_neg fun e => (occupied_iff _).mp e vacant, if_neg fits, if_neg fun e => apart ((any_others_overlap ..).mp e),
    if_neg fun e => h ((any_pins_exceed ..).mp e)]

end

/-- WITHDRAW takes the partition of a context that ASSIGN could give one (R456). -/
theorem execWithdraw_vacant {n : BitVec 5} {f : Fin 17} (s : State) (h : n.toNat = f.val) (vacant : (s.ctxs[f]).st = .closed ∨ (s.ctxs[f]).st = .free) :
    execWithdraw n s = .next ((s.setPartition f Partition.empty .free).setAstat 0) := by
  obtain rfl : fin 17 n.toNat = f := fin_eq_of_val h
  unfold execWithdraw
  rw [if_neg (by omega)]
  rcases vacant with e | e <;> simp only [e]

theorem execWithdraw_occupied {n : BitVec 5} {f : Fin 17} (s : State) (h : n.toNat = f.val) (occupied : ¬((s.ctxs[f]).st = .closed ∨ (s.ctxs[f]).st = .free)) :
    execWithdraw n s = .next (s.setAstat 3) := by
  obtain rfl : fin 17 n.toNat = f := fin_eq_of_val h
  unfold execWithdraw
  rw [if_neg (by omega)]
  dsimp only
  split
  case h_1 e => exact absurd (.inl e) occupied
  case h_2 e => exact absurd (.inr e) occupied
  case h_3 => rfl

/-! ### HCLR -/

/-- A core whose HEALTH HCLR clears, after an arbitration in progress (R456). -/
def Core.healthCleared (k : Core) : Core :=
  if k.mender.isSome then { k with health := { k.health with clear := true } } else { k with health := Health.cleared }

theorem execHclr_dword {i : Fin 4} (w : Word) (s : State) (h : i ≠ 3) : execHclr i w s = .next { s with hclr := putDword s.hclr i.val w } := by
  have : i.val ≠ 3 := fun e => h (Fin.ext e)
  simp [execHclr, putDword, this]

theorem execHclr_last (w : Word) (s : State) : execHclr 3 w s = .next { s with
    hclr := putDword s.hclr 3 w
    cores := Vector.ofFn fun c => if (putDword s.hclr 3 w).getLsbD c.val = false then s.core c else (s.core c).healthCleared } := by
  refine congrArg (fun k => Host.Outcome.next { s with hclr := putDword s.hclr 3 w, cores := k }) (congrArg Vector.ofFn (funext fun c => ?_))
  show (if (!(putDword s.hclr 3 w).getLsbD c.val) = true then s.core c else (s.core c).healthCleared) = _
  cases (putDword s.hclr 3 w).getLsbD c.val <;> rfl

/-! ### Commands of a function that is not enabled -/

theorem reaching_of_off {s : State} {f : Fin 17} (run : State → State) (h : s.functionOn f = false) : s.reaching f run = .next s := by
  simp [State.reaching, h]

theorem command_of_off {s : State} {f : Fin 17} (run : State → State) (h : s.functionOn f = false) : s.command f run = .next s :=
  reaching_of_off _ h

theorem queueCmd_of_off {s : State} {f : Fin 17} (q : Fin 64) (may : QueueSt → Bool) (run : State → State) (h : s.functionOn f = false) :
    s.queueCmd f q may run = .next s := command_of_off _ h

theorem reaching_of_on {s : State} {f : Fin 17} (run : State → State) (h : s.functionOn f = true) : s.reaching f run = .next (run s) := by
  simp [State.reaching, h]

theorem execRegisterWrite_of_off {s : State} {f : Fin 17} (off : Nat) (v : Word) (h : s.functionOn f = false) :
    execRegisterWrite f off v s = .next s := by
  simp [execRegisterWrite, h]

/-- A register write that passes on to a command does what the command does, for neither reaches a function that is not enabled. -/
theorem execRegisterWrite_eq_of_on {s : State} {f : Fin 17} {off : Nat} {v : Word} {r : Res} (on : s.functionOn f = true → execRegisterWrite f off v s = r)
    (other : s.functionOn f = false → r = .next s) : execRegisterWrite f off v s = r := by
  cases h : s.functionOn f
  · rw [execRegisterWrite_of_off off v h, other h]
  · exact on h

/-! ### Register writes that are commands (R453) -/

section
variable (s : State) (f : Fin 17) (v : Word)

theorem execRegisterWrite_openCtx (h : bits v.toNat 0 2 = 1) : execRegisterWrite f 0x008 v s = execOpenCtx f s := by
  refine execRegisterWrite_eq_of_on (fun on => ?_) (fun off => command_of_off _ off)
  simp [execRegisterWrite, on, h]

theorem execRegisterWrite_closeCtx (h : bits v.toNat 0 2 = 2) : execRegisterWrite f 0x008 v s = execCloseCtx f s := by
  refine execRegisterWrite_eq_of_on (fun on => ?_) (fun off => command_of_off _ off)
  simp [execRegisterWrite, on, h]

theorem execRegisterWrite_queueStart (h : bits v.toNat 8 2 = 1) : execRegisterWrite f 0x020 v s = execQueueStart f (fin 64 (bits v.toNat 0 6)) s := by
  refine execRegisterWrite_eq_of_on (fun on => ?_) (fun off => queueCmd_of_off _ _ _ off)
  simp [execRegisterWrite, on, h]

theorem execRegisterWrite_queueStop (h : bits v.toNat 8 2 = 2) : execRegisterWrite f 0x020 v s = execQueueStop f (fin 64 (bits v.toNat 0 6)) s := by
  refine execRegisterWrite_eq_of_on (fun on => ?_) (fun off => queueCmd_of_off _ _ _ off)
  simp [execRegisterWrite, on, h]

theorem execRegisterWrite_queueReset (h : bits v.toNat 8 2 = 3) : execRegisterWrite f 0x020 v s = execQueueReset f (fin 64 (bits v.toNat 0 6)) s := by
  refine execRegisterWrite_eq_of_on (fun on => ?_) (fun off => queueCmd_of_off _ _ _ off)
  simp [execRegisterWrite, on, h]

theorem execRegisterWrite_inval : execRegisterWrite f 0x028 v s = execInval f (v.extractLsb' 16 32) (v.extractLsb' 0 16) s := by
  refine execRegisterWrite_eq_of_on (fun on => ?_) (fun off => command_of_off _ off)
  simp [execRegisterWrite, on]

theorem execRegisterWrite_rbreq : execRegisterWrite f 0x048 1 s = execRbreq f s := by
  refine execRegisterWrite_eq_of_on (fun on => ?_) (fun off => command_of_off _ off)
  simp [execRegisterWrite, on]

theorem execRegisterWrite_stepMode (h : v.toNat < 2 ^ 17) :
    execRegisterWrite f 0x050 v s = execStepMode f (v.extractLsb' 0 16) (bits v.toNat 16 1 == 1) s := by
  refine execRegisterWrite_eq_of_on (fun on => ?_) (fun off => reaching_of_off _ off)
  rw [execStepMode, reaching_of_on _ on, ofNat_stepCtl_fields h]
  simp [execRegisterWrite, on]

end

/-! ### Register writes to a function's own registers (R453) -/

theorem whileClosed_of_closed {s : State} {f : Fin 17} (g : Ctx → Ctx) (h : (s.ctxs[f]).st = .closed) : s.whileClosed f g = s.onCtx f g :=
  if_pos (by rw [h]; rfl)

theorem whileClosed_of_other {s : State} {f : Fin 17} (g : Ctx → Ctx) (h : (s.ctxs[f]).st ≠ .closed) : s.whileClosed f g = s.setErr f 3 :=
  if_neg (by simpa using h)

section
variable {s : State} {f : Fin 17} (v : Word) (on : s.functionOn f = true)
include on

theorem execRegisterWrite_root : execRegisterWrite f 0x010 v s = .next (s.whileClosed f fun c => { c with root := v }) := by
  simp [execRegisterWrite, on]

theorem execRegisterWrite_hva : execRegisterWrite f 0x018 v s = .next (s.whileClosed f fun c => { c with hva := v }) := by
  simp [execRegisterWrite, on]

theorem execRegisterWrite_evBase : execRegisterWrite f 0x030 v s = .next (s.onCtx f fun c => { c with evBase := v &&& ~~~0x1F }) := by
  simp [execRegisterWrite, on]

theorem execRegisterWrite_evCtl : execRegisterWrite f 0x038 v s = .next (s.onCtx f fun c => { c with evCtl := evCtlWrite c.evCtl v }) := by
  simp [execRegisterWrite, on]

end

/-! ### Register writes past the context page (R456) -/

/-- What a write past the context page does to an enabled function: PF0's management registers (R456). -/
def State.writeManagement (s : State) (f : Fin 17) (off : Nat) (v : Word) : Res :=
  if f ≠ 0 then .next s
  else if 0x10000 ≤ off ∧ off < 0x10000 + 64 * 17 ∧ off % 8 = 0 then
    .next { s with records := upd s.records (fin 17 ((off - 0x10000) / 64)) fun r => putDword r ((off - 0x10000) % 64 / 8) v }
  else if off = 0x10800 then
    if bits v.toNat 8 1 = 1 then execAssign (v.extractLsb' 0 5) s else execWithdraw (v.extractLsb' 0 5) s
  else if off = 0x10810 then .next { s with cohBase := v &&& 0xFFFFFFF000000001 }
  else if 0x10820 ≤ off ∧ off < 0x10840 ∧ off % 8 = 0 then execHclr (fin 4 ((off - 0x10820) / 8)) v s
  else if 0x11000 ≤ off ∧ off < 0x11000 + 128 * 17 ∧ off % 8 = 0 then
    .next (s.onCtx (fin 17 ((off - 0x11000) / 128)) fun c => { c with peers := putDword c.peers ((off - 0x11000) % 128 / 8) v })
  else .next s

theorem execRegisterWrite_management {s : State} {f : Fin 17} {off : Nat} (v : Word) (on : s.functionOn f = true) (h : 0x058 ≤ off) :
    execRegisterWrite f off v s = s.writeManagement f off v := by
  unfold execRegisterWrite
  simp only [on, Bool.not_true, Bool.false_eq_true, if_false]
  split
  case h_10 => rfl
  all_goals omega

theorem execRegisterWrite_pf0 (s : State) (off : Nat) (v : Word) (h : 0x058 ≤ off) : execRegisterWrite 0 off v s = s.writeManagement 0 off v :=
  execRegisterWrite_management v rfl h

/-- A dword of a partition record (R457). -/
theorem writeManagement_record (s : State) (g : Fin 17) (i : Fin 8) (v : Word) :
    s.writeManagement 0 (0x10000 + 64 * g.val + 8 * i.val) v = .next { s with records := upd s.records g fun _ => putDword s.records[g] i.val v } := by
  have hg : fin 17 ((0x10000 + 64 * g.val + 8 * i.val - 0x10000) / 64) = g := fin_eq_of_val (by omega)
  have hi : (0x10000 + 64 * g.val + 8 * i.val - 0x10000) % 64 / 8 = i.val := by omega
  rw [State.writeManagement, if_neg (by simp), if_pos (by omega), hg, hi]
  rfl

theorem writeManagement_assign (s : State) {v : Word} (h : bits v.toNat 8 1 = 1) : s.writeManagement 0 0x10800 v = execAssign (v.extractLsb' 0 5) s := by
  simp [State.writeManagement, h]

theorem writeManagement_withdraw (s : State) {v : Word} (h : bits v.toNat 8 1 = 0) :
    s.writeManagement 0 0x10800 v = execWithdraw (v.extractLsb' 0 5) s := by
  simp [State.writeManagement, h]

theorem writeManagement_cohBase (s : State) (v : Word) :
    s.writeManagement 0 0x10810 v = .next { s with cohBase := v &&& 0xFFFFFFF000000001 } := rfl

/-- HCLR's dwords. -/
theorem writeManagement_hclr (s : State) (i : Fin 4) (v : Word) : s.writeManagement 0 (0x10820 + 8 * i.val) v = execHclr i v s := by
  have hi : fin 4 ((0x10820 + 8 * i.val - 0x10820) / 8) = i := fin_eq_of_val (by omega)
  rw [State.writeManagement, if_neg (by simp), if_neg (by omega), if_neg (by omega), if_neg (by omega), if_pos (by omega), hi]

/-! ### Register reads (R453, R456) -/

theorem readReg_peers (s : State) (f : Fin 17) (i : Fin 16) :
    s.readReg f (0x100 + 8 * i.val) = (s.ctxs[f]).peers.extractLsb' (64 * i.val) 64 := by
  unfold State.readReg
  split
  case h_8 =>
    rw [if_pos (by omega), show (0x100 + 8 * i.val - 0x100) / 8 = i.val by omega]
    rfl
  all_goals omega

/-- CTXCMD, QCMD, INVAL and RBREQ are write-only. -/
theorem readReg_writeOnly (s : State) (f : Fin 17) {o : Nat} (h : o = 0x008 ∨ o = 0x020 ∨ o = 0x028 ∨ o = 0x048) : s.readReg f o = 0 := by
  rcases h with rfl | rfl | rfl | rfl <;> simp [State.readReg]

/-- HCLR is write-only. -/
theorem readReg_hclr (s : State) (i : Fin 4) : s.readReg 0 (0x10820 + 8 * i.val) = 0 := by
  unfold State.readReg
  split
  case h_8 =>
    rw [if_neg (by omega), if_neg (by decide), if_neg (by omega), if_neg (by omega), if_neg (by omega), if_neg (by omega), if_neg (by omega),
      if_neg (by omega)]
  all_goals omega

/-! ### Device memory and windows -/

/-- A read of memory that has no wrong bits changes nothing. -/
theorem scan_of_clean {s : State} (a n : Nat) (hbm : s.hbm = []) : (s.scan [(a, n)]).1 = s := by
  have fetch : (s.checkRead a n).fetch = [] := by simp [State.checkRead, hbm]
  have lost : (s.checkRead a n).lost = [] := by simp [State.checkRead, hbm]
  simp [State.scan, fetch, lost, State.lose]

theorem windowByte_iff (s : State) (f : Fin 17) (a : Nat) :
    s.windowByte f a = true ↔ s.functionOn f = true ∧ a < 0x200000 ∧ (s.queues[fin 64 (a / 0x8000)]).ctx = some f := by
  simp [State.windowByte, and_assoc]

/-- A byte of a window read: what stands there where the byte is the function's, and else 0. -/
theorem getElem?_windowRead (s : State) (f : Fin 17) (off : Nat) {m i : Nat} (h : i < m) :
    ((List.range m).map fun i => if s.windowByte f (off + i) then s.windows.read1 (off + i) else 0)[i]? =
      some (if s.windowByte f (off + i) then s.windows.read1 (off + i) else 0) := by
  simp [h]

/-- Memory after those bytes of a run that p admits have been written one by one. -/
theorem Mem.read1_writeCells_run (p : Nat → Bool) (bs : List Byte) (off k a : Nat) (m : Mem) :
    (m.writeCells (((bs.zipIdx k).filter fun b => p (off + b.2)).map fun b => (off + b.2, b.1))).read1 a =
      if p a = true ∧ off + k ≤ a ∧ a < off + k + bs.length then bs.getD (a - (off + k)) 0 else m.read1 a := by
  induction bs generalizing k m with
  | nil => exact (if_neg fun h => by obtain ⟨-, lo, hi⟩ := h; simp only [List.length_nil] at hi; omega).symm
  | cons b bs ih =>
    have tail (e : a ≠ off + k) :
        (if p a = true ∧ off + (k + 1) ≤ a ∧ a < off + (k + 1) + bs.length then bs.getD (a - (off + (k + 1))) 0 else m.read1 a) =
          if p a = true ∧ off + k ≤ a ∧ a < off + k + (bs.length + 1) then (b :: bs).getD (a - (off + k)) 0 else m.read1 a := by
      by_cases hin : p a = true ∧ off + (k + 1) ≤ a ∧ a < off + (k + 1) + bs.length
      · obtain ⟨hp, lo, hi⟩ := hin
        rw [if_pos ⟨hp, lo, hi⟩, if_pos ⟨hp, by omega, by omega⟩, show a - (off + k) = a - (off + (k + 1)) + 1 by omega, List.getD_cons_succ]
      · rw [if_neg hin, if_neg fun h => hin ⟨h.1, by omega, by omega⟩]
    rw [List.zipIdx_cons, List.filter_cons, List.length_cons]
    by_cases hp : p (off + k) = true
    · rw [if_pos hp, List.map_cons]
      refine (ih (k + 1) (m.writeNat (off + k) 1 b.toNat)).trans ?_
      rw [Mem.read1_writeNat]
      by_cases e : a = off + k
      · subst e
        rw [if_neg (by omega), if_pos (by omega), if_pos ⟨hp, by omega, by omega⟩, Nat.sub_self, Nat.pow_zero, Nat.div_one, BitVec.ofNat_toNat,
          BitVec.setWidth_eq, List.getD_cons_zero]
      · rw [if_neg (by omega : ¬(off + k ≤ a ∧ a < off + k + 1)), tail e]
    · rw [if_neg hp, ih]
      by_cases e : a = off + k
      · subst e
        rw [if_neg fun h => hp h.1, if_neg fun h => hp h.1]
      · exact tail e

/-! ### Host accesses (R388, R452, R458) -/

theorem execHostMemoryAccess_register_off {s : State} {f : Fin 17} (off : Nat) (h : s.functionOn f = false) :
    execHostMemoryAccess (.readRegister f off) s = .next { s with resp := s.resp ++ [.aborted] } := by
  simp [execHostMemoryAccess, h]

theorem execHostMemoryAccess_register {s : State} {f : Fin 17} (off : Nat) (h : s.functionOn f = true) :
    execHostMemoryAccess (.readRegister f off) s = .next { s with resp := s.resp ++ [.register (s.readReg f off)] } := by
  simp [execHostMemoryAccess, h]

theorem execHostMemoryAccess_read {s : State} {a m : Nat} (hbm : s.hbm = []) (poison : s.poison = []) (fits : a + m ≤ devSize) :
    execHostMemoryAccess (.read a m) s = .next { s with resp := s.resp ++ [.data (s.dev.readBytes a m) false] } := by
  simp [execHostMemoryAccess, Nat.not_lt.mpr fits, scan_of_clean a m hbm, poison]

theorem execHostMemoryAccess_read_past {s : State} {a m : Nat} (past : devSize < a + m) :
    execHostMemoryAccess (.read a m) s = .next { s with resp := s.resp ++ [.aborted] } := by
  simp [execHostMemoryAccess, past]

theorem execHostMemoryAccess_write {s : State} {a : Nat} {bs : List Byte} (fits : a + bs.length ≤ devSize) :
    execHostMemoryAccess (.write a bs) s = .next (s.devStore a bs) := by
  simp [execHostMemoryAccess, Nat.not_lt.mpr fits]

end Sys2Proof.Machine

namespace Sys2Proof.Proofs
open Sys2Proof.Machine Sys2Proof.Claims

/-- Settles O52, clause by clause from the rule of each register and access; a write to the context page of a function that is not enabled
agrees with its command because both then change nothing. -/
theorem partitionsAndHost : Obligations.PartitionsAndHost := by
  unfold Obligations.PartitionsAndHost
  intro s n f v off stat p k sits others large laps pins page dword
  refine ⟨?_, ?_, ?_, ?_, ?_, ?_, ?_, ?_, ?_, ?_, ?_, ?_, ?_, ?_, ?_, ?_, ?_, ?_, ?_, ?_, ?_, ?_, ?_⟩
  -- ASSIGN and WITHDRAW (R118, R142, R456)
  · exact fun h => ⟨execAssign_no_context s h, execWithdraw_no_context s h⟩
  · intro hn
    refine ⟨fun h => ⟨execAssign_occupied s hn h, execWithdraw_occupied s hn h⟩, execAssign_nearTooLarge s hn, execAssign_overlapping s hn,
      execAssign_pinsExceeded s hn, fun h hl ho hp off => ?_, fun h hl ho hp on => ?_, fun h => ?_⟩
    · exact ⟨_, (execAssign_good s hn h hl ho hp).trans (if_pos (by rw [off]; rfl))⟩
    · refine ⟨_, (execAssign_good s hn h hl ho hp).trans (if_neg (by rw [on]; decide)), rfl, rfl, rfl, fun q => ⟨?_, ?_, ?_⟩⟩
      · exact queue_setPartition_of_mem s f p .closed
      · exact queue_setPartition_of_leaving s f .closed
      · exact queue_setPartition_of_other s f .closed
    · exact ⟨_, execWithdraw_vacant s hn h, rfl, rfl, rfl, fun q => queue_setPartition_of_leaving s f .free BitVec.getLsbD_zero⟩
  -- HCLR (R325)
  · intro i
    refine ⟨putDword s.hclr i.val v, fun b hb => getLsbD_putDword _ _ _ hb, execHclr_dword v s, ?_⟩
    rintro rfl
    exact ⟨_, execHclr_last v s, rfl, fun c => Vector.getElem_ofFn _⟩
  -- writes to the context page (R453)
  · rintro h rfl; exact execRegisterWrite_openCtx s f v h
  · rintro h rfl; exact execRegisterWrite_closeCtx s f v h
  · rintro h rfl; exact execRegisterWrite_queueStart s f v h
  · rintro h rfl; exact execRegisterWrite_queueStop s f v h
  · rintro h rfl; exact execRegisterWrite_queueReset s f v h
  · rintro rfl; exact execRegisterWrite_inval s f v
  · rintro rfl rfl; exact execRegisterWrite_rbreq s f
  · rintro h rfl; exact execRegisterWrite_stepMode s f v h
  · exact execRegisterWrite_of_off off v
  · rintro _ (rfl | rfl) rfl on hk
    · exact (execRegisterWrite_root v on).trans (congrArg _ (whileClosed_of_other _ hk))
    · exact (execRegisterWrite_hva v on).trans (congrArg _ (whileClosed_of_other _ hk))
  · refine fun hk on => ⟨?_, ?_⟩ <;> rintro rfl
    · exact (execRegisterWrite_root v on).trans (congrArg _ (whileClosed_of_closed _ hk))
    · exact (execRegisterWrite_hva v on).trans (congrArg _ (whileClosed_of_closed _ hk))
  · rintro rfl on
    exact ⟨_, toNat_and_not_31 v, execRegisterWrite_evBase v on⟩
  · rintro rfl on
    obtain ⟨produce, size⟩ := bits_evCtlWrite k.evCtl v
    exact ⟨_, produce, size, execRegisterWrite_evCtl v on⟩
  -- writes to the management region (R456)
  · intro hf ho
    cases on : s.functionOn f
    · exact execRegisterWrite_of_off off v on
    · exact (execRegisterWrite_management v on ho).trans (if_pos hf)
  · rintro rfl
    refine ⟨?_, ?_, ?_, ?_, ?_⟩
    · rintro g i rfl
      exact ⟨_, (execRegisterWrite_pf0 s _ v (by omega)).trans (writeManagement_record s g i v), fun y => extractLsb'_putDword _ i y v⟩
    · rintro rfl h
      exact (execRegisterWrite_pf0 s 0x10800 v (by decide)).trans (writeManagement_assign s h)
    · rintro rfl h
      exact (execRegisterWrite_pf0 s 0x10800 v (by decide)).trans (writeManagement_withdraw s h)
    · rintro rfl
      exact ⟨v &&& 0xFFFFFFF000000001, bits_and_of_set v _ (by decide), bits_and_of_set v _ (by decide), bits_and_of_clear v _ (by decide),
        (execRegisterWrite_pf0 s 0x10810 v (by decide)).trans (writeManagement_cohBase s v)⟩
    · rintro i rfl
      exact (execRegisterWrite_pf0 s _ v (by omega)).trans (writeManagement_hclr s i v)
  -- device memory (R388), register reads, windows (R452)
  · exact fun m hbm poison fits => execHostMemoryAccess_read hbm poison fits
  · exact fun m past => execHostMemoryAccess_read_past past
  · intro bs fits
    exact ⟨_, execHostMemoryAccess_write fits, rfl, rfl, fun a => Mem.read1_writeBytes s.dev off bs a⟩
  · refine ⟨execHostMemoryAccess_register_off off, fun on => ?_⟩
    have reads (o : Nat) : exec (.hostMemoryAccess (.readRegister f o)) s = .next { s with resp := s.resp ++ [.register (s.readReg f o)] } :=
      execHostMemoryAccess_register o on
    refine ⟨reads 0x000, reads 0x010, reads 0x018, reads 0x030, reads 0x038, reads 0x040, reads 0x050, ?_, ?_, ?_⟩
    · exact fun o h => readReg_writeOnly s f h ▸ reads o
    · exact fun i => readReg_peers s f i ▸ reads _
    · rintro rfl
      exact ⟨reads 0x10808, reads 0x10810, reads 0x10880, reads 0x10800, fun i => readReg_hclr s i ▸ reads _⟩
  · have open_ {a : Nat} := windowByte_iff s f a
    refine ⟨fun m => ⟨_, rfl, by simp, fun i hi => ?_⟩, fun bs => ⟨_, rfl, rfl, rfl, fun a => ?_⟩⟩
    · have byte := getElem?_windowRead s f off hi
      exact ⟨fun h => byte.trans (congrArg some (if_pos (open_.mpr h))), fun h => byte.trans (congrArg some (if_neg fun e => h (open_.mp e)))⟩
    · have byte := Mem.read1_writeCells_run (s.windowByte f) bs off 0 a s.windows
      exact ⟨fun ⟨h, lo, hi⟩ => byte.trans (if_pos ⟨open_.mpr h, lo, hi⟩), fun h => byte.trans (if_neg fun ⟨e, lo, hi⟩ => h ⟨open_.mp e, lo, hi⟩)⟩

end Sys2Proof.Proofs
